-- ==== Sys2Proof/Word.lean ====
section
/-! DEFINITION. The word types of the machine (00_scope.md R5, R9): a word is 32 bits, a halfword 16, a byte 8. -/

namespace Sys2Proof

/-- A 32-bit word: a general register, a status register, an address (00_scope.md R5, R9). -/
abbrev Word := BitVec 32

/-- A 16-bit halfword: a Thumb instruction (00_scope.md R9). -/
abbrev Half := BitVec 16

/-- An 8-bit byte, the unit of memory (00_scope.md R9). -/
abbrev Byte := BitVec 8

end Sys2Proof
end

