-- ==== Sys2Proof/Syntax.lean ====
section
/-! DEFINITION. The instructions: one constructor of Instr per row of spec/opcode_table.json (53 ARM, 63 Thumb), and the
operand forms. Bits of a word that the core ignores (30_encoding.md R101) are kept as operands, so that a word and its
instruction determine each other. -/

namespace Sys2Proof

/-- A 4-bit register field: R0 to R15 (10_state.md R20). -/
abbrev Reg := BitVec 4

/-- A 3-bit Thumb register field: R0 to R7 (10_state.md R21). -/
abbrev LowReg := BitVec 3

/-- The sixteen conditions (40_cycle_pipeline_conditions.md R160). -/
inductive Cond where
  | eq | ne | cs | cc | mi | pl | vs | vc | hi | ls | ge | lt | gt | le | al | nv
  deriving DecidableEq, Repr

/-- The shift types (30_encoding.md R106). -/
inductive ShiftType where
  | lsl | lsr | asr | ror
  deriving DecidableEq, Repr

/-- The sixteen data-processing operations, in the order that is their number (30_encoding.md R105). -/
inductive DpOp where
  | and | eor | sub | rsb | add | adc | sbc | rsc | tst | teq | cmp | cmn | orr | mov | bic | mvn
  deriving DecidableEq, Repr

/-- Operand 2 of data processing (41_shifter.md R180, data-transfer mode off). -/
inductive Operand2 where
  /-- Rotated 8-bit immediate (R181). -/
  | imm (rot : BitVec 4) (imm8 : BitVec 8)
  /-- Register shifted by a 5-bit immediate (R183). -/
  | immShift (type : ShiftType) (amt : BitVec 5) (rm : Reg)
  /-- Register shifted by a register (R184). -/
  | regShift (type : ShiftType) (rs rm : Reg)
  deriving DecidableEq, Repr

/-- Offset of an ARM single data transfer (41_shifter.md R180, data-transfer mode on). -/
inductive Offset where
  /-- 12-bit unsigned immediate (R185). -/
  | imm (imm12 : BitVec 12)
  /-- Register shifted by a 5-bit immediate (R183). -/
  | shifted (type : ShiftType) (amt : BitVec 5) (rm : Reg)
  deriving DecidableEq, Repr

/-- Offset of an ARM halfword or signed transfer (44_arm_load_store.md R260). -/
inductive HalfOffset where
  /-- The two nibbles op[11:8], op[3:0] as one 8-bit offset. -/
  | imm (imm8 : BitVec 8)
  /-- An unshifted register; `ign` is op[11:8], which the core ignores. -/
  | reg (ign : BitVec 4) (rm : Reg)
  deriving DecidableEq, Repr

/-- The P, U and W bits of a transfer: pre-index, up, write-back (44_arm_load_store.md R260, 45_arm_block_transfer.md
R300). -/
structure Indexing where
  p : Bool
  u : Bool
  w : Bool
  deriving DecidableEq, Repr

/-- One constructor per row of spec/opcode_table.json. Operands named `ign…` are bits the core ignores. -/
inductive Instr where
  -- ARM data processing (42_arm_data_processing.md)
  | and (cond : Cond) (s : Bool) (rn rd : Reg) (op2 : Operand2)
  | eor (cond : Cond) (s : Bool) (rn rd : Reg) (op2 : Operand2)
  | sub (cond : Cond) (s : Bool) (rn rd : Reg) (op2 : Operand2)
  | rsb (cond : Cond) (s : Bool) (rn rd : Reg) (op2 : Operand2)
  | add (cond : Cond) (s : Bool) (rn rd : Reg) (op2 : Operand2)
  | adc (cond : Cond) (s : Bool) (rn rd : Reg) (op2 : Operand2)
  | sbc (cond : Cond) (s : Bool) (rn rd : Reg) (op2 : Operand2)
  | rsc (cond : Cond) (s : Bool) (rn rd : Reg) (op2 : Operand2)
  | tst (cond : Cond) (rn rd : Reg) (op2 : Operand2)
  | teq (cond : Cond) (rn rd : Reg) (op2 : Operand2)
  | cmp (cond : Cond) (rn rd : Reg) (op2 : Operand2)
  | cmn (cond : Cond) (rn rd : Reg) (op2 : Operand2)
  | orr (cond : Cond) (s : Bool) (rn rd : Reg) (op2 : Operand2)
  | mov (cond : Cond) (s : Bool) (rn rd : Reg) (op2 : Operand2)
  | bic (cond : Cond) (s : Bool) (rn rd : Reg) (op2 : Operand2)
  | mvn (cond : Cond) (s : Bool) (rn rd : Reg) (op2 : Operand2)
  /-- TST/TEQ/CMP/CMN with S == 0 (irregular); `opc` is op[22:21] (30_encoding.md R113). -/
  | testNoS (cond : Cond) (opc : BitVec 2) (rn rd : Reg) (op2 : Operand2)
  -- ARM multiply (43_arm_multiply.md)
  | mul (cond : Cond) (s : Bool) (rd ignRn rs rm : Reg)
  | mla (cond : Cond) (s : Bool) (rd rn rs rm : Reg)
  | umull (cond : Cond) (s : Bool) (rdHi rdLo rs rm : Reg)
  | umlal (cond : Cond) (s : Bool) (rdHi rdLo rs rm : Reg)
  | smull (cond : Cond) (s : Bool) (rdHi rdLo rs rm : Reg)
  | smlal (cond : Cond) (s : Bool) (rdHi rdLo rs rm : Reg)
  -- ARM status-register access (46_arm_branch_psr_system.md)
  /-- `spsr` is P = op[22]; the ignored fields are op[19:16], op[11:8], op[3:0]. -/
  | mrs (cond : Cond) (spsr : Bool) (rd : Reg) (ign19 ign11 ign3 : BitVec 4)
  /-- `mask` is f:s:x:c = op[19:16]; `ign` is op[15:8]. -/
  | msrReg (cond : Cond) (spsr : Bool) (mask : BitVec 4) (rm : Reg) (ign : BitVec 8)
  /-- `ign` is op[15:12]. -/
  | msrImm (cond : Cond) (spsr : Bool) (mask : BitVec 4) (rot : BitVec 4) (imm8 : BitVec 8) (ign : BitVec 4)
  -- ARM swap and branch-and-exchange
  | swp (cond : Cond) (rn rd rm : Reg) (ign : BitVec 4)
  | swpb (cond : Cond) (rn rd rm : Reg) (ign : BitVec 4)
  /-- `ign` is op[19:8]. -/
  | bx (cond : Cond) (rm : Reg) (ign : BitVec 12)
  -- ARM halfword and signed transfer (44_arm_load_store.md)
  | strh (cond : Cond) (ix : Indexing) (rn rd : Reg) (off : HalfOffset)
  | ldrh (cond : Cond) (ix : Indexing) (rn rd : Reg) (off : HalfOffset)
  | ldrsb (cond : Cond) (ix : Indexing) (rn rd : Reg) (off : HalfOffset)
  | ldrsh (cond : Cond) (ix : Indexing) (rn rd : Reg) (off : HalfOffset)
  -- ARM single data transfer
  | ldr (cond : Cond) (ix : Indexing) (rn rd : Reg) (off : Offset)
  | str (cond : Cond) (ix : Indexing) (rn rd : Reg) (off : Offset)
  | ldrb (cond : Cond) (ix : Indexing) (rn rd : Reg) (off : Offset)
  | strb (cond : Cond) (ix : Indexing) (rn rd : Reg) (off : Offset)
  -- ARM block data transfer (45_arm_block_transfer.md); `s` is the S bit op[22]
  | ldm (cond : Cond) (ix : Indexing) (s : Bool) (rn : Reg) (list : BitVec 16)
  | stm (cond : Cond) (ix : Indexing) (s : Bool) (rn : Reg) (list : BitVec 16)
  -- ARM branch (46_arm_branch_psr_system.md)
  | b (cond : Cond) (offset24 : BitVec 24)
  | bl (cond : Cond) (offset24 : BitVec 24)
  -- ARM coprocessor space
  /-- The ignored fields are op[24:21] and op[19:0]. -/
  | stc (cond : Cond) (ign24 : BitVec 4) (ign19 : BitVec 20)
  | ldc (cond : Cond) (ign24 : BitVec 4) (ign19 : BitVec 20)
  /-- The ignored fields are op[23:5] and op[3:0]. -/
  | cdp (cond : Cond) (ign23 : BitVec 19) (ign3 : BitVec 4)
  /-- The ignored fields are op[23:21], op[19:16], op[7:5], op[3:0]; Rd is neither read nor written. -/
  | mcr (cond : Cond) (rd cp : BitVec 4) (ign23 : BitVec 3) (ign19 : BitVec 4) (ign7 : BitVec 3) (ign3 : BitVec 4)
  | mrc (cond : Cond) (rd cp : BitVec 4) (ign23 : BitVec 3) (ign19 : BitVec 4) (ign7 : BitVec 3) (ign3 : BitVec 4)
  -- ARM software interrupt, undefined patterns, unknown spaces
  | swi (cond : Cond) (comment : BitVec 24)
  /-- The ignored fields are op[22] and op[19:0]. -/
  | undefinedU1 (cond : Cond) (ign22 : Bool) (ign19 : BitVec 20)
  /-- The ignored fields are op[24:5] and op[3:0]. -/
  | undefinedU2 (cond : Cond) (ign24 : BitVec 20) (ign3 : BitVec 4)
  /-- The ignored fields are op[19:8] and op[3:0]. -/
  | undefinedU3 (cond : Cond) (ign19 : BitVec 12) (ign3 : BitVec 4)
  /-- The ignored fields are op[22:21], op[19:8], op[5], op[3:0]. -/
  | undefinedU4 (cond : Cond) (ign22 : BitVec 2) (ign19 : BitVec 12) (ign5 : Bool) (ign3 : BitVec 4)
  /-- Multiply/swap space without a handler; `sel` is op[24:20] (30_encoding.md R112). -/
  | unknownMulSwap (cond : Cond) (sel : BitVec 5) (ign19 : BitVec 12) (ign3 : BitVec 4)
  /-- Halfword class with L == 0 and S == 1; the fields are op[24:21], op[19:8], op[5], op[3:0]. -/
  | unknownHalf (cond : Cond) (ign24 : BitVec 4) (ign19 : BitVec 12) (ign5 : Bool) (ign3 : BitVec 4)
  -- Thumb format 1 (47_thumb_alu.md)
  | tLslImm (rd rs : LowReg) (amt : BitVec 5)
  | tLsrImm (rd rs : LowReg) (amt : BitVec 5)
  | tAsrImm (rd rs : LowReg) (amt : BitVec 5)
  -- Thumb format 2
  | tAddReg (rd rs rn : LowReg)
  | tSubReg (rd rs rn : LowReg)
  | tAddImm3 (rd rs : LowReg) (imm3 : BitVec 3)
  | tSubImm3 (rd rs : LowReg) (imm3 : BitVec 3)
  -- Thumb format 3
  | tMovImm (rd : LowReg) (imm8 : BitVec 8)
  | tCmpImm (rd : LowReg) (imm8 : BitVec 8)
  | tAddImm8 (rd : LowReg) (imm8 : BitVec 8)
  | tSubImm8 (rd : LowReg) (imm8 : BitVec 8)
  -- Thumb format 4
  | tAnd (rd rs : LowReg)
  | tEor (rd rs : LowReg)
  | tLslReg (rd rs : LowReg)
  | tLsrReg (rd rs : LowReg)
  | tAsrReg (rd rs : LowReg)
  | tAdc (rd rs : LowReg)
  | tSbc (rd rs : LowReg)
  | tRorReg (rd rs : LowReg)
  | tTst (rd rs : LowReg)
  | tNeg (rd rs : LowReg)
  | tCmpReg (rd rs : LowReg)
  | tCmn (rd rs : LowReg)
  | tOrr (rd rs : LowReg)
  | tMul (rd rs : LowReg)
  | tBic (rd rs : LowReg)
  | tMvn (rd rs : LowReg)
  -- Thumb format 5; the registers are H1:op[2:0] and H2:op[5:3]
  | tAddHi (rd rs : Reg)
  | tCmpHi (rd rs : Reg)
  | tMovHi (rd rs : Reg)
  /-- The ignored fields are H1 = op[7] and op[2:0]. -/
  | tBx (rs : Reg) (ignH1 : Bool) (ign2 : BitVec 3)
  -- Thumb formats 6 to 11 (48_thumb_memory_branch.md)
  | tLdrPc (rd : LowReg) (imm8 : BitVec 8)
  | tStrReg (rd rb ro : LowReg)
  | tStrbReg (rd rb ro : LowReg)
  | tLdrReg (rd rb ro : LowReg)
  | tLdrbReg (rd rb ro : LowReg)
  | tStrhReg (rd rb ro : LowReg)
  | tLdsbReg (rd rb ro : LowReg)
  | tLdrhReg (rd rb ro : LowReg)
  | tLdshReg (rd rb ro : LowReg)
  | tStrImm (rd rb : LowReg) (imm5 : BitVec 5)
  | tLdrImm (rd rb : LowReg) (imm5 : BitVec 5)
  | tStrbImm (rd rb : LowReg) (imm5 : BitVec 5)
  | tLdrbImm (rd rb : LowReg) (imm5 : BitVec 5)
  | tStrhImm (rd rb : LowReg) (imm5 : BitVec 5)
  | tLdrhImm (rd rb : LowReg) (imm5 : BitVec 5)
  | tStrSp (rd : LowReg) (imm8 : BitVec 8)
  | tLdrSp (rd : LowReg) (imm8 : BitVec 8)
  -- Thumb formats 12 and 13
  | tAddPc (rd : LowReg) (imm8 : BitVec 8)
  | tAddSp (rd : LowReg) (imm8 : BitVec 8)
  /-- `neg` is op[7]: subtract. -/
  | tAdjSp (neg : Bool) (imm7 : BitVec 7)
  -- Thumb formats 14 and 15; `r` adds LR (PUSH) or PC (POP)
  | tPush (r : Bool) (list : BitVec 8)
  | tPop (r : Bool) (list : BitVec 8)
  | tStmia (rb : LowReg) (list : BitVec 8)
  | tLdmia (rb : LowReg) (list : BitVec 8)
  -- Thumb formats 16 to 19, undefined, unknown
  | tBCond (cond : Cond) (offset8 : BitVec 8)
  | tUndefined1 (ign : BitVec 8)
  | tSwi (comment : BitVec 8)
  | tB (offset11 : BitVec 11)
  | tUndefined2 (ign : BitVec 11)
  | tBlFirst (offset11 : BitVec 11)
  | tBlSecond (offset11 : BitVec 11)
  /-- Format-13/14 space without a handler; `sel` is op[11:8], `ign` op[7:0] (48_thumb_memory_branch.md R464). -/
  | tUnknown (sel : BitVec 4) (ign : BitVec 8)
  deriving DecidableEq, Repr

end Sys2Proof
end

