-- ==== Sys2Proof/WellFormed.lean ====
section
/-! DEFINITION. Which terms of Instr are instructions of this hardware: those whose operands stay inside their own row of
the decode tables (30_encoding.md R110, R112, R113, R130). Every other constructor admits every operand value. -/

namespace Sys2Proof

/-- Operand 2 of an irregular test opcode: not the immediate form (rows 1 and 9), not `LSL` with an even amount
(rows 7 and 8), and of the register forms with `LSL` only those rows 3 and 11 leave, none with `ROR`/`ASR` that row 4
takes (30_encoding.md R110, R113). -/
def irregularTestOperand (opc : BitVec 2) : Operand2 → Bool
  | .imm _ _ => false
  | .immShift type amt _ => !(type == .lsl && !amt.getLsbD 0)
  | .regShift type _ _ =>
    match type with
    | .lsl => opc == 0b00#2 || opc == 0b10#2
    | .lsr => true
    | .asr => false
    | .ror => false

/-- op[24:20] of a word 000x xxxx … 1001 that is no multiply, multiply long or swap (30_encoding.md R112). -/
def isUnknownMulSwap (sel : BitVec 5) : Bool :=
  !(sel.extractLsb' 2 3 == 0b000#3) && !(sel.extractLsb' 3 2 == 0b01#2) &&
    !(sel == 0b10000#5) && !(sel == 0b10100#5)

/-- op[11:8] of a Thumb halfword 1011 … that neither format 13 nor format 14 takes (48_thumb_memory_branch.md R464). -/
def isUnknownThumb (sel : BitVec 4) : Bool :=
  sel ∈ [0b0001#4, 0b0010#4, 0b0011#4, 0b0110#4, 0b0111#4, 0b1000#4, 0b1001#4, 0b1010#4, 0b1011#4, 0b1110#4, 0b1111#4]

/-- A term is well formed when its word belongs to its own row. -/
def Instr.wellFormed : Instr → Bool
  | .testNoS _ opc _ _ op2 => irregularTestOperand opc op2
  | .unknownMulSwap _ sel _ _ => isUnknownMulSwap sel
  | .tBCond cond _ => cond != .al && cond != .nv
  | .tUnknown sel _ => isUnknownThumb sel
  | _ => true

end Sys2Proof
end

