-- ==== Sys2Proof/Decode.lean ====
section
/-! DEFINITION. The decoder and, after it, the encoder (30_encoding.md). A word is classified by its 12-bit (ARM) or 10-bit
(Thumb) index against an ordered pattern list, first match wins (R101, R110, R130); the fields are cut out here and nowhere
else (R104, R120, R135). -/

namespace Sys2Proof

/-! ### Field values to names and back -/

/-- 40_cycle_pipeline_conditions.md R160. -/
def Cond.ofBits (c : BitVec 4) : Cond :=
  match c with
  | 0x0#4 => .eq | 0x1#4 => .ne | 0x2#4 => .cs | 0x3#4 => .cc
  | 0x4#4 => .mi | 0x5#4 => .pl | 0x6#4 => .vs | 0x7#4 => .vc
  | 0x8#4 => .hi | 0x9#4 => .ls | 0xA#4 => .ge | 0xB#4 => .lt
  | 0xC#4 => .gt | 0xD#4 => .le | 0xE#4 => .al | _ => .nv

def Cond.bits : Cond → BitVec 4
  | .eq => 0x0#4 | .ne => 0x1#4 | .cs => 0x2#4 | .cc => 0x3#4
  | .mi => 0x4#4 | .pl => 0x5#4 | .vs => 0x6#4 | .vc => 0x7#4
  | .hi => 0x8#4 | .ls => 0x9#4 | .ge => 0xA#4 | .lt => 0xB#4
  | .gt => 0xC#4 | .le => 0xD#4 | .al => 0xE#4 | .nv => 0xF#4

/-- 30_encoding.md R106. -/
def ShiftType.ofBits (t : BitVec 2) : ShiftType :=
  match t with
  | 0b00#2 => .lsl | 0b01#2 => .lsr | 0b10#2 => .asr | _ => .ror

def ShiftType.bits : ShiftType → BitVec 2
  | .lsl => 0b00#2 | .lsr => 0b01#2 | .asr => 0b10#2 | .ror => 0b11#2

/-- 30_encoding.md R105. -/
def DpOp.ofBits (o : BitVec 4) : DpOp :=
  match o with
  | 0x0#4 => .and | 0x1#4 => .eor | 0x2#4 => .sub | 0x3#4 => .rsb
  | 0x4#4 => .add | 0x5#4 => .adc | 0x6#4 => .sbc | 0x7#4 => .rsc
  | 0x8#4 => .tst | 0x9#4 => .teq | 0xA#4 => .cmp | 0xB#4 => .cmn
  | 0xC#4 => .orr | 0xD#4 => .mov | 0xE#4 => .bic | _ => .mvn

def DpOp.bits : DpOp → BitVec 4
  | .and => 0x0#4 | .eor => 0x1#4 | .sub => 0x2#4 | .rsb => 0x3#4
  | .add => 0x4#4 | .adc => 0x5#4 | .sbc => 0x6#4 | .rsc => 0x7#4
  | .tst => 0x8#4 | .teq => 0x9#4 | .cmp => 0xA#4 | .cmn => 0xB#4
  | .orr => 0xC#4 | .mov => 0xD#4 | .bic => 0xE#4 | .mvn => 0xF#4

/-! ### ARM classes -/

/-- The classes of 30_encoding.md R110, in its order of priority. -/
inductive ArmClass where
  | u1 | u2 | u3 | u4 | multiply | multiplyLong | mrs | msrReg | msrImm | swap | bx | halfword | dataProcessing
  | singleTransfer | blockTransfer | branch | coprocTransfer | coprocOperation | coprocRegister | swi | unknown
  deriving DecidableEq, Repr

/-- One pattern of a decode table: an index matches when `index AND mask = value`. -/
structure Pattern (n : Nat) (κ : Type) where
  mask : BitVec n
  value : BitVec n
  cls : κ

/-- "First match wins" (30_encoding.md R110). -/
def firstMatch {n : Nat} {κ : Type} (dflt : κ) (i : BitVec n) : List (Pattern n κ) → κ
  | [] => dflt
  | r :: rs => if i &&& r.mask = r.value then r.cls else firstMatch dflt i rs

/-- The rows of 30_encoding.md R110, in order; masks and values are op[27:24], op[23:20], op[7:4]. -/
def armPatterns : List (Pattern 12 ArmClass) :=
  [ ⟨0b111110110000#12, 0b001100000000#12, .u1⟩,
    ⟨0b111000000001#12, 0b011000000001#12, .u2⟩,
    ⟨0b111111111111#12, 0b000101100001#12, .u3⟩,
    ⟨0b111110011101#12, 0b000100000101#12, .u4⟩,
    ⟨0b111111001111#12, 0b000000001001#12, .multiply⟩,
    ⟨0b111110001111#12, 0b000010001001#12, .multiplyLong⟩,
    ⟨0b111110111111#12, 0b000100000000#12, .mrs⟩,
    ⟨0b111110111111#12, 0b000100100000#12, .msrReg⟩,
    ⟨0b111110110000#12, 0b001100100000#12, .msrImm⟩,
    ⟨0b111110111111#12, 0b000100001001#12, .swap⟩,
    ⟨0b111111111111#12, 0b000100100001#12, .bx⟩,
    ⟨0b111000001001#12, 0b000000001001#12, .halfword⟩,
    ⟨0b110000000000#12, 0b000000000000#12, .dataProcessing⟩,
    ⟨0b110000000000#12, 0b010000000000#12, .singleTransfer⟩,
    ⟨0b111000000000#12, 0b100000000000#12, .blockTransfer⟩,
    ⟨0b111000000000#12, 0b101000000000#12, .branch⟩,
    ⟨0b111000000000#12, 0b110000000000#12, .coprocTransfer⟩,
    ⟨0b111100000001#12, 0b111000000000#12, .coprocOperation⟩,
    ⟨0b111100000001#12, 0b111000000001#12, .coprocRegister⟩,
    ⟨0b111100000000#12, 0b111100000000#12, .swi⟩ ]

/-- op[27:20] : op[7:4] (30_encoding.md R101). -/
def armIndex (w : Word) : BitVec 12 := w.extractLsb' 20 8 ++ w.extractLsb' 4 4

/-- 30_encoding.md R110; row 21 is `unknown`. -/
def armClass (i : BitVec 12) : ArmClass := firstMatch .unknown i armPatterns

/-! ### ARM operand forms -/

/-- Operand 2 of data processing, by op[25] and op[4] (41_shifter.md R180). -/
def decodeOperand2 (w : Word) : Operand2 :=
  if w.getLsbD 25 then .imm (w.extractLsb' 8 4) (w.extractLsb' 0 8)
  else if w.getLsbD 4 then .regShift (ShiftType.ofBits (w.extractLsb' 5 2)) (w.extractLsb' 8 4) (w.extractLsb' 0 4)
  else .immShift (ShiftType.ofBits (w.extractLsb' 5 2)) (w.extractLsb' 7 5) (w.extractLsb' 0 4)

/-- Offset of a single data transfer, by op[25] (41_shifter.md R180). -/
def decodeOffset (w : Word) : Offset :=
  if w.getLsbD 25 then .shifted (ShiftType.ofBits (w.extractLsb' 5 2)) (w.extractLsb' 7 5) (w.extractLsb' 0 4)
  else .imm (w.extractLsb' 0 12)

/-- Offset of a halfword transfer, by op[22] (44_arm_load_store.md R260). -/
def decodeHalfOffset (w : Word) : HalfOffset :=
  if w.getLsbD 22 then .imm (w.extractLsb' 8 4 ++ w.extractLsb' 0 4)
  else .reg (w.extractLsb' 8 4) (w.extractLsb' 0 4)

/-- P = op[24], U = op[23], W = op[21]. -/
def decodeIndexing (w : Word) : Indexing := ⟨w.getLsbD 24, w.getLsbD 23, w.getLsbD 21⟩

/-- Data-processing class: opcode op[24:21], S op[20], Rn op[19:16], Rd op[15:12] (30_encoding.md R104, R105, R113). -/
def decodeDataProcessing (cond : Cond) (w : Word) : Instr :=
  let s := w.getLsbD 20
  let rn : Reg := w.extractLsb' 16 4
  let rd : Reg := w.extractLsb' 12 4
  let op2 := decodeOperand2 w
  let noS : Instr := .testNoS cond (w.extractLsb' 21 2) rn rd op2
  match DpOp.ofBits (w.extractLsb' 21 4) with
  | .and => .and cond s rn rd op2
  | .eor => .eor cond s rn rd op2
  | .sub => .sub cond s rn rd op2
  | .rsb => .rsb cond s rn rd op2
  | .add => .add cond s rn rd op2
  | .adc => .adc cond s rn rd op2
  | .sbc => .sbc cond s rn rd op2
  | .rsc => .rsc cond s rn rd op2
  | .tst => if s then .tst cond rn rd op2 else noS
  | .teq => if s then .teq cond rn rd op2 else noS
  | .cmp => if s then .cmp cond rn rd op2 else noS
  | .cmn => if s then .cmn cond rn rd op2 else noS
  | .orr => .orr cond s rn rd op2
  | .mov => .mov cond s rn rd op2
  | .bic => .bic cond s rn rd op2
  | .mvn => .mvn cond s rn rd op2

/-- Halfword class: L = op[20], S = op[6], H = op[5] (30_encoding.md R112). -/
def decodeHalfword (cond : Cond) (w : Word) : Instr :=
  let ix := decodeIndexing w
  let rn : Reg := w.extractLsb' 16 4
  let rd : Reg := w.extractLsb' 12 4
  let off := decodeHalfOffset w
  match w.extractLsb' 5 2, w.getLsbD 20 with
  | 0b00#2, _ => .unknownMulSwap cond (w.extractLsb' 20 5) (w.extractLsb' 8 12) (w.extractLsb' 0 4)
  | 0b01#2, false => .strh cond ix rn rd off
  | 0b01#2, true => .ldrh cond ix rn rd off
  | 0b10#2, true => .ldrsb cond ix rn rd off
  | _, true => .ldrsh cond ix rn rd off
  | _, false =>
    .unknownHalf cond (w.extractLsb' 21 4) (w.extractLsb' 8 12) (w.getLsbD 5) (w.extractLsb' 0 4)

/-- Multiply class: A = op[21], S = op[20] (43_arm_multiply.md R240). -/
def decodeMultiply (cond : Cond) (w : Word) : Instr :=
  let s := w.getLsbD 20
  let rd : Reg := w.extractLsb' 16 4
  let rn : Reg := w.extractLsb' 12 4
  let rs : Reg := w.extractLsb' 8 4
  let rm : Reg := w.extractLsb' 0 4
  if w.getLsbD 21 then .mla cond s rd rn rs rm else .mul cond s rd rn rs rm

/-- Multiply-long class: U = op[22] (1 = signed), A = op[21], S = op[20] (43_arm_multiply.md R240). -/
def decodeMultiplyLong (cond : Cond) (w : Word) : Instr :=
  let s := w.getLsbD 20
  let hi : Reg := w.extractLsb' 16 4
  let lo : Reg := w.extractLsb' 12 4
  let rs : Reg := w.extractLsb' 8 4
  let rm : Reg := w.extractLsb' 0 4
  match w.getLsbD 22, w.getLsbD 21 with
  | false, false => .umull cond s hi lo rs rm
  | false, true => .umlal cond s hi lo rs rm
  | true, false => .smull cond s hi lo rs rm
  | true, true => .smlal cond s hi lo rs rm

/-- Single data transfer: B = op[22], L = op[20] (44_arm_load_store.md R260). -/
def decodeSingleTransfer (cond : Cond) (w : Word) : Instr :=
  let ix := decodeIndexing w
  let rn : Reg := w.extractLsb' 16 4
  let rd : Reg := w.extractLsb' 12 4
  let off := decodeOffset w
  match w.getLsbD 22, w.getLsbD 20 with
  | false, true => .ldr cond ix rn rd off
  | false, false => .str cond ix rn rd off
  | true, true => .ldrb cond ix rn rd off
  | true, false => .strb cond ix rn rd off

/-! ### Decoding -/

/-- Why the decoder gives no instruction. -/
inductive DecodeError where
  /-- Row 21 of 30_encoding.md R110 or row 22 of R130 with no table row of its own; no ARM index reaches it. -/
  | unknownOpcode
  /-- Fewer bytes than the instruction's width. -/
  | truncated
  deriving DecidableEq, Repr

/-- The instruction of a 32-bit ARM word (30_encoding.md R104, R110). -/
def decodeArm (w : Word) : Except DecodeError Instr :=
  let cond := Cond.ofBits (w.extractLsb' 28 4)
  match armClass (armIndex w) with
  | .u1 => .ok (.undefinedU1 cond (w.getLsbD 22) (w.extractLsb' 0 20))
  | .u2 => .ok (.undefinedU2 cond (w.extractLsb' 5 20) (w.extractLsb' 0 4))
  | .u3 => .ok (.undefinedU3 cond (w.extractLsb' 8 12) (w.extractLsb' 0 4))
  | .u4 => .ok (.undefinedU4 cond (w.extractLsb' 21 2) (w.extractLsb' 8 12) (w.getLsbD 5) (w.extractLsb' 0 4))
  | .multiply => .ok (decodeMultiply cond w)
  | .multiplyLong => .ok (decodeMultiplyLong cond w)
  | .mrs =>
    .ok (.mrs cond (w.getLsbD 22) (w.extractLsb' 12 4) (w.extractLsb' 16 4) (w.extractLsb' 8 4) (w.extractLsb' 0 4))
  | .msrReg => .ok (.msrReg cond (w.getLsbD 22) (w.extractLsb' 16 4) (w.extractLsb' 0 4) (w.extractLsb' 8 8))
  | .msrImm =>
    .ok (.msrImm cond (w.getLsbD 22) (w.extractLsb' 16 4) (w.extractLsb' 8 4) (w.extractLsb' 0 8) (w.extractLsb' 12 4))
  | .swap =>
    .ok (if w.getLsbD 22
      then .swpb cond (w.extractLsb' 16 4) (w.extractLsb' 12 4) (w.extractLsb' 0 4) (w.extractLsb' 8 4)
      else .swp cond (w.extractLsb' 16 4) (w.extractLsb' 12 4) (w.extractLsb' 0 4) (w.extractLsb' 8 4))
  | .bx => .ok (.bx cond (w.extractLsb' 0 4) (w.extractLsb' 8 12))
  | .halfword => .ok (decodeHalfword cond w)
  | .dataProcessing => .ok (decodeDataProcessing cond w)
  | .singleTransfer => .ok (decodeSingleTransfer cond w)
  | .blockTransfer =>
    .ok (if w.getLsbD 20
      then .ldm cond (decodeIndexing w) (w.getLsbD 22) (w.extractLsb' 16 4) (w.extractLsb' 0 16)
      else .stm cond (decodeIndexing w) (w.getLsbD 22) (w.extractLsb' 16 4) (w.extractLsb' 0 16))
  | .branch =>
    .ok (if w.getLsbD 24 then .bl cond (w.extractLsb' 0 24) else .b cond (w.extractLsb' 0 24))
  | .coprocTransfer =>
    .ok (if w.getLsbD 20 then .ldc cond (w.extractLsb' 21 4) (w.extractLsb' 0 20)
      else .stc cond (w.extractLsb' 21 4) (w.extractLsb' 0 20))
  | .coprocOperation => .ok (.cdp cond (w.extractLsb' 5 19) (w.extractLsb' 0 4))
  | .coprocRegister =>
    .ok (if w.getLsbD 20
      then .mrc cond (w.extractLsb' 12 4) (w.extractLsb' 8 4) (w.extractLsb' 21 3) (w.extractLsb' 16 4)
        (w.extractLsb' 5 3) (w.extractLsb' 0 4)
      else .mcr cond (w.extractLsb' 12 4) (w.extractLsb' 8 4) (w.extractLsb' 21 3) (w.extractLsb' 16 4)
        (w.extractLsb' 5 3) (w.extractLsb' 0 4))
  | .swi => .ok (.swi cond (w.extractLsb' 0 24))
  | .unknown => .error .unknownOpcode

/-- The classes of 30_encoding.md R130, in its order of priority. -/
inductive ThumbClass where
  | addSub | moveShifted | aluImm | aluReg | highReg | pcLoad | regOffset | signExt | immOffset | halfImm | spRel
  | loadAddr | spAdd | pushPop | multiple | undefined1 | swi | condBranch | branch | undefined2 | longBranch | unknown
  deriving DecidableEq, Repr

/-- The rows of 30_encoding.md R130, in order; masks and values are op[15:12], op[11:8], op[7:6]. -/
def thumbPatterns : List (Pattern 10 ThumbClass) :=
  [ ⟨0b1111100000#10, 0b0001100000#10, .addSub⟩,
    ⟨0b1110000000#10, 0b0000000000#10, .moveShifted⟩,
    ⟨0b1110000000#10, 0b0010000000#10, .aluImm⟩,
    ⟨0b1111110000#10, 0b0100000000#10, .aluReg⟩,
    ⟨0b1111110000#10, 0b0100010000#10, .highReg⟩,
    ⟨0b1111100000#10, 0b0100100000#10, .pcLoad⟩,
    ⟨0b1111001000#10, 0b0101000000#10, .regOffset⟩,
    ⟨0b1111001000#10, 0b0101001000#10, .signExt⟩,
    ⟨0b1110000000#10, 0b0110000000#10, .immOffset⟩,
    ⟨0b1111000000#10, 0b1000000000#10, .halfImm⟩,
    ⟨0b1111000000#10, 0b1001000000#10, .spRel⟩,
    ⟨0b1111000000#10, 0b1010000000#10, .loadAddr⟩,
    ⟨0b1111111100#10, 0b1011000000#10, .spAdd⟩,
    ⟨0b1111011000#10, 0b1011010000#10, .pushPop⟩,
    ⟨0b1111000000#10, 0b1100000000#10, .multiple⟩,
    ⟨0b1111111100#10, 0b1101111000#10, .undefined1⟩,
    ⟨0b1111111100#10, 0b1101111100#10, .swi⟩,
    ⟨0b1111000000#10, 0b1101000000#10, .condBranch⟩,
    ⟨0b1111100000#10, 0b1110000000#10, .branch⟩,
    ⟨0b1111100000#10, 0b1110100000#10, .undefined2⟩,
    ⟨0b1111000000#10, 0b1111000000#10, .longBranch⟩ ]

/-- op[15:6] (30_encoding.md R101). -/
def thumbIndex (h : Half) : BitVec 10 := h.extractLsb' 6 10

/-- 30_encoding.md R130; row 22 is `unknown`. -/
def thumbClass (i : BitVec 10) : ThumbClass := firstMatch .unknown i thumbPatterns

/-- Format 4, op[9:6] (47_thumb_alu.md R380). -/
def decodeThumbAlu (h : Half) : Instr :=
  let rs : LowReg := h.extractLsb' 3 3
  let rd : LowReg := h.extractLsb' 0 3
  match h.extractLsb' 6 4 with
  | 0x0#4 => .tAnd rd rs
  | 0x1#4 => .tEor rd rs
  | 0x2#4 => .tLslReg rd rs
  | 0x3#4 => .tLsrReg rd rs
  | 0x4#4 => .tAsrReg rd rs
  | 0x5#4 => .tAdc rd rs
  | 0x6#4 => .tSbc rd rs
  | 0x7#4 => .tRorReg rd rs
  | 0x8#4 => .tTst rd rs
  | 0x9#4 => .tNeg rd rs
  | 0xA#4 => .tCmpReg rd rs
  | 0xB#4 => .tCmn rd rs
  | 0xC#4 => .tOrr rd rs
  | 0xD#4 => .tMul rd rs
  | 0xE#4 => .tBic rd rs
  | _ => .tMvn rd rs

/-- The instruction of a 16-bit Thumb halfword (30_encoding.md R120, R130). The 44 unknown indices are one row of the
opcode table (48_thumb_memory_branch.md R464). -/
def decodeThumb (h : Half) : Instr :=
  let r0 : LowReg := h.extractLsb' 0 3
  let r3 : LowReg := h.extractLsb' 3 3
  let r6 : LowReg := h.extractLsb' 6 3
  let r8 : LowReg := h.extractLsb' 8 3
  let imm8 : BitVec 8 := h.extractLsb' 0 8
  let imm5 : BitVec 5 := h.extractLsb' 6 5
  let imm11 : BitVec 11 := h.extractLsb' 0 11
  match thumbClass (thumbIndex h) with
  | .addSub =>
    match h.extractLsb' 9 2 with
    | 0b00#2 => .tAddReg r0 r3 r6
    | 0b01#2 => .tSubReg r0 r3 r6
    | 0b10#2 => .tAddImm3 r0 r3 r6
    | _ => .tSubImm3 r0 r3 r6
  | .moveShifted =>
    match h.extractLsb' 11 2 with
    | 0b00#2 => .tLslImm r0 r3 imm5
    | 0b01#2 => .tLsrImm r0 r3 imm5
    | _ => .tAsrImm r0 r3 imm5
  | .aluImm =>
    match h.extractLsb' 11 2 with
    | 0b00#2 => .tMovImm r8 imm8
    | 0b01#2 => .tCmpImm r8 imm8
    | 0b10#2 => .tAddImm8 r8 imm8
    | _ => .tSubImm8 r8 imm8
  | .aluReg => decodeThumbAlu h
  | .highReg =>
    let rd : Reg := h.extractLsb' 7 1 ++ h.extractLsb' 0 3
    let rs : Reg := h.extractLsb' 3 4
    match h.extractLsb' 8 2 with
    | 0b00#2 => .tAddHi rd rs
    | 0b01#2 => .tCmpHi rd rs
    | 0b10#2 => .tMovHi rd rs
    | _ => .tBx rs (h.getLsbD 7) r0
  | .pcLoad => .tLdrPc r8 imm8
  | .regOffset =>
    match h.extractLsb' 10 2 with
    | 0b00#2 => .tStrReg r0 r3 r6
    | 0b01#2 => .tStrbReg r0 r3 r6
    | 0b10#2 => .tLdrReg r0 r3 r6
    | _ => .tLdrbReg r0 r3 r6
  | .signExt =>
    match h.extractLsb' 10 2 with
    | 0b00#2 => .tStrhReg r0 r3 r6
    | 0b01#2 => .tLdsbReg r0 r3 r6
    | 0b10#2 => .tLdrhReg r0 r3 r6
    | _ => .tLdshReg r0 r3 r6
  | .immOffset =>
    match h.extractLsb' 11 2 with
    | 0b00#2 => .tStrImm r0 r3 imm5
    | 0b01#2 => .tLdrImm r0 r3 imm5
    | 0b10#2 => .tStrbImm r0 r3 imm5
    | _ => .tLdrbImm r0 r3 imm5
  | .halfImm => if h.getLsbD 11 then .tLdrhImm r0 r3 imm5 else .tStrhImm r0 r3 imm5
  | .spRel => if h.getLsbD 11 then .tLdrSp r8 imm8 else .tStrSp r8 imm8
  | .loadAddr => if h.getLsbD 11 then .tAddSp r8 imm8 else .tAddPc r8 imm8
  | .spAdd => .tAdjSp (h.getLsbD 7) (h.extractLsb' 0 7)
  | .pushPop => if h.getLsbD 11 then .tPop (h.getLsbD 8) imm8 else .tPush (h.getLsbD 8) imm8
  | .multiple => if h.getLsbD 11 then .tLdmia r8 imm8 else .tStmia r8 imm8
  | .undefined1 => .tUndefined1 imm8
  | .swi => .tSwi imm8
  | .condBranch => .tBCond (Cond.ofBits (h.extractLsb' 8 4)) imm8
  | .branch => .tB imm11
  | .undefined2 => .tUndefined2 imm11
  | .longBranch => if h.getLsbD 11 then .tBlSecond imm11 else .tBlFirst imm11
  | .unknown => .tUnknown (h.extractLsb' 8 4) imm8

/-- The instruction at the head of a byte list, and the rest of the list: four bytes in ARM state, two in Thumb state,
the lowest address first and the least significant byte first (30_encoding.md R100, 20_memory.md R75). -/
def decodeBytes (thumb : Bool) : List Byte → Except DecodeError (Instr × List Byte)
  | b0 :: b1 :: rest =>
    if thumb then .ok (decodeThumb (b1 ++ b0), rest)
    else
      match rest with
      | b2 :: b3 :: rest' => (decodeArm (b3 ++ b2 ++ b1 ++ b0)).map (·, rest')
      | _ => .error .truncated
  | _ => .error .truncated

/-- The low `n` bytes of a number, the least significant first. -/
def bytesOf : Nat → Nat → List Byte
  | 0, _ => []
  | n + 1, w => BitVec.ofNat 8 w :: bytesOf n (w / 256)

/-- The instruction the decoder reads from a row's word: rows of at most 16 bits are Thumb halfwords, the others ARM
words, laid out as memory holds them. -/
def decodeTableWord (nbits w : Nat) : Option Instr :=
  let thumb := nbits ≤ 16
  match decodeBytes thumb (bytesOf (if thumb then 2 else 4) (w % 2 ^ nbits)) with
  | .ok (i, _) => some i
  | .error _ => none

/-! ### Encoding -/

/-- The word of an instruction: one 32-bit ARM word or one 16-bit Thumb halfword (30_encoding.md R100). -/
inductive Code where
  | arm (w : Word)
  | thumb (h : Half)
  deriving DecidableEq, Repr

/-- op[11:0] with the form bit op[25] of an operand 2 (30_encoding.md R104). -/
def Operand2.formBit : Operand2 → BitVec 1
  | .imm _ _ => 1#1
  | .immShift _ _ _ => 0#1
  | .regShift _ _ _ => 0#1

def Operand2.bits : Operand2 → BitVec 12
  | .imm rot imm8 => rot ++ imm8
  | .immShift type amt rm => amt ++ type.bits ++ 0#1 ++ rm
  | .regShift type rs rm => rs ++ 0#1 ++ type.bits ++ 1#1 ++ rm

def Offset.formBit : Offset → BitVec 1
  | .imm _ => 0#1
  | .shifted _ _ _ => 1#1

def Offset.bits : Offset → BitVec 12
  | .imm imm12 => imm12
  | .shifted type amt rm => amt ++ type.bits ++ 0#1 ++ rm

def HalfOffset.formBit : HalfOffset → BitVec 1
  | .imm _ => 1#1
  | .reg _ _ => 0#1

/-- op[11:8] of a halfword transfer. -/
def HalfOffset.high : HalfOffset → BitVec 4
  | .imm imm8 => imm8.extractLsb' 4 4
  | .reg ign _ => ign

/-- op[3:0] of a halfword transfer. -/
def HalfOffset.low : HalfOffset → BitVec 4
  | .imm imm8 => imm8.extractLsb' 0 4
  | .reg _ rm => rm

/-- `cccc 00 I oooo S nnnn dddd operand2` (30_encoding.md R104, the three data-processing rows). -/
def encodeDp (cond : Cond) (op : DpOp) (s : Bool) (rn rd : Reg) (op2 : Operand2) : Word :=
  cond.bits ++ 0b00#2 ++ op2.formBit ++ op.bits ++ BitVec.ofBool s ++ rn ++ rd ++ op2.bits

/-- `cccc 0000 00AS dddd nnnn ssss 1001 mmmm`. -/
def encodeMul (cond : Cond) (a s : Bool) (rd rn rs rm : Reg) : Word :=
  cond.bits ++ 0b000000#6 ++ BitVec.ofBool a ++ BitVec.ofBool s ++ rd ++ rn ++ rs ++ 0b1001#4 ++ rm

/-- `cccc 0000 1UAS hhhh llll ssss 1001 mmmm`. -/
def encodeMulLong (cond : Cond) (u a s : Bool) (rdHi rdLo rs rm : Reg) : Word :=
  cond.bits ++ 0b00001#5 ++ BitVec.ofBool u ++ BitVec.ofBool a ++ BitVec.ofBool s ++ rdHi ++ rdLo ++ rs ++ 0b1001#4 ++ rm

/-- `cccc 0001 0B00 nnnn dddd iiii 1001 mmmm`. -/
def encodeSwap (cond : Cond) (b : Bool) (rn rd rm : Reg) (ign : BitVec 4) : Word :=
  cond.bits ++ 0b00010#5 ++ BitVec.ofBool b ++ 0b00#2 ++ rn ++ rd ++ ign ++ 0b1001#4 ++ rm

/-- `cccc 000P UIWL nnnn dddd hhhh 1SH1 llll`. -/
def encodeHalf (cond : Cond) (l : Bool) (sh : BitVec 2) (ix : Indexing) (rn rd : Reg) (off : HalfOffset) : Word :=
  cond.bits ++ 0b000#3 ++ BitVec.ofBool ix.p ++ BitVec.ofBool ix.u ++ off.formBit ++ BitVec.ofBool ix.w ++
    BitVec.ofBool l ++ rn ++ rd ++ off.high ++ 1#1 ++ sh ++ 1#1 ++ off.low

/-- `cccc 01IP UBWL nnnn dddd offset`. -/
def encodeSdt (cond : Cond) (b l : Bool) (ix : Indexing) (rn rd : Reg) (off : Offset) : Word :=
  cond.bits ++ 0b01#2 ++ off.formBit ++ BitVec.ofBool ix.p ++ BitVec.ofBool ix.u ++ BitVec.ofBool b ++
    BitVec.ofBool ix.w ++ BitVec.ofBool l ++ rn ++ rd ++ off.bits

/-- `cccc 100P USWL nnnn list`. -/
def encodeBlock (cond : Cond) (l : Bool) (ix : Indexing) (s : Bool) (rn : Reg) (list : BitVec 16) : Word :=
  cond.bits ++ 0b100#3 ++ BitVec.ofBool ix.p ++ BitVec.ofBool ix.u ++ BitVec.ofBool s ++ BitVec.ofBool ix.w ++
    BitVec.ofBool l ++ rn ++ list

/-- `cccc 1110 xxxL nnnn dddd pppp xxx1 mmmm`. -/
def encodeCoprocRegister (cond : Cond) (l : Bool) (rd cp : BitVec 4) (ign23 : BitVec 3) (ign19 : BitVec 4)
    (ign7 : BitVec 3) (ign3 : BitVec 4) : Word :=
  cond.bits ++ 0b1110#4 ++ ign23 ++ BitVec.ofBool l ++ ign19 ++ rd ++ cp ++ ign7 ++ 1#1 ++ ign3

/-- Format 4: `0100 00oo oosss ddd`. -/
def encodeThumbAlu (op : BitVec 4) (rd rs : LowReg) : Half := 0b010000#6 ++ op ++ rs ++ rd

/-- Format 5: `0100 01oo H1 sssss ddd`. -/
def encodeThumbHigh (op : BitVec 2) (h1 : BitVec 1) (rs : Reg) (low : BitVec 3) : Half :=
  0b010001#6 ++ op ++ h1 ++ rs ++ low

/-- Formats 7 and 8: `0101 ooo ooo bbb ddd`. -/
def encodeThumbRegOffset (op : BitVec 3) (rd rb ro : LowReg) : Half := 0b0101#4 ++ op ++ ro ++ rb ++ rd

/-- The word of an instruction, from the format tables 30_encoding.md R104 (ARM) and R120 (Thumb). -/
def encode : Instr → Code
  | .and cond s rn rd op2 => .arm (encodeDp cond .and s rn rd op2)
  | .eor cond s rn rd op2 => .arm (encodeDp cond .eor s rn rd op2)
  | .sub cond s rn rd op2 => .arm (encodeDp cond .sub s rn rd op2)
  | .rsb cond s rn rd op2 => .arm (encodeDp cond .rsb s rn rd op2)
  | .add cond s rn rd op2 => .arm (encodeDp cond .add s rn rd op2)
  | .adc cond s rn rd op2 => .arm (encodeDp cond .adc s rn rd op2)
  | .sbc cond s rn rd op2 => .arm (encodeDp cond .sbc s rn rd op2)
  | .rsc cond s rn rd op2 => .arm (encodeDp cond .rsc s rn rd op2)
  | .tst cond rn rd op2 => .arm (encodeDp cond .tst true rn rd op2)
  | .teq cond rn rd op2 => .arm (encodeDp cond .teq true rn rd op2)
  | .cmp cond rn rd op2 => .arm (encodeDp cond .cmp true rn rd op2)
  | .cmn cond rn rd op2 => .arm (encodeDp cond .cmn true rn rd op2)
  | .orr cond s rn rd op2 => .arm (encodeDp cond .orr s rn rd op2)
  | .mov cond s rn rd op2 => .arm (encodeDp cond .mov s rn rd op2)
  | .bic cond s rn rd op2 => .arm (encodeDp cond .bic s rn rd op2)
  | .mvn cond s rn rd op2 => .arm (encodeDp cond .mvn s rn rd op2)
  | .testNoS cond opc rn rd op2 => .arm (encodeDp cond (DpOp.ofBits (0b10#2 ++ opc)) false rn rd op2)
  | .mul cond s rd ignRn rs rm => .arm (encodeMul cond false s rd ignRn rs rm)
  | .mla cond s rd rn rs rm => .arm (encodeMul cond true s rd rn rs rm)
  | .umull cond s rdHi rdLo rs rm => .arm (encodeMulLong cond false false s rdHi rdLo rs rm)
  | .umlal cond s rdHi rdLo rs rm => .arm (encodeMulLong cond false true s rdHi rdLo rs rm)
  | .smull cond s rdHi rdLo rs rm => .arm (encodeMulLong cond true false s rdHi rdLo rs rm)
  | .smlal cond s rdHi rdLo rs rm => .arm (encodeMulLong cond true true s rdHi rdLo rs rm)
  | .mrs cond spsr rd ign19 ign11 ign3 =>
    .arm (cond.bits ++ 0b00010#5 ++ BitVec.ofBool spsr ++ 0b00#2 ++ ign19 ++ rd ++ ign11 ++ 0b0000#4 ++ ign3)
  | .msrReg cond spsr mask rm ign =>
    .arm (cond.bits ++ 0b00010#5 ++ BitVec.ofBool spsr ++ 0b10#2 ++ mask ++ ign ++ 0b0000#4 ++ rm)
  | .msrImm cond spsr mask rot imm8 ign =>
    .arm (cond.bits ++ 0b00110#5 ++ BitVec.ofBool spsr ++ 0b10#2 ++ mask ++ ign ++ rot ++ imm8)
  | .swp cond rn rd rm ign => .arm (encodeSwap cond false rn rd rm ign)
  | .swpb cond rn rd rm ign => .arm (encodeSwap cond true rn rd rm ign)
  | .bx cond rm ign => .arm (cond.bits ++ 0b00010010#8 ++ ign ++ 0b0001#4 ++ rm)
  | .strh cond ix rn rd off => .arm (encodeHalf cond false 0b01#2 ix rn rd off)
  | .ldrh cond ix rn rd off => .arm (encodeHalf cond true 0b01#2 ix rn rd off)
  | .ldrsb cond ix rn rd off => .arm (encodeHalf cond true 0b10#2 ix rn rd off)
  | .ldrsh cond ix rn rd off => .arm (encodeHalf cond true 0b11#2 ix rn rd off)
  | .ldr cond ix rn rd off => .arm (encodeSdt cond false true ix rn rd off)
  | .str cond ix rn rd off => .arm (encodeSdt cond false false ix rn rd off)
  | .ldrb cond ix rn rd off => .arm (encodeSdt cond true true ix rn rd off)
  | .strb cond ix rn rd off => .arm (encodeSdt cond true false ix rn rd off)
  | .ldm cond ix s rn list => .arm (encodeBlock cond true ix s rn list)
  | .stm cond ix s rn list => .arm (encodeBlock cond false ix s rn list)
  | .b cond offset24 => .arm (cond.bits ++ 0b1010#4 ++ offset24)
  | .bl cond offset24 => .arm (cond.bits ++ 0b1011#4 ++ offset24)
  | .stc cond ign24 ign19 => .arm (cond.bits ++ 0b110#3 ++ ign24 ++ 0#1 ++ ign19)
  | .ldc cond ign24 ign19 => .arm (cond.bits ++ 0b110#3 ++ ign24 ++ 1#1 ++ ign19)
  | .cdp cond ign23 ign3 => .arm (cond.bits ++ 0b1110#4 ++ ign23 ++ 0#1 ++ ign3)
  | .mcr cond rd cp ign23 ign19 ign7 ign3 => .arm (encodeCoprocRegister cond false rd cp ign23 ign19 ign7 ign3)
  | .mrc cond rd cp ign23 ign19 ign7 ign3 => .arm (encodeCoprocRegister cond true rd cp ign23 ign19 ign7 ign3)
  | .swi cond comment => .arm (cond.bits ++ 0b1111#4 ++ comment)
  | .undefinedU1 cond ign22 ign19 => .arm (cond.bits ++ 0b00110#5 ++ BitVec.ofBool ign22 ++ 0b00#2 ++ ign19)
  | .undefinedU2 cond ign24 ign3 => .arm (cond.bits ++ 0b011#3 ++ ign24 ++ 1#1 ++ ign3)
  | .undefinedU3 cond ign19 ign3 => .arm (cond.bits ++ 0b00010110#8 ++ ign19 ++ 0b0001#4 ++ ign3)
  | .undefinedU4 cond ign22 ign19 ign5 ign3 =>
    .arm (cond.bits ++ 0b00010#5 ++ ign22 ++ 0#1 ++ ign19 ++ 0b01#2 ++ BitVec.ofBool ign5 ++ 1#1 ++ ign3)
  | .unknownMulSwap cond sel ign19 ign3 => .arm (cond.bits ++ 0b000#3 ++ sel ++ ign19 ++ 0b1001#4 ++ ign3)
  | .unknownHalf cond ign24 ign19 ign5 ign3 =>
    .arm (cond.bits ++ 0b000#3 ++ ign24 ++ 0#1 ++ ign19 ++ 0b11#2 ++ BitVec.ofBool ign5 ++ 1#1 ++ ign3)
  | .tLslImm rd rs amt => .thumb (0b00000#5 ++ amt ++ rs ++ rd)
  | .tLsrImm rd rs amt => .thumb (0b00001#5 ++ amt ++ rs ++ rd)
  | .tAsrImm rd rs amt => .thumb (0b00010#5 ++ amt ++ rs ++ rd)
  | .tAddReg rd rs rn => .thumb (0b0001100#7 ++ rn ++ rs ++ rd)
  | .tSubReg rd rs rn => .thumb (0b0001101#7 ++ rn ++ rs ++ rd)
  | .tAddImm3 rd rs imm3 => .thumb (0b0001110#7 ++ imm3 ++ rs ++ rd)
  | .tSubImm3 rd rs imm3 => .thumb (0b0001111#7 ++ imm3 ++ rs ++ rd)
  | .tMovImm rd imm8 => .thumb (0b00100#5 ++ rd ++ imm8)
  | .tCmpImm rd imm8 => .thumb (0b00101#5 ++ rd ++ imm8)
  | .tAddImm8 rd imm8 => .thumb (0b00110#5 ++ rd ++ imm8)
  | .tSubImm8 rd imm8 => .thumb (0b00111#5 ++ rd ++ imm8)
  | .tAnd rd rs => .thumb (encodeThumbAlu 0x0#4 rd rs)
  | .tEor rd rs => .thumb (encodeThumbAlu 0x1#4 rd rs)
  | .tLslReg rd rs => .thumb (encodeThumbAlu 0x2#4 rd rs)
  | .tLsrReg rd rs => .thumb (encodeThumbAlu 0x3#4 rd rs)
  | .tAsrReg rd rs => .thumb (encodeThumbAlu 0x4#4 rd rs)
  | .tAdc rd rs => .thumb (encodeThumbAlu 0x5#4 rd rs)
  | .tSbc rd rs => .thumb (encodeThumbAlu 0x6#4 rd rs)
  | .tRorReg rd rs => .thumb (encodeThumbAlu 0x7#4 rd rs)
  | .tTst rd rs => .thumb (encodeThumbAlu 0x8#4 rd rs)
  | .tNeg rd rs => .thumb (encodeThumbAlu 0x9#4 rd rs)
  | .tCmpReg rd rs => .thumb (encodeThumbAlu 0xA#4 rd rs)
  | .tCmn rd rs => .thumb (encodeThumbAlu 0xB#4 rd rs)
  | .tOrr rd rs => .thumb (encodeThumbAlu 0xC#4 rd rs)
  | .tMul rd rs => .thumb (encodeThumbAlu 0xD#4 rd rs)
  | .tBic rd rs => .thumb (encodeThumbAlu 0xE#4 rd rs)
  | .tMvn rd rs => .thumb (encodeThumbAlu 0xF#4 rd rs)
  | .tAddHi rd rs => .thumb (encodeThumbHigh 0b00#2 (rd.extractLsb' 3 1) rs (rd.extractLsb' 0 3))
  | .tCmpHi rd rs => .thumb (encodeThumbHigh 0b01#2 (rd.extractLsb' 3 1) rs (rd.extractLsb' 0 3))
  | .tMovHi rd rs => .thumb (encodeThumbHigh 0b10#2 (rd.extractLsb' 3 1) rs (rd.extractLsb' 0 3))
  | .tBx rs ignH1 ign2 => .thumb (encodeThumbHigh 0b11#2 (BitVec.ofBool ignH1) rs ign2)
  | .tLdrPc rd imm8 => .thumb (0b01001#5 ++ rd ++ imm8)
  | .tStrReg rd rb ro => .thumb (encodeThumbRegOffset 0b000#3 rd rb ro)
  | .tStrhReg rd rb ro => .thumb (encodeThumbRegOffset 0b001#3 rd rb ro)
  | .tStrbReg rd rb ro => .thumb (encodeThumbRegOffset 0b010#3 rd rb ro)
  | .tLdsbReg rd rb ro => .thumb (encodeThumbRegOffset 0b011#3 rd rb ro)
  | .tLdrReg rd rb ro => .thumb (encodeThumbRegOffset 0b100#3 rd rb ro)
  | .tLdrhReg rd rb ro => .thumb (encodeThumbRegOffset 0b101#3 rd rb ro)
  | .tLdrbReg rd rb ro => .thumb (encodeThumbRegOffset 0b110#3 rd rb ro)
  | .tLdshReg rd rb ro => .thumb (encodeThumbRegOffset 0b111#3 rd rb ro)
  | .tStrImm rd rb imm5 => .thumb (0b01100#5 ++ imm5 ++ rb ++ rd)
  | .tLdrImm rd rb imm5 => .thumb (0b01101#5 ++ imm5 ++ rb ++ rd)
  | .tStrbImm rd rb imm5 => .thumb (0b01110#5 ++ imm5 ++ rb ++ rd)
  | .tLdrbImm rd rb imm5 => .thumb (0b01111#5 ++ imm5 ++ rb ++ rd)
  | .tStrhImm rd rb imm5 => .thumb (0b10000#5 ++ imm5 ++ rb ++ rd)
  | .tLdrhImm rd rb imm5 => .thumb (0b10001#5 ++ imm5 ++ rb ++ rd)
  | .tStrSp rd imm8 => .thumb (0b10010#5 ++ rd ++ imm8)
  | .tLdrSp rd imm8 => .thumb (0b10011#5 ++ rd ++ imm8)
  | .tAddPc rd imm8 => .thumb (0b10100#5 ++ rd ++ imm8)
  | .tAddSp rd imm8 => .thumb (0b10101#5 ++ rd ++ imm8)
  | .tAdjSp neg imm7 => .thumb (0b10110000#8 ++ BitVec.ofBool neg ++ imm7)
  | .tPush r list => .thumb (0b1011010#7 ++ BitVec.ofBool r ++ list)
  | .tPop r list => .thumb (0b1011110#7 ++ BitVec.ofBool r ++ list)
  | .tStmia rb list => .thumb (0b11000#5 ++ rb ++ list)
  | .tLdmia rb list => .thumb (0b11001#5 ++ rb ++ list)
  | .tBCond cond offset8 => .thumb (0b1101#4 ++ cond.bits ++ offset8)
  | .tUndefined1 ign => .thumb (0b11011110#8 ++ ign)
  | .tSwi comment => .thumb (0b11011111#8 ++ comment)
  | .tB offset11 => .thumb (0b11100#5 ++ offset11)
  | .tUndefined2 ign => .thumb (0b11101#5 ++ ign)
  | .tBlFirst offset11 => .thumb (0b11110#5 ++ offset11)
  | .tBlSecond offset11 => .thumb (0b11111#5 ++ offset11)
  | .tUnknown sel ign => .thumb (0b1011#4 ++ sel ++ ign)

/-- Decoding of a word of either state. -/
def decodeCode : Code → Except DecodeError Instr
  | .arm w => decodeArm w
  | .thumb h => .ok (decodeThumb h)

/-- Whether a word is a Thumb halfword. -/
def Code.isThumb : Code → Bool
  | .arm _ => false
  | .thumb _ => true

/-- The bytes of a word as memory holds them, the lowest address first (20_memory.md R75). -/
def Code.bytes : Code → List Byte
  | .arm w => [w.extractLsb' 0 8, w.extractLsb' 8 8, w.extractLsb' 16 8, w.extractLsb' 24 8]
  | .thumb h => [h.extractLsb' 0 8, h.extractLsb' 8 8]

end Sys2Proof
end

