-- ==== Sys2Proof/Machine/Flags.lean ====
section
/-! DEFINITION. The status-register layout (10_state.md R24, R25), the flag computations
(42_arm_data_processing.md R203, R204; 47_thumb_alu.md R362) and the condition test
(40_cycle_pipeline_conditions.md R160). -/

namespace Sys2Proof.Machine

/-! ### Modes -/

/-- The seven modes (R25). -/
inductive Mode where
  | usr | fiq | irq | svc | abt | und | sys
  deriving DecidableEq, Repr

/-- The register banks; USR and SYS share one (R28, R30). -/
inductive Bank where
  | usr | fiq | irq | svc | abt | und
  deriving DecidableEq, Repr

/-- The 5-bit mode number (R25). -/
def Mode.bits : Mode → BitVec 5
  | .usr => 0x10#5
  | .fiq => 0x11#5
  | .irq => 0x12#5
  | .svc => 0x13#5
  | .abt => 0x17#5
  | .und => 0x1B#5
  | .sys => 0x1F#5

/-- The mode a 5-bit number names; every other number is invalid (R25). -/
def Mode.ofBits (b : BitVec 5) : Option Mode :=
  match b with
  | 0x10#5 => some .usr
  | 0x11#5 => some .fiq
  | 0x12#5 => some .irq
  | 0x13#5 => some .svc
  | 0x17#5 => some .abt
  | 0x1B#5 => some .und
  | 0x1F#5 => some .sys
  | _ => none

/-- `bank(m)` (R30). -/
def Mode.bank : Mode → Bank
  | .usr => .usr
  | .fiq => .fiq
  | .irq => .irq
  | .svc => .svc
  | .abt => .abt
  | .und => .und
  | .sys => .usr

/-! ### Fields of a status register -/

/-- The four flags. -/
structure Flags where
  n : Bool
  z : Bool
  c : Bool
  v : Bool
  deriving DecidableEq, Repr

def Psr.flags (p : Word) : Flags := ⟨p.getLsbD 31, p.getLsbD 30, p.getLsbD 29, p.getLsbD 28⟩

def Psr.i (p : Word) : Bool := p.getLsbD 7

def Psr.f (p : Word) : Bool := p.getLsbD 6

def Psr.t (p : Word) : Bool := p.getLsbD 5

def Psr.modeBits (p : Word) : BitVec 5 := p.extractLsb' 0 5

/-- Bits 23 to 8, always 0 (R24; D25). -/
def Psr.reserved (p : Word) : BitVec 16 := p.extractLsb' 8 16

def Psr.withFlags (p : Word) (f : Flags) : Word :=
  BitVec.ofBool f.n ++ BitVec.ofBool f.z ++ BitVec.ofBool f.c ++ BitVec.ofBool f.v ++ p.extractLsb' 0 28

def Psr.withI (p : Word) (b : Bool) : Word := p.extractLsb' 8 24 ++ BitVec.ofBool b ++ p.extractLsb' 0 7

def Psr.withF (p : Word) (b : Bool) : Word := p.extractLsb' 7 25 ++ BitVec.ofBool b ++ p.extractLsb' 0 6

def Psr.withT (p : Word) (b : Bool) : Word := p.extractLsb' 6 26 ++ BitVec.ofBool b ++ p.extractLsb' 0 5

def Psr.withMode (p : Word) (m : Mode) : Word := p.extractLsb' 5 27 ++ m.bits

/-! ### Results and their flags -/

/-- A 32-bit result with the carry and overflow it gives. -/
structure AluResult where
  value : Word
  c : Bool
  v : Bool
  deriving DecidableEq, Repr

/-- N is bit 31 of the result, Z says that it is zero (R201). -/
def AluResult.flags (r : AluResult) : Flags := ⟨r.value.msb, r.value == 0#32, r.c, r.v⟩

/-- `AddWithCarry(a, b, c)` with unbounded sums (R204). -/
def addWithCarry (a b : Word) (c : Bool) : AluResult :=
  let s := a.toNat + b.toNat + c.toNat
  let r := BitVec.ofNat 32 s
  ⟨r, decide (2 ^ 32 ≤ s), a.msb == b.msb && r.msb != a.msb⟩

/-- `SubWithCarry(a, b, c)`; `c` true is plain subtraction (R204). -/
def subWithCarry (a b : Word) (c : Bool) : AluResult :=
  let borrow := (!c).toNat
  let r := BitVec.ofInt 32 ((a.toNat : Int) - b.toNat - borrow)
  ⟨r, decide (b.toNat + borrow ≤ a.toNat), a.msb != b.msb && r.msb != a.msb⟩

/-- A logical result: C is the shifter carry, V is unchanged (R203). -/
def logicalResult (value : Word) (shifterCarry : Bool) (old : Flags) : AluResult := ⟨value, shifterCarry, old.v⟩

/-- N and Z of a result, C and V unchanged (R242, R362). -/
def nzResult (value : Word) (old : Flags) : AluResult := ⟨value, old.c, old.v⟩

/-- N and Z of a 64-bit result, C and V unchanged (R245 to R248; D22). -/
def nzFlags64 (r : BitVec 64) (old : Flags) : Flags := ⟨r.msb, r == 0#64, old.c, old.v⟩

/-- A data-processing operation: operand 1, operand 2, shifter carry and the flags before the instruction (R201). -/
abbrev AluOp := Word → Word → Bool → Flags → AluResult

/-! ### Conditions -/

/-- `ConditionPassed` (R160). -/
def conditionPassed (cond : Cond) (f : Flags) : Bool :=
  match cond with
  | .eq => f.z
  | .ne => !f.z
  | .cs => f.c
  | .cc => !f.c
  | .mi => f.n
  | .pl => !f.n
  | .vs => f.v
  | .vc => !f.v
  | .hi => f.c && !f.z
  | .ls => !f.c || f.z
  | .ge => f.n == f.v
  | .lt => f.n != f.v
  | .gt => !f.z && f.n == f.v
  | .le => f.z || f.n != f.v
  | .al => true
  | .nv => true

end Sys2Proof.Machine
end

