-- ==== Sys2Proof/Config.lean ====
section
/-! DEFINITION. The implementation parameters a machine takes as arguments (00_scope.md R5). -/

namespace Sys2Proof

/-- The two compile-time toggles that 00_scope.md R5 marks "argument, default true". They are fixed for one machine:
no step changes them (log 5). -/
structure Config where
  /-- FIQ_ENABLED: when false, 0x40 (the F bit) is OR'd into every MSR write of a control byte. -/
  fiqEnabled : Bool
  /-- DEBUG_BREAKPOINTS: enables the breakpoint check at the end of a step. -/
  debugBreakpoints : Bool
  deriving DecidableEq, Repr

/-- The default values of 00_scope.md R5. -/
def Config.standard : Config := { fiqEnabled := true, debugBreakpoints := true }

end Sys2Proof
end

