-- ==== Sys2Proof/Machine/State.lean ====
section
/-! DEFINITION. The state of the machine (10_state.md), the reasons a step can stop, and the state after reset
(70_reset_and_hazards.md R560, R561). "R<n>" in the docstrings of this package is rule R<n> of spec/, "D<n>" a decision of
92_eei_decisions.md, "log <n>" the row notes/assumptions/<n>.md. -/

namespace Sys2Proof.Machine

/-- Width of a bus access: 8, 16 or 32 bits (R70, R80). -/
inductive Width where
  | byte | half | word
  deriving DecidableEq, Repr

/-- One transaction the core puts on its ports (R7, R70 to R72). `seq` is the sequential flag (R78). -/
inductive PortEvent where
  /-- An instruction fetch and its reply. -/
  | codeRead (width : Width) (addr : Word) (seq : Bool) (value : Word)
  /-- A data read and its reply. -/
  | dataRead (width : Width) (addr : Word) (seq : Bool) (value : Word)
  /-- A data write. -/
  | dataWrite (width : Width) (addr : Word) (value : Word) (seq : Bool)
  /-- `iCycle(n)`. -/
  | iCycle (n : Nat)
  /-- `breakpoint()`. -/
  | breakpoint
  /-- `hacf()`. -/
  | hacf
  deriving DecidableEq, Repr

/-- The whole state. General registers are held as the physical registers of R30 (log 6). -/
structure State where
  /-- The banked register file without R15, by physical number: 0 to 7 = R0 to R7; 8 to 12 = R8_usr to R12_usr;
  13, 14 = R13_usr, R14_usr; 15 to 19 = R8_fiq to R12_fiq; then R13, R14 of FIQ (20, 21), IRQ (22, 23), SVC (24, 25),
  ABT (26, 27), UND (28, 29) (R20, R28, R30). -/
  regs : Vector Word 30
  /-- R15, the program counter (R22). -/
  r15 : Word
  /-- CPSR (R24). -/
  cpsr : Word
  /-- The SPSRs of the five exception modes (R27). -/
  spsrFiq : Word
  spsrIrq : Word
  spsrSvc : Word
  spsrAbt : Word
  spsrUnd : Word
  /-- The pipeline slots (R40). -/
  p1 : Word
  p2 : Word
  p3 : Word
  /-- True: the next fetch is sequential (R42). -/
  nextFetchType : Bool
  /-- The two interrupt requests (R45). -/
  pendingFiq : Bool
  pendingIrq : Bool
  /-- The breakpoint index BP, as a strictly rising list (R47). -/
  breakpoints : List Word
  /-- Set by HACF, cleared by reset only (R48). -/
  halted : Bool
  /-- The memory behind the port: listed bytes in rising order of address (R74; log 1, log 2). -/
  mem : List Host.Cell
  /-- The port transactions of the latest step, oldest first. The model's own field (log 4). -/
  port : List PortEvent
  /-- The two toggles of R5, which no step changes (log 5). -/
  toggles : Config
  deriving DecidableEq, Repr

/-- No rule of the spec stops the machine with a fault: aborts, alignment faults and privilege faults do not exist
(R86, R500) and HACF is a next state with `halted` set (R12, R48; log 7). Nothing raises one. -/
inductive Fault where
  deriving DecidableEq, Repr

/-- Reasons for having no meaning. -/
inductive Refusal where
  /-- Raised by an arm of `exec` whose instruction has no meaning yet (safe); no arm raises it. -/
  | notModelled (mnemonic : String)
  deriving DecidableEq, Repr

/-- The outcome of one step of this machine. -/
abbrev Result := Host.Outcome State Fault Refusal

/-- The state after reset on a memory that lists nothing (R560, R561). The breakpoint index, which reset does not change,
is empty (log 3); an unlisted byte reads as 0, so the two words that the reset flush reads are 0 (log 2). -/
def State.reset : State where
  regs := Vector.replicate 30 0#32
  r15 := 0x00000008#32
  cpsr := 0x000000D3#32
  spsrFiq := 0#32
  spsrIrq := 0#32
  spsrSvc := 0#32
  spsrAbt := 0#32
  spsrUnd := 0#32
  p1 := 0#32
  p2 := 0#32
  p3 := 0#32
  nextFetchType := true
  pendingFiq := false
  pendingIrq := false
  breakpoints := []
  halted := false
  mem := []
  port := [.codeRead .word 0#32 false 0#32, .codeRead .word 4#32 true 0#32]
  toggles := Config.standard

end Sys2Proof.Machine
end

