-- ==== Sys2Proof/Machine/Memory.lean ====
section
/-! DEFINITION. The memory behind the port: the reference environment of 20_memory.md R74, a flat little-endian array of
2^32 bytes held as the list of the bytes that differ from what an unlisted address reads as. -/

namespace Sys2Proof.Machine

abbrev Memory := List Host.Cell

/-- What an unlisted address reads as (log 2). -/
def Memory.unlisted : Byte := 0#8

/-- One byte. -/
def Memory.read : Memory → Nat → Byte
  | [], _ => Memory.unlisted
  | (k, b) :: rest, a => if k = a then b else Memory.read rest a

/-- Drops the entry of an address. -/
def Memory.erase (a : Nat) : Memory → Memory
  | [] => []
  | (k, b) :: rest => if k = a then rest else (k, b) :: Memory.erase a rest

/-- Puts an entry at its place in the rising order, over an older one. -/
def Memory.insert (a : Nat) (v : Byte) : Memory → Memory
  | [] => [(a, v)]
  | (k, b) :: rest =>
    if a < k then (a, v) :: (k, b) :: rest
    else if k = a then (a, v) :: rest
    else (k, b) :: Memory.insert a v rest

/-- One byte written, in canonical form. -/
def Memory.write (m : Memory) (a : Nat) (v : Byte) : Memory :=
  if v = Memory.unlisted then Memory.erase a m else Memory.insert a v m

/-- The canonical form: addresses strictly rising and inside the address space (R50), no entry equal to the unlisted
value. -/
abbrev Memory.wf (m : Memory) : Prop :=
  m.Pairwise (fun x y => x.1 < y.1) ∧ ∀ c ∈ m, c.1 < 2 ^ 32 ∧ c.2 ≠ Memory.unlisted

/-- The address the port uses: low bits of a wide access are ignored (R74). -/
def Width.align (w : Width) (addr : Word) : Word :=
  match w with
  | .byte => addr
  | .half => addr.extractLsb' 1 31 ++ 0#1
  | .word => addr.extractLsb' 2 30 ++ 0#2

/-- Width in bytes. -/
def Width.bytes : Width → Nat
  | .byte => 1
  | .half => 2
  | .word => 4

/-- The low 8, 16 or 32 bits of a register value (R71). -/
def Width.truncate (w : Width) (v : Word) : Word :=
  match w with
  | .byte => (v.extractLsb' 0 8).setWidth 32
  | .half => (v.extractLsb' 0 16).setWidth 32
  | .word => v

/-- `read<W>`: the zero-extended little-endian value (R70, R74, R75). -/
def Memory.readWidth (m : Memory) (w : Width) (addr : Word) : Word :=
  let a := (w.align addr).toNat
  match w with
  | .byte => (Memory.read m a).setWidth 32
  | .half => (Memory.read m (a + 1) ++ Memory.read m a).setWidth 32
  | .word => Memory.read m (a + 3) ++ Memory.read m (a + 2) ++ Memory.read m (a + 1) ++ Memory.read m a

/-- `write<W>` (R71, R74, R75). -/
def Memory.writeWidth (m : Memory) (w : Width) (addr : Word) (v : Word) : Memory :=
  let a := (w.align addr).toNat
  match w with
  | .byte => m.write a (v.extractLsb' 0 8)
  | .half => (m.write a (v.extractLsb' 0 8)).write (a + 1) (v.extractLsb' 8 8)
  | .word =>
    (((m.write a (v.extractLsb' 0 8)).write (a + 1) (v.extractLsb' 8 8)).write (a + 2) (v.extractLsb' 16 8)).write
      (a + 3) (v.extractLsb' 24 8)

end Sys2Proof.Machine
end

