-- ==== Sys2Proof/Machine/Ops.lean ====
section
/-! DEFINITION. The operations every instruction is written over: the port, the banked registers, the pipeline primitives,
mode changes, taking an exception and returning from one, the fatal halt, and the input operations of the environment
(10_state.md, 20_memory.md, 40_cycle_pipeline_conditions.md, 60_exceptions.md, 70_reset_and_hazards.md). -/

namespace Sys2Proof.Machine

/-! ### The port -/

def State.emit (s : State) (e : PortEvent) : State := { s with port := s.port ++ [e] }

/-- `iCycle(n)` changes no core state (R72). -/
def State.internalCycle (s : State) (n : Nat) : State := s.emit (.iCycle n)

/-- The reply to a read (R70, R74). -/
def State.reply (s : State) (w : Width) (addr : Word) : Word := Memory.readWidth s.mem w addr

/-- A data read: the transaction; its value is `reply` (R70). -/
def State.dataRead (s : State) (w : Width) (addr : Word) (seq : Bool) : State :=
  s.emit (.dataRead w addr seq (s.reply w addr))

/-- A data write of the low bits of a value (R71, R74). -/
def State.dataWrite (s : State) (w : Width) (addr value : Word) (seq : Bool) : State :=
  { s.emit (.dataWrite w addr (w.truncate value) seq) with mem := Memory.writeWidth s.mem w addr value }

/-! ### Registers -/

/-- The bank of the current mode. A mode field that names no mode does not occur; it reads as the user bank (log 18). -/
def State.bank (s : State) : Bank :=
  match Mode.ofBits (Psr.modeBits s.cpsr) with
  | some m => m.bank
  | none => .usr

/-- The physical register that register `n` names in a bank; `none` is R15 (R28, R30). -/
def physReg (b : Bank) (n : Reg) : Option (Fin 30) :=
  match n, b with
  | 0#4, _ => some 0 | 1#4, _ => some 1 | 2#4, _ => some 2 | 3#4, _ => some 3
  | 4#4, _ => some 4 | 5#4, _ => some 5 | 6#4, _ => some 6 | 7#4, _ => some 7
  | 8#4, .fiq => some 15 | 9#4, .fiq => some 16 | 10#4, .fiq => some 17 | 11#4, .fiq => some 18 | 12#4, .fiq => some 19
  | 8#4, _ => some 8 | 9#4, _ => some 9 | 10#4, _ => some 10 | 11#4, _ => some 11 | 12#4, _ => some 12
  | 13#4, .usr => some 13 | 13#4, .fiq => some 20 | 13#4, .irq => some 22
  | 13#4, .svc => some 24 | 13#4, .abt => some 26 | 13#4, .und => some 28
  | 14#4, .usr => some 14 | 14#4, .fiq => some 21 | 14#4, .irq => some 23
  | 14#4, .svc => some 25 | 14#4, .abt => some 27 | 14#4, .und => some 29
  | _, _ => none

def State.readRegOf (s : State) (b : Bank) (n : Reg) : Word :=
  match physReg b n with
  | some i => s.regs[i]
  | none => s.r15

def State.writeRegOf (s : State) (b : Bank) (n : Reg) (v : Word) : State :=
  match physReg b n with
  | some i => { s with regs := s.regs.set i v }
  | none => { s with r15 := v }

/-- `R[n]` (R10, R20). -/
def State.readReg (s : State) (n : Reg) : Word := s.readRegOf s.bank n

/-- `R[n] <- v`; a write of R15 does not flush by itself (R10). -/
def State.writeReg (s : State) (n : Reg) (v : Word) : State := s.writeRegOf s.bank n v

/-- The USR/SYS copy of a register, `UserReg[r]` (R305). -/
def State.readUserReg (s : State) (n : Reg) : Word := s.readRegOf .usr n

def State.writeUserReg (s : State) (n : Reg) (v : Word) : State := s.writeRegOf .usr n v

/-! ### Status registers -/

def State.flags (s : State) : Flags := Psr.flags s.cpsr

def State.setFlags (s : State) (f : Flags) : State := { s with cpsr := Psr.withFlags s.cpsr f }

/-- The SPSR of a bank; the user bank has none (R27). -/
def State.spsrOf (s : State) (b : Bank) : Option Word :=
  match b with
  | .usr => none
  | .fiq => some s.spsrFiq
  | .irq => some s.spsrIrq
  | .svc => some s.spsrSvc
  | .abt => some s.spsrAbt
  | .und => some s.spsrUnd

/-- Writes the SPSR of a bank; nothing is written for the user bank (R27, R331). -/
def State.writeSpsrOf (s : State) (b : Bank) (v : Word) : State :=
  match b with
  | .usr => s
  | .fiq => { s with spsrFiq := v }
  | .irq => { s with spsrIrq := v }
  | .svc => { s with spsrSvc := v }
  | .abt => { s with spsrAbt := v }
  | .und => { s with spsrUnd := v }

/-- `currentSPSR()`: the SPSR of the current mode, or CPSR in USR and SYS mode (R32). -/
def State.currentSpsr (s : State) : Word := (s.spsrOf s.bank).getD s.cpsr

/-! ### Pipeline -/

/-- `width`: 2 bytes in Thumb state, 4 in ARM state (R10). -/
def State.width (s : State) : Width := if Psr.t s.cpsr then .half else .word

def State.widthBytes (s : State) : Word := if Psr.t s.cpsr then 2#32 else 4#32

/-- `fetchOpcode()`, with the word just fetched going to p2 (R152; C1). -/
def State.fetchOpcode (s : State) : State :=
  let v := s.reply s.width s.r15
  { s.emit (.codeRead s.width s.r15 s.nextFetchType v) with
    p1 := v, p2 := v, p3 := s.p2, r15 := s.r15 + s.widthBytes, nextFetchType := true }

/-- `flushPipeline()` (R153). -/
def State.flushPipeline (s : State) : State :=
  let t := s.width.align s.r15
  let v3 := s.reply s.width t
  let v2 := s.reply s.width (t + s.widthBytes)
  { (s.emit (.codeRead s.width t false v3)).emit (.codeRead s.width (t + s.widthBytes) true v2) with
    p1 := v2, p2 := v2, p3 := v3, r15 := t + s.widthBytes + s.widthBytes, nextFetchType := true }

/-- `pc <- target` (R10). -/
def State.jump (s : State) (target : Word) : State := ({ s with r15 := target } : State).flushPipeline

/-- An ARM instruction runs when its condition passes; otherwise it only fetches (R150, R160, R161). -/
def State.conditional (s : State) (cond : Cond) (body : State → State) : State :=
  if conditionPassed cond s.flags then body s else s.fetchOpcode

/-! ### The fatal halt -/

/-- HACF: the port signal and `halted`, nothing else (R520). -/
def State.hacf (s : State) : State := { s.emit .hacf with halted := true }

/-! ### Mode changes, exceptions and the return -/

/-- `bankRegisters(newMode, true)` of an exception mode: SPSR of the new mode <- CPSR, then the mode changes. In the
physical-register view no register moves (R30, R31). -/
def State.enterMode (s : State) (m : Mode) : State :=
  let s' := s.writeSpsrOf m.bank s.cpsr
  { s' with cpsr := Psr.withMode s.cpsr m }

/-- `leaveMode()`: CPSR <- the current SPSR; `none` when its mode field is invalid, which is HACF (R31, R33; D26). -/
def State.leaveMode (s : State) : Option State :=
  match Mode.ofBits (Psr.modeBits s.currentSpsr) with
  | some _ => some { s with cpsr := s.currentSpsr }
  | none => none

/-- The four exceptions (R500). -/
inductive Exception where
  | fiq | irq | swi | undefined
  deriving DecidableEq, Repr

/-- Mode entered (R500, R505). -/
def Exception.mode : Exception → Mode
  | .fiq => .fiq
  | .irq => .irq
  | .swi => .svc
  | .undefined => .und

/-- Vector (R85, R500). -/
def Exception.vector : Exception → Word
  | .fiq => 0x0000001C#32
  | .irq => 0x00000018#32
  | .swi => 0x00000008#32
  | .undefined => 0x00000004#32

/-- F is set by FIQ and IRQ entry and unchanged by the other two (R505; D11). -/
def Exception.masksFiq : Exception → Bool
  | .fiq => true
  | .irq => true
  | .swi => false
  | .undefined => false

/-- Taking an exception: SPSR of the new mode <- CPSR, the mode, R14 of the new mode <- `link`, I set, F set or
unchanged, T cleared, R15 <- the vector, flush (R501 to R505). -/
def State.takeException (s : State) (x : Exception) (link : Word) : State :=
  let s1 := (s.enterMode x.mode).writeReg 14#4 link
  let p := Psr.withI s1.cpsr true
  let p := if x.masksFiq then Psr.withF p true else p
  ({ s1 with cpsr := Psr.withT p false } : State).jump x.vector

/-- R14 at FIQ and IRQ entry: the address of the instruction not executed, plus 4 (R501, R502). -/
def State.interruptLink (s : State) : Word := s.r15 - (if Psr.t s.cpsr then 0#32 else 4#32)

/-- FIQ entry (R501). -/
def State.enterFiq (s : State) : State :=
  ({ s with pendingFiq := false } : State).takeException .fiq s.interruptLink

/-- IRQ entry (R502; D10). -/
def State.enterIrq (s : State) : State :=
  ({ s with pendingIrq := false } : State).takeException .irq s.interruptLink

/-- Software-interrupt entry: the fetch first, R14_svc = the address of the next instruction (R503). -/
def State.enterSwi (s : State) : State :=
  let s1 := s.fetchOpcode
  s1.takeException .swi (s1.r15 - (if Psr.t s1.cpsr then 4#32 else 8#32))

/-- Undefined-instruction entry: R14_und from R15 before the fetch; the fetch has the old width (R504; log 21). -/
def State.enterUndefined (s : State) : State :=
  s.fetchOpcode.takeException .undefined (s.r15 - (if Psr.t s.cpsr then 2#32 else 4#32))

/-! ### Breakpoint check -/

/-- `breakpointCheck()`: an output only (R155, R533). -/
def State.breakpointCheck (s : State) : State :=
  if s.toggles.debugBreakpoints && s.breakpoints.contains (s.r15 - s.widthBytes - s.widthBytes) then s.emit .breakpoint
  else s

/-! ### What the environment does between steps (R7, R8) -/

/-- Reset: memory, breakpoint index and toggles stay (R560, R561). -/
def State.resetInput (s : State) : State :=
  ({ State.reset with mem := s.mem, breakpoints := s.breakpoints, toggles := s.toggles, port := [] } : State).jump 0#32

def State.setPendingFiq (s : State) (b : Bool) : State := { s with pendingFiq := b }

def State.setPendingIrq (s : State) (b : Bool) : State := { s with pendingIrq := b }

/-- An address put at its place in a rising list without repeats. -/
def insertAddress (a : Word) : List Word → List Word
  | [] => [a]
  | x :: xs => if a < x then a :: x :: xs else if a = x then x :: xs else x :: insertAddress a xs

/-- `addBreakpoint(addr)` (R47). -/
def State.addBreakpoint (s : State) (addr : Word) : State := { s with breakpoints := insertAddress addr s.breakpoints }

/-- `removeBreakpoint(addr)` (R47). -/
def State.removeBreakpoint (s : State) (addr : Word) : State := { s with breakpoints := s.breakpoints.erase addr }

/-- A step starts with no transaction recorded (log 4). -/
def State.beginStep (s : State) : State := { s with port := [] }

end Sys2Proof.Machine
end

