-- ==== Sys2Proof/Machine/Operands.lean ====
section
/-! DEFINITION. Operand forms: the barrel shifter (41_shifter.md), the offsets and addresses of transfers
(44_arm_load_store.md R260 to R262), the values loads deliver (R270 to R284, 20_memory.md R76, R77), register lists
(45_arm_block_transfer.md R301, R302) and the multiplier's cycle count (43_arm_multiply.md R241). -/

namespace Sys2Proof.Machine

/-! ### Barrel shifter -/

/-- The shifter's operand and carry (R180). -/
structure Shifted where
  value : Word
  carry : Bool
  deriving DecidableEq, Repr

/-- `ShiftImm(type, v, amt)`; an amount of 0 is LSL #0, LSR #32, ASR #32 or RRX (R182, R186). -/
def shiftImm (type : ShiftType) (v : Word) (amt : BitVec 5) (c : Bool) : Shifted :=
  let n := amt.toNat
  match type with
  | .lsl => if n = 0 then ⟨v, c⟩ else ⟨v <<< n, v.getLsbD (32 - n)⟩
  | .lsr => if n = 0 then ⟨0#32, v.msb⟩ else ⟨v >>> n, v.getLsbD (n - 1)⟩
  | .asr => if n = 0 then ⟨v.sshiftRight 32, v.msb⟩ else ⟨v.sshiftRight n, v.getLsbD (n - 1)⟩
  | .ror => if n = 0 then ⟨BitVec.ofBool c ++ v.extractLsb' 1 31, v.getLsbD 0⟩ else ⟨v.rotateRight n, v.getLsbD (n - 1)⟩

/-- `ShiftReg(type, v, amt)`; an amount of 0 shifts nothing and keeps C (R182, R187). -/
def shiftReg (type : ShiftType) (v : Word) (amt : BitVec 8) (c : Bool) : Shifted :=
  let n := amt.toNat
  if n = 0 then ⟨v, c⟩
  else
    match type with
    | .lsl =>
      if n < 32 then ⟨v <<< n, v.getLsbD (32 - n)⟩
      else if n = 32 then ⟨0#32, v.getLsbD 0⟩
      else ⟨0#32, false⟩
    | .lsr =>
      if n < 32 then ⟨v >>> n, v.getLsbD (n - 1)⟩
      else if n = 32 then ⟨0#32, v.msb⟩
      else ⟨0#32, false⟩
    | .asr => if n < 32 then ⟨v.sshiftRight n, v.getLsbD (n - 1)⟩ else ⟨v.sshiftRight 32, v.msb⟩
    | .ror => if n % 32 = 0 then ⟨v, v.msb⟩ else ⟨v.rotateRight (n % 32), v.getLsbD (n % 32 - 1)⟩

/-- The rotated 8-bit immediate (R181). -/
def rotatedImm (rot : BitVec 4) (imm8 : BitVec 8) (c : Bool) : Shifted :=
  let v := (imm8.setWidth 32).rotateRight (2 * rot.toNat)
  ⟨v, if rot = 0#4 then c else v.msb⟩

/-- Operand 2 of data processing (R180 to R184). Registers are read in the state given: after the early fetch when the
amount is in a register (R202). -/
def State.shifter (s : State) (op2 : Operand2) : Shifted :=
  match op2 with
  | .imm rot imm8 => rotatedImm rot imm8 s.flags.c
  | .immShift type amt rm => shiftImm type (s.readReg rm) amt s.flags.c
  | .regShift type rs rm => shiftReg type (s.readReg rm) ((s.readReg rs).extractLsb' 0 8) s.flags.c

/-- The register-specified form, whose fetch comes first (R202). -/
def isRegShift : Operand2 → Bool
  | .imm _ _ => false
  | .immShift _ _ _ => false
  | .regShift _ _ _ => true

/-! ### Addresses of single transfers -/

/-- Offset of a single data transfer; the carry is discarded (R183, R185, R261). -/
def State.offset (s : State) (off : Offset) : Word :=
  match off with
  | .imm imm12 => imm12.setWidth 32
  | .shifted type amt rm => (shiftImm type (s.readReg rm) amt s.flags.c).value

/-- Offset of a halfword transfer (R261). -/
def State.halfOffset (s : State) (off : HalfOffset) : Word :=
  match off with
  | .imm imm8 => imm8.setWidth 32
  | .reg _ rm => s.readReg rm

/-- Base plus or minus offset, modulo 2^32 (R261). -/
def indexed (ix : Indexing) (base offset : Word) : Word := if ix.u then base + offset else base - offset

/-- The address used: the index when pre-indexed, else the base (R261). -/
def transferAddress (ix : Indexing) (base offset : Word) : Word := if ix.p then indexed ix base offset else base

/-- The written-back base, if any: always when post-indexed, with W when pre-indexed (R261, R265). -/
def writeBackValue (ix : Indexing) (base offset : Word) : Option Word :=
  if !ix.p || ix.w then some (indexed ix base offset) else none

/-- Writes the base register back, if there is a value (R263). -/
def State.writeBack (s : State) (rn : Reg) : Option Word → State
  | some v => s.writeReg rn v
  | none => s

/-! ### Values that loads deliver -/

/-- What a load does with the reply of its read. -/
inductive LoadKind where
  | word | byte | half | signedByte | signedHalf
  deriving DecidableEq, Repr

/-- Width of the read (R80). -/
def LoadKind.width : LoadKind → Width
  | .word => .word
  | .byte => .byte
  | .half => .half
  | .signedByte => .byte
  | .signedHalf => .half

/-- The value delivered from the reply at an address: words and halfwords are rotated by the low address bits (R76, R77,
R270, R281), LDRSH at an odd address gives the sign-extended byte (R284; D16). -/
def LoadKind.deliver (k : LoadKind) (addr reply : Word) : Word :=
  match k with
  | .word => reply.rotateRight (8 * (addr.extractLsb' 0 2).toNat)
  | .byte => reply
  | .half => reply.rotateRight (8 * (addr.extractLsb' 0 1).toNat)
  | .signedByte => (reply.extractLsb' 0 8).signExtend 32
  | .signedHalf =>
    if addr.getLsbD 0 then (reply.extractLsb' 8 8).signExtend 32 else (reply.extractLsb' 0 16).signExtend 32

/-- The value a load of a kind delivers from an address. -/
def State.loadValue (s : State) (k : LoadKind) (addr : Word) : Word := k.deliver addr (s.reply k.width addr)

/-! ### Block transfers -/

/-- The registers of a list in ascending order; an empty list transfers R15 (R301). -/
def registerList (list : BitVec 16) : List Reg :=
  if list = 0#16 then [15#4] else ((List.range 16).filter (fun r => list.getLsbD r)).map (BitVec.ofNat 4)

/-- The count n of R302: 16 for an empty list (R301). -/
def registerCount (list : BitVec 16) : Nat := if list = 0#16 then 16 else (registerList list).length

/-- The address of the first transfer (R302). -/
def blockStart (ix : Indexing) (base : Word) (n : Nat) : Word :=
  if ix.u then base + (if ix.p then 4#32 else 0#32)
  else base - BitVec.ofNat 32 (4 * n) + (if ix.p then 0#32 else 4#32)

/-- The write-back value (R302). -/
def blockWriteBack (ix : Indexing) (base : Word) (n : Nat) : Word :=
  if ix.u then base + BitVec.ofNat 32 (4 * n) else base - BitVec.ofNat 32 (4 * n)

/-! ### Multiplier cycles -/

/-- Number of leading zero bits, 32 for 0 (R241). -/
def leadingZeros (x : Word) : Nat := x.clz.toNat

/-- `((31 - max(leading-zeros, leading-ones)) / 8) + 1`; 31 - 32 divides to 0 (R241). -/
def multiplierCyclesSigned (x : Word) : Nat := (31 - max (leadingZeros x) (leadingZeros (~~~x))) / 8 + 1

/-- The same with leading zeros only (R241). -/
def multiplierCyclesUnsigned (x : Word) : Nat := (31 - leadingZeros x) / 8 + 1

end Sys2Proof.Machine
end

