-- ==== Sys2Proof/Machine/BlockTransfer.lean ====
section
/-! DEFINITION. ARM block data transfer (45_arm_block_transfer.md), also run by Thumb PUSH, POP, STMIA and LDMIA. -/

namespace Sys2Proof.Machine

/-- The loads of R304, in ascending order of register: the first is non-sequential, and the write-back, if any, comes
right after the first read and before the first register is written. -/
def State.loadRegisters (s : State) (userBank : Bool) (rn : Reg) (wb : Option Word) (regs : List Reg) (addr : Word)
    (seq : Bool) : State :=
  match regs with
  | [] => s
  | r :: rest =>
    let v := s.reply .word addr
    let s1 := (s.dataRead .word addr seq).writeBack rn wb
    let s2 := if userBank then s1.writeUserReg r v else s1.writeReg r v
    s2.loadRegisters userBank rn none rest (addr + 4#32) true

/-- The stores of R304: each register is read when its turn comes (R303), the write-back follows the first write. -/
def State.storeRegisters (s : State) (userBank : Bool) (rn : Reg) (wb : Option Word) (regs : List Reg) (addr : Word)
    (seq : Bool) : State :=
  match regs with
  | [] => s
  | r :: rest =>
    let v := if userBank then s.readUserReg r else s.readReg r
    let s1 := (s.dataWrite .word addr v seq).writeBack rn wb
    s1.storeRegisters userBank rn none rest (addr + 4#32) true

/-- The write-back value when W is set (R302, R304). -/
def State.blockBase (s : State) (ix : Indexing) (rn : Reg) (list : BitVec 16) : Option Word :=
  if ix.w then some (blockWriteBack ix (s.readReg rn) (registerCount list)) else none

/-- The address of the first transfer (R302). -/
def State.blockAddress (s : State) (ix : Indexing) (rn : Reg) (list : BitVec 16) : Word :=
  blockStart ix (s.readReg rn) (registerCount list)

/-- The end of a load of R15: `leaveMode()` when S is set (HACF on an invalid mode), then the flush (R304, R306). -/
def State.finishLoadPc (s : State) (sBit : Bool) : State :=
  if sBit then
    match s.leaveMode with
    | some s' => s'.flushPipeline
    | none => s.hacf
  else s.flushPipeline

/-- BlockTransfer with L == 1 (R304): S without R15 loaded uses the user bank (R305). -/
def State.loadMultiple (s : State) (ix : Indexing) (sBit : Bool) (rn : Reg) (list : BitVec 16) : State :=
  let regs := registerList list
  let loadsPc := regs.contains 15#4
  let s1 := s.fetchOpcode.loadRegisters (sBit && !loadsPc) rn (s.blockBase ix rn list) regs (s.blockAddress ix rn list) false
  let s2 := s1.internalCycle 1
  if loadsPc then s2.finishLoadPc sBit else s2

/-- BlockTransfer with L == 0 (R304): S uses the user bank (R305). The fetch comes before the first write (R90; log 25). -/
def State.storeMultiple (s : State) (ix : Indexing) (sBit : Bool) (rn : Reg) (list : BitVec 16) : State :=
  let s1 := s.fetchOpcode.storeRegisters sBit rn (s.blockBase ix rn list) (registerList list) (s.blockAddress ix rn list)
    false
  { s1 with nextFetchType := false }

/-- LDM (R310). -/
def execLdm (cond : Cond) (ix : Indexing) (sBit : Bool) (rn : Reg) (list : BitVec 16) (s : State) : Result :=
  .next (s.conditional cond fun s => s.loadMultiple ix sBit rn list)

/-- STM (R311). -/
def execStm (cond : Cond) (ix : Indexing) (sBit : Bool) (rn : Reg) (list : BitVec 16) (s : State) : Result :=
  .next (s.conditional cond fun s => s.storeMultiple ix sBit rn list)

end Sys2Proof.Machine
end

