-- ==== Sys2Proof/Machine/DataProcessing.lean ====
section
/-! DEFINITION. ARM data processing (42_arm_data_processing.md): the common sequence R201, then one meaning for each of the
sixteen instructions and for the irregular test opcodes. -/

namespace Sys2Proof.Machine

/-- The early fetch and internal cycle of the register-specified shift (R202). -/
def State.operandFetch (s : State) (op2 : Operand2) : State :=
  if isRegShift op2 then s.fetchOpcode.internalCycle 1 else s

/-- The closing fetch of the other two forms (R201, R202). -/
def State.closingFetch (s : State) (op2 : Operand2) : State := if isRegShift op2 then s else s.fetchOpcode

/-- The result of the operation on the operands as this state shows them. -/
def State.dpResult (s : State) (op : AluOp) (rn : Reg) (op2 : Operand2) : AluResult :=
  op (s.readReg rn) (s.shifter op2).value (s.shifter op2).carry s.flags

/-- What the S bit does: `leaveMode()` when Rd is R15, else the flags; `none` is HACF (R201, R205). -/
def State.dpStatus (s : State) (setFlags : Bool) (rd : Reg) (r : AluResult) : Option State :=
  if setFlags && rd == 15#4 then s.leaveMode
  else if setFlags then some (s.setFlags r.flags)
  else some s

/-- Data processing with a destination register (R201, R207). -/
def State.dataProcessing (s : State) (op : AluOp) (setFlags : Bool) (rn rd : Reg) (op2 : Operand2) : State :=
  let s1 := s.operandFetch op2
  let r := s1.dpResult op rn op2
  match s1.dpStatus setFlags rd r with
  | none => s1.hacf
  | some s2 =>
    if rd = 15#4 then (s2.closingFetch op2).jump r.value
    else (s2.writeReg rd r.value).closingFetch op2

/-- A test opcode: no register is written and the pipeline is not flushed (R201, R205, R206). -/
def State.testProcessing (s : State) (op : AluOp) (setFlags : Bool) (rn rd : Reg) (op2 : Operand2) : State :=
  let s1 := s.operandFetch op2
  match s1.dpStatus setFlags rd (s1.dpResult op rn op2) with
  | none => s1.hacf
  | some s2 => s2.closingFetch op2

/-! ### The operations -/

/-- R210. -/
def opAnd : AluOp := fun a b shc f => logicalResult (a &&& b) shc f

/-- R211. -/
def opEor : AluOp := fun a b shc f => logicalResult (a ^^^ b) shc f

/-- R212. -/
def opSub : AluOp := fun a b _ _ => subWithCarry a b true

/-- R213. -/
def opRsb : AluOp := fun a b _ _ => subWithCarry b a true

/-- R214. -/
def opAdd : AluOp := fun a b _ _ => addWithCarry a b false

/-- R215. -/
def opAdc : AluOp := fun a b _ f => addWithCarry a b f.c

/-- R216. -/
def opSbc : AluOp := fun a b _ f => subWithCarry a b f.c

/-- R217. -/
def opRsc : AluOp := fun a b _ f => subWithCarry b a f.c

/-- R218. -/
def opTst : AluOp := fun a b shc f => logicalResult (a &&& b) shc f

/-- R219. -/
def opTeq : AluOp := fun a b shc f => logicalResult (a ^^^ b) shc f

/-- R220. -/
def opCmp : AluOp := fun a b _ _ => subWithCarry a b true

/-- R221. -/
def opCmn : AluOp := fun a b _ _ => addWithCarry a b false

/-- R222. -/
def opOrr : AluOp := fun a b shc f => logicalResult (a ||| b) shc f

/-- R223. -/
def opMov : AluOp := fun _ b shc f => logicalResult b shc f

/-- R224. -/
def opBic : AluOp := fun a b shc f => logicalResult (a &&& ~~~b) shc f

/-- R225. -/
def opMvn : AluOp := fun _ b shc f => logicalResult (~~~b) shc f

/-! ### The meanings -/

/-- AND (R210, R201). -/
def execAnd (cond : Cond) (setFlags : Bool) (rn rd : Reg) (op2 : Operand2) (s : State) : Result :=
  .next (s.conditional cond (·.dataProcessing opAnd setFlags rn rd op2))

/-- EOR (R211, R201). -/
def execEor (cond : Cond) (setFlags : Bool) (rn rd : Reg) (op2 : Operand2) (s : State) : Result :=
  .next (s.conditional cond (·.dataProcessing opEor setFlags rn rd op2))

/-- SUB (R212, R201). -/
def execSub (cond : Cond) (setFlags : Bool) (rn rd : Reg) (op2 : Operand2) (s : State) : Result :=
  .next (s.conditional cond (·.dataProcessing opSub setFlags rn rd op2))

/-- RSB (R213, R201). -/
def execRsb (cond : Cond) (setFlags : Bool) (rn rd : Reg) (op2 : Operand2) (s : State) : Result :=
  .next (s.conditional cond (·.dataProcessing opRsb setFlags rn rd op2))

/-- ADD (R214, R201). -/
def execAdd (cond : Cond) (setFlags : Bool) (rn rd : Reg) (op2 : Operand2) (s : State) : Result :=
  .next (s.conditional cond (·.dataProcessing opAdd setFlags rn rd op2))

/-- ADC (R215, R201). -/
def execAdc (cond : Cond) (setFlags : Bool) (rn rd : Reg) (op2 : Operand2) (s : State) : Result :=
  .next (s.conditional cond (·.dataProcessing opAdc setFlags rn rd op2))

/-- SBC (R216, R201). -/
def execSbc (cond : Cond) (setFlags : Bool) (rn rd : Reg) (op2 : Operand2) (s : State) : Result :=
  .next (s.conditional cond (·.dataProcessing opSbc setFlags rn rd op2))

/-- RSC (R217, R201). -/
def execRsc (cond : Cond) (setFlags : Bool) (rn rd : Reg) (op2 : Operand2) (s : State) : Result :=
  .next (s.conditional cond (·.dataProcessing opRsc setFlags rn rd op2))

/-- TST with S == 1 (R218, R201, R205). -/
def execTst (cond : Cond) (rn rd : Reg) (op2 : Operand2) (s : State) : Result :=
  .next (s.conditional cond (·.testProcessing opTst true rn rd op2))

/-- TEQ with S == 1 (R219, R201, R205). -/
def execTeq (cond : Cond) (rn rd : Reg) (op2 : Operand2) (s : State) : Result :=
  .next (s.conditional cond (·.testProcessing opTeq true rn rd op2))

/-- CMP with S == 1 (R220, R201, R205). -/
def execCmp (cond : Cond) (rn rd : Reg) (op2 : Operand2) (s : State) : Result :=
  .next (s.conditional cond (·.testProcessing opCmp true rn rd op2))

/-- CMN with S == 1 (R221, R201, R205). -/
def execCmn (cond : Cond) (rn rd : Reg) (op2 : Operand2) (s : State) : Result :=
  .next (s.conditional cond (·.testProcessing opCmn true rn rd op2))

/-- ORR (R222, R201). -/
def execOrr (cond : Cond) (setFlags : Bool) (rn rd : Reg) (op2 : Operand2) (s : State) : Result :=
  .next (s.conditional cond (·.dataProcessing opOrr setFlags rn rd op2))

/-- MOV (R223, R201). -/
def execMov (cond : Cond) (setFlags : Bool) (rn rd : Reg) (op2 : Operand2) (s : State) : Result :=
  .next (s.conditional cond (·.dataProcessing opMov setFlags rn rd op2))

/-- BIC (R224, R201). -/
def execBic (cond : Cond) (setFlags : Bool) (rn rd : Reg) (op2 : Operand2) (s : State) : Result :=
  .next (s.conditional cond (·.dataProcessing opBic setFlags rn rd op2))

/-- MVN (R225, R201). -/
def execMvn (cond : Cond) (setFlags : Bool) (rn rd : Reg) (op2 : Operand2) (s : State) : Result :=
  .next (s.conditional cond (·.dataProcessing opMvn setFlags rn rd op2))

/-- Test opcode with S == 0: operands read, one fetch, nothing written (R206; log 9). `opc` is op[22:21]. -/
def execTestNoS (cond : Cond) (opc : BitVec 2) (rn rd : Reg) (op2 : Operand2) (s : State) : Result :=
  let op : AluOp :=
    match opc with
    | 0b00#2 => opTst
    | 0b01#2 => opTeq
    | 0b10#2 => opCmp
    | _ => opCmn
  .next (s.conditional cond (·.testProcessing op false rn rd op2))

end Sys2Proof.Machine
end

