-- ==== Sys2Proof/Machine/LoadStore.lean ====
section
/-! DEFINITION. ARM single data transfer, halfword and signed transfer, swap (44_arm_load_store.md). The Thumb transfers
run the same sequence (48_thumb_memory_branch.md R450). -/

namespace Sys2Proof.Machine

/-- The load sequence: fetch, read, write-back, Rd, `iCycle(1)`, a flush when Rd is R15 (R263, R264). -/
def State.loadTransfer (s : State) (k : LoadKind) (ix : Indexing) (rn rd : Reg) (offset : Word) : State :=
  let base := s.readReg rn
  let addr := transferAddress ix base offset
  let s1 := s.fetchOpcode
  let v := s1.loadValue k addr
  let s2 := (s1.dataRead k.width addr false).writeBack rn (writeBackValue ix base offset)
  let s3 := (s2.writeReg rd v).internalCycle 1
  if rd = 15#4 then s3.flushPipeline else s3

/-- The store sequence: fetch, the stored register is read, write, write-back, the next fetch is non-sequential
(R262, R263, R264). So the write reaches every fetch but those of p3, p2 and this step: in Thumb state a store at A is seen
by the instruction executed from A + 6 (R90; log 25). -/
def State.storeTransfer (s : State) (w : Width) (ix : Indexing) (rn rd : Reg) (offset : Word) : State :=
  let base := s.readReg rn
  let addr := transferAddress ix base offset
  let s1 := s.fetchOpcode
  let s2 := (s1.dataWrite w addr (s1.readReg rd) false).writeBack rn (writeBackValue ix base offset)
  { s2 with nextFetchType := false }

/-- The swap sequence: address and source before the fetch, read, write, `iCycle(1)`, Rd (R290, R291). -/
def State.swapTransfer (s : State) (k : LoadKind) (rn rd rm : Reg) : State :=
  let addr := s.readReg rn
  let src := s.readReg rm
  let s1 := s.fetchOpcode
  let v := s1.loadValue k addr
  let s2 := (s1.dataRead k.width addr false).dataWrite k.width addr src false
  let s3 := (s2.internalCycle 1).writeReg rd v
  if rd = 15#4 then s3.flushPipeline else s3

/-- LDR (R270). -/
def execLdr (cond : Cond) (ix : Indexing) (rn rd : Reg) (off : Offset) (s : State) : Result :=
  .next (s.conditional cond fun s => s.loadTransfer .word ix rn rd (s.offset off))

/-- STR (R271). -/
def execStr (cond : Cond) (ix : Indexing) (rn rd : Reg) (off : Offset) (s : State) : Result :=
  .next (s.conditional cond fun s => s.storeTransfer .word ix rn rd (s.offset off))

/-- LDRB (R272). -/
def execLdrb (cond : Cond) (ix : Indexing) (rn rd : Reg) (off : Offset) (s : State) : Result :=
  .next (s.conditional cond fun s => s.loadTransfer .byte ix rn rd (s.offset off))

/-- STRB (R273). -/
def execStrb (cond : Cond) (ix : Indexing) (rn rd : Reg) (off : Offset) (s : State) : Result :=
  .next (s.conditional cond fun s => s.storeTransfer .byte ix rn rd (s.offset off))

/-- LDRH (R281). -/
def execLdrh (cond : Cond) (ix : Indexing) (rn rd : Reg) (off : HalfOffset) (s : State) : Result :=
  .next (s.conditional cond fun s => s.loadTransfer .half ix rn rd (s.halfOffset off))

/-- STRH (R282). -/
def execStrh (cond : Cond) (ix : Indexing) (rn rd : Reg) (off : HalfOffset) (s : State) : Result :=
  .next (s.conditional cond fun s => s.storeTransfer .half ix rn rd (s.halfOffset off))

/-- LDRSB (R283). -/
def execLdrsb (cond : Cond) (ix : Indexing) (rn rd : Reg) (off : HalfOffset) (s : State) : Result :=
  .next (s.conditional cond fun s => s.loadTransfer .signedByte ix rn rd (s.halfOffset off))

/-- LDRSH (R284). -/
def execLdrsh (cond : Cond) (ix : Indexing) (rn rd : Reg) (off : HalfOffset) (s : State) : Result :=
  .next (s.conditional cond fun s => s.loadTransfer .signedHalf ix rn rd (s.halfOffset off))

/-- SWP; op[11:8] is ignored (R290). -/
def execSwp (cond : Cond) (rn rd rm : Reg) (_ign : BitVec 4) (s : State) : Result :=
  .next (s.conditional cond fun s => s.swapTransfer .word rn rd rm)

/-- SWPB; op[11:8] is ignored (R291). -/
def execSwpb (cond : Cond) (rn rd rm : Reg) (_ign : BitVec 4) (s : State) : Result :=
  .next (s.conditional cond fun s => s.swapTransfer .byte rn rd rm)

end Sys2Proof.Machine
end

