-- ==== Sys2Proof/Machine/Multiply.lean ====
section
/-! DEFINITION. ARM multiply (43_arm_multiply.md). Operands are read first, then the fetch, the internal cycles, the
destinations, the flags (R242). A destination R15 is written without a flush (R250; log 11). -/

namespace Sys2Proof.Machine

/-- Fetch, `iCycle(n)`, Rd, and N and Z when S is set (R242). -/
def State.finishMultiply (s : State) (setFlags : Bool) (rd : Reg) (result : Word) (cycles : Nat) : State :=
  let s1 := (s.fetchOpcode.internalCycle cycles).writeReg rd result
  if setFlags then s1.setFlags (nzResult result s1.flags).flags else s1

/-- The same for a 64-bit result; RdLo is written before RdHi (R245, R250; D22). -/
def State.finishMultiplyLong (s : State) (setFlags : Bool) (rdHi rdLo : Reg) (result : BitVec 64) (cycles : Nat) : State :=
  let s1 := s.fetchOpcode.internalCycle cycles
  let s2 := (s1.writeReg rdLo (result.extractLsb' 0 32)).writeReg rdHi (result.extractLsb' 32 32)
  if setFlags then s2.setFlags (nzFlags64 result s2.flags) else s2

/-- MUL; `ignRn` is ignored (R243). -/
def execMul (cond : Cond) (setFlags : Bool) (rd _ignRn rs rm : Reg) (s : State) : Result :=
  .next (s.conditional cond fun s =>
    s.finishMultiply setFlags rd (s.readReg rm * s.readReg rs) (multiplierCyclesSigned (s.readReg rs)))

/-- MLA (R244). -/
def execMla (cond : Cond) (setFlags : Bool) (rd rn rs rm : Reg) (s : State) : Result :=
  .next (s.conditional cond fun s =>
    s.finishMultiply setFlags rd (s.readReg rm * s.readReg rs + s.readReg rn)
      (multiplierCyclesSigned (s.readReg rs) + 1))

/-- UMULL (R245). -/
def execUmull (cond : Cond) (setFlags : Bool) (rdHi rdLo rs rm : Reg) (s : State) : Result :=
  .next (s.conditional cond fun s =>
    s.finishMultiplyLong setFlags rdHi rdLo ((s.readReg rm).setWidth 64 * (s.readReg rs).setWidth 64)
      (multiplierCyclesUnsigned (s.readReg rs) + 1))

/-- UMLAL (R246). -/
def execUmlal (cond : Cond) (setFlags : Bool) (rdHi rdLo rs rm : Reg) (s : State) : Result :=
  .next (s.conditional cond fun s =>
    s.finishMultiplyLong setFlags rdHi rdLo
      ((s.readReg rm).setWidth 64 * (s.readReg rs).setWidth 64 + (s.readReg rdHi ++ s.readReg rdLo))
      (multiplierCyclesUnsigned (s.readReg rs) + 2))

/-- SMULL (R247). -/
def execSmull (cond : Cond) (setFlags : Bool) (rdHi rdLo rs rm : Reg) (s : State) : Result :=
  .next (s.conditional cond fun s =>
    s.finishMultiplyLong setFlags rdHi rdLo ((s.readReg rm).signExtend 64 * (s.readReg rs).signExtend 64)
      (multiplierCyclesSigned (s.readReg rs) + 1))

/-- SMLAL (R248). -/
def execSmlal (cond : Cond) (setFlags : Bool) (rdHi rdLo rs rm : Reg) (s : State) : Result :=
  .next (s.conditional cond fun s =>
    s.finishMultiplyLong setFlags rdHi rdLo
      ((s.readReg rm).signExtend 64 * (s.readReg rs).signExtend 64 + (s.readReg rdHi ++ s.readReg rdLo))
      (multiplierCyclesSigned (s.readReg rs) + 2))

end Sys2Proof.Machine
end

