-- ==== Sys2Proof/Machine/System.lean ====
section
/-! DEFINITION. ARM branches, status-register access, coprocessor instructions, SWI and the undefined and unknown encodings
(46_arm_branch_psr_system.md). -/

namespace Sys2Proof.Machine

/-! ### Branches -/

/-- pc0 plus the signed 24-bit word offset (R320). -/
def State.branchTarget (s : State) (offset24 : BitVec 24) : Word := s.r15 + (offset24.signExtend 30 ++ 0#2)

/-- B (R320). -/
def execB (cond : Cond) (offset24 : BitVec 24) (s : State) : Result :=
  .next (s.conditional cond fun s => s.fetchOpcode.jump (s.branchTarget offset24))

/-- BL: R14 is the address of the next instruction (R321). -/
def execBl (cond : Cond) (offset24 : BitVec 24) (s : State) : Result :=
  .next (s.conditional cond fun s =>
    (s.fetchOpcode.writeReg 14#4 (s.r15 - 4#32)).jump (s.branchTarget offset24))

/-- The state switch of BX: T is bit 0 of the value; the target is aligned to the new state's width (R322, R465). -/
def State.exchange (s : State) (v : Word) : State :=
  let t := v.getLsbD 0
  ({ s with cpsr := Psr.withT s.cpsr t } : State).jump (if t then Width.half.align v else Width.word.align v)

/-- BX; op[19:8] is ignored (R322). -/
def execBx (cond : Cond) (rm : Reg) (_ign : BitVec 12) (s : State) : Result :=
  .next (s.conditional cond fun s => s.fetchOpcode.exchange (s.readReg rm))

/-! ### Status-register access -/

/-- MRS (R330). A destination R15 is written without a flush (log 14). -/
def execMrs (cond : Cond) (spsr : Bool) (rd : Reg) (_ign19 _ign11 _ign3 : BitVec 4) (s : State) : Result :=
  .next (s.conditional cond fun s =>
    (s.writeReg rd (if spsr then s.currentSpsr else s.cpsr)).fetchOpcode)

/-- The bytes an MSR field mask selects: f = bit 3 the flag byte, c = bit 0 the control byte; s and x select nothing
(R331). -/
def msrMask (mask : BitVec 4) : Word :=
  (if mask.getLsbD 3 then 0xFF000000#32 else 0#32) ||| (if mask.getLsbD 0 then 0x000000FF#32 else 0#32)

/-- With FIQ_ENABLED false, 0x40 is OR'd into every write of a control byte (R5, R331). -/
def State.msrForceF (s : State) (mask val : Word) : Word :=
  if !s.toggles.fiqEnabled && mask.getLsbD 0 then val ||| 0x40#32 else val

def mergeBits (old mask val : Word) : Word := (old &&& ~~~mask) ||| (val &&& mask)

/-- MSR to the SPSR of the current mode; USR and SYS have none (R331). -/
def State.writeCurrentSpsr (s : State) (mask val : Word) : State :=
  match s.spsrOf s.bank with
  | some old => s.writeSpsrOf s.bank (mergeBits old mask (s.msrForceF mask val))
  | none => s

/-- MSR to CPSR: the control byte is ignored in USR mode; mode bit 4 is forced to 1; `none` when the new mode is invalid,
which is HACF before anything has changed (R331, R332; D26). The registers follow the mode (R30). -/
def State.writeCpsr (s : State) (mask val : Word) : Option State :=
  let mask := if Psr.modeBits s.cpsr == Mode.usr.bits then mask &&& 0xFF000000#32 else mask
  if mask.getLsbD 0 then
    let val := s.msrForceF mask (val ||| 0x10#32)
    match Mode.ofBits (Psr.modeBits val) with
    | some _ => some { s with cpsr := mergeBits s.cpsr mask val }
    | none => none
  else some { s with cpsr := mergeBits s.cpsr mask val }

/-- MSR of either form, then the fetch (R331). -/
def State.msr (s : State) (spsr : Bool) (mask : BitVec 4) (val : Word) : State :=
  if spsr then (s.writeCurrentSpsr (msrMask mask) val).fetchOpcode
  else
    match s.writeCpsr (msrMask mask) val with
    | some s' => s'.fetchOpcode
    | none => s.hacf

/-- MSR, register form; op[15:8] is ignored (R331). -/
def execMsrReg (cond : Cond) (spsr : Bool) (mask : BitVec 4) (rm : Reg) (_ign : BitVec 8) (s : State) : Result :=
  .next (s.conditional cond fun s => s.msr spsr mask (s.readReg rm))

/-- MSR, immediate form; op[15:12] is ignored (R331). -/
def execMsrImm (cond : Cond) (spsr : Bool) (mask rot : BitVec 4) (imm8 : BitVec 8) (_ign : BitVec 4) (s : State) :
    Result :=
  .next (s.conditional cond fun s => s.msr spsr mask (rotatedImm rot imm8 s.flags.c).value)

/-! ### Coprocessor space -/

/-- STC: the undefined-instruction entry (R340). -/
def execStc (cond : Cond) (_ign24 : BitVec 4) (_ign19 : BitVec 20) (s : State) : Result :=
  .next (s.conditional cond State.enterUndefined)

/-- LDC: the undefined-instruction entry (R340). -/
def execLdc (cond : Cond) (_ign24 : BitVec 4) (_ign19 : BitVec 20) (s : State) : Result :=
  .next (s.conditional cond State.enterUndefined)

/-- CDP: the undefined-instruction entry (R342). -/
def execCdp (cond : Cond) (_ign23 : BitVec 19) (_ign3 : BitVec 4) (s : State) : Result :=
  .next (s.conditional cond State.enterUndefined)

/-- A register transfer: coprocessor 14 only fetches, any other number is undefined (R341; D27). -/
def State.coprocessorTransfer (s : State) (cp : BitVec 4) : State :=
  if cp = 14#4 then s.fetchOpcode else s.enterUndefined

/-- MCR (R341). -/
def execMcr (cond : Cond) (_rd cp : BitVec 4) (_ign23 : BitVec 3) (_ign19 : BitVec 4) (_ign7 : BitVec 3)
    (_ign3 : BitVec 4) (s : State) : Result :=
  .next (s.conditional cond (·.coprocessorTransfer cp))

/-- MRC (R341). -/
def execMrc (cond : Cond) (_rd cp : BitVec 4) (_ign23 : BitVec 3) (_ign19 : BitVec 4) (_ign7 : BitVec 3)
    (_ign3 : BitVec 4) (s : State) : Result :=
  .next (s.conditional cond (·.coprocessorTransfer cp))

/-! ### Software interrupt, undefined and unknown encodings -/

/-- SWI; the comment field is not read (R345). -/
def execSwi (cond : Cond) (_comment : BitVec 24) (s : State) : Result :=
  .next (s.conditional cond State.enterSwi)

/-- Undefined pattern U1 (R111, R346). -/
def execUndefinedU1 (cond : Cond) (_ign22 : Bool) (_ign19 : BitVec 20) (s : State) : Result :=
  .next (s.conditional cond State.enterUndefined)

/-- Undefined pattern U2 (R111, R346). -/
def execUndefinedU2 (cond : Cond) (_ign24 : BitVec 20) (_ign3 : BitVec 4) (s : State) : Result :=
  .next (s.conditional cond State.enterUndefined)

/-- Undefined pattern U3 (R111, R346; log 8). -/
def execUndefinedU3 (cond : Cond) (_ign19 : BitVec 12) (_ign3 : BitVec 4) (s : State) : Result :=
  .next (s.conditional cond State.enterUndefined)

/-- Undefined pattern U4 (R111, R346; log 8). -/
def execUndefinedU4 (cond : Cond) (_ign22 : BitVec 2) (_ign19 : BitVec 12) (_ign5 : Bool) (_ign3 : BitVec 4)
    (s : State) : Result :=
  .next (s.conditional cond State.enterUndefined)

/-- Multiply/swap space without a handler: HACF (R112, R347). -/
def execUnknownMulSwap (cond : Cond) (_sel : BitVec 5) (_ign19 : BitVec 12) (_ign3 : BitVec 4) (s : State) : Result :=
  .next (s.conditional cond State.hacf)

/-- Halfword class with L == 0 and S == 1: HACF (R112, R347). -/
def execUnknownHalf (cond : Cond) (_ign24 : BitVec 4) (_ign19 : BitVec 12) (_ign5 : Bool) (_ign3 : BitVec 4)
    (s : State) : Result :=
  .next (s.conditional cond State.hacf)

end Sys2Proof.Machine
end

