-- ==== Sys2Proof/Machine/ThumbAlu.lean ====
section
/-! DEFINITION. Thumb formats 1 to 5, 12 and 13 without BX (47_thumb_alu.md). Thumb state has no condition field here: every
instruction runs (R360). -/

namespace Sys2Proof.Machine

/-- A 3-bit field names R0 to R7 (R21, R360). -/
def lowReg (r : LowReg) : Reg := r.setWidth 4

/-- `R[r]` of a low register. -/
def State.low (s : State) (r : LowReg) : Word := s.readReg (lowReg r)

/-- Result into Rd, flags, fetch (R361). -/
def State.thumbResult (s : State) (rd : LowReg) (r : AluResult) : State :=
  ((s.writeReg (lowReg rd) r.value).setFlags r.flags).fetchOpcode

/-- Flags only, then the fetch (R361). -/
def State.thumbCompare (s : State) (r : AluResult) : State := (s.setFlags r.flags).fetchOpcode

/-- A shift by immediate: C from the shifter, V unchanged (R365). -/
def State.thumbShiftImm (s : State) (type : ShiftType) (rd rs : LowReg) (amt : BitVec 5) : State :=
  let x := shiftImm type (s.low rs) amt s.flags.c
  s.thumbResult rd (logicalResult x.value x.carry s.flags)

/-- A shift by register: fetch and internal cycle first (R383; D30). -/
def State.thumbShiftReg (s : State) (type : ShiftType) (rd rs : LowReg) : State :=
  let s1 := s.fetchOpcode.internalCycle 1
  let x := shiftReg type (s1.low rd) ((s1.low rs).extractLsb' 0 8) s1.flags.c
  (s1.writeReg (lowReg rd) x.value).setFlags (logicalResult x.value x.carry s1.flags).flags

/-- Write of a register that may be R15, which flushes; no flag changes (R397, R399). -/
def State.thumbHighResult (s : State) (rd : Reg) (v : Word) : State :=
  let s1 := s.fetchOpcode.writeReg rd v
  if rd = 15#4 then s1.flushPipeline else s1

/-! ### Format 1 -/

/-- LSL by immediate (R365). -/
def execTLslImm (rd rs : LowReg) (amt : BitVec 5) (s : State) : Result :=
  .next (s.thumbShiftImm .lsl rd rs amt)

/-- LSR by immediate (R366). -/
def execTLsrImm (rd rs : LowReg) (amt : BitVec 5) (s : State) : Result :=
  .next (s.thumbShiftImm .lsr rd rs amt)

/-- ASR by immediate (R367). -/
def execTAsrImm (rd rs : LowReg) (amt : BitVec 5) (s : State) : Result :=
  .next (s.thumbShiftImm .asr rd rs amt)

/-! ### Format 2 -/

/-- ADD of registers (R370). -/
def execTAddReg (rd rs rn : LowReg) (s : State) : Result :=
  .next (s.thumbResult rd (addWithCarry (s.low rs) (s.low rn) false))

/-- SUB of registers (R371). -/
def execTSubReg (rd rs rn : LowReg) (s : State) : Result :=
  .next (s.thumbResult rd (subWithCarry (s.low rs) (s.low rn) true))

/-- ADD of a 3-bit immediate (R372). -/
def execTAddImm3 (rd rs : LowReg) (imm3 : BitVec 3) (s : State) : Result :=
  .next (s.thumbResult rd (addWithCarry (s.low rs) (imm3.setWidth 32) false))

/-- SUB of a 3-bit immediate (R373). -/
def execTSubImm3 (rd rs : LowReg) (imm3 : BitVec 3) (s : State) : Result :=
  .next (s.thumbResult rd (subWithCarry (s.low rs) (imm3.setWidth 32) true))

/-! ### Format 3 -/

/-- MOV of an 8-bit immediate (R375). -/
def execTMovImm (rd : LowReg) (imm8 : BitVec 8) (s : State) : Result :=
  .next (s.thumbResult rd (nzResult (imm8.setWidth 32) s.flags))

/-- CMP with an 8-bit immediate (R376). -/
def execTCmpImm (rd : LowReg) (imm8 : BitVec 8) (s : State) : Result :=
  .next (s.thumbCompare (subWithCarry (s.low rd) (imm8.setWidth 32) true))

/-- ADD of an 8-bit immediate (R377). -/
def execTAddImm8 (rd : LowReg) (imm8 : BitVec 8) (s : State) : Result :=
  .next (s.thumbResult rd (addWithCarry (s.low rd) (imm8.setWidth 32) false))

/-- SUB of an 8-bit immediate (R378). -/
def execTSubImm8 (rd : LowReg) (imm8 : BitVec 8) (s : State) : Result :=
  .next (s.thumbResult rd (subWithCarry (s.low rd) (imm8.setWidth 32) true))

/-! ### Format 4 -/

/-- AND (R381). -/
def execTAnd (rd rs : LowReg) (s : State) : Result :=
  .next (s.thumbResult rd (nzResult (s.low rd &&& s.low rs) s.flags))

/-- EOR (R382). -/
def execTEor (rd rs : LowReg) (s : State) : Result :=
  .next (s.thumbResult rd (nzResult (s.low rd ^^^ s.low rs) s.flags))

/-- LSL by register (R383). -/
def execTLslReg (rd rs : LowReg) (s : State) : Result :=
  .next (s.thumbShiftReg .lsl rd rs)

/-- LSR by register (R384). -/
def execTLsrReg (rd rs : LowReg) (s : State) : Result :=
  .next (s.thumbShiftReg .lsr rd rs)

/-- ASR by register (R385). -/
def execTAsrReg (rd rs : LowReg) (s : State) : Result :=
  .next (s.thumbShiftReg .asr rd rs)

/-- ADC (R386). -/
def execTAdc (rd rs : LowReg) (s : State) : Result :=
  .next (s.thumbResult rd (addWithCarry (s.low rd) (s.low rs) s.flags.c))

/-- SBC (R387). -/
def execTSbc (rd rs : LowReg) (s : State) : Result :=
  .next (s.thumbResult rd (subWithCarry (s.low rd) (s.low rs) s.flags.c))

/-- ROR by register (R388). -/
def execTRorReg (rd rs : LowReg) (s : State) : Result :=
  .next (s.thumbShiftReg .ror rd rs)

/-- TST (R389). -/
def execTTst (rd rs : LowReg) (s : State) : Result :=
  .next (s.thumbCompare (nzResult (s.low rd &&& s.low rs) s.flags))

/-- NEG (R390). -/
def execTNeg (rd rs : LowReg) (s : State) : Result :=
  .next (s.thumbResult rd (subWithCarry 0#32 (s.low rs) true))

/-- CMP (R391). -/
def execTCmpReg (rd rs : LowReg) (s : State) : Result :=
  .next (s.thumbCompare (subWithCarry (s.low rd) (s.low rs) true))

/-- CMN (R392). -/
def execTCmn (rd rs : LowReg) (s : State) : Result :=
  .next (s.thumbCompare (addWithCarry (s.low rd) (s.low rs) false))

/-- ORR (R393). -/
def execTOrr (rd rs : LowReg) (s : State) : Result :=
  .next (s.thumbResult rd (nzResult (s.low rd ||| s.low rs) s.flags))

/-- MUL: the old Rd is the multiplier; C and V are unchanged (R394; D23, D30). -/
def execTMul (rd rs : LowReg) (s : State) : Result :=
  let r := s.low rd * s.low rs
  let s1 := (s.fetchOpcode.internalCycle (multiplierCyclesSigned (s.low rd))).writeReg (lowReg rd) r
  .next (s1.setFlags (nzResult r s1.flags).flags)

/-- BIC (R395). -/
def execTBic (rd rs : LowReg) (s : State) : Result :=
  .next (s.thumbResult rd (nzResult (s.low rd &&& ~~~(s.low rs)) s.flags))

/-- MVN (R396). -/
def execTMvn (rd rs : LowReg) (s : State) : Result :=
  .next (s.thumbResult rd (nzResult (~~~(s.low rs)) s.flags))

/-! ### Format 5 (its BX stands in ThumbBranch.lean) -/

/-- ADD of any registers, no flags (R397; log 16 for two low registers). -/
def execTAddHi (rd rs : Reg) (s : State) : Result :=
  .next (s.thumbHighResult rd (s.readReg rd + s.readReg rs))

/-- CMP of any registers (R398, R403). -/
def execTCmpHi (rd rs : Reg) (s : State) : Result :=
  .next (s.thumbCompare (subWithCarry (s.readReg rd) (s.readReg rs) true))

/-- MOV of any registers, no flags (R399). -/
def execTMovHi (rd rs : Reg) (s : State) : Result :=
  .next (s.thumbHighResult rd (s.readReg rs))

/-! ### Formats 12 and 13 -/

/-- An 8-bit immediate in words. -/
def wordOffset8 (imm8 : BitVec 8) : Word := (imm8 ++ 0#2).setWidth 32

/-- pc0 aligned down to a multiple of 4 (R400, R420). -/
def State.alignedPc (s : State) : Word := Width.word.align s.r15

/-- ADD Rd, PC, #imm (R400). -/
def execTAddPc (rd : LowReg) (imm8 : BitVec 8) (s : State) : Result :=
  .next (s.writeReg (lowReg rd) (s.alignedPc + wordOffset8 imm8)).fetchOpcode

/-- ADD Rd, SP, #imm (R401). -/
def execTAddSp (rd : LowReg) (imm8 : BitVec 8) (s : State) : Result :=
  .next (s.writeReg (lowReg rd) (s.readReg 13#4 + wordOffset8 imm8)).fetchOpcode

/-- ADD SP, #imm with a sign (R402). -/
def execTAdjSp (neg : Bool) (imm7 : BitVec 7) (s : State) : Result :=
  let imm : Word := (imm7 ++ 0#2).setWidth 32
  .next (s.writeReg 13#4 (if neg then s.readReg 13#4 - imm else s.readReg 13#4 + imm)).fetchOpcode

end Sys2Proof.Machine
end

