-- ==== Sys2Proof/Machine/ThumbBranch.lean ====
section
/-! DEFINITION. Thumb branches, SWI, undefined and unknown encodings (48_thumb_memory_branch.md R460 to R471). -/

namespace Sys2Proof.Machine

/-- Conditional branch (R460). -/
def execTBCond (cond : Cond) (offset8 : BitVec 8) (s : State) : Result :=
  let s1 := s.fetchOpcode
  .next (if conditionPassed cond s.flags then s1.jump (s.r15 + (offset8 ++ 0#1).signExtend 32) else s1)

/-- Undefined-1 (R463). -/
def execTUndefined1 (_ign : BitVec 8) (s : State) : Result := .next s.enterUndefined

/-- SWI; the comment field is not read (R461). -/
def execTSwi (_comment : BitVec 8) (s : State) : Result := .next s.enterSwi

/-- Branch (R462). -/
def execTB (offset11 : BitVec 11) (s : State) : Result :=
  .next (s.fetchOpcode.jump (s.r15 + (offset11 ++ 0#1).signExtend 32))

/-- Undefined-2 (R463). -/
def execTUndefined2 (_ign : BitVec 11) (s : State) : Result := .next s.enterUndefined

/-- BX; H1 and op[2:0] are ignored (R465; log 16). -/
def execTBx (rs : Reg) (_ignH1 : Bool) (_ign2 : BitVec 3) (s : State) : Result :=
  .next (s.fetchOpcode.exchange (s.readReg rs))

/-- BL, first half (R470). -/
def execTBlFirst (offset11 : BitVec 11) (s : State) : Result :=
  .next (s.fetchOpcode.writeReg 14#4 (s.r15 + (offset11 ++ 0#12).signExtend 32))

/-- BL, second half (R471). -/
def execTBlSecond (offset11 : BitVec 11) (s : State) : Result :=
  .next ((s.fetchOpcode.writeReg 14#4 ((s.r15 - 2#32) ||| 1#32)).jump
    (s.readReg 14#4 + (offset11 ++ 0#1).setWidth 32))

/-- Format-13/14 space without a handler: HACF (R464). -/
def execTUnknown (_sel : BitVec 4) (_ign : BitVec 8) (s : State) : Result := .next s.hacf

end Sys2Proof.Machine
end

