-- ==== Sys2Proof/Machine/ThumbMemory.lean ====
section
/-! DEFINITION. Thumb formats 6 to 11, 14 and 15 (48_thumb_memory_branch.md): the transfer sequence with P = 1, U = 1, W = 0
(R450) and the block engine (R440, R441, R445, R446). -/

namespace Sys2Proof.Machine

/-- Pre-indexed, added, no write-back (R450). -/
def thumbIndexing : Indexing := ⟨true, true, false⟩

/-- A Thumb load with a base register (R450). -/
def State.thumbLoad (s : State) (k : LoadKind) (rb : Reg) (rd : LowReg) (offset : Word) : State :=
  s.loadTransfer k thumbIndexing rb (lowReg rd) offset

/-- A Thumb store with a base register (R450). -/
def State.thumbStore (s : State) (w : Width) (rb : Reg) (rd : LowReg) (offset : Word) : State :=
  s.storeTransfer w thumbIndexing rb (lowReg rd) offset

/-- A load from an address computed before the fetch. -/
def State.thumbLoadAt (s : State) (addr : Word) (rd : LowReg) : State :=
  let s1 := s.fetchOpcode
  let v := s1.loadValue .word addr
  ((s1.dataRead .word addr false).writeReg (lowReg rd) v).internalCycle 1

/-- LDR Rd, [PC, #imm] (R420). -/
def execTLdrPc (rd : LowReg) (imm8 : BitVec 8) (s : State) : Result :=
  .next (s.thumbLoadAt (s.alignedPc + wordOffset8 imm8) rd)

/-! ### Formats 7 and 8: register offset -/

/-- STR Rd, [Rb, Ro] (R421). -/
def execTStrReg (rd rb ro : LowReg) (s : State) : Result :=
  .next (s.thumbStore .word (lowReg rb) rd (s.low ro))

/-- STRB Rd, [Rb, Ro] (R422). -/
def execTStrbReg (rd rb ro : LowReg) (s : State) : Result :=
  .next (s.thumbStore .byte (lowReg rb) rd (s.low ro))

/-- LDR Rd, [Rb, Ro] (R423). -/
def execTLdrReg (rd rb ro : LowReg) (s : State) : Result :=
  .next (s.thumbLoad .word (lowReg rb) rd (s.low ro))

/-- LDRB Rd, [Rb, Ro] (R424). -/
def execTLdrbReg (rd rb ro : LowReg) (s : State) : Result :=
  .next (s.thumbLoad .byte (lowReg rb) rd (s.low ro))

/-- STRH Rd, [Rb, Ro] (R425). -/
def execTStrhReg (rd rb ro : LowReg) (s : State) : Result :=
  .next (s.thumbStore .half (lowReg rb) rd (s.low ro))

/-- LDRH Rd, [Rb, Ro] (R426). -/
def execTLdrhReg (rd rb ro : LowReg) (s : State) : Result :=
  .next (s.thumbLoad .half (lowReg rb) rd (s.low ro))

/-- LDSB Rd, [Rb, Ro] (R427). -/
def execTLdsbReg (rd rb ro : LowReg) (s : State) : Result :=
  .next (s.thumbLoad .signedByte (lowReg rb) rd (s.low ro))

/-- LDSH Rd, [Rb, Ro] (R428). -/
def execTLdshReg (rd rb ro : LowReg) (s : State) : Result :=
  .next (s.thumbLoad .signedHalf (lowReg rb) rd (s.low ro))

/-! ### Formats 9 and 10: immediate offset, scaled by the width -/

/-- STR Rd, [Rb, #imm] (R429). -/
def execTStrImm (rd rb : LowReg) (imm5 : BitVec 5) (s : State) : Result :=
  .next (s.thumbStore .word (lowReg rb) rd ((imm5 ++ 0#2).setWidth 32))

/-- LDR Rd, [Rb, #imm] (R430). -/
def execTLdrImm (rd rb : LowReg) (imm5 : BitVec 5) (s : State) : Result :=
  .next (s.thumbLoad .word (lowReg rb) rd ((imm5 ++ 0#2).setWidth 32))

/-- STRB Rd, [Rb, #imm] (R431). -/
def execTStrbImm (rd rb : LowReg) (imm5 : BitVec 5) (s : State) : Result :=
  .next (s.thumbStore .byte (lowReg rb) rd (imm5.setWidth 32))

/-- LDRB Rd, [Rb, #imm] (R432). -/
def execTLdrbImm (rd rb : LowReg) (imm5 : BitVec 5) (s : State) : Result :=
  .next (s.thumbLoad .byte (lowReg rb) rd (imm5.setWidth 32))

/-- STRH Rd, [Rb, #imm] (R433). -/
def execTStrhImm (rd rb : LowReg) (imm5 : BitVec 5) (s : State) : Result :=
  .next (s.thumbStore .half (lowReg rb) rd ((imm5 ++ 0#1).setWidth 32))

/-- LDRH Rd, [Rb, #imm] (R434). -/
def execTLdrhImm (rd rb : LowReg) (imm5 : BitVec 5) (s : State) : Result :=
  .next (s.thumbLoad .half (lowReg rb) rd ((imm5 ++ 0#1).setWidth 32))

/-! ### Format 11: SP-relative -/

/-- STR Rd, [SP, #imm] (R435). -/
def execTStrSp (rd : LowReg) (imm8 : BitVec 8) (s : State) : Result :=
  .next (s.thumbStore .word 13#4 rd (wordOffset8 imm8))

/-- LDR Rd, [SP, #imm] (R436). -/
def execTLdrSp (rd : LowReg) (imm8 : BitVec 8) (s : State) : Result :=
  .next (s.thumbLoad .word 13#4 rd (wordOffset8 imm8))

/-! ### Formats 14 and 15: block transfers -/

/-- PUSH's list: R0 to R7 and, with `r`, R14 (R440). -/
def pushList (r : Bool) (list : BitVec 8) : BitVec 16 := 0#1 ++ BitVec.ofBool r ++ 0#6 ++ list

/-- POP's list: R0 to R7 and, with `r`, R15 (R441). -/
def popList (r : Bool) (list : BitVec 8) : BitVec 16 := BitVec.ofBool r ++ 0#7 ++ list

/-- PUSH: STMDB sp! (R440). -/
def execTPush (r : Bool) (list : BitVec 8) (s : State) : Result :=
  .next (s.storeMultiple ⟨true, false, true⟩ false 13#4 (pushList r list))

/-- POP: LDMIA sp! (R441). -/
def execTPop (r : Bool) (list : BitVec 8) (s : State) : Result :=
  .next (s.loadMultiple ⟨false, true, true⟩ false 13#4 (popList r list))

/-- STMIA Rb! (R445). -/
def execTStmia (rb : LowReg) (list : BitVec 8) (s : State) : Result :=
  .next (s.storeMultiple ⟨false, true, true⟩ false (lowReg rb) (list.setWidth 16))

/-- LDMIA Rb! (R446). -/
def execTLdmia (rb : LowReg) (list : BitVec 8) (s : State) : Result :=
  .next (s.loadMultiple ⟨false, true, true⟩ false (lowReg rb) (list.setWidth 16))

end Sys2Proof.Machine
end

