-- ==== Sys2Proof/Machine/Dispatch.lean ====
section
/-! DEFINITION. One arm per instruction, each one call of its meaning. -/

namespace Sys2Proof.Machine

def exec (i : Instr) (s : State) : Host.Outcome State Fault Refusal :=
  match i with
  | .and cond setFlags rn rd op2 => Sys2Proof.Machine.execAnd cond setFlags rn rd op2 s
  | .eor cond setFlags rn rd op2 => Sys2Proof.Machine.execEor cond setFlags rn rd op2 s
  | .sub cond setFlags rn rd op2 => Sys2Proof.Machine.execSub cond setFlags rn rd op2 s
  | .rsb cond setFlags rn rd op2 => Sys2Proof.Machine.execRsb cond setFlags rn rd op2 s
  | .add cond setFlags rn rd op2 => Sys2Proof.Machine.execAdd cond setFlags rn rd op2 s
  | .adc cond setFlags rn rd op2 => Sys2Proof.Machine.execAdc cond setFlags rn rd op2 s
  | .sbc cond setFlags rn rd op2 => Sys2Proof.Machine.execSbc cond setFlags rn rd op2 s
  | .rsc cond setFlags rn rd op2 => Sys2Proof.Machine.execRsc cond setFlags rn rd op2 s
  | .tst cond rn rd op2 => Sys2Proof.Machine.execTst cond rn rd op2 s
  | .teq cond rn rd op2 => Sys2Proof.Machine.execTeq cond rn rd op2 s
  | .cmp cond rn rd op2 => Sys2Proof.Machine.execCmp cond rn rd op2 s
  | .cmn cond rn rd op2 => Sys2Proof.Machine.execCmn cond rn rd op2 s
  | .orr cond setFlags rn rd op2 => Sys2Proof.Machine.execOrr cond setFlags rn rd op2 s
  | .mov cond setFlags rn rd op2 => Sys2Proof.Machine.execMov cond setFlags rn rd op2 s
  | .bic cond setFlags rn rd op2 => Sys2Proof.Machine.execBic cond setFlags rn rd op2 s
  | .mvn cond setFlags rn rd op2 => Sys2Proof.Machine.execMvn cond setFlags rn rd op2 s
  | .testNoS cond opc rn rd op2 => Sys2Proof.Machine.execTestNoS cond opc rn rd op2 s
  | .mul cond setFlags rd ignRn rs rm => Sys2Proof.Machine.execMul cond setFlags rd ignRn rs rm s
  | .mla cond setFlags rd rn rs rm => Sys2Proof.Machine.execMla cond setFlags rd rn rs rm s
  | .umull cond setFlags rdHi rdLo rs rm => Sys2Proof.Machine.execUmull cond setFlags rdHi rdLo rs rm s
  | .umlal cond setFlags rdHi rdLo rs rm => Sys2Proof.Machine.execUmlal cond setFlags rdHi rdLo rs rm s
  | .smull cond setFlags rdHi rdLo rs rm => Sys2Proof.Machine.execSmull cond setFlags rdHi rdLo rs rm s
  | .smlal cond setFlags rdHi rdLo rs rm => Sys2Proof.Machine.execSmlal cond setFlags rdHi rdLo rs rm s
  | .mrs cond spsr rd ign19 ign11 ign3 => Sys2Proof.Machine.execMrs cond spsr rd ign19 ign11 ign3 s
  | .msrReg cond spsr mask rm ign => Sys2Proof.Machine.execMsrReg cond spsr mask rm ign s
  | .msrImm cond spsr mask rot imm8 ign => Sys2Proof.Machine.execMsrImm cond spsr mask rot imm8 ign s
  | .swp cond rn rd rm ign => Sys2Proof.Machine.execSwp cond rn rd rm ign s
  | .swpb cond rn rd rm ign => Sys2Proof.Machine.execSwpb cond rn rd rm ign s
  | .bx cond rm ign => Sys2Proof.Machine.execBx cond rm ign s
  | .strh cond ix rn rd off => Sys2Proof.Machine.execStrh cond ix rn rd off s
  | .ldrh cond ix rn rd off => Sys2Proof.Machine.execLdrh cond ix rn rd off s
  | .ldrsb cond ix rn rd off => Sys2Proof.Machine.execLdrsb cond ix rn rd off s
  | .ldrsh cond ix rn rd off => Sys2Proof.Machine.execLdrsh cond ix rn rd off s
  | .ldr cond ix rn rd off => Sys2Proof.Machine.execLdr cond ix rn rd off s
  | .str cond ix rn rd off => Sys2Proof.Machine.execStr cond ix rn rd off s
  | .ldrb cond ix rn rd off => Sys2Proof.Machine.execLdrb cond ix rn rd off s
  | .strb cond ix rn rd off => Sys2Proof.Machine.execStrb cond ix rn rd off s
  | .ldm cond ix setFlags rn list => Sys2Proof.Machine.execLdm cond ix setFlags rn list s
  | .stm cond ix setFlags rn list => Sys2Proof.Machine.execStm cond ix setFlags rn list s
  | .b cond offset24 => Sys2Proof.Machine.execB cond offset24 s
  | .bl cond offset24 => Sys2Proof.Machine.execBl cond offset24 s
  | .stc cond ign24 ign19 => Sys2Proof.Machine.execStc cond ign24 ign19 s
  | .ldc cond ign24 ign19 => Sys2Proof.Machine.execLdc cond ign24 ign19 s
  | .cdp cond ign23 ign3 => Sys2Proof.Machine.execCdp cond ign23 ign3 s
  | .mcr cond rd cp ign23 ign19 ign7 ign3 => Sys2Proof.Machine.execMcr cond rd cp ign23 ign19 ign7 ign3 s
  | .mrc cond rd cp ign23 ign19 ign7 ign3 => Sys2Proof.Machine.execMrc cond rd cp ign23 ign19 ign7 ign3 s
  | .swi cond comment => Sys2Proof.Machine.execSwi cond comment s
  | .undefinedU1 cond ign22 ign19 => Sys2Proof.Machine.execUndefinedU1 cond ign22 ign19 s
  | .undefinedU2 cond ign24 ign3 => Sys2Proof.Machine.execUndefinedU2 cond ign24 ign3 s
  | .undefinedU3 cond ign19 ign3 => Sys2Proof.Machine.execUndefinedU3 cond ign19 ign3 s
  | .undefinedU4 cond ign22 ign19 ign5 ign3 => Sys2Proof.Machine.execUndefinedU4 cond ign22 ign19 ign5 ign3 s
  | .unknownMulSwap cond sel ign19 ign3 => Sys2Proof.Machine.execUnknownMulSwap cond sel ign19 ign3 s
  | .unknownHalf cond ign24 ign19 ign5 ign3 => Sys2Proof.Machine.execUnknownHalf cond ign24 ign19 ign5 ign3 s
  | .tLslImm rd rs amt => Sys2Proof.Machine.execTLslImm rd rs amt s
  | .tLsrImm rd rs amt => Sys2Proof.Machine.execTLsrImm rd rs amt s
  | .tAsrImm rd rs amt => Sys2Proof.Machine.execTAsrImm rd rs amt s
  | .tAddReg rd rs rn => Sys2Proof.Machine.execTAddReg rd rs rn s
  | .tSubReg rd rs rn => Sys2Proof.Machine.execTSubReg rd rs rn s
  | .tAddImm3 rd rs imm3 => Sys2Proof.Machine.execTAddImm3 rd rs imm3 s
  | .tSubImm3 rd rs imm3 => Sys2Proof.Machine.execTSubImm3 rd rs imm3 s
  | .tMovImm rd imm8 => Sys2Proof.Machine.execTMovImm rd imm8 s
  | .tCmpImm rd imm8 => Sys2Proof.Machine.execTCmpImm rd imm8 s
  | .tAddImm8 rd imm8 => Sys2Proof.Machine.execTAddImm8 rd imm8 s
  | .tSubImm8 rd imm8 => Sys2Proof.Machine.execTSubImm8 rd imm8 s
  | .tAnd rd rs => Sys2Proof.Machine.execTAnd rd rs s
  | .tEor rd rs => Sys2Proof.Machine.execTEor rd rs s
  | .tLslReg rd rs => Sys2Proof.Machine.execTLslReg rd rs s
  | .tLsrReg rd rs => Sys2Proof.Machine.execTLsrReg rd rs s
  | .tAsrReg rd rs => Sys2Proof.Machine.execTAsrReg rd rs s
  | .tAdc rd rs => Sys2Proof.Machine.execTAdc rd rs s
  | .tSbc rd rs => Sys2Proof.Machine.execTSbc rd rs s
  | .tRorReg rd rs => Sys2Proof.Machine.execTRorReg rd rs s
  | .tTst rd rs => Sys2Proof.Machine.execTTst rd rs s
  | .tNeg rd rs => Sys2Proof.Machine.execTNeg rd rs s
  | .tCmpReg rd rs => Sys2Proof.Machine.execTCmpReg rd rs s
  | .tCmn rd rs => Sys2Proof.Machine.execTCmn rd rs s
  | .tOrr rd rs => Sys2Proof.Machine.execTOrr rd rs s
  | .tMul rd rs => Sys2Proof.Machine.execTMul rd rs s
  | .tBic rd rs => Sys2Proof.Machine.execTBic rd rs s
  | .tMvn rd rs => Sys2Proof.Machine.execTMvn rd rs s
  | .tAddHi rd rs => Sys2Proof.Machine.execTAddHi rd rs s
  | .tCmpHi rd rs => Sys2Proof.Machine.execTCmpHi rd rs s
  | .tMovHi rd rs => Sys2Proof.Machine.execTMovHi rd rs s
  | .tBx rs ignH1 ign2 => Sys2Proof.Machine.execTBx rs ignH1 ign2 s
  | .tLdrPc rd imm8 => Sys2Proof.Machine.execTLdrPc rd imm8 s
  | .tStrReg rd rb ro => Sys2Proof.Machine.execTStrReg rd rb ro s
  | .tStrbReg rd rb ro => Sys2Proof.Machine.execTStrbReg rd rb ro s
  | .tLdrReg rd rb ro => Sys2Proof.Machine.execTLdrReg rd rb ro s
  | .tLdrbReg rd rb ro => Sys2Proof.Machine.execTLdrbReg rd rb ro s
  | .tStrhReg rd rb ro => Sys2Proof.Machine.execTStrhReg rd rb ro s
  | .tLdsbReg rd rb ro => Sys2Proof.Machine.execTLdsbReg rd rb ro s
  | .tLdrhReg rd rb ro => Sys2Proof.Machine.execTLdrhReg rd rb ro s
  | .tLdshReg rd rb ro => Sys2Proof.Machine.execTLdshReg rd rb ro s
  | .tStrImm rd rb imm5 => Sys2Proof.Machine.execTStrImm rd rb imm5 s
  | .tLdrImm rd rb imm5 => Sys2Proof.Machine.execTLdrImm rd rb imm5 s
  | .tStrbImm rd rb imm5 => Sys2Proof.Machine.execTStrbImm rd rb imm5 s
  | .tLdrbImm rd rb imm5 => Sys2Proof.Machine.execTLdrbImm rd rb imm5 s
  | .tStrhImm rd rb imm5 => Sys2Proof.Machine.execTStrhImm rd rb imm5 s
  | .tLdrhImm rd rb imm5 => Sys2Proof.Machine.execTLdrhImm rd rb imm5 s
  | .tStrSp rd imm8 => Sys2Proof.Machine.execTStrSp rd imm8 s
  | .tLdrSp rd imm8 => Sys2Proof.Machine.execTLdrSp rd imm8 s
  | .tAddPc rd imm8 => Sys2Proof.Machine.execTAddPc rd imm8 s
  | .tAddSp rd imm8 => Sys2Proof.Machine.execTAddSp rd imm8 s
  | .tAdjSp neg imm7 => Sys2Proof.Machine.execTAdjSp neg imm7 s
  | .tPush r list => Sys2Proof.Machine.execTPush r list s
  | .tPop r list => Sys2Proof.Machine.execTPop r list s
  | .tStmia rb list => Sys2Proof.Machine.execTStmia rb list s
  | .tLdmia rb list => Sys2Proof.Machine.execTLdmia rb list s
  | .tBCond cond offset8 => Sys2Proof.Machine.execTBCond cond offset8 s
  | .tUndefined1 ign => Sys2Proof.Machine.execTUndefined1 ign s
  | .tSwi comment => Sys2Proof.Machine.execTSwi comment s
  | .tB offset11 => Sys2Proof.Machine.execTB offset11 s
  | .tUndefined2 ign => Sys2Proof.Machine.execTUndefined2 ign s
  | .tBlFirst offset11 => Sys2Proof.Machine.execTBlFirst offset11 s
  | .tBlSecond offset11 => Sys2Proof.Machine.execTBlSecond offset11 s
  | .tUnknown sel ign => Sys2Proof.Machine.execTUnknown sel ign s

end Sys2Proof.Machine
end

