-- ==== Sys2Proof/Machine/Cycle.lean ====
section
/-! DEFINITION. One step of the core, `cycle()` (40_cycle_pipeline_conditions.md R150), and the placing of an instruction
where the next step executes it. -/

namespace Sys2Proof.Machine

/-- What a step executes (R150): the halfword or the word in p3. -/
def State.decodeCurrent (s : State) : Except DecodeError Instr :=
  if Psr.t s.cpsr then .ok (decodeThumb (s.p3.extractLsb' 0 16)) else decodeArm s.p3

/-- The end of a step: the breakpoint check unless the step raised HACF (R150, R155). -/
def finishStep : Result → Result
  | .next s => .next (if s.halted then s else s.breakpointCheck)
  | .fault r => .fault r
  | .refused r => .refused r

/-- An ARM word without a class is tested for its condition and then halts the core (R150, R520); no index reaches this
(log 23). -/
def State.unknownWord (s : State) : State :=
  s.conditional (Cond.ofBits (s.p3.extractLsb' 28 4)) State.hacf

/-- The instruction in p3, executed or skipped (R150). -/
def State.runCurrent (s : State) : Result :=
  match s.decodeCurrent with
  | .ok i => exec i s
  | .error _ => .next s.unknownWord

/-- `cycle()`: nothing when halted, else FIQ, else IRQ, else the instruction in p3 (R150, R510, R511). -/
def cycle (s0 : State) : Result :=
  let s := s0.beginStep
  if s.halted then .next s
  else if s.pendingFiq && !Psr.f s.cpsr then finishStep (.next s.enterFiq)
  else if s.pendingIrq && !Psr.i s.cpsr then finishStep (.next s.enterIrq)
  else finishStep s.runCurrent

/-- The instruction a step executes next is the one in p3 (R40): a word of more than 16 bits is placed in ARM state, a
shorter one in Thumb state, with no interrupt pending and the core not halted (log 17). -/
def placeInstruction (s : State) (nbits w : Nat) : State :=
  { s with
    p3 := BitVec.ofNat 32 (w % 2 ^ nbits)
    cpsr := Psr.withT s.cpsr (decide (nbits ≤ 16))
    pendingFiq := false
    pendingIrq := false
    halted := false }

end Sys2Proof.Machine
end

