-- ==== Sys2Proof/Machine/Step.lean ====
section
/-! DEFINITION. The step of the machine and the host's way to place an instruction. -/

namespace Sys2Proof.Machine

/-- One activation of `cycle` (R6, R150). -/
def step (s : State) : Host.Outcome State Fault Refusal := cycle s

/-- The state whose next step executes the given word (log 17). -/
def State.withFetchWord (s : State) (nbits w : Nat) : State := placeInstruction s nbits w

end Sys2Proof.Machine
end

