-- ==== Sys2Proof/Safety.lean ====
section
/-! DEFINITION. The terms the statements use: the invariant of the machine, what an instruction leaves alone, and where
execution goes on. -/

namespace Sys2Proof.Machine

/-! ### What is left alone -/

/-- Every byte of memory reads as before. -/
def SameMemory (s t : State) : Prop := ∀ a, Memory.read t.mem a = Memory.read s.mem a

/-- Every byte of memory outside the `n` bytes from `a` reads as before. -/
def SameMemoryOutside (s t : State) (a n : Nat) : Prop :=
  ∀ x, x < a ∨ a + n ≤ x → Memory.read t.mem x = Memory.read s.mem x

/-- The SPSRs, the interrupt requests, the halt bit, the breakpoint index and the toggles are unchanged. -/
structure SameSpecial (s t : State) : Prop where
  spsrs : ∀ b, t.spsrOf b = s.spsrOf b
  pendingFiq : t.pendingFiq = s.pendingFiq
  pendingIrq : t.pendingIrq = s.pendingIrq
  halted : t.halted = s.halted
  breakpoints : t.breakpoints = s.breakpoints
  toggles : t.toggles = s.toggles

/-- Every banked register is unchanged but those listed; `none` in the list stands for R15, which is not one of them. -/
def SameRegistersBut (s t : State) (written : List (Option (Fin 30))) : Prop :=
  ∀ k : Fin 30, some k ∉ written → t.regs[k] = s.regs[k]

/-- Bits 27 to 0 of CPSR, all but the flags, are unchanged. -/
def SameStatusButFlags (s t : State) : Prop := t.cpsr.extractLsb' 0 28 = s.cpsr.extractLsb' 0 28

/-! ### Where execution goes on -/

/-- One sequential fetch: R15 has advanced by one width and p3 holds the next instruction, p2 the word just fetched (R41,
R152). -/
structure Advances (s t : State) : Prop where
  pc : t.r15 = s.r15 + s.widthBytes
  current : t.p3 = s.p2
  next : t.p2 = s.reply s.width s.r15
  fetchType : t.nextFetchType = true

/-- The pipeline slots as one sequential fetch leaves them, whatever R15 holds afterwards: p3 the next instruction, p2 the
word the fetch read from memory as the instruction found it (R152). -/
structure FetchedOnce (s t : State) : Prop where
  current : t.p3 = s.p2
  next : t.p2 = s.reply s.width s.r15
  fetchType : t.nextFetchType = true

/-- The code read that a fetch from this state puts on the port (R152). -/
def State.fetchEvent (s : State) : PortEvent :=
  .codeRead s.width s.r15 s.nextFetchType (s.reply s.width s.r15)

/-- The pipeline has been refilled at a target, aligned to the width of the state now in force (R153). -/
structure ContinuesAt (t : State) (target : Word) : Prop where
  pc : t.r15 = t.width.align target + t.widthBytes + t.widthBytes
  current : t.p3 = t.reply t.width (t.width.align target)
  next : t.p2 = t.reply t.width (t.width.align target + t.widthBytes)
  fetchType : t.nextFetchType = true

/-! ### Shapes of instructions -/

/-- An instruction that leaves a value in one register, the four flags given, and changes nothing else but the pipeline. A
destination R15 holds the value in place of the advanced program counter. -/
structure RegisterResult (s t : State) (rd : Reg) (value : Word) (flags : Flags) : Prop where
  value : t.readReg rd = value
  registers : SameRegistersBut s t [physReg s.bank rd]
  flags : t.flags = flags
  status : SameStatusButFlags s t
  pc : rd ≠ 15#4 → t.r15 = s.r15 + s.widthBytes
  current : t.p3 = s.p2
  next : t.p2 = s.reply s.width s.r15
  fetchType : t.nextFetchType = true
  special : SameSpecial s t
  memory : SameMemory s t

/-- An instruction that writes flags only. -/
structure FlagResult (s t : State) (flags : Flags) : Prop where
  registers : SameRegistersBut s t []
  flags : t.flags = flags
  status : SameStatusButFlags s t
  advances : Advances s t
  special : SameSpecial s t
  memory : SameMemory s t

/-- A transfer of control that writes the listed registers and no status bit. -/
structure JumpResult (s t : State) (target : Word) (written : List (Option (Fin 30))) : Prop where
  registers : SameRegistersBut s t written
  status : t.cpsr = s.cpsr
  target : ContinuesAt t target
  special : SameSpecial s t
  memory : SameMemory s t

/-- An exception entry: what every entry saves, changes and leaves (R505). -/
structure EntryResult (s t : State) (x : Exception) (link : Word) : Prop where
  saved : t.spsrOf x.mode.bank = some s.cpsr
  link : t.readReg 14#4 = link
  mode : Psr.modeBits t.cpsr = x.mode.bits
  irqMasked : Psr.i t.cpsr = true
  fiqMasked : Psr.f t.cpsr = (x.masksFiq || Psr.f s.cpsr)
  armState : Psr.t t.cpsr = false
  upper : t.cpsr.extractLsb' 8 24 = s.cpsr.extractLsb' 8 24
  vector : ContinuesAt t x.vector
  registers : SameRegistersBut s t [physReg x.mode.bank 14#4]
  otherSpsrs : ∀ b, b ≠ x.mode.bank → t.spsrOf b = s.spsrOf b
  memory : SameMemory s t
  halted : t.halted = s.halted
  breakpoints : t.breakpoints = s.breakpoints
  toggles : t.toggles = s.toggles

/-! ### The invariant -/

/-- What every step keeps: memory in canonical form; a mode field that names a mode (R25, R526); bits 23 to 8 of every
status register 0 (R24, R27); p1 a copy of p2 (R40); the breakpoint index in canonical form (R47). -/
structure State.Inv (s : State) : Prop where
  memory : Memory.wf s.mem
  mode : (Mode.ofBits (Psr.modeBits s.cpsr)).isSome = true
  cpsr : Psr.reserved s.cpsr = 0#16
  spsrs : ∀ b p, s.spsrOf b = some p → Psr.reserved p = 0#16
  latch : s.p1 = s.p2
  breakpoints : s.breakpoints.Pairwise (· < ·)

/-- With FIQ_ENABLED false FIQ stays masked: F is set in CPSR, and an SPSR either has F set or is one that no return
accepts, its mode field still 0 as reset left it (R510, R566). -/
structure State.FiqLocked (s : State) : Prop where
  disabled : s.toggles.fiqEnabled = false
  masked : Psr.f s.cpsr = true
  spsrs : ∀ b p, s.spsrOf b = some p → Psr.f p = true ∨ Psr.modeBits p = 0#5

/-- A step takes no interrupt and runs the instruction in p3 (R150). -/
structure State.RunsInstruction (s : State) : Prop where
  running : s.halted = false
  noFiq : s.pendingFiq = false ∨ Psr.f s.cpsr = true
  noIrq : s.pendingIrq = false ∨ Psr.i s.cpsr = true

/-- The condition of an ARM instruction; a Thumb instruction has none that the step tests (R150). -/
def conditionOf (i : Instr) : Option Cond :=
  match i with
  | .and c .. | .eor c .. | .sub c .. | .rsb c .. | .add c .. | .adc c .. | .sbc c .. | .rsc c .. | .tst c ..
  | .teq c .. | .cmp c .. | .cmn c .. | .orr c .. | .mov c .. | .bic c .. | .mvn c .. | .testNoS c ..
  | .mul c .. | .mla c .. | .umull c .. | .umlal c .. | .smull c .. | .smlal c .. | .mrs c .. | .msrReg c ..
  | .msrImm c .. | .swp c .. | .swpb c .. | .bx c .. | .strh c .. | .ldrh c .. | .ldrsb c .. | .ldrsh c ..
  | .ldr c .. | .str c .. | .ldrb c .. | .strb c .. | .ldm c .. | .stm c .. | .b c .. | .bl c .. | .stc c ..
  | .ldc c .. | .cdp c .. | .mcr c .. | .mrc c .. | .swi c .. | .undefinedU1 c .. | .undefinedU2 c ..
  | .undefinedU3 c .. | .undefinedU4 c .. | .unknownMulSwap c .. | .unknownHalf c .. => some c
  | .tLslImm .. | .tLsrImm .. | .tAsrImm .. | .tAddReg .. | .tSubReg .. | .tAddImm3 .. | .tSubImm3 ..
  | .tMovImm .. | .tCmpImm .. | .tAddImm8 .. | .tSubImm8 .. | .tAnd .. | .tEor .. | .tLslReg .. | .tLsrReg ..
  | .tAsrReg .. | .tAdc .. | .tSbc .. | .tRorReg .. | .tTst .. | .tNeg .. | .tCmpReg .. | .tCmn .. | .tOrr ..
  | .tMul .. | .tBic .. | .tMvn .. | .tAddHi .. | .tCmpHi .. | .tMovHi .. | .tBx .. | .tLdrPc .. | .tStrReg ..
  | .tStrbReg .. | .tLdrReg .. | .tLdrbReg .. | .tStrhReg .. | .tLdsbReg .. | .tLdrhReg .. | .tLdshReg ..
  | .tStrImm .. | .tLdrImm .. | .tStrbImm .. | .tLdrbImm .. | .tStrhImm .. | .tLdrhImm .. | .tStrSp ..
  | .tLdrSp .. | .tAddPc .. | .tAddSp .. | .tAdjSp .. | .tPush .. | .tPop .. | .tStmia .. | .tLdmia ..
  | .tBCond .. | .tUndefined1 .. | .tSwi .. | .tB .. | .tUndefined2 .. | .tBlFirst .. | .tBlSecond ..
  | .tUnknown .. => none

/-- The instructions that write memory: stores, swaps, STM, PUSH, STMIA (R80, R89). -/
def writesMemory (i : Instr) : Bool :=
  match i with
  | .swp .. | .swpb .. | .strh .. | .str .. | .strb .. | .stm .. | .tStrReg .. | .tStrbReg .. | .tStrhReg ..
  | .tStrImm .. | .tStrbImm .. | .tStrhImm .. | .tStrSp .. | .tPush .. | .tStmia .. => true
  | .and .. | .eor .. | .sub .. | .rsb .. | .add .. | .adc .. | .sbc .. | .rsc .. | .tst .. | .teq .. | .cmp ..
  | .cmn .. | .orr .. | .mov .. | .bic .. | .mvn .. | .testNoS .. | .mul .. | .mla .. | .umull .. | .umlal ..
  | .smull .. | .smlal .. | .mrs .. | .msrReg .. | .msrImm .. | .bx .. | .ldrh .. | .ldrsb .. | .ldrsh ..
  | .ldr .. | .ldrb .. | .ldm .. | .b .. | .bl .. | .stc .. | .ldc .. | .cdp .. | .mcr .. | .mrc .. | .swi ..
  | .undefinedU1 .. | .undefinedU2 .. | .undefinedU3 .. | .undefinedU4 .. | .unknownMulSwap ..
  | .unknownHalf .. | .tLslImm .. | .tLsrImm .. | .tAsrImm .. | .tAddReg .. | .tSubReg .. | .tAddImm3 ..
  | .tSubImm3 .. | .tMovImm .. | .tCmpImm .. | .tAddImm8 .. | .tSubImm8 .. | .tAnd .. | .tEor .. | .tLslReg ..
  | .tLsrReg .. | .tAsrReg .. | .tAdc .. | .tSbc .. | .tRorReg .. | .tTst .. | .tNeg .. | .tCmpReg ..
  | .tCmn .. | .tOrr .. | .tMul .. | .tBic .. | .tMvn .. | .tAddHi .. | .tCmpHi .. | .tMovHi .. | .tBx ..
  | .tLdrPc .. | .tLdrReg .. | .tLdrbReg .. | .tLdsbReg .. | .tLdrhReg .. | .tLdshReg .. | .tLdrImm ..
  | .tLdrbImm .. | .tLdrhImm .. | .tLdrSp .. | .tAddPc .. | .tAddSp .. | .tAdjSp .. | .tPop .. | .tLdmia ..
  | .tBCond .. | .tUndefined1 .. | .tSwi .. | .tB .. | .tUndefined2 .. | .tBlFirst .. | .tBlSecond ..
  | .tUnknown .. => false

/-! ### Completion -/

/-- `exec` answers a next state, and the state is as said. -/
def Completes (i : Instr) (s : State) (post : State → Prop) : Prop := ∃ t, exec i s = .next t ∧ post t

/-- The core has halted: the port signal and the bit, nothing else (R520). -/
def Halts (s t : State) : Prop := t = { s with halted := true, port := s.port ++ [.hacf] }

/-- A load: the value goes to Rd, the index to the base register when it is written back and is another register, the
pipeline has made one fetch, nothing else changes; a load of R15 continues at the value (R262 to R264). -/
structure LoadResult (s t : State) (rd rn : Reg) (delivered : Word) (wb : Option Word) : Prop where
  value : rd ≠ 15#4 → t.readReg rd = delivered
  jump : rd = 15#4 → ContinuesAt t delivered
  base : ∀ v, wb = some v → rn ≠ rd → t.readReg rn = v
  registers : SameRegistersBut s t (physReg s.bank rd :: (wb.map fun _ => physReg s.bank rn).toList)
  pc : rd ≠ 15#4 → (wb.isSome = true → rn ≠ 15#4) → t.r15 = s.r15 + s.widthBytes
  fetched : rd ≠ 15#4 → FetchedOnce s t
  status : t.cpsr = s.cpsr
  special : SameSpecial s t
  memory : SameMemory s t

/-- A store: the value stands at the address the port aligns, every other byte is as before, the index goes to the base
register when it is written back, p2 is the word fetched before the write, and the next fetch is non-sequential (R152, R262,
R263). -/
structure StoreResult (s t : State) (w : Width) (addr value : Word) (rn : Reg) (wb : Option Word) : Prop where
  stored : t.reply w addr = w.truncate value
  memory : SameMemoryOutside s t (w.align addr).toNat w.bytes
  base : ∀ v, wb = some v → t.readReg rn = v
  registers : SameRegistersBut s t (wb.map fun _ => physReg s.bank rn).toList
  pc : (wb.isSome = true → rn ≠ 15#4) → t.r15 = s.r15 + s.widthBytes
  current : t.p3 = s.p2
  next : t.p2 = s.reply s.width s.r15
  fetchType : t.nextFetchType = false
  status : t.cpsr = s.cpsr
  special : SameSpecial s t

/-- The bank a block transfer reads or writes: the user bank with S set, unless R15 is loaded (R305). -/
def blockBank (s : State) (userBank : Bool) : Bank := if userBank then .usr else s.bank

/-- Loads of R304: the k-th register of the list holds the word at `start + 4k`; the base register, when written back and
not reloaded, holds the write-back value; nothing else changes. -/
structure BlockLoaded (s t : State) (bank : Bank) (rn : Reg) (list : BitVec 16) (start : Word) (wb : Option Word) :
    Prop where
  loaded : ∀ (k : Nat) (hk : k < (registerList list).length), (registerList list)[k] ≠ 15#4 →
    t.readRegOf bank (registerList list)[k] = s.reply .word (start + BitVec.ofNat 32 (4 * k))
  base : ∀ v i, wb = some v → physReg s.bank rn = some i → some i ∉ (registerList list).map (physReg bank) →
    t.regs[i] = v
  registers : SameRegistersBut s t
    ((registerList list).map (physReg bank) ++ (wb.map fun _ => physReg s.bank rn).toList)
  special : SameSpecial s t
  memory : SameMemory s t

/-- Stores of R304: the word at `start + 4k` is the k-th register of the list as the step's fetch leaves it, or the
write-back value when that register is the base and not the first; every other byte is as before, and p2 is the word fetched
before the first write (R152). -/
structure BlockStored (s t : State) (bank : Bank) (rn : Reg) (list : BitVec 16) (start : Word) (wb : Option Word) :
    Prop where
  stored : ∀ (k : Nat) (hk : k < (registerList list).length),
    t.reply .word (start + BitVec.ofNat 32 (4 * k)) =
      (if k ≠ 0 ∧ physReg bank (registerList list)[k] = physReg s.bank rn then wb else none).getD
        (s.fetchOpcode.readRegOf bank (registerList list)[k])
  memory : ∀ x, (∀ k < (registerList list).length,
      let a := (Width.word.align (start + BitVec.ofNat 32 (4 * k))).toNat
      x < a ∨ a + 4 ≤ x) → Memory.read t.mem x = Memory.read s.mem x
  base : ∀ v, wb = some v → t.readReg rn = v
  registers : SameRegistersBut s t (wb.map fun _ => physReg s.bank rn).toList
  pc : (wb.isSome = true → rn ≠ 15#4) → t.r15 = s.r15 + s.widthBytes
  current : t.p3 = s.p2
  next : t.p2 = s.reply s.width s.r15
  fetchType : t.nextFetchType = false
  status : t.cpsr = s.cpsr
  special : SameSpecial s t

end Sys2Proof.Machine
end

