-- ==== Sys2Proof/Certificates/Slice0/Obligations.lean ====
section
/-! DEFINITION. The statements for the provers. A statement whose JSON entry says 'derived' rests on decisions of the spec or on
the model's log where its docstring names one. -/

open Sys2Proof Sys2Proof.Machine

/-- Decoding the word of every well-formed instruction gives the instruction back (R104, R110, R120, R130). -/
def Obligations.DecodeEncode : Prop :=
  ∀ i : Instr, i.wellFormed = true → decodeCode (encode i) = .ok i

/-- Every 32-bit word decodes to one well-formed instruction that encodes back to it (R101, R110, R112, R113). -/
def Obligations.EncodeDecodeArm : Prop :=
  ∀ w : Word, ∃ i : Instr, decodeArm w = .ok i ∧ i.wellFormed = true ∧ encode i = .arm w

/-- Every 16-bit halfword decodes to one well-formed instruction that encodes back to it (R101, R130, R464). -/
def Obligations.EncodeDecodeThumb : Prop :=
  ∀ h : Half, (decodeThumb h).wellFormed = true ∧ encode (decodeThumb h) = .thumb h

/-- Decoding the bytes of an instruction gives it and leaves the bytes that follow (R100, R75). -/
def Obligations.DecodeBytesEncode : Prop :=
  ∀ (i : Instr) (rest : List Byte), i.wellFormed = true →
    decodeBytes (encode i).isThumb ((encode i).bytes ++ rest) = .ok (i, rest)

/-- Six words the spec writes out decode to the instructions it names (R104, R120, R223, R270, R310, R365, R440). -/
def Obligations.KnownWords : Prop :=
  decodeArm 0xE3B00000#32 = .ok (.mov .al true 0#4 0#4 (.imm 0#4 0#8)) ∧
    decodeArm 0xE0900000#32 = .ok (.add .al true 0#4 0#4 (.immShift .lsl 0#5 0#4)) ∧
    decodeArm 0xE59F0000#32 = .ok (.ldr .al ⟨true, true, false⟩ 15#4 0#4 (.imm 0#12)) ∧
    decodeArm 0xE8B08002#32 = .ok (.ldm .al ⟨false, true, true⟩ false 0#4 0x8002#16) ∧
    decodeThumb 0x0108#16 = .tLslImm 0#3 1#3 4#5 ∧ decodeThumb 0xB503#16 = .tPush true 0x03#8

/-- A step that takes no interrupt runs the instruction whose word is in p3, then makes the breakpoint check (R150, R40,
R101). -/
def Obligations.StepRunsDecoded : Prop :=
  ∀ (s : State) (i : Instr), s.RunsInstruction → i.wellFormed = true →
    encode i = (if Psr.t s.cpsr then .thumb (s.p3.extractLsb' 0 16) else .arm s.p3) →
    ∃ t, exec i s.beginStep = .next t ∧ step s = .next (if t.halted then t else t.breakpointCheck)

/-- Every step ends in a next state; a step of a halted core changes nothing and issues no transaction (R12, R48, R520). -/
def Obligations.StepAnswersNext : Prop :=
  ∀ s : State, (∃ t, step s = .next t) ∧ (s.halted = true → step s = .next { s with port := [] })

/-- A pending FIQ that is not masked is entered by the step, before IRQ and before the instruction (R501, R505, R511). -/
def Obligations.FiqEntry : Prop :=
  ∀ s : State, s.halted = false → s.pendingFiq = true → Psr.f s.cpsr = false →
    ∃ t, step s = .next t ∧ EntryResult s t .fiq (s.r15 - (if Psr.t s.cpsr then 0#32 else 4#32)) ∧
      t.pendingFiq = false ∧ t.pendingIrq = s.pendingIrq ∧ t.r15 = 0x00000024#32

/-- A pending IRQ that is not masked is entered by the step when no FIQ is taken (R502, R505, R510). -/
def Obligations.IrqEntry : Prop :=
  ∀ s : State, s.halted = false → (s.pendingFiq = false ∨ Psr.f s.cpsr = true) → s.pendingIrq = true →
    Psr.i s.cpsr = false →
    ∃ t, step s = .next t ∧ EntryResult s t .irq (s.r15 - (if Psr.t s.cpsr then 0#32 else 4#32)) ∧
      t.pendingIrq = false ∧ t.pendingFiq = s.pendingFiq ∧ t.r15 = 0x00000020#32

/-- A step that does not halt signals a breakpoint exactly when the next instruction's address is marked (R155, R533). -/
def Obligations.BreakpointReported : Prop :=
  ∀ s t : State, step s = .next t → t.halted = false →
    (PortEvent.breakpoint ∈ t.port ↔
      t.toggles.debugBreakpoints = true ∧ t.r15 - t.widthBytes - t.widthBytes ∈ t.breakpoints)

/-- An ARM instruction whose condition fails fetches and changes nothing else (R161). -/
def Obligations.SkippedInstruction : Prop :=
  ∀ (i : Instr) (c : Cond) (s : State), conditionOf i = some c → conditionPassed c s.flags = false →
    Completes i s (fun t => Advances s t ∧ t.regs = s.regs ∧ t.cpsr = s.cpsr ∧ t.mem = s.mem ∧ SameSpecial s t ∧
      t.port = s.port ++ [s.fetchEvent])

/-- The invariant holds in the state after reset (R561, R24). -/
def Obligations.InvReset : Prop :=
  State.Inv State.reset

/-- Every step keeps the invariant, from every state that meets it (R24, R27, R40, R526, R74). -/
def Obligations.InvStep : Prop :=
  ∀ s t : State, s.Inv → step s = .next t → t.Inv

/-- No step changes the breakpoint index or the two toggles (R47, R5). -/
def Obligations.StepKeepsIndexAndToggles : Prop :=
  ∀ s t : State, step s = .next t → t.breakpoints = s.breakpoints ∧ t.toggles = s.toggles

/-- A step from USR mode stays in USR mode with its masks, SPSRs and other banks untouched, or is an exception entry (R525,
R526, R332). -/
def Obligations.UserModeIsolation : Prop :=
  ∀ s t : State, Psr.modeBits s.cpsr = Mode.usr.bits → step s = .next t →
    (Psr.modeBits t.cpsr = Mode.usr.bits ∧ Psr.i t.cpsr = Psr.i s.cpsr ∧ Psr.f t.cpsr = Psr.f s.cpsr ∧
      (∀ b, t.spsrOf b = s.spsrOf b) ∧ ∀ k : Fin 30, 15 ≤ k → t.regs[k] = s.regs[k]) ∨
    ∃ x : Exception, Psr.modeBits t.cpsr = x.mode.bits ∧ Psr.i t.cpsr = true ∧ Psr.t t.cpsr = false ∧
      ContinuesAt t x.vector ∧ t.spsrOf x.mode.bank = some s.cpsr ∧
      (∀ b, b ≠ x.mode.bank → t.spsrOf b = s.spsrOf b) ∧
      ∀ k : Fin 30, 15 ≤ k → physReg x.mode.bank 14#4 ≠ some k → t.regs[k] = s.regs[k]

/-- With FIQ_ENABLED false FIQ stays masked for ever and no step enters it (R510, R5, R331, R566). -/
def Obligations.FiqStaysLocked : Prop :=
  (∀ s t : State, s.FiqLocked → step s = .next t → t.FiqLocked ∧ t.pendingFiq = s.pendingFiq) ∧
    State.FiqLocked { State.reset with toggles := ⟨false, true⟩ }

/-- No instruction but the stores, the swaps and the block stores changes a byte of memory (R80, R89, R505). -/
def Obligations.OnlyStoresWriteMemory : Prop :=
  ∀ (i : Instr) (s t : State), writesMemory i = false → exec i s = .next t → t.mem = s.mem

/-- What the reset input leaves, from any state (R560, R561). -/
def Obligations.ResetInput : Prop :=
  (∀ s : State, let t := s.resetInput
      (∀ (b : Bank) (n : Reg), n ≠ 15#4 → t.readRegOf b n = 0#32) ∧ t.r15 = 8#32 ∧ t.cpsr = 0x000000D3#32 ∧
      (∀ b p, t.spsrOf b = some p → p = 0#32) ∧ t.p3 = Memory.readWidth s.mem .word 0#32 ∧
      t.p2 = Memory.readWidth s.mem .word 4#32 ∧ t.p1 = t.p2 ∧ t.nextFetchType = true ∧ t.pendingFiq = false ∧
      t.pendingIrq = false ∧ t.halted = false ∧ t.mem = s.mem ∧ t.breakpoints = s.breakpoints ∧ t.toggles = s.toggles ∧
      t.port = [.codeRead .word 0#32 false t.p3, .codeRead .word 4#32 true t.p2]) ∧
    State.reset.resetInput = State.reset

/-- Entering an exception mode and leaving it from any later state of that mode restores CPSR bit for bit and the registers
(R34, R30, R31, R33). The physical registers of R30 stand for the bank slots (log 6). -/
def Obligations.ModeRoundTrip : Prop :=
  ∀ (s : State) (m : Mode), (Mode.ofBits (Psr.modeBits s.cpsr)).isSome = true → m.bank ≠ .usr →
    let e := s.enterMode m
    (Psr.modeBits e.cpsr = m.bits ∧ e.spsrOf m.bank = some s.cpsr ∧ e.regs = s.regs ∧ e.r15 = s.r15) ∧
    (∃ t, e.leaveMode = some t ∧ t.cpsr = s.cpsr ∧ ∀ n, t.readReg n = s.readReg n) ∧
    ∀ u : State, Psr.modeBits u.cpsr = m.bits → u.spsrOf m.bank = some s.cpsr →
      ∃ t, u.leaveMode = some t ∧ t.cpsr = s.cpsr ∧ (∀ n, t.readReg n = u.readRegOf s.bank n) ∧
        (m.bank ≠ s.bank → (∀ k : Fin 30, (∀ n, physReg m.bank n ≠ some k) → u.regs[k] = s.regs[k]) →
          t.readReg 13#4 = s.readReg 13#4 ∧ t.readReg 14#4 = s.readReg 14#4)

/-- Which register each bank shows, and the bank and the SPSR of each of the seven modes (R25, R28, R29, R30, R32). The mode
numbers of FIQ, IRQ, ABT and UND are general knowledge by the spec's mark (log 19). -/
def Obligations.BankedRegisters : Prop :=
  ∀ s : State,
    (∀ (b c : Bank) (n m : Reg) (v : Word), (s.writeRegOf b n v).readRegOf c m =
      if n = m ∧ (b = c ∨ n < 8#4 ∨ n = 15#4 ∨ (n < 13#4 ∧ b ≠ .fiq ∧ c ≠ .fiq)) then v else s.readRegOf c m) ∧
    ∀ row ∈ [(0x10#5, Bank.usr, s.cpsr), (0x11#5, .fiq, s.spsrFiq), (0x12#5, .irq, s.spsrIrq), (0x13#5, .svc, s.spsrSvc),
      (0x17#5, .abt, s.spsrAbt), (0x1B#5, .und, s.spsrUnd), (0x1F#5, .usr, s.cpsr)],
      Psr.modeBits s.cpsr = row.1 →
        s.bank = row.2.1 ∧ s.currentSpsr = row.2.2 ∧ ∀ n, s.readReg n = s.readRegOf row.2.1 n

/-- A read of the bytes just written gives the value written, at every width and alignment (R74, R75, R87). -/
def Obligations.MemoryReadsBack : Prop :=
  ∀ (m : Memory) (w : Width) (a b v : Word), Memory.wf m →
    let m' := m.writeWidth w a v
    Memory.wf m' ∧ (w.align b = w.align a → m'.readWidth w b = w.truncate v) ∧
      (∀ k < w.bytes, Memory.read m' ((w.align a).toNat + k) = v.extractLsb' (8 * k) 8) ∧
      ∀ x, x < (w.align a).toNat ∨ (w.align a).toNat + w.bytes ≤ x → Memory.read m' x = Memory.read m x

/-- Adding and removing a breakpoint changes the set by that address only (R47). -/
def Obligations.BreakpointIndex : Prop :=
  ∀ (s : State) (a x : Word), s.breakpoints.Pairwise (· < ·) →
    (x ∈ (s.addBreakpoint a).breakpoints ↔ x = a ∨ x ∈ s.breakpoints) ∧
    (x ∈ (s.removeBreakpoint a).breakpoints ↔ x ≠ a ∧ x ∈ s.breakpoints) ∧
    (s.addBreakpoint a).breakpoints.Pairwise (· < ·) ∧ (s.removeBreakpoint a).breakpoints.Pairwise (· < ·)

/-- The shifter carry of LSL #0, of LSR #32 and of RRX (R188). -/
def Obligations.ShifterCarries : Prop :=
  ∀ (v : Word) (c : Bool), (shiftImm .lsl v 0#5 c).carry = c ∧ (shiftImm .lsr v 0#5 c).carry = v.getLsbD 31 ∧
    (shiftImm .ror v 0#5 c).carry = v.getLsbD 0

/-- The shift by a register amount, 0 to 255: value and carry of every row of the table (R187, R182, R186, N20). The carry
of the amounts 1 to 31 is general knowledge by the spec's mark (R186, N20; log 19). -/
def Obligations.ShiftByRegister : Prop :=
  ∀ (v : Word) (amt : BitVec 8) (c : Bool), let n := amt.toNat
    (n = 0 → ∀ type, shiftReg type v amt c = ⟨v, c⟩) ∧
    (1 ≤ n → n < 32 → (shiftReg .lsl v amt c).value.toNat = v.toNat * 2 ^ n % 2 ^ 32 ∧
      (shiftReg .lsl v amt c).carry = v.getLsbD (32 - n) ∧
      (shiftReg .lsr v amt c).value.toNat = v.toNat / 2 ^ n ∧ (shiftReg .lsr v amt c).carry = v.getLsbD (n - 1) ∧
      (shiftReg .asr v amt c).value.toInt = v.toInt / 2 ^ n ∧ (shiftReg .asr v amt c).carry = v.getLsbD (n - 1)) ∧
    (n = 32 → shiftReg .lsl v amt c = ⟨0#32, v.getLsbD 0⟩ ∧ shiftReg .lsr v amt c = ⟨0#32, v.getLsbD 31⟩) ∧
    (32 < n → shiftReg .lsl v amt c = ⟨0#32, false⟩ ∧ shiftReg .lsr v amt c = ⟨0#32, false⟩) ∧
    (32 ≤ n → (shiftReg .asr v amt c).value = (if v.getLsbD 31 then 0xFFFFFFFF#32 else 0#32) ∧
      (shiftReg .asr v amt c).carry = v.getLsbD 31) ∧
    (n ≠ 0 → n % 32 = 0 → shiftReg .ror v amt c = ⟨v, v.getLsbD 31⟩) ∧
    (n % 32 ≠ 0 → (∀ k < 32, (shiftReg .ror v amt c).value.getLsbD k = v.getLsbD ((k + n) % 32)) ∧
      (shiftReg .ror v amt c).carry = v.getLsbD (n % 32 - 1))

/-- Operand 2 in its three forms, and the shift by an immediate amount, 0 to 31, row by row of the table (R180, R181, R182,
R183, R184, R186). The carry of the amounts 1 to 31 is general knowledge by the spec's mark (R186; log 19). -/
def Obligations.ShiftByImmediate : Prop :=
  (∀ (s : State) (rot : BitVec 4) (imm8 : BitVec 8) (type : ShiftType) (amt : BitVec 5) (rs rm : Reg),
      (∀ k < 32, (s.shifter (.imm rot imm8)).value.getLsbD k =
        (imm8.setWidth 32).getLsbD ((k + 2 * rot.toNat) % 32)) ∧
      (rot = 0#4 → (s.shifter (.imm rot imm8)).carry = s.flags.c) ∧
      (rot ≠ 0#4 → (s.shifter (.imm rot imm8)).carry = (s.shifter (.imm rot imm8)).value.getLsbD 31) ∧
      s.shifter (.immShift type amt rm) = shiftImm type (s.readReg rm) amt s.flags.c ∧
      s.shifter (.regShift type rs rm) =
        shiftReg type (s.readReg rm) (BitVec.ofNat 8 (s.readReg rs).toNat) s.flags.c) ∧
    ∀ (v : Word) (amt : BitVec 5) (c : Bool), let n := amt.toNat
    (n = 0 → shiftImm .lsl v amt c = ⟨v, c⟩ ∧ shiftImm .lsr v amt c = ⟨0#32, v.getLsbD 31⟩ ∧
      shiftImm .asr v amt c = ⟨if v.getLsbD 31 then 0xFFFFFFFF#32 else 0#32, v.getLsbD 31⟩ ∧
      (shiftImm .ror v amt c).value.toNat = v.toNat / 2 + c.toNat * 2 ^ 31 ∧
      (shiftImm .ror v amt c).carry = v.getLsbD 0) ∧
    (n ≠ 0 → (shiftImm .lsl v amt c).value.toNat = v.toNat * 2 ^ n % 2 ^ 32 ∧
      (shiftImm .lsl v amt c).carry = v.getLsbD (32 - n) ∧
      (shiftImm .lsr v amt c).value.toNat = v.toNat / 2 ^ n ∧ (shiftImm .lsr v amt c).carry = v.getLsbD (n - 1) ∧
      (shiftImm .asr v amt c).value.toInt = v.toInt / 2 ^ n ∧ (shiftImm .asr v amt c).carry = v.getLsbD (n - 1) ∧
      (∀ k < 32, (shiftImm .ror v amt c).value.getLsbD k = v.getLsbD ((k + n) % 32)) ∧
      (shiftImm .ror v amt c).carry = v.getLsbD (n - 1))

/-- The result, carry and overflow of AddWithCarry and SubWithCarry (R204). -/
def Obligations.AddSubtractFlags : Prop :=
  ∀ (a b : Word) (c : Bool),
    let r := addWithCarry a b c
    let d := subWithCarry a b c
    r.value.toNat = (a.toNat + b.toNat + c.toNat) % 2 ^ 32 ∧ (r.c = true ↔ 2 ^ 32 ≤ a.toNat + b.toNat + c.toNat) ∧
    r.v = ((~~~(a ^^^ b)) &&& (a ^^^ r.value)).getLsbD 31 ∧ (r.v = true ↔ r.value.toInt ≠ a.toInt + b.toInt + c.toNat) ∧
    (d.value.toNat : Int) = ((a.toNat : Int) - b.toNat - (1 - (c.toNat : Int))) % 2 ^ 32 ∧
    (d.c = true ↔ b.toNat + (1 - c.toNat) ≤ a.toNat) ∧
    d.v = ((a ^^^ b) &&& (a ^^^ d.value)).getLsbD 31 ∧
    (d.v = true ↔ d.value.toInt ≠ a.toInt - b.toInt - (1 - (c.toNat : Int)))

/-- The multiplier's cycle count by the formula is the count of the spec's table (R241). -/
def Obligations.MultiplierCycles : Prop :=
  ∀ x : Word,
    multiplierCyclesSigned x =
      (if x.toNat / 2 ^ 8 = 0 ∨ x.toNat / 2 ^ 8 = 2 ^ 24 - 1 then 1
        else if x.toNat / 2 ^ 16 = 0 ∨ x.toNat / 2 ^ 16 = 2 ^ 16 - 1 then 2
        else if x.toNat / 2 ^ 24 = 0 ∨ x.toNat / 2 ^ 24 = 2 ^ 8 - 1 then 3 else 4) ∧
    multiplierCyclesUnsigned x =
      (if x.toNat / 2 ^ 8 = 0 then 1 else if x.toNat / 2 ^ 16 = 0 then 2 else if x.toNat / 2 ^ 24 = 0 then 3 else 4)

/-- AND, EOR, ORR, MOV, BIC, MVN, TST and TEQ: result, flags and frame, in every operand form, Rd not R15 (R201, R202, R203,
R223, R210, R211, R222, R224, R225, R218, R219). The operand reads of the register-shift form follow decision D35 of the
spec. -/
def Obligations.LogicalInstructions : Prop :=
  ∀ (c : Cond) (setFlags : Bool) (rn rd : Reg) (op2 : Operand2) (s : State), conditionPassed c s.flags = true →
    rd ≠ 15#4 →
    let s1 := s.operandFetch op2
    let a := s1.readReg rn
    let b := (s1.shifter op2).value
    let f := fun r : Word => (⟨r.msb, r == 0#32, (s1.shifter op2).carry, s.flags.v⟩ : Flags)
    let fs := fun r : Word => if setFlags then f r else s.flags
    Completes (.and c setFlags rn rd op2) s (RegisterResult s · rd (a &&& b) (fs (a &&& b))) ∧
    Completes (.eor c setFlags rn rd op2) s (RegisterResult s · rd (a ^^^ b) (fs (a ^^^ b))) ∧
    Completes (.orr c setFlags rn rd op2) s (RegisterResult s · rd (a ||| b) (fs (a ||| b))) ∧
    Completes (.mov c setFlags rn rd op2) s (RegisterResult s · rd b (fs b)) ∧
    Completes (.bic c setFlags rn rd op2) s (RegisterResult s · rd (a &&& ~~~b) (fs (a &&& ~~~b))) ∧
    Completes (.mvn c setFlags rn rd op2) s (RegisterResult s · rd (~~~b) (fs (~~~b))) ∧
    Completes (.tst c rn rd op2) s (FlagResult s · (f (a &&& b))) ∧
    Completes (.teq c rn rd op2) s (FlagResult s · (f (a ^^^ b)))

/-- SUB, RSB, ADD, ADC, SBC, RSC, CMP and CMN: result, flags and frame, in every operand form, Rd not R15 (R201, R202, R212,
R213, R214, R215, R216, R217, R220, R221). The operand reads of the register-shift form follow decision D35 of the spec. -/
def Obligations.ArithmeticInstructions : Prop :=
  ∀ (c : Cond) (setFlags : Bool) (rn rd : Reg) (op2 : Operand2) (s : State), conditionPassed c s.flags = true →
    rd ≠ 15#4 →
    let s1 := s.operandFetch op2
    let a := s1.readReg rn
    let b := (s1.shifter op2).value
    let fs := fun r : AluResult => if setFlags then r.flags else s.flags
    let done := fun (i : Instr) (r : AluResult) => Completes i s (RegisterResult s · rd r.value (fs r))
    done (.sub c setFlags rn rd op2) (subWithCarry a b true) ∧ done (.rsb c setFlags rn rd op2) (subWithCarry b a true) ∧
    done (.add c setFlags rn rd op2) (addWithCarry a b false) ∧
    done (.adc c setFlags rn rd op2) (addWithCarry a b s.flags.c) ∧
    done (.sbc c setFlags rn rd op2) (subWithCarry a b s.flags.c) ∧
    done (.rsc c setFlags rn rd op2) (subWithCarry b a s.flags.c) ∧
    Completes (.cmp c rn rd op2) s (FlagResult s · (subWithCarry a b true).flags) ∧
    Completes (.cmn c rn rd op2) s (FlagResult s · (addWithCarry a b false).flags)

/-- R15 as an operand reads two instructions ahead, three in the register-shift form; other registers are as before (R202,
R230, R22). -/
def Obligations.PcOperand : Prop :=
  ∀ (s : State) (op2 : Operand2),
    (s.operandFetch op2).readReg 15#4 = (if isRegShift op2 then s.r15 + s.widthBytes else s.r15) ∧
    (∀ n, n ≠ 15#4 → (s.operandFetch op2).readReg n = s.readReg n) ∧ (s.operandFetch op2).flags = s.flags

/-- Data processing with Rd = R15: a jump without S, the exception return with S, HACF on an invalid SPSR (R205, R207, R515,
R33). -/
def Obligations.DataProcessingWritesPc : Prop :=
  ∀ (c : Cond) (rn : Reg) (op2 : Operand2) (s : State), conditionPassed c s.flags = true →
    ∀ row ∈ ([(.and, opAnd), (.eor, opEor), (.sub, opSub), (.rsb, opRsb), (.add, opAdd), (.adc, opAdc), (.sbc, opSbc),
      (.rsc, opRsc), (.orr, opOrr), (.mov, opMov), (.bic, opBic), (.mvn, opMvn)] :
        List ((Cond → Bool → Reg → Reg → Operand2 → Instr) × AluOp)),
    let s1 := s.operandFetch op2
    let r := (row.2 (s1.readReg rn) (s1.shifter op2).value (s1.shifter op2).carry s.flags).value
    Completes (row.1 c false rn 15#4 op2) s (JumpResult s · r []) ∧
    ((Mode.ofBits (Psr.modeBits s.currentSpsr)).isSome = true →
      Completes (row.1 c true rn 15#4 op2) s fun t => t.cpsr = s.currentSpsr ∧ ContinuesAt t r ∧
        SameRegistersBut s t [] ∧ SameSpecial s t ∧ SameMemory s t) ∧
    (Mode.ofBits (Psr.modeBits s.currentSpsr) = none →
      Completes (row.1 c true rn 15#4 op2) s (Halts s1 ·))

/-- The irregular test opcodes change nothing; a test opcode with Rd = R15 restores CPSR and does not flush (R205, R206,
R113). -/
def Obligations.TestsWithoutEffect : Prop :=
  ∀ (c : Cond) (opc : BitVec 2) (rn rd : Reg) (op2 : Operand2) (s : State), conditionPassed c s.flags = true →
    Completes (.testNoS c opc rn rd op2) s (FlagResult s · s.flags) ∧
    ∀ i ∈ [Instr.tst c rn 15#4 op2, .teq c rn 15#4 op2, .cmp c rn 15#4 op2, .cmn c rn 15#4 op2],
      ((Mode.ofBits (Psr.modeBits s.currentSpsr)).isSome = true →
        Completes i s fun t => t.cpsr = s.currentSpsr ∧ t.regs = s.regs ∧ t.p3 = s.p2 ∧
          t.p2 = s.reply (if isRegShift op2 then s.width else t.width) s.r15 ∧ t.nextFetchType = true ∧
          t.r15 = s.r15 + (if isRegShift op2 then s.widthBytes else t.widthBytes) ∧ SameSpecial s t ∧ SameMemory s t) ∧
      (Mode.ofBits (Psr.modeBits s.currentSpsr) = none → Completes i s (Halts (s.operandFetch op2) ·))

/-- MUL and MLA: the low 32 bits, N and Z with S, C and V unchanged, the internal cycles (R242, R243, R244, R250). R15 as
operand or destination: ID4, the model's choice of log 11; the multiplier operand D23; the fetch before the cycles D7. -/
def Obligations.MultiplyInstructions : Prop :=
  ∀ (c : Cond) (setFlags : Bool) (rd rn rs rm : Reg) (s : State), conditionPassed c s.flags = true →
    let x := s.readReg rm
    let y := s.readReg rs
    let f := fun r : Word => if setFlags then (⟨r.msb, r == 0#32, s.flags.c, s.flags.v⟩ : Flags) else s.flags
    let p := fun n : Nat => s.port ++ [s.fetchEvent, .iCycle n]
    let mul := BitVec.ofNat 32 (x.toNat * y.toNat)
    let mla := BitVec.ofNat 32 (x.toNat * y.toNat + (s.readReg rn).toNat)
    Completes (.mul c setFlags rd rn rs rm) s (fun t => RegisterResult s t rd mul (f mul) ∧
      t.port = p (multiplierCyclesSigned y)) ∧
    Completes (.mla c setFlags rd rn rs rm) s (fun t => RegisterResult s t rd mla (f mla) ∧
      t.port = p (multiplierCyclesSigned y + 1))

/-- UMULL, UMLAL, SMULL and SMLAL: the 64-bit result, flags, cycles and frame (R245, R246, R247, R248, R250). R15 as operand
or destination: ID4, the model's choice of log 11; Z and the order of the two writes D22; the multiplier operand D23; the
fetch before the cycles D7. -/
def Obligations.MultiplyLongInstructions : Prop :=
  ∀ (c : Cond) (setFlags : Bool) (hi lo rs rm : Reg) (s : State), conditionPassed c s.flags = true →
    let x := s.readReg rm
    let y := s.readReg rs
    let acc : Int := (s.readReg hi).toNat * 2 ^ 32 + (s.readReg lo).toNat
    let done := fun (i : Instr) (value : Int) (cycles : Nat) =>
      let r := BitVec.ofInt 64 value
      Completes i s fun t => t.readReg hi = BitVec.ofInt 32 (value / 2 ^ 32) ∧
        (lo ≠ hi → t.readReg lo = BitVec.ofInt 32 value) ∧
        t.flags = (if setFlags then ⟨r.msb, r == 0#64, s.flags.c, s.flags.v⟩ else s.flags) ∧
        SameRegistersBut s t [physReg s.bank hi, physReg s.bank lo] ∧ SameStatusButFlags s t ∧
        (hi ≠ 15#4 → lo ≠ 15#4 → t.r15 = s.r15 + s.widthBytes) ∧ FetchedOnce s t ∧ SameSpecial s t ∧ SameMemory s t ∧
        t.port = s.port ++ [s.fetchEvent, .iCycle cycles]
    done (.umull c setFlags hi lo rs rm) (x.toNat * y.toNat) (multiplierCyclesUnsigned y + 1) ∧
    done (.umlal c setFlags hi lo rs rm) (x.toNat * y.toNat + acc) (multiplierCyclesUnsigned y + 2) ∧
    done (.smull c setFlags hi lo rs rm) (x.toInt * y.toInt) (multiplierCyclesSigned y + 1) ∧
    done (.smlal c setFlags hi lo rs rm) (x.toInt * y.toInt + acc) (multiplierCyclesSigned y + 2)

/-- LDR, LDRB, LDRH, LDRSB and LDRSH: address, value, write-back, R15 destination and frame, in every form (R261, R262,
R263, R264, R270, R272, R281, R283, R284, R152). Byte and halfword loads of R15 and write-back to R15: ID5, the model's
choice of log 12. -/
def Obligations.LoadInstructions : Prop :=
  ∀ (c : Cond) (ix : Indexing) (rn rd rm : Reg) (imm12 : BitVec 12) (type : ShiftType) (amt : BitVec 5) (imm8 : BitVec 8)
      (ign : BitVec 4) (s : State), conditionPassed c s.flags = true →
    let base := s.readReg rn
    let index := fun o : Word => if ix.u then base + o else base - o
    let addr := fun o : Word => if ix.p then index o else base
    let wb := fun o : Word => if ix.p = false ∨ ix.w = true then some (index o) else none
    let done := fun (i : Instr) (k : LoadKind) (o : Word) =>
      Completes i s (LoadResult s · rd rn (s.loadValue k (addr o)) (wb o))
    (∀ row ∈ ([(.imm imm12, imm12.setWidth 32), (.shifted type amt rm, (shiftImm type (s.readReg rm) amt s.flags.c).value)] :
      List (Offset × Word)),
      done (.ldr c ix rn rd row.1) .word row.2 ∧ done (.ldrb c ix rn rd row.1) .byte row.2) ∧
    ∀ row ∈ ([(.imm imm8, imm8.setWidth 32), (.reg ign rm, s.readReg rm)] : List (HalfOffset × Word)),
      done (.ldrh c ix rn rd row.1) .half row.2 ∧ done (.ldrsb c ix rn rd row.1) .signedByte row.2 ∧
      done (.ldrsh c ix rn rd row.1) .signedHalf row.2

/-- What each kind of load delivers, byte by byte: rotation of misaligned words and halfwords, sign extension (R74, R75,
R76, R77, R270, R281, R284). Behind the reference environment of R74 and R75, little-endian (D2) and aligning (D3): the
model's choice of log 1. LDRSH at an odd address: D16. -/
def Obligations.LoadedValues : Prop :=
  ∀ (s : State) (a : Word),
    (∀ i < 4, (s.loadValue .word a).extractLsb' (8 * i) 8 =
      Memory.read s.mem ((Width.word.align a).toNat + (i + a.toNat % 4) % 4)) ∧
    s.loadValue .byte a = (Memory.read s.mem a.toNat).setWidth 32 ∧
    s.loadValue .signedByte a = (Memory.read s.mem a.toNat).signExtend 32 ∧
    (a.getLsbD 0 = false →
      s.loadValue .half a = (Memory.read s.mem (a.toNat + 1) ++ Memory.read s.mem a.toNat).setWidth 32 ∧
      s.loadValue .signedHalf a = (Memory.read s.mem (a.toNat + 1) ++ Memory.read s.mem a.toNat).signExtend 32) ∧
    (a.getLsbD 0 = true →
      s.loadValue .half a = Memory.read s.mem (a.toNat - 1) ++ 0#16 ++ Memory.read s.mem a.toNat ∧
      s.loadValue .signedHalf a = (Memory.read s.mem a.toNat).signExtend 32)

/-- STR, STRB and STRH: address, stored value, write-back and frame, in every form (R261, R262, R263, R264, R271, R273,
R282, R74, R79, R152). The stored R15: D7 and log 20. The aligned place of the bytes: D3, the model's choice of log 1.
Write-back to R15: ID5, log 12. -/
def Obligations.StoreInstructions : Prop :=
  ∀ (c : Cond) (ix : Indexing) (rn rd rm : Reg) (imm12 : BitVec 12) (type : ShiftType) (amt : BitVec 5) (imm8 : BitVec 8)
      (ign : BitVec 4) (s : State), Memory.wf s.mem → conditionPassed c s.flags = true →
    let base := s.readReg rn
    let index := fun o : Word => if ix.u then base + o else base - o
    let addr := fun o : Word => if ix.p then index o else base
    let wb := fun o : Word => if ix.p = false ∨ ix.w = true then some (index o) else none
    let v := if rd = 15#4 then s.r15 + s.widthBytes else s.readReg rd
    let done := fun (i : Instr) (w : Width) (o : Word) => Completes i s (StoreResult s · w (addr o) v rn (wb o))
    (∀ row ∈ ([(.imm imm12, imm12.setWidth 32), (.shifted type amt rm, (shiftImm type (s.readReg rm) amt s.flags.c).value)] :
      List (Offset × Word)),
      done (.str c ix rn rd row.1) .word row.2 ∧ done (.strb c ix rn rd row.1) .byte row.2) ∧
    ∀ row ∈ ([(.imm imm8, imm8.setWidth 32), (.reg ign rm, s.readReg rm)] : List (HalfOffset × Word)),
      done (.strh c ix rn rd row.1) .half row.2

/-- SWP and SWPB: the old memory value to Rd, Rm to memory, and the frame (R290, R291, R74, R152). The aligned place of the
bytes: D3, the model's choice of log 1. The sequential next fetch: D15. The rotated word: D17. -/
def Obligations.SwapInstructions : Prop :=
  ∀ (c : Cond) (rn rd rm : Reg) (ign : BitVec 4) (s : State), Memory.wf s.mem → conditionPassed c s.flags = true →
    ∀ row ∈ ([(.swp, .word), (.swpb, .byte)] : List ((Cond → Reg → Reg → Reg → BitVec 4 → Instr) × LoadKind)),
    let a := s.readReg rn
    let w := row.2.width
    Completes (row.1 c rn rd rm ign) s fun t =>
      (rd ≠ 15#4 → t.readReg rd = s.loadValue row.2 a ∧ t.r15 = s.r15 + s.widthBytes ∧ FetchedOnce s t) ∧
      (rd = 15#4 → ContinuesAt t (s.loadValue row.2 a)) ∧
      t.reply w a = w.truncate (s.readReg rm) ∧ SameMemoryOutside s t (w.align a).toNat w.bytes ∧
      SameRegistersBut s t [physReg s.bank rd] ∧ t.cpsr = s.cpsr ∧ SameSpecial s t ∧ t.nextFetchType = true

/-- The registers of a block transfer: ascending, exactly those of the list, R15 alone for an empty list (R301, R302). -/
def Obligations.RegisterLists : Prop :=
  ∀ list : BitVec 16, (registerList list).Pairwise (· < ·) ∧
    (list ≠ 0#16 → ∀ r : Reg, r ∈ registerList list ↔ list.getLsbD r.toNat = true) ∧
    (list ≠ 0#16 → registerCount list = (registerList list).length) ∧
    registerList 0#16 = [15#4] ∧ registerCount 0#16 = 16

/-- LDM without R15: the addresses of the four modes, every listed register, write-back, user-bank form and frame (R302,
R304, R305, R307, R310, R313, R152). Write-back with the user bank or with Rn = R15: D20 and ID6, the model's choice of log
13. Unrotated words: D21. The addresses of R302 are general knowledge by the spec's mark (D19, log 19). -/
def Obligations.LoadMultiple : Prop :=
  ∀ (c : Cond) (ix : Indexing) (sBit : Bool) (rn : Reg) (list : BitVec 16) (s : State),
    conditionPassed c s.flags = true → 15#4 ∉ registerList list →
    let base := s.readReg rn
    let size := BitVec.ofNat 32 (4 * registerCount list)
    let start := if ix.u then (if ix.p then base + 4#32 else base) else if ix.p then base - size else base - size + 4#32
    let wb := if ix.w then some (if ix.u then base + size else base - size) else none
    Completes (.ldm c ix sBit rn list) s fun t =>
      BlockLoaded s t (blockBank s sBit) rn list start wb ∧ t.cpsr = s.cpsr ∧ FetchedOnce s t ∧
      t.r15 = (if rn = 15#4 then wb.getD (s.r15 + s.widthBytes) else s.r15 + s.widthBytes)

/-- LDM with R15, the empty list included: a jump, the exception return with S, HACF on an invalid SPSR (R301, R302, R304,
R306, R312, R515, R520, R152). The empty list and the addresses of R302: D19, log 19. The return after the loads: D20. The
halt: D26, D9, the model's choice of log 7. -/
def Obligations.LoadMultiplePc : Prop :=
  ∀ (c : Cond) (ix : Indexing) (sBit : Bool) (rn : Reg) (list : BitVec 16) (s : State),
    conditionPassed c s.flags = true → 15#4 ∈ registerList list →
    let base := s.readReg rn
    let size := BitVec.ofNat 32 (4 * registerCount list)
    let start := if ix.u then (if ix.p then base + 4#32 else base) else if ix.p then base - size else base - size + 4#32
    let wb := if ix.w then some (if ix.u then base + size else base - size) else none
    let pc := s.reply .word (start + BitVec.ofNat 32 (4 * ((registerList list).length - 1)))
    Completes (.ldm c ix sBit rn list) s fun t =>
      if sBit = true ∧ Mode.ofBits (Psr.modeBits s.currentSpsr) = none then
        t.halted = true ∧ t.cpsr = s.cpsr ∧ t.r15 = pc ∧ FetchedOnce s t ∧
          BlockLoaded s { t with halted := s.halted } s.bank rn list start wb
      else
        BlockLoaded s t s.bank rn list start wb ∧ ContinuesAt t pc ∧
          t.cpsr = (if sBit then s.currentSpsr else s.cpsr)

/-- STM: the addresses of the four modes, every listed register in memory, the stored base, write-back, user-bank form and
frame (R301, R302, R303, R304, R305, R307, R311, R313, R74, R152). Write-back with the user bank or with Rn = R15: D20 and
ID6, log 13. The empty list and the addresses of R302: D19, log 19. The stored R15: D7 and log 20. The aligned place of the
words: D3, log 1. -/
def Obligations.StoreMultiple : Prop :=
  ∀ (c : Cond) (ix : Indexing) (sBit : Bool) (rn : Reg) (list : BitVec 16) (s : State), Memory.wf s.mem →
    conditionPassed c s.flags = true →
    let base := s.readReg rn
    let size := BitVec.ofNat 32 (4 * registerCount list)
    let start := if ix.u then (if ix.p then base + 4#32 else base) else if ix.p then base - size else base - size + 4#32
    let wb := if ix.w then some (if ix.u then base + size else base - size) else none
    Completes (.stm c ix sBit rn list) s fun t => BlockStored s t (blockBank s sBit) rn list start wb

/-- B, BL and BX: target, link register, state switch and frame (R320, R321, R322). -/
def Obligations.BranchInstructions : Prop :=
  ∀ (c : Cond) (off : BitVec 24) (rm : Reg) (ign : BitVec 12) (s : State), conditionPassed c s.flags = true →
    let target := s.r15 + BitVec.ofInt 32 (off.toInt * 4)
    Completes (.b c off) s (JumpResult s · target []) ∧
    Completes (.bl c off) s (fun t => JumpResult s t target [physReg s.bank 14#4] ∧ t.readReg 14#4 = s.r15 - 4#32) ∧
    Completes (.bx c rm ign) s (fun t => t.cpsr = Psr.withT s.cpsr ((s.readReg rm).getLsbD 0) ∧
      ContinuesAt t (s.readReg rm) ∧ SameRegistersBut s t [] ∧ SameSpecial s t ∧ SameMemory s t)

/-- MRS: the whole status register into Rd, and the frame (R330, R32). MRS to R15: ID7, the model's choice of log 14. -/
def Obligations.ReadStatus : Prop :=
  ∀ (c : Cond) (spsr : Bool) (rd : Reg) (i19 i11 i3 : BitVec 4) (s : State), conditionPassed c s.flags = true →
    let v := if spsr then s.currentSpsr else s.cpsr
    Completes (.mrs c spsr rd i19 i11 i3) s fun t =>
      (rd ≠ 15#4 → RegisterResult s t rd v s.flags) ∧
      (rd = 15#4 → t.r15 = v + s.widthBytes ∧ t.p3 = s.p2 ∧ t.p2 = s.reply s.width v ∧ t.nextFetchType = true ∧
        SameRegistersBut s t [] ∧ t.cpsr = s.cpsr ∧ SameSpecial s t ∧ SameMemory s t)

/-- MSR to CPSR, both forms: which bytes are written, the privilege rule, the forced bits, HACF on an invalid mode (R331,
R332, R525). An MSR that changes T: ID8, the model's choice of log 15. HACF before anything has changed: D26. -/
def Obligations.WriteStatus : Prop :=
  ∀ (c : Cond) (mask rot : BitVec 4) (imm8 i15 : BitVec 8) (i12 : BitVec 4) (rm : Reg) (s : State),
    conditionPassed c s.flags = true →
    ∀ row ∈ [(Instr.msrReg c false mask rm i15, s.readReg rm),
      (Instr.msrImm c false mask rot imm8 i12, (imm8.setWidth 32).rotateRight (2 * rot.toNat))],
    let control := mask.getLsbD 0 = true ∧ Psr.modeBits s.cpsr ≠ Mode.usr.bits
    let top := if mask.getLsbD 3 then row.2.extractLsb' 24 8 else s.cpsr.extractLsb' 24 8
    let byte := row.2.extractLsb' 0 8 ||| 0x10#8 ||| (if s.toggles.fiqEnabled then 0#8 else 0x40#8)
    if control ∧ Mode.ofBits (byte.extractLsb' 0 5) = none then Completes row.1 s (Halts s ·)
    else
      Completes row.1 s fun t =>
        t.cpsr = top ++ s.cpsr.extractLsb' 8 16 ++ (if control then byte else s.cpsr.extractLsb' 0 8) ∧
        t.r15 = s.r15 + t.widthBytes ∧ t.p3 = s.p2 ∧ t.p2 = s.reply t.width s.r15 ∧ t.nextFetchType = true ∧
        SameRegistersBut s t [] ∧ SameSpecial s t ∧ SameMemory s t

/-- MSR to SPSR, both forms: the bytes written in an exception mode, nothing in USR and SYS mode (R331, R332, R27). -/
def Obligations.WriteSavedStatus : Prop :=
  ∀ (c : Cond) (mask rot : BitVec 4) (imm8 i15 : BitVec 8) (i12 : BitVec 4) (rm : Reg) (s : State),
    conditionPassed c s.flags = true →
    ∀ row ∈ [(Instr.msrReg c true mask rm i15, s.readReg rm),
      (Instr.msrImm c true mask rot imm8 i12, (imm8.setWidth 32).rotateRight (2 * rot.toNat))],
    let byte := row.2.extractLsb' 0 8 ||| (if s.toggles.fiqEnabled then 0#8 else 0x40#8)
    Completes row.1 s fun t =>
      (∀ b, t.spsrOf b = if b = s.bank then (s.spsrOf b).map fun old =>
          (if mask.getLsbD 3 then row.2.extractLsb' 24 8 else old.extractLsb' 24 8) ++ old.extractLsb' 8 16 ++
            (if mask.getLsbD 0 then byte else old.extractLsb' 0 8)
        else s.spsrOf b) ∧
      t.cpsr = s.cpsr ∧ Advances s t ∧ SameRegistersBut s t [] ∧ t.pendingFiq = s.pendingFiq ∧
      t.pendingIrq = s.pendingIrq ∧ t.halted = s.halted ∧ t.breakpoints = s.breakpoints ∧ t.toggles = s.toggles ∧
      SameMemory s t

/-- MRC and MCR of coprocessor 14 only fetch (R341). -/
def Obligations.CoprocessorFourteen : Prop :=
  ∀ (c : Cond) (rd : BitVec 4) (i23 i7 : BitVec 3) (i19 i3 : BitVec 4) (s : State), conditionPassed c s.flags = true →
    Completes (.mcr c rd 14#4 i23 i19 i7 i3) s (FlagResult s · s.flags) ∧
    Completes (.mrc c rd 14#4 i23 i19 i7 i3) s (FlagResult s · s.flags)

/-- SWI of both sets: the entry, with R14_svc the address of the next instruction (R503, R505, R345, R461). -/
def Obligations.SoftwareInterrupts : Prop :=
  ∀ (c : Cond) (n24 : BitVec 24) (n8 : BitVec 8) (s : State),
    let link := s.r15 - (if Psr.t s.cpsr then 2#32 else 4#32)
    let post := fun t => EntryResult s t .swi link ∧ t.r15 = 0x10#32 ∧ t.pendingFiq = s.pendingFiq ∧
      t.pendingIrq = s.pendingIrq
    (conditionPassed c s.flags = true → Completes (.swi c n24) s post) ∧ Completes (.tSwi n8) s post

/-- Every undefined encoding takes the undefined-instruction entry (R504, R505, R340, R341, R342, R346, R463). -/
def Obligations.UndefinedInstructions : Prop :=
  ∀ (c : Cond) (s : State) (b1 b5 : Bool) (n2 : BitVec 2) (n3 n3' : BitVec 3) (n4 n4' rd cp : BitVec 4) (n8 : BitVec 8)
      (n11 : BitVec 11) (n12 : BitVec 12) (n19 : BitVec 19) (n20 : BitVec 20), cp ≠ 14#4 →
    let link := s.r15 - (if Psr.t s.cpsr then 2#32 else 4#32)
    let post := fun t => EntryResult s t .undefined link ∧ t.r15 = 0x0C#32 ∧ t.pendingFiq = s.pendingFiq ∧
      t.pendingIrq = s.pendingIrq
    (conditionPassed c s.flags = true →
      ∀ i ∈ [Instr.undefinedU1 c b1 n20, .undefinedU2 c n20 n4, .undefinedU3 c n12 n4, .undefinedU4 c n2 n12 b5 n4,
        .stc c n4 n20, .ldc c n4 n20, .cdp c n19 n4, .mcr c rd cp n3 n4 n3' n4', .mrc c rd cp n3 n4 n3' n4'],
        Completes i s post) ∧
    Completes (.tUndefined1 n8) s post ∧ Completes (.tUndefined2 n11) s post

/-- The encodings without a handler halt the core and change nothing else (R347, R464, R520, R112). -/
def Obligations.UnknownEncodingsHalt : Prop :=
  ∀ (c : Cond) (sel : BitVec 5) (sel' n4 n4' : BitVec 4) (n8 : BitVec 8) (n12 : BitVec 12) (b : Bool) (s : State),
    (conditionPassed c s.flags = true → Completes (.unknownMulSwap c sel n12 n4) s (Halts s ·) ∧
      Completes (.unknownHalf c n4 n12 b n4') s (Halts s ·)) ∧
    Completes (.tUnknown sel' n8) s (Halts s ·)

/-- Thumb shifts by immediate, add and subtract, and the 8-bit immediate group: result, flags and frame (R365, R366, R367,
R370, R371, R372, R373, R375, R376, R377, R378). -/
def Obligations.ThumbFormats1To3 : Prop :=
  ∀ (rd rs rn : LowReg) (amt : BitVec 5) (imm3 : BitVec 3) (imm8 : BitVec 8) (s : State),
    let r := fun x : LowReg => s.readReg (x.setWidth 4)
    let done := fun (i : Instr) (x : AluResult) => Completes i s fun t => t.port = s.port ++ [s.fetchEvent] ∧
      RegisterResult s t (rd.setWidth 4) x.value ⟨x.value.msb, x.value == 0#32, x.c, x.v⟩
    let sh := fun type : ShiftType =>
      (⟨(shiftImm type (r rs) amt s.flags.c).value, (shiftImm type (r rs) amt s.flags.c).carry, s.flags.v⟩ : AluResult)
    done (.tLslImm rd rs amt) (sh .lsl) ∧ done (.tLsrImm rd rs amt) (sh .lsr) ∧ done (.tAsrImm rd rs amt) (sh .asr) ∧
    done (.tAddReg rd rs rn) (addWithCarry (r rs) (r rn) false) ∧
    done (.tSubReg rd rs rn) (subWithCarry (r rs) (r rn) true) ∧
    done (.tAddImm3 rd rs imm3) (addWithCarry (r rs) (imm3.setWidth 32) false) ∧
    done (.tSubImm3 rd rs imm3) (subWithCarry (r rs) (imm3.setWidth 32) true) ∧
    done (.tMovImm rd imm8) ⟨imm8.setWidth 32, s.flags.c, s.flags.v⟩ ∧
    done (.tAddImm8 rd imm8) (addWithCarry (r rd) (imm8.setWidth 32) false) ∧
    done (.tSubImm8 rd imm8) (subWithCarry (r rd) (imm8.setWidth 32) true) ∧
    Completes (.tCmpImm rd imm8) s fun t => t.port = s.port ++ [s.fetchEvent] ∧
      FlagResult s t (subWithCarry (r rd) (imm8.setWidth 32) true).flags

/-- Thumb format 4 without shifts and MUL: result, flags and frame (R381, R382, R386, R387, R389, R390, R391, R392, R393,
R395, R396). -/
def Obligations.ThumbAluOperations : Prop :=
  ∀ (rd rs : LowReg) (s : State),
    let a := s.readReg (rd.setWidth 4)
    let b := s.readReg (rs.setWidth 4)
    let nz := fun v : Word => (⟨v, s.flags.c, s.flags.v⟩ : AluResult)
    let fl := fun x : AluResult => (⟨x.value.msb, x.value == 0#32, x.c, x.v⟩ : Flags)
    let done := fun (i : Instr) (x : AluResult) => Completes i s fun t => t.port = s.port ++ [s.fetchEvent] ∧
      RegisterResult s t (rd.setWidth 4) x.value (fl x)
    let test := fun (i : Instr) (x : AluResult) => Completes i s fun t => t.port = s.port ++ [s.fetchEvent] ∧
      FlagResult s t (fl x)
    done (.tAnd rd rs) (nz (a &&& b)) ∧ done (.tEor rd rs) (nz (a ^^^ b)) ∧
    done (.tAdc rd rs) (addWithCarry a b s.flags.c) ∧ done (.tSbc rd rs) (subWithCarry a b s.flags.c) ∧
    test (.tTst rd rs) (nz (a &&& b)) ∧ done (.tNeg rd rs) (subWithCarry 0#32 b true) ∧
    test (.tCmpReg rd rs) (subWithCarry a b true) ∧ test (.tCmn rd rs) (addWithCarry a b false) ∧
    done (.tOrr rd rs) (nz (a ||| b)) ∧ done (.tBic rd rs) (nz (a &&& ~~~b)) ∧ done (.tMvn rd rs) (nz (~~~b))

/-- Thumb LSL, LSR, ASR, ROR by register and MUL: result, flags, internal cycles and frame (R383, R384, R385, R388, R394).
-/
def Obligations.ThumbShiftsAndMultiply : Prop :=
  ∀ (rd rs : LowReg) (s : State),
    let a := s.readReg (rd.setWidth 4)
    let b := s.readReg (rs.setWidth 4)
    let done := fun (i : Instr) (v : Word) (c : Bool) (cycles : Nat) => Completes i s fun t =>
      RegisterResult s t (rd.setWidth 4) v ⟨v.msb, v == 0#32, c, s.flags.v⟩ ∧
      t.port = s.port ++ [s.fetchEvent, .iCycle cycles]
    let sh := fun type : ShiftType => shiftReg type a (b.extractLsb' 0 8) s.flags.c
    done (.tLslReg rd rs) (sh .lsl).value (sh .lsl).carry 1 ∧ done (.tLsrReg rd rs) (sh .lsr).value (sh .lsr).carry 1 ∧
    done (.tAsrReg rd rs) (sh .asr).value (sh .asr).carry 1 ∧ done (.tRorReg rd rs) (sh .ror).value (sh .ror).carry 1 ∧
    done (.tMul rd rs) (BitVec.ofNat 32 (a.toNat * b.toNat)) s.flags.c (multiplierCyclesSigned a)

/-- Thumb ADD, CMP and MOV of any register: result, R15 destination, flags only for CMP, frame (R397, R398, R399, R403). -/
def Obligations.ThumbHighRegisters : Prop :=
  ∀ (rd rs : Reg) (s : State),
    let a := s.readReg rd
    let b := s.readReg rs
    let done := fun (i : Instr) (v : Word) => Completes i s fun t =>
      (rd ≠ 15#4 → RegisterResult s t rd v s.flags) ∧ (rd = 15#4 → JumpResult s t v [])
    done (.tAddHi rd rs) (a + b) ∧ done (.tMovHi rd rs) b ∧
    Completes (.tCmpHi rd rs) s (FlagResult s · (subWithCarry a b true).flags)

/-- Thumb ADD Rd, PC; ADD Rd, SP; ADD SP with a sign: result and frame (R400, R401, R402). -/
def Obligations.ThumbAddresses : Prop :=
  ∀ (rd : LowReg) (imm8 : BitVec 8) (neg : Bool) (imm7 : BitVec 7) (s : State),
    let sp := s.readReg 13#4
    let n := BitVec.ofNat 32 (4 * imm8.toNat)
    let k := BitVec.ofNat 32 (4 * imm7.toNat)
    Completes (.tAddPc rd imm8) s (RegisterResult s · (rd.setWidth 4) ((s.r15 &&& 0xFFFFFFFC#32) + n) s.flags) ∧
    Completes (.tAddSp rd imm8) s (RegisterResult s · (rd.setWidth 4) (sp + n) s.flags) ∧
    Completes (.tAdjSp neg imm7) s (RegisterResult s · 13#4 (if neg then sp - k else sp + k) s.flags)

/-- Thumb loads of formats 6 to 11: address, value and frame (R420, R423, R424, R426, R427, R428, R430, R432, R434, R436,
R450). LDSH at an odd address: D16. -/
def Obligations.ThumbLoads : Prop :=
  ∀ (rd rb ro : LowReg) (imm5 : BitVec 5) (imm8 : BitVec 8) (s : State),
    let b := s.readReg (rb.setWidth 4)
    let o := s.readReg (ro.setWidth 4)
    let n := fun k : Nat => BitVec.ofNat 32 (k * imm5.toNat)
    let n8 := BitVec.ofNat 32 (4 * imm8.toNat)
    let done := fun (i : Instr) (k : LoadKind) (a : Word) => Completes i s fun t =>
      RegisterResult s t (rd.setWidth 4) (s.loadValue k a) s.flags ∧
      t.port = s.port ++ [s.fetchEvent,
        .dataRead k.width a false (s.reply k.width a), .iCycle 1]
    done (.tLdrPc rd imm8) .word ((s.r15 &&& 0xFFFFFFFC#32) + n8) ∧ done (.tLdrReg rd rb ro) .word (b + o) ∧
    done (.tLdrbReg rd rb ro) .byte (b + o) ∧ done (.tLdrhReg rd rb ro) .half (b + o) ∧
    done (.tLdsbReg rd rb ro) .signedByte (b + o) ∧ done (.tLdshReg rd rb ro) .signedHalf (b + o) ∧
    done (.tLdrImm rd rb imm5) .word (b + n 4) ∧ done (.tLdrbImm rd rb imm5) .byte (b + n 1) ∧
    done (.tLdrhImm rd rb imm5) .half (b + n 2) ∧ done (.tLdrSp rd imm8) .word (s.readReg 13#4 + n8)

/-- Thumb stores of formats 7 to 11: address, stored value and frame (R421, R422, R425, R429, R431, R433, R435, R450, R74,
R78, R152). The aligned place of the bytes: D3, the model's choice of log 1. -/
def Obligations.ThumbStores : Prop :=
  ∀ (rd rb ro : LowReg) (imm5 : BitVec 5) (imm8 : BitVec 8) (s : State), Memory.wf s.mem →
    let b := s.readReg (rb.setWidth 4)
    let o := s.readReg (ro.setWidth 4)
    let n := fun k : Nat => BitVec.ofNat 32 (k * imm5.toNat)
    let v := s.readReg (rd.setWidth 4)
    let done := fun (i : Instr) (w : Width) (a : Word) => Completes i s fun t => StoreResult s t w a v 15#4 none ∧
      t.port = s.port ++ [s.fetchEvent, .dataWrite w a (w.truncate v) false]
    done (.tStrReg rd rb ro) .word (b + o) ∧ done (.tStrbReg rd rb ro) .byte (b + o) ∧
    done (.tStrhReg rd rb ro) .half (b + o) ∧ done (.tStrImm rd rb imm5) .word (b + n 4) ∧
    done (.tStrbImm rd rb imm5) .byte (b + n 1) ∧ done (.tStrhImm rd rb imm5) .half (b + n 2) ∧
    done (.tStrSp rd imm8) .word (s.readReg 13#4 + BitVec.ofNat 32 (4 * imm8.toNat))

/-- Thumb PUSH, POP, STMIA and LDMIA: memory, registers, stack pointer, R15 and the empty list (R440, R441, R445, R446,
R304, R74, R152). The empty list and the addresses of R302: D19, log 19. The stored R15: D7 and log 20. The aligned place of
the words: D3, the model's choice of log 1. -/
def Obligations.ThumbBlockTransfers : Prop :=
  ∀ (r : Bool) (l : BitVec 8) (rb : LowReg) (s : State),
    let base := s.readReg (rb.setWidth 4)
    let sp := s.readReg 13#4
    let low : BitVec 16 := l.setWidth 16
    let push : BitVec 16 := low ||| (if r then 0x4000#16 else 0#16)
    let pop : BitVec 16 := low ||| (if r then 0x8000#16 else 0#16)
    let size := fun list : BitVec 16 => BitVec.ofNat 32 (4 * registerCount list)
    let load := fun (i : Instr) (rn : Reg) (list : BitVec 16) (a : Word) => Completes i s fun t =>
      BlockLoaded s t s.bank rn list a (some (a + size list)) ∧ t.cpsr = s.cpsr ∧
      (15#4 ∉ registerList list → t.r15 = s.r15 + s.widthBytes ∧ FetchedOnce s t) ∧
      (15#4 ∈ registerList list →
        ContinuesAt t (s.reply .word (a + BitVec.ofNat 32 (4 * ((registerList list).length - 1)))))
    (Memory.wf s.mem →
      Completes (.tPush r l) s (BlockStored s · s.bank 13#4 push (sp - size push) (some (sp - size push))) ∧
      Completes (.tStmia rb l) s (BlockStored s · s.bank (rb.setWidth 4) low base (some (base + size low)))) ∧
    load (.tPop r l) 13#4 pop sp ∧ load (.tLdmia rb l) (rb.setWidth 4) low base

/-- Thumb B, conditional B and BX: target, not-taken case, state switch and frame (R460, R462, R465). -/
def Obligations.ThumbBranches : Prop :=
  ∀ (c : Cond) (o8 : BitVec 8) (o11 : BitVec 11) (rs : Reg) (h1 : Bool) (i2 : BitVec 3) (s : State),
    Completes (.tB o11) s (JumpResult s · (s.r15 + BitVec.ofInt 32 (2 * o11.toInt)) []) ∧
    Completes (.tBCond c o8) s (fun t =>
      if conditionPassed c s.flags then JumpResult s t (s.r15 + BitVec.ofInt 32 (2 * o8.toInt)) []
      else FlagResult s t s.flags) ∧
    Completes (.tBx rs h1 i2) s (fun t => t.cpsr = Psr.withT s.cpsr ((s.readReg rs).getLsbD 0) ∧
      ContinuesAt t (s.readReg rs) ∧ SameRegistersBut s t [] ∧ SameSpecial s t ∧ SameMemory s t)

/-- The two halves of the Thumb long branch with link, and the pair (R470, R471). -/
def Obligations.ThumbLongBranch : Prop :=
  ∀ (hi lo : BitVec 11) (s : State),
    Completes (.tBlFirst hi) s (RegisterResult s · 14#4 (s.r15 + BitVec.ofInt 32 (hi.toInt * 4096)) s.flags) ∧
    Completes (.tBlSecond lo) s (fun t =>
      JumpResult s t (s.readReg 14#4 + BitVec.ofNat 32 (2 * lo.toNat)) [physReg s.bank 14#4] ∧
      t.readReg 14#4 = (s.r15 - 2#32) ||| 1#32) ∧
    (Psr.t s.cpsr = true → ∃ u, exec (.tBlFirst hi) s = .next u ∧
      Completes (.tBlSecond lo) u (fun t => t.readReg 14#4 = s.r15 ||| 1#32 ∧
        ContinuesAt t (s.r15 + BitVec.ofInt 32 (hi.toInt * 4096) + BitVec.ofNat 32 (2 * lo.toNat))))
end

