-- ==== Sys2Proof/Laws/Memory.lean ====
section
/-! SUPPORT. The memory of 20_memory.md R74: reads after writes, and the canonical form. -/

namespace Sys2Proof.Machine

namespace Memory

@[simp] theorem read_nil (a : Nat) : Memory.read [] a = unlisted := rfl

theorem read_cons (k : Nat) (b : Byte) (m : Memory) (a : Nat) :
    Memory.read ((k, b) :: m) a = if k = a then b else Memory.read m a := rfl

/-- An address that no entry has reads as the unlisted value. -/
theorem read_of_not_mem {m : Memory} {a : Nat} (h : ∀ c ∈ m, c.1 ≠ a) : Memory.read m a = unlisted := by
  induction m with
  | nil => rfl
  | cons c m ih =>
    obtain ⟨k, b⟩ := c
    rw [read_cons, if_neg (h (k, b) (by simp))]
    exact ih fun d hd => h d (List.mem_cons_of_mem _ hd)

theorem read_insert (m : Memory) (a x : Nat) (v : Byte) :
    Memory.read (Memory.insert a v m) x = if a = x then v else Memory.read m x := by
  induction m with
  | nil => rfl
  | cons c m ih =>
    obtain ⟨k, b⟩ := c
    simp only [Memory.insert]
    split_ifs with h1 h2 h3 <;> simp_all [read_cons]

theorem mem_insert {m : Memory} {a : Nat} {v : Byte} {c : Host.Cell} (h : c ∈ Memory.insert a v m) :
    c = (a, v) ∨ c ∈ m := by
  induction m with
  | nil => simpa [Memory.insert] using h
  | cons d m ih =>
    obtain ⟨k, b⟩ := d
    simp only [Memory.insert] at h
    split_ifs at h
    · simpa using h
    · simp only [List.mem_cons] at h ⊢; tauto
    · simp only [List.mem_cons] at h ⊢
      rcases h with h | h
      · tauto
      · rcases ih h with h | h <;> tauto

theorem mem_erase {m : Memory} {a : Nat} {c : Host.Cell} (h : c ∈ Memory.erase a m) : c ∈ m := by
  induction m with
  | nil => exact h
  | cons d m ih =>
    obtain ⟨k, b⟩ := d
    simp only [Memory.erase] at h
    split_ifs at h
    · exact List.mem_cons_of_mem _ h
    · simp only [List.mem_cons] at h ⊢
      exact h.imp id ih

theorem pairwise_insert {m : Memory} (a : Nat) (v : Byte) (h : m.Pairwise fun x y => x.1 < y.1) :
    (Memory.insert a v m).Pairwise fun x y => x.1 < y.1 := by
  induction m with
  | nil => simp [Memory.insert]
  | cons d m ih =>
    obtain ⟨k, b⟩ := d
    obtain ⟨hk, hm⟩ := List.pairwise_cons.1 h
    simp only [Memory.insert]
    split_ifs with h1 h2
    · refine List.pairwise_cons.2 ⟨fun c hc => ?_, h⟩
      rcases List.mem_cons.1 hc with rfl | hc
      · exact h1
      · exact Nat.lt_trans h1 (hk c hc)
    · subst h2
      exact List.pairwise_cons.2 ⟨fun c hc => hk c hc, hm⟩
    · refine List.pairwise_cons.2 ⟨fun c hc => ?_, ih hm⟩
      rcases mem_insert hc with rfl | hc
      · show k < a; omega
      · exact hk c hc

theorem pairwise_erase {m : Memory} (a : Nat) (h : m.Pairwise fun x y => x.1 < y.1) :
    (Memory.erase a m).Pairwise fun x y => x.1 < y.1 := by
  induction m with
  | nil => exact h
  | cons d m ih =>
    obtain ⟨k, b⟩ := d
    obtain ⟨hk, hm⟩ := List.pairwise_cons.1 h
    simp only [Memory.erase]
    split_ifs
    · exact hm
    · exact List.pairwise_cons.2 ⟨fun c hc => hk c (mem_erase hc), ih hm⟩

theorem read_erase {m : Memory} (h : m.Pairwise fun x y => x.1 < y.1) (a x : Nat) :
    Memory.read (Memory.erase a m) x = if a = x then unlisted else Memory.read m x := by
  induction m with
  | nil => simp [Memory.erase]
  | cons d m ih =>
    obtain ⟨k, b⟩ := d
    obtain ⟨hk, hm⟩ := List.pairwise_cons.1 h
    simp only [Memory.erase]
    split_ifs with h1 h2 h2
    · subst h1 h2
      exact read_of_not_mem fun c hc => Nat.ne_of_gt (hk c hc)
    · rw [read_cons, if_neg (by omega)]
    · rw [read_cons, if_neg (by omega), ih hm, if_pos h2]
    · rw [read_cons, read_cons, ih hm, if_neg h2]

/-- Reading a byte after writing a byte. -/
theorem read_write {m : Memory} (h : wf m) (a x : Nat) (v : Byte) :
    Memory.read (m.write a v) x = if a = x then v else Memory.read m x := by
  unfold Memory.write
  split_ifs with hv hx hx
  · rw [read_erase h.1, if_pos hx, hv]
  · rw [read_erase h.1, if_neg hx]
  · rw [read_insert, if_pos hx]
  · rw [read_insert, if_neg hx]

/-- A write keeps the canonical form. -/
theorem wf_write {m : Memory} (h : wf m) {a : Nat} (ha : a < 2 ^ 32) (v : Byte) : wf (m.write a v) := by
  unfold Memory.write
  split_ifs with hv
  · exact ⟨pairwise_erase a h.1, fun c hc => h.2 c (mem_erase hc)⟩
  · refine ⟨pairwise_insert a v h.1, fun c hc => ?_⟩
    rcases mem_insert hc with rfl | hc
    · exact ⟨ha, hv⟩
    · exact h.2 c hc

end Memory

/-- The aligned address of a halfword or word leaves room for its other bytes. -/
theorem Width.align_half_lt (a : Word) : (Width.half.align a).toNat + 1 < 2 ^ 32 := by
  have h : (Width.half.align a).toNat = (a.extractLsb' 1 31).toNat * 2 := by
    rw [Width.align, BitVec.toNat_append]; simp [Nat.shiftLeft_eq]
  have := (a.extractLsb' 1 31).isLt
  omega

theorem Width.align_word_lt (a : Word) : (Width.word.align a).toNat + 3 < 2 ^ 32 := by
  have h : (Width.word.align a).toNat = (a.extractLsb' 2 30).toNat * 4 := by
    rw [Width.align, BitVec.toNat_append]; simp [Nat.shiftLeft_eq]
  have := (a.extractLsb' 2 30).isLt
  omega

namespace Memory

/-- A write of any width keeps the canonical form. -/
theorem wf_writeWidth {m : Memory} (h : wf m) (w : Width) (addr v : Word) : wf (m.writeWidth w addr v) := by
  cases w with
  | byte => exact wf_write h (Width.byte.align addr).isLt _
  | half =>
    have := Width.align_half_lt addr
    exact wf_write (wf_write h (by omega) _) (by omega) _
  | word =>
    have := Width.align_word_lt addr
    exact wf_write (wf_write (wf_write (wf_write h (by omega) _) (by omega) _) (by omega) _) (by omega) _

/-- A write leaves every byte outside the written ones alone. -/
theorem read_writeWidth_of_outside {m : Memory} (h : wf m) {w : Width} {addr v : Word} {x : Nat}
    (hx : x < (w.align addr).toNat ∨ (w.align addr).toNat + w.bytes ≤ x) :
    Memory.read (m.writeWidth w addr v) x = Memory.read m x := by
  cases w with
  | byte =>
    simp only [Width.bytes, writeWidth] at hx ⊢
    rw [read_write h, if_neg (by omega)]
  | half =>
    have := Width.align_half_lt addr
    simp only [Width.bytes, writeWidth] at hx ⊢
    have h1 := wf_write h (a := (Width.half.align addr).toNat) (by omega) (v.extractLsb' 0 8)
    rw [read_write h1, if_neg (by omega), read_write h, if_neg (by omega)]
  | word =>
    have := Width.align_word_lt addr
    simp only [Width.bytes, writeWidth] at hx ⊢
    have h1 := wf_write h (a := (Width.word.align addr).toNat) (by omega) (v.extractLsb' 0 8)
    have h2 := wf_write h1 (a := (Width.word.align addr).toNat + 1) (by omega) (v.extractLsb' 8 8)
    have h3 := wf_write h2 (a := (Width.word.align addr).toNat + 2) (by omega) (v.extractLsb' 16 8)
    rw [read_write h3, if_neg (by omega), read_write h2, if_neg (by omega), read_write h1, if_neg (by omega),
      read_write h, if_neg (by omega)]

/-- The bytes of a written word, one by one. -/
theorem read_writeWidth_word {m : Memory} (h : wf m) (addr v : Word) :
    let a := (Width.word.align addr).toNat
    let m' := m.writeWidth .word addr v
    Memory.read m' a = v.extractLsb' 0 8 ∧ Memory.read m' (a + 1) = v.extractLsb' 8 8 ∧
      Memory.read m' (a + 2) = v.extractLsb' 16 8 ∧ Memory.read m' (a + 3) = v.extractLsb' 24 8 := by
  have := Width.align_word_lt addr
  simp only [writeWidth]
  have h1 := wf_write h (a := (Width.word.align addr).toNat) (by omega) (v.extractLsb' 0 8)
  have h2 := wf_write h1 (a := (Width.word.align addr).toNat + 1) (by omega) (v.extractLsb' 8 8)
  have h3 := wf_write h2 (a := (Width.word.align addr).toNat + 2) (by omega) (v.extractLsb' 16 8)
  refine ⟨?_, ?_, ?_, ?_⟩ <;> rw [read_write h3] <;> split_ifs <;>
    first
    | rfl
    | omega
    | (rw [read_write h2]; split_ifs <;> first | rfl | omega | (rw [read_write h1]; split_ifs <;> first | rfl | omega | (rw [read_write h]; split_ifs <;> first | rfl | omega)))

/-- The bytes of a written halfword. -/
theorem read_writeWidth_half {m : Memory} (h : wf m) (addr v : Word) :
    let a := (Width.half.align addr).toNat
    let m' := m.writeWidth .half addr v
    Memory.read m' a = v.extractLsb' 0 8 ∧ Memory.read m' (a + 1) = v.extractLsb' 8 8 := by
  have := Width.align_half_lt addr
  simp only [writeWidth]
  have h1 := wf_write h (a := (Width.half.align addr).toNat) (by omega) (v.extractLsb' 0 8)
  refine ⟨?_, ?_⟩ <;> rw [read_write h1] <;> split_ifs <;> first | rfl | omega | (rw [read_write h]; split_ifs <;> first | rfl | omega)

end Memory

end Sys2Proof.Machine
end

