-- ==== Sys2Proof/Laws/State.lean ====
section
/-! SUPPORT. One lemma per field per update, so that no later proof unfolds a record update. -/

namespace Sys2Proof.Machine.State

/-! ### The port -/

@[simp] theorem emit_regs (s : State) (e : PortEvent) : (s.emit e).regs = s.regs := rfl
@[simp] theorem emit_r15 (s : State) (e : PortEvent) : (s.emit e).r15 = s.r15 := rfl
@[simp] theorem emit_cpsr (s : State) (e : PortEvent) : (s.emit e).cpsr = s.cpsr := rfl
@[simp] theorem emit_spsrFiq (s : State) (e : PortEvent) : (s.emit e).spsrFiq = s.spsrFiq := rfl
@[simp] theorem emit_spsrIrq (s : State) (e : PortEvent) : (s.emit e).spsrIrq = s.spsrIrq := rfl
@[simp] theorem emit_spsrSvc (s : State) (e : PortEvent) : (s.emit e).spsrSvc = s.spsrSvc := rfl
@[simp] theorem emit_spsrAbt (s : State) (e : PortEvent) : (s.emit e).spsrAbt = s.spsrAbt := rfl
@[simp] theorem emit_spsrUnd (s : State) (e : PortEvent) : (s.emit e).spsrUnd = s.spsrUnd := rfl
@[simp] theorem emit_p1 (s : State) (e : PortEvent) : (s.emit e).p1 = s.p1 := rfl
@[simp] theorem emit_p2 (s : State) (e : PortEvent) : (s.emit e).p2 = s.p2 := rfl
@[simp] theorem emit_p3 (s : State) (e : PortEvent) : (s.emit e).p3 = s.p3 := rfl
@[simp] theorem emit_nextFetchType (s : State) (e : PortEvent) : (s.emit e).nextFetchType = s.nextFetchType := rfl
@[simp] theorem emit_pendingFiq (s : State) (e : PortEvent) : (s.emit e).pendingFiq = s.pendingFiq := rfl
@[simp] theorem emit_pendingIrq (s : State) (e : PortEvent) : (s.emit e).pendingIrq = s.pendingIrq := rfl
@[simp] theorem emit_breakpoints (s : State) (e : PortEvent) : (s.emit e).breakpoints = s.breakpoints := rfl
@[simp] theorem emit_halted (s : State) (e : PortEvent) : (s.emit e).halted = s.halted := rfl
@[simp] theorem emit_mem (s : State) (e : PortEvent) : (s.emit e).mem = s.mem := rfl
@[simp] theorem emit_port (s : State) (e : PortEvent) : (s.emit e).port = s.port ++ [e] := rfl
@[simp] theorem emit_toggles (s : State) (e : PortEvent) : (s.emit e).toggles = s.toggles := rfl

@[simp] theorem emit_bank (s : State) (e : PortEvent) : (s.emit e).bank = s.bank := rfl
@[simp] theorem emit_width (s : State) (e : PortEvent) : (s.emit e).width = s.width := rfl
@[simp] theorem emit_widthBytes (s : State) (e : PortEvent) : (s.emit e).widthBytes = s.widthBytes := rfl
@[simp] theorem emit_flags (s : State) (e : PortEvent) : (s.emit e).flags = s.flags := rfl
@[simp] theorem emit_currentSpsr (s : State) (e : PortEvent) : (s.emit e).currentSpsr = s.currentSpsr := rfl
@[simp] theorem emit_spsrOf (s : State) (e : PortEvent) (bk : Bank) : (s.emit e).spsrOf bk = s.spsrOf bk := rfl
@[simp] theorem emit_reply (s : State) (e : PortEvent) (rw : Width) (ra : Word) : (s.emit e).reply rw ra = s.reply rw ra := rfl
@[simp] theorem emit_readRegOf (s : State) (e : PortEvent) (bk : Bank) (rr : Reg) : (s.emit e).readRegOf bk rr = s.readRegOf bk rr := rfl
@[simp] theorem emit_readReg (s : State) (e : PortEvent) (rr : Reg) : (s.emit e).readReg rr = s.readReg rr := rfl

@[simp] theorem internalCycle_regs (s : State) (n : Nat) : (s.internalCycle n).regs = s.regs := rfl
@[simp] theorem internalCycle_r15 (s : State) (n : Nat) : (s.internalCycle n).r15 = s.r15 := rfl
@[simp] theorem internalCycle_cpsr (s : State) (n : Nat) : (s.internalCycle n).cpsr = s.cpsr := rfl
@[simp] theorem internalCycle_spsrFiq (s : State) (n : Nat) : (s.internalCycle n).spsrFiq = s.spsrFiq := rfl
@[simp] theorem internalCycle_spsrIrq (s : State) (n : Nat) : (s.internalCycle n).spsrIrq = s.spsrIrq := rfl
@[simp] theorem internalCycle_spsrSvc (s : State) (n : Nat) : (s.internalCycle n).spsrSvc = s.spsrSvc := rfl
@[simp] theorem internalCycle_spsrAbt (s : State) (n : Nat) : (s.internalCycle n).spsrAbt = s.spsrAbt := rfl
@[simp] theorem internalCycle_spsrUnd (s : State) (n : Nat) : (s.internalCycle n).spsrUnd = s.spsrUnd := rfl
@[simp] theorem internalCycle_p1 (s : State) (n : Nat) : (s.internalCycle n).p1 = s.p1 := rfl
@[simp] theorem internalCycle_p2 (s : State) (n : Nat) : (s.internalCycle n).p2 = s.p2 := rfl
@[simp] theorem internalCycle_p3 (s : State) (n : Nat) : (s.internalCycle n).p3 = s.p3 := rfl
@[simp] theorem internalCycle_nextFetchType (s : State) (n : Nat) : (s.internalCycle n).nextFetchType = s.nextFetchType := rfl
@[simp] theorem internalCycle_pendingFiq (s : State) (n : Nat) : (s.internalCycle n).pendingFiq = s.pendingFiq := rfl
@[simp] theorem internalCycle_pendingIrq (s : State) (n : Nat) : (s.internalCycle n).pendingIrq = s.pendingIrq := rfl
@[simp] theorem internalCycle_breakpoints (s : State) (n : Nat) : (s.internalCycle n).breakpoints = s.breakpoints := rfl
@[simp] theorem internalCycle_halted (s : State) (n : Nat) : (s.internalCycle n).halted = s.halted := rfl
@[simp] theorem internalCycle_mem (s : State) (n : Nat) : (s.internalCycle n).mem = s.mem := rfl
@[simp] theorem internalCycle_port (s : State) (n : Nat) : (s.internalCycle n).port = s.port ++ [.iCycle n] := rfl
@[simp] theorem internalCycle_toggles (s : State) (n : Nat) : (s.internalCycle n).toggles = s.toggles := rfl

@[simp] theorem internalCycle_bank (s : State) (n : Nat) : (s.internalCycle n).bank = s.bank := rfl
@[simp] theorem internalCycle_width (s : State) (n : Nat) : (s.internalCycle n).width = s.width := rfl
@[simp] theorem internalCycle_widthBytes (s : State) (n : Nat) : (s.internalCycle n).widthBytes = s.widthBytes := rfl
@[simp] theorem internalCycle_flags (s : State) (n : Nat) : (s.internalCycle n).flags = s.flags := rfl
@[simp] theorem internalCycle_currentSpsr (s : State) (n : Nat) : (s.internalCycle n).currentSpsr = s.currentSpsr := rfl
@[simp] theorem internalCycle_spsrOf (s : State) (n : Nat) (bk : Bank) : (s.internalCycle n).spsrOf bk = s.spsrOf bk := rfl
@[simp] theorem internalCycle_reply (s : State) (n : Nat) (rw : Width) (ra : Word) : (s.internalCycle n).reply rw ra = s.reply rw ra := rfl
@[simp] theorem internalCycle_readRegOf (s : State) (n : Nat) (bk : Bank) (rr : Reg) : (s.internalCycle n).readRegOf bk rr = s.readRegOf bk rr := rfl
@[simp] theorem internalCycle_readReg (s : State) (n : Nat) (rr : Reg) : (s.internalCycle n).readReg rr = s.readReg rr := rfl

@[simp] theorem dataRead_regs (s : State) (w : Width) (a : Word) (q : Bool) : (s.dataRead w a q).regs = s.regs := rfl
@[simp] theorem dataRead_r15 (s : State) (w : Width) (a : Word) (q : Bool) : (s.dataRead w a q).r15 = s.r15 := rfl
@[simp] theorem dataRead_cpsr (s : State) (w : Width) (a : Word) (q : Bool) : (s.dataRead w a q).cpsr = s.cpsr := rfl
@[simp] theorem dataRead_spsrFiq (s : State) (w : Width) (a : Word) (q : Bool) : (s.dataRead w a q).spsrFiq = s.spsrFiq := rfl
@[simp] theorem dataRead_spsrIrq (s : State) (w : Width) (a : Word) (q : Bool) : (s.dataRead w a q).spsrIrq = s.spsrIrq := rfl
@[simp] theorem dataRead_spsrSvc (s : State) (w : Width) (a : Word) (q : Bool) : (s.dataRead w a q).spsrSvc = s.spsrSvc := rfl
@[simp] theorem dataRead_spsrAbt (s : State) (w : Width) (a : Word) (q : Bool) : (s.dataRead w a q).spsrAbt = s.spsrAbt := rfl
@[simp] theorem dataRead_spsrUnd (s : State) (w : Width) (a : Word) (q : Bool) : (s.dataRead w a q).spsrUnd = s.spsrUnd := rfl
@[simp] theorem dataRead_p1 (s : State) (w : Width) (a : Word) (q : Bool) : (s.dataRead w a q).p1 = s.p1 := rfl
@[simp] theorem dataRead_p2 (s : State) (w : Width) (a : Word) (q : Bool) : (s.dataRead w a q).p2 = s.p2 := rfl
@[simp] theorem dataRead_p3 (s : State) (w : Width) (a : Word) (q : Bool) : (s.dataRead w a q).p3 = s.p3 := rfl
@[simp] theorem dataRead_nextFetchType (s : State) (w : Width) (a : Word) (q : Bool) : (s.dataRead w a q).nextFetchType = s.nextFetchType := rfl
@[simp] theorem dataRead_pendingFiq (s : State) (w : Width) (a : Word) (q : Bool) : (s.dataRead w a q).pendingFiq = s.pendingFiq := rfl
@[simp] theorem dataRead_pendingIrq (s : State) (w : Width) (a : Word) (q : Bool) : (s.dataRead w a q).pendingIrq = s.pendingIrq := rfl
@[simp] theorem dataRead_breakpoints (s : State) (w : Width) (a : Word) (q : Bool) : (s.dataRead w a q).breakpoints = s.breakpoints := rfl
@[simp] theorem dataRead_halted (s : State) (w : Width) (a : Word) (q : Bool) : (s.dataRead w a q).halted = s.halted := rfl
@[simp] theorem dataRead_mem (s : State) (w : Width) (a : Word) (q : Bool) : (s.dataRead w a q).mem = s.mem := rfl
@[simp] theorem dataRead_port (s : State) (w : Width) (a : Word) (q : Bool) : (s.dataRead w a q).port = s.port ++ [.dataRead w a q (s.reply w a)] := rfl
@[simp] theorem dataRead_toggles (s : State) (w : Width) (a : Word) (q : Bool) : (s.dataRead w a q).toggles = s.toggles := rfl

@[simp] theorem dataRead_bank (s : State) (w : Width) (a : Word) (q : Bool) : (s.dataRead w a q).bank = s.bank := rfl
@[simp] theorem dataRead_width (s : State) (w : Width) (a : Word) (q : Bool) : (s.dataRead w a q).width = s.width := rfl
@[simp] theorem dataRead_widthBytes (s : State) (w : Width) (a : Word) (q : Bool) : (s.dataRead w a q).widthBytes = s.widthBytes := rfl
@[simp] theorem dataRead_flags (s : State) (w : Width) (a : Word) (q : Bool) : (s.dataRead w a q).flags = s.flags := rfl
@[simp] theorem dataRead_currentSpsr (s : State) (w : Width) (a : Word) (q : Bool) : (s.dataRead w a q).currentSpsr = s.currentSpsr := rfl
@[simp] theorem dataRead_spsrOf (s : State) (w : Width) (a : Word) (q : Bool) (bk : Bank) : (s.dataRead w a q).spsrOf bk = s.spsrOf bk := rfl
@[simp] theorem dataRead_reply (s : State) (w : Width) (a : Word) (q : Bool) (rw : Width) (ra : Word) : (s.dataRead w a q).reply rw ra = s.reply rw ra := rfl
@[simp] theorem dataRead_readRegOf (s : State) (w : Width) (a : Word) (q : Bool) (bk : Bank) (rr : Reg) : (s.dataRead w a q).readRegOf bk rr = s.readRegOf bk rr := rfl
@[simp] theorem dataRead_readReg (s : State) (w : Width) (a : Word) (q : Bool) (rr : Reg) : (s.dataRead w a q).readReg rr = s.readReg rr := rfl

@[simp] theorem dataWrite_regs (s : State) (w : Width) (a v : Word) (q : Bool) : (s.dataWrite w a v q).regs = s.regs := rfl
@[simp] theorem dataWrite_r15 (s : State) (w : Width) (a v : Word) (q : Bool) : (s.dataWrite w a v q).r15 = s.r15 := rfl
@[simp] theorem dataWrite_cpsr (s : State) (w : Width) (a v : Word) (q : Bool) : (s.dataWrite w a v q).cpsr = s.cpsr := rfl
@[simp] theorem dataWrite_spsrFiq (s : State) (w : Width) (a v : Word) (q : Bool) : (s.dataWrite w a v q).spsrFiq = s.spsrFiq := rfl
@[simp] theorem dataWrite_spsrIrq (s : State) (w : Width) (a v : Word) (q : Bool) : (s.dataWrite w a v q).spsrIrq = s.spsrIrq := rfl
@[simp] theorem dataWrite_spsrSvc (s : State) (w : Width) (a v : Word) (q : Bool) : (s.dataWrite w a v q).spsrSvc = s.spsrSvc := rfl
@[simp] theorem dataWrite_spsrAbt (s : State) (w : Width) (a v : Word) (q : Bool) : (s.dataWrite w a v q).spsrAbt = s.spsrAbt := rfl
@[simp] theorem dataWrite_spsrUnd (s : State) (w : Width) (a v : Word) (q : Bool) : (s.dataWrite w a v q).spsrUnd = s.spsrUnd := rfl
@[simp] theorem dataWrite_p1 (s : State) (w : Width) (a v : Word) (q : Bool) : (s.dataWrite w a v q).p1 = s.p1 := rfl
@[simp] theorem dataWrite_p2 (s : State) (w : Width) (a v : Word) (q : Bool) : (s.dataWrite w a v q).p2 = s.p2 := rfl
@[simp] theorem dataWrite_p3 (s : State) (w : Width) (a v : Word) (q : Bool) : (s.dataWrite w a v q).p3 = s.p3 := rfl
@[simp] theorem dataWrite_nextFetchType (s : State) (w : Width) (a v : Word) (q : Bool) : (s.dataWrite w a v q).nextFetchType = s.nextFetchType := rfl
@[simp] theorem dataWrite_pendingFiq (s : State) (w : Width) (a v : Word) (q : Bool) : (s.dataWrite w a v q).pendingFiq = s.pendingFiq := rfl
@[simp] theorem dataWrite_pendingIrq (s : State) (w : Width) (a v : Word) (q : Bool) : (s.dataWrite w a v q).pendingIrq = s.pendingIrq := rfl
@[simp] theorem dataWrite_breakpoints (s : State) (w : Width) (a v : Word) (q : Bool) : (s.dataWrite w a v q).breakpoints = s.breakpoints := rfl
@[simp] theorem dataWrite_halted (s : State) (w : Width) (a v : Word) (q : Bool) : (s.dataWrite w a v q).halted = s.halted := rfl
@[simp] theorem dataWrite_mem (s : State) (w : Width) (a v : Word) (q : Bool) : (s.dataWrite w a v q).mem = Memory.writeWidth s.mem w a v := rfl
@[simp] theorem dataWrite_port (s : State) (w : Width) (a v : Word) (q : Bool) : (s.dataWrite w a v q).port = s.port ++ [.dataWrite w a (w.truncate v) q] := rfl
@[simp] theorem dataWrite_toggles (s : State) (w : Width) (a v : Word) (q : Bool) : (s.dataWrite w a v q).toggles = s.toggles := rfl

@[simp] theorem dataWrite_bank (s : State) (w : Width) (a v : Word) (q : Bool) : (s.dataWrite w a v q).bank = s.bank := rfl
@[simp] theorem dataWrite_width (s : State) (w : Width) (a v : Word) (q : Bool) : (s.dataWrite w a v q).width = s.width := rfl
@[simp] theorem dataWrite_widthBytes (s : State) (w : Width) (a v : Word) (q : Bool) : (s.dataWrite w a v q).widthBytes = s.widthBytes := rfl
@[simp] theorem dataWrite_flags (s : State) (w : Width) (a v : Word) (q : Bool) : (s.dataWrite w a v q).flags = s.flags := rfl
@[simp] theorem dataWrite_currentSpsr (s : State) (w : Width) (a v : Word) (q : Bool) : (s.dataWrite w a v q).currentSpsr = s.currentSpsr := rfl
@[simp] theorem dataWrite_spsrOf (s : State) (w : Width) (a v : Word) (q : Bool) (bk : Bank) : (s.dataWrite w a v q).spsrOf bk = s.spsrOf bk := rfl
@[simp] theorem dataWrite_readRegOf (s : State) (w : Width) (a v : Word) (q : Bool) (bk : Bank) (rr : Reg) : (s.dataWrite w a v q).readRegOf bk rr = s.readRegOf bk rr := rfl
@[simp] theorem dataWrite_readReg (s : State) (w : Width) (a v : Word) (q : Bool) (rr : Reg) : (s.dataWrite w a v q).readReg rr = s.readReg rr := rfl

@[simp] theorem beginStep_regs (s : State) : (s.beginStep).regs = s.regs := rfl
@[simp] theorem beginStep_r15 (s : State) : (s.beginStep).r15 = s.r15 := rfl
@[simp] theorem beginStep_cpsr (s : State) : (s.beginStep).cpsr = s.cpsr := rfl
@[simp] theorem beginStep_spsrFiq (s : State) : (s.beginStep).spsrFiq = s.spsrFiq := rfl
@[simp] theorem beginStep_spsrIrq (s : State) : (s.beginStep).spsrIrq = s.spsrIrq := rfl
@[simp] theorem beginStep_spsrSvc (s : State) : (s.beginStep).spsrSvc = s.spsrSvc := rfl
@[simp] theorem beginStep_spsrAbt (s : State) : (s.beginStep).spsrAbt = s.spsrAbt := rfl
@[simp] theorem beginStep_spsrUnd (s : State) : (s.beginStep).spsrUnd = s.spsrUnd := rfl
@[simp] theorem beginStep_p1 (s : State) : (s.beginStep).p1 = s.p1 := rfl
@[simp] theorem beginStep_p2 (s : State) : (s.beginStep).p2 = s.p2 := rfl
@[simp] theorem beginStep_p3 (s : State) : (s.beginStep).p3 = s.p3 := rfl
@[simp] theorem beginStep_nextFetchType (s : State) : (s.beginStep).nextFetchType = s.nextFetchType := rfl
@[simp] theorem beginStep_pendingFiq (s : State) : (s.beginStep).pendingFiq = s.pendingFiq := rfl
@[simp] theorem beginStep_pendingIrq (s : State) : (s.beginStep).pendingIrq = s.pendingIrq := rfl
@[simp] theorem beginStep_breakpoints (s : State) : (s.beginStep).breakpoints = s.breakpoints := rfl
@[simp] theorem beginStep_halted (s : State) : (s.beginStep).halted = s.halted := rfl
@[simp] theorem beginStep_mem (s : State) : (s.beginStep).mem = s.mem := rfl
@[simp] theorem beginStep_port (s : State) : (s.beginStep).port = [] := rfl
@[simp] theorem beginStep_toggles (s : State) : (s.beginStep).toggles = s.toggles := rfl

@[simp] theorem beginStep_bank (s : State) : (s.beginStep).bank = s.bank := rfl
@[simp] theorem beginStep_width (s : State) : (s.beginStep).width = s.width := rfl
@[simp] theorem beginStep_widthBytes (s : State) : (s.beginStep).widthBytes = s.widthBytes := rfl
@[simp] theorem beginStep_flags (s : State) : (s.beginStep).flags = s.flags := rfl
@[simp] theorem beginStep_currentSpsr (s : State) : (s.beginStep).currentSpsr = s.currentSpsr := rfl
@[simp] theorem beginStep_spsrOf (s : State) (bk : Bank) : (s.beginStep).spsrOf bk = s.spsrOf bk := rfl
@[simp] theorem beginStep_reply (s : State) (rw : Width) (ra : Word) : (s.beginStep).reply rw ra = s.reply rw ra := rfl
@[simp] theorem beginStep_readRegOf (s : State) (bk : Bank) (rr : Reg) : (s.beginStep).readRegOf bk rr = s.readRegOf bk rr := rfl
@[simp] theorem beginStep_readReg (s : State) (rr : Reg) : (s.beginStep).readReg rr = s.readReg rr := rfl

@[simp] theorem hacf_regs (s : State) : (s.hacf).regs = s.regs := rfl
@[simp] theorem hacf_r15 (s : State) : (s.hacf).r15 = s.r15 := rfl
@[simp] theorem hacf_cpsr (s : State) : (s.hacf).cpsr = s.cpsr := rfl
@[simp] theorem hacf_spsrFiq (s : State) : (s.hacf).spsrFiq = s.spsrFiq := rfl
@[simp] theorem hacf_spsrIrq (s : State) : (s.hacf).spsrIrq = s.spsrIrq := rfl
@[simp] theorem hacf_spsrSvc (s : State) : (s.hacf).spsrSvc = s.spsrSvc := rfl
@[simp] theorem hacf_spsrAbt (s : State) : (s.hacf).spsrAbt = s.spsrAbt := rfl
@[simp] theorem hacf_spsrUnd (s : State) : (s.hacf).spsrUnd = s.spsrUnd := rfl
@[simp] theorem hacf_p1 (s : State) : (s.hacf).p1 = s.p1 := rfl
@[simp] theorem hacf_p2 (s : State) : (s.hacf).p2 = s.p2 := rfl
@[simp] theorem hacf_p3 (s : State) : (s.hacf).p3 = s.p3 := rfl
@[simp] theorem hacf_nextFetchType (s : State) : (s.hacf).nextFetchType = s.nextFetchType := rfl
@[simp] theorem hacf_pendingFiq (s : State) : (s.hacf).pendingFiq = s.pendingFiq := rfl
@[simp] theorem hacf_pendingIrq (s : State) : (s.hacf).pendingIrq = s.pendingIrq := rfl
@[simp] theorem hacf_breakpoints (s : State) : (s.hacf).breakpoints = s.breakpoints := rfl
@[simp] theorem hacf_halted (s : State) : (s.hacf).halted = true := rfl
@[simp] theorem hacf_mem (s : State) : (s.hacf).mem = s.mem := rfl
@[simp] theorem hacf_port (s : State) : (s.hacf).port = s.port ++ [.hacf] := rfl
@[simp] theorem hacf_toggles (s : State) : (s.hacf).toggles = s.toggles := rfl

@[simp] theorem hacf_bank (s : State) : (s.hacf).bank = s.bank := rfl
@[simp] theorem hacf_width (s : State) : (s.hacf).width = s.width := rfl
@[simp] theorem hacf_widthBytes (s : State) : (s.hacf).widthBytes = s.widthBytes := rfl
@[simp] theorem hacf_flags (s : State) : (s.hacf).flags = s.flags := rfl
@[simp] theorem hacf_currentSpsr (s : State) : (s.hacf).currentSpsr = s.currentSpsr := rfl
@[simp] theorem hacf_spsrOf (s : State) (bk : Bank) : (s.hacf).spsrOf bk = s.spsrOf bk := rfl
@[simp] theorem hacf_reply (s : State) (rw : Width) (ra : Word) : (s.hacf).reply rw ra = s.reply rw ra := rfl
@[simp] theorem hacf_readRegOf (s : State) (bk : Bank) (rr : Reg) : (s.hacf).readRegOf bk rr = s.readRegOf bk rr := rfl
@[simp] theorem hacf_readReg (s : State) (rr : Reg) : (s.hacf).readReg rr = s.readReg rr := rfl

/-! ### Registers and status -/

@[simp] theorem writeRegOf_cpsr (s : State) (b : Bank) (n : Reg) (v : Word) : (s.writeRegOf b n v).cpsr = s.cpsr := by unfold writeRegOf; split <;> rfl
@[simp] theorem writeRegOf_spsrFiq (s : State) (b : Bank) (n : Reg) (v : Word) : (s.writeRegOf b n v).spsrFiq = s.spsrFiq := by unfold writeRegOf; split <;> rfl
@[simp] theorem writeRegOf_spsrIrq (s : State) (b : Bank) (n : Reg) (v : Word) : (s.writeRegOf b n v).spsrIrq = s.spsrIrq := by unfold writeRegOf; split <;> rfl
@[simp] theorem writeRegOf_spsrSvc (s : State) (b : Bank) (n : Reg) (v : Word) : (s.writeRegOf b n v).spsrSvc = s.spsrSvc := by unfold writeRegOf; split <;> rfl
@[simp] theorem writeRegOf_spsrAbt (s : State) (b : Bank) (n : Reg) (v : Word) : (s.writeRegOf b n v).spsrAbt = s.spsrAbt := by unfold writeRegOf; split <;> rfl
@[simp] theorem writeRegOf_spsrUnd (s : State) (b : Bank) (n : Reg) (v : Word) : (s.writeRegOf b n v).spsrUnd = s.spsrUnd := by unfold writeRegOf; split <;> rfl
@[simp] theorem writeRegOf_p1 (s : State) (b : Bank) (n : Reg) (v : Word) : (s.writeRegOf b n v).p1 = s.p1 := by unfold writeRegOf; split <;> rfl
@[simp] theorem writeRegOf_p2 (s : State) (b : Bank) (n : Reg) (v : Word) : (s.writeRegOf b n v).p2 = s.p2 := by unfold writeRegOf; split <;> rfl
@[simp] theorem writeRegOf_p3 (s : State) (b : Bank) (n : Reg) (v : Word) : (s.writeRegOf b n v).p3 = s.p3 := by unfold writeRegOf; split <;> rfl
@[simp] theorem writeRegOf_nextFetchType (s : State) (b : Bank) (n : Reg) (v : Word) : (s.writeRegOf b n v).nextFetchType = s.nextFetchType := by unfold writeRegOf; split <;> rfl
@[simp] theorem writeRegOf_pendingFiq (s : State) (b : Bank) (n : Reg) (v : Word) : (s.writeRegOf b n v).pendingFiq = s.pendingFiq := by unfold writeRegOf; split <;> rfl
@[simp] theorem writeRegOf_pendingIrq (s : State) (b : Bank) (n : Reg) (v : Word) : (s.writeRegOf b n v).pendingIrq = s.pendingIrq := by unfold writeRegOf; split <;> rfl
@[simp] theorem writeRegOf_breakpoints (s : State) (b : Bank) (n : Reg) (v : Word) : (s.writeRegOf b n v).breakpoints = s.breakpoints := by unfold writeRegOf; split <;> rfl
@[simp] theorem writeRegOf_halted (s : State) (b : Bank) (n : Reg) (v : Word) : (s.writeRegOf b n v).halted = s.halted := by unfold writeRegOf; split <;> rfl
@[simp] theorem writeRegOf_mem (s : State) (b : Bank) (n : Reg) (v : Word) : (s.writeRegOf b n v).mem = s.mem := by unfold writeRegOf; split <;> rfl
@[simp] theorem writeRegOf_port (s : State) (b : Bank) (n : Reg) (v : Word) : (s.writeRegOf b n v).port = s.port := by unfold writeRegOf; split <;> rfl
@[simp] theorem writeRegOf_toggles (s : State) (b : Bank) (n : Reg) (v : Word) : (s.writeRegOf b n v).toggles = s.toggles := by unfold writeRegOf; split <;> rfl

@[simp] theorem writeRegOf_bank (s : State) (b : Bank) (n : Reg) (v : Word) : (s.writeRegOf b n v).bank = s.bank := by unfold writeRegOf; split <;> rfl
@[simp] theorem writeRegOf_width (s : State) (b : Bank) (n : Reg) (v : Word) : (s.writeRegOf b n v).width = s.width := by unfold writeRegOf; split <;> rfl
@[simp] theorem writeRegOf_widthBytes (s : State) (b : Bank) (n : Reg) (v : Word) : (s.writeRegOf b n v).widthBytes = s.widthBytes := by unfold writeRegOf; split <;> rfl
@[simp] theorem writeRegOf_flags (s : State) (b : Bank) (n : Reg) (v : Word) : (s.writeRegOf b n v).flags = s.flags := by unfold writeRegOf; split <;> rfl
@[simp] theorem writeRegOf_currentSpsr (s : State) (b : Bank) (n : Reg) (v : Word) : (s.writeRegOf b n v).currentSpsr = s.currentSpsr := by unfold writeRegOf; split <;> rfl
@[simp] theorem writeRegOf_spsrOf (s : State) (b : Bank) (n : Reg) (v : Word) (bk : Bank) : (s.writeRegOf b n v).spsrOf bk = s.spsrOf bk := by unfold writeRegOf; split <;> rfl
@[simp] theorem writeRegOf_reply (s : State) (b : Bank) (n : Reg) (v : Word) (rw : Width) (ra : Word) : (s.writeRegOf b n v).reply rw ra = s.reply rw ra := by unfold writeRegOf; split <;> rfl

@[simp] theorem writeReg_cpsr (s : State) (n : Reg) (v : Word) : (s.writeReg n v).cpsr = s.cpsr := writeRegOf_cpsr ..
@[simp] theorem writeReg_spsrFiq (s : State) (n : Reg) (v : Word) : (s.writeReg n v).spsrFiq = s.spsrFiq := writeRegOf_spsrFiq ..
@[simp] theorem writeReg_spsrIrq (s : State) (n : Reg) (v : Word) : (s.writeReg n v).spsrIrq = s.spsrIrq := writeRegOf_spsrIrq ..
@[simp] theorem writeReg_spsrSvc (s : State) (n : Reg) (v : Word) : (s.writeReg n v).spsrSvc = s.spsrSvc := writeRegOf_spsrSvc ..
@[simp] theorem writeReg_spsrAbt (s : State) (n : Reg) (v : Word) : (s.writeReg n v).spsrAbt = s.spsrAbt := writeRegOf_spsrAbt ..
@[simp] theorem writeReg_spsrUnd (s : State) (n : Reg) (v : Word) : (s.writeReg n v).spsrUnd = s.spsrUnd := writeRegOf_spsrUnd ..
@[simp] theorem writeReg_p1 (s : State) (n : Reg) (v : Word) : (s.writeReg n v).p1 = s.p1 := writeRegOf_p1 ..
@[simp] theorem writeReg_p2 (s : State) (n : Reg) (v : Word) : (s.writeReg n v).p2 = s.p2 := writeRegOf_p2 ..
@[simp] theorem writeReg_p3 (s : State) (n : Reg) (v : Word) : (s.writeReg n v).p3 = s.p3 := writeRegOf_p3 ..
@[simp] theorem writeReg_nextFetchType (s : State) (n : Reg) (v : Word) : (s.writeReg n v).nextFetchType = s.nextFetchType := writeRegOf_nextFetchType ..
@[simp] theorem writeReg_pendingFiq (s : State) (n : Reg) (v : Word) : (s.writeReg n v).pendingFiq = s.pendingFiq := writeRegOf_pendingFiq ..
@[simp] theorem writeReg_pendingIrq (s : State) (n : Reg) (v : Word) : (s.writeReg n v).pendingIrq = s.pendingIrq := writeRegOf_pendingIrq ..
@[simp] theorem writeReg_breakpoints (s : State) (n : Reg) (v : Word) : (s.writeReg n v).breakpoints = s.breakpoints := writeRegOf_breakpoints ..
@[simp] theorem writeReg_halted (s : State) (n : Reg) (v : Word) : (s.writeReg n v).halted = s.halted := writeRegOf_halted ..
@[simp] theorem writeReg_mem (s : State) (n : Reg) (v : Word) : (s.writeReg n v).mem = s.mem := writeRegOf_mem ..
@[simp] theorem writeReg_port (s : State) (n : Reg) (v : Word) : (s.writeReg n v).port = s.port := writeRegOf_port ..
@[simp] theorem writeReg_toggles (s : State) (n : Reg) (v : Word) : (s.writeReg n v).toggles = s.toggles := writeRegOf_toggles ..

@[simp] theorem writeReg_bank (s : State) (n : Reg) (v : Word) : (s.writeReg n v).bank = s.bank := writeRegOf_bank ..
@[simp] theorem writeReg_width (s : State) (n : Reg) (v : Word) : (s.writeReg n v).width = s.width := writeRegOf_width ..
@[simp] theorem writeReg_widthBytes (s : State) (n : Reg) (v : Word) : (s.writeReg n v).widthBytes = s.widthBytes := writeRegOf_widthBytes ..
@[simp] theorem writeReg_flags (s : State) (n : Reg) (v : Word) : (s.writeReg n v).flags = s.flags := writeRegOf_flags ..
@[simp] theorem writeReg_currentSpsr (s : State) (n : Reg) (v : Word) : (s.writeReg n v).currentSpsr = s.currentSpsr := writeRegOf_currentSpsr ..
@[simp] theorem writeReg_spsrOf (s : State) (n : Reg) (v : Word) (bk : Bank) : (s.writeReg n v).spsrOf bk = s.spsrOf bk := writeRegOf_spsrOf ..
@[simp] theorem writeReg_reply (s : State) (n : Reg) (v : Word) (rw : Width) (ra : Word) : (s.writeReg n v).reply rw ra = s.reply rw ra := writeRegOf_reply ..

@[simp] theorem writeUserReg_cpsr (s : State) (n : Reg) (v : Word) : (s.writeUserReg n v).cpsr = s.cpsr := writeRegOf_cpsr ..
@[simp] theorem writeUserReg_spsrFiq (s : State) (n : Reg) (v : Word) : (s.writeUserReg n v).spsrFiq = s.spsrFiq := writeRegOf_spsrFiq ..
@[simp] theorem writeUserReg_spsrIrq (s : State) (n : Reg) (v : Word) : (s.writeUserReg n v).spsrIrq = s.spsrIrq := writeRegOf_spsrIrq ..
@[simp] theorem writeUserReg_spsrSvc (s : State) (n : Reg) (v : Word) : (s.writeUserReg n v).spsrSvc = s.spsrSvc := writeRegOf_spsrSvc ..
@[simp] theorem writeUserReg_spsrAbt (s : State) (n : Reg) (v : Word) : (s.writeUserReg n v).spsrAbt = s.spsrAbt := writeRegOf_spsrAbt ..
@[simp] theorem writeUserReg_spsrUnd (s : State) (n : Reg) (v : Word) : (s.writeUserReg n v).spsrUnd = s.spsrUnd := writeRegOf_spsrUnd ..
@[simp] theorem writeUserReg_p1 (s : State) (n : Reg) (v : Word) : (s.writeUserReg n v).p1 = s.p1 := writeRegOf_p1 ..
@[simp] theorem writeUserReg_p2 (s : State) (n : Reg) (v : Word) : (s.writeUserReg n v).p2 = s.p2 := writeRegOf_p2 ..
@[simp] theorem writeUserReg_p3 (s : State) (n : Reg) (v : Word) : (s.writeUserReg n v).p3 = s.p3 := writeRegOf_p3 ..
@[simp] theorem writeUserReg_nextFetchType (s : State) (n : Reg) (v : Word) : (s.writeUserReg n v).nextFetchType = s.nextFetchType := writeRegOf_nextFetchType ..
@[simp] theorem writeUserReg_pendingFiq (s : State) (n : Reg) (v : Word) : (s.writeUserReg n v).pendingFiq = s.pendingFiq := writeRegOf_pendingFiq ..
@[simp] theorem writeUserReg_pendingIrq (s : State) (n : Reg) (v : Word) : (s.writeUserReg n v).pendingIrq = s.pendingIrq := writeRegOf_pendingIrq ..
@[simp] theorem writeUserReg_breakpoints (s : State) (n : Reg) (v : Word) : (s.writeUserReg n v).breakpoints = s.breakpoints := writeRegOf_breakpoints ..
@[simp] theorem writeUserReg_halted (s : State) (n : Reg) (v : Word) : (s.writeUserReg n v).halted = s.halted := writeRegOf_halted ..
@[simp] theorem writeUserReg_mem (s : State) (n : Reg) (v : Word) : (s.writeUserReg n v).mem = s.mem := writeRegOf_mem ..
@[simp] theorem writeUserReg_port (s : State) (n : Reg) (v : Word) : (s.writeUserReg n v).port = s.port := writeRegOf_port ..
@[simp] theorem writeUserReg_toggles (s : State) (n : Reg) (v : Word) : (s.writeUserReg n v).toggles = s.toggles := writeRegOf_toggles ..

@[simp] theorem writeUserReg_bank (s : State) (n : Reg) (v : Word) : (s.writeUserReg n v).bank = s.bank := writeRegOf_bank ..
@[simp] theorem writeUserReg_width (s : State) (n : Reg) (v : Word) : (s.writeUserReg n v).width = s.width := writeRegOf_width ..
@[simp] theorem writeUserReg_widthBytes (s : State) (n : Reg) (v : Word) : (s.writeUserReg n v).widthBytes = s.widthBytes := writeRegOf_widthBytes ..
@[simp] theorem writeUserReg_flags (s : State) (n : Reg) (v : Word) : (s.writeUserReg n v).flags = s.flags := writeRegOf_flags ..
@[simp] theorem writeUserReg_currentSpsr (s : State) (n : Reg) (v : Word) : (s.writeUserReg n v).currentSpsr = s.currentSpsr := writeRegOf_currentSpsr ..
@[simp] theorem writeUserReg_spsrOf (s : State) (n : Reg) (v : Word) (bk : Bank) : (s.writeUserReg n v).spsrOf bk = s.spsrOf bk := writeRegOf_spsrOf ..
@[simp] theorem writeUserReg_reply (s : State) (n : Reg) (v : Word) (rw : Width) (ra : Word) : (s.writeUserReg n v).reply rw ra = s.reply rw ra := writeRegOf_reply ..

@[simp] theorem writeBack_cpsr (s : State) (n : Reg) (o : Option Word) : (s.writeBack n o).cpsr = s.cpsr := by
  cases o <;> simp [writeBack]
@[simp] theorem writeBack_spsrFiq (s : State) (n : Reg) (o : Option Word) : (s.writeBack n o).spsrFiq = s.spsrFiq := by
  cases o <;> simp [writeBack]
@[simp] theorem writeBack_spsrIrq (s : State) (n : Reg) (o : Option Word) : (s.writeBack n o).spsrIrq = s.spsrIrq := by
  cases o <;> simp [writeBack]
@[simp] theorem writeBack_spsrSvc (s : State) (n : Reg) (o : Option Word) : (s.writeBack n o).spsrSvc = s.spsrSvc := by
  cases o <;> simp [writeBack]
@[simp] theorem writeBack_spsrAbt (s : State) (n : Reg) (o : Option Word) : (s.writeBack n o).spsrAbt = s.spsrAbt := by
  cases o <;> simp [writeBack]
@[simp] theorem writeBack_spsrUnd (s : State) (n : Reg) (o : Option Word) : (s.writeBack n o).spsrUnd = s.spsrUnd := by
  cases o <;> simp [writeBack]
@[simp] theorem writeBack_p1 (s : State) (n : Reg) (o : Option Word) : (s.writeBack n o).p1 = s.p1 := by
  cases o <;> simp [writeBack]
@[simp] theorem writeBack_p2 (s : State) (n : Reg) (o : Option Word) : (s.writeBack n o).p2 = s.p2 := by
  cases o <;> simp [writeBack]
@[simp] theorem writeBack_p3 (s : State) (n : Reg) (o : Option Word) : (s.writeBack n o).p3 = s.p3 := by
  cases o <;> simp [writeBack]
@[simp] theorem writeBack_nextFetchType (s : State) (n : Reg) (o : Option Word) : (s.writeBack n o).nextFetchType = s.nextFetchType := by
  cases o <;> simp [writeBack]
@[simp] theorem writeBack_pendingFiq (s : State) (n : Reg) (o : Option Word) : (s.writeBack n o).pendingFiq = s.pendingFiq := by
  cases o <;> simp [writeBack]
@[simp] theorem writeBack_pendingIrq (s : State) (n : Reg) (o : Option Word) : (s.writeBack n o).pendingIrq = s.pendingIrq := by
  cases o <;> simp [writeBack]
@[simp] theorem writeBack_breakpoints (s : State) (n : Reg) (o : Option Word) : (s.writeBack n o).breakpoints = s.breakpoints := by
  cases o <;> simp [writeBack]
@[simp] theorem writeBack_halted (s : State) (n : Reg) (o : Option Word) : (s.writeBack n o).halted = s.halted := by
  cases o <;> simp [writeBack]
@[simp] theorem writeBack_mem (s : State) (n : Reg) (o : Option Word) : (s.writeBack n o).mem = s.mem := by
  cases o <;> simp [writeBack]
@[simp] theorem writeBack_port (s : State) (n : Reg) (o : Option Word) : (s.writeBack n o).port = s.port := by
  cases o <;> simp [writeBack]
@[simp] theorem writeBack_toggles (s : State) (n : Reg) (o : Option Word) : (s.writeBack n o).toggles = s.toggles := by
  cases o <;> simp [writeBack]
@[simp] theorem writeBack_bank (s : State) (n : Reg) (o : Option Word) : (s.writeBack n o).bank = s.bank := by
  cases o <;> simp [writeBack]
@[simp] theorem writeBack_width (s : State) (n : Reg) (o : Option Word) : (s.writeBack n o).width = s.width := by
  cases o <;> simp [writeBack]
@[simp] theorem writeBack_widthBytes (s : State) (n : Reg) (o : Option Word) : (s.writeBack n o).widthBytes = s.widthBytes := by
  cases o <;> simp [writeBack]
@[simp] theorem writeBack_flags (s : State) (n : Reg) (o : Option Word) : (s.writeBack n o).flags = s.flags := by
  cases o <;> simp [writeBack]
@[simp] theorem writeBack_currentSpsr (s : State) (n : Reg) (o : Option Word) : (s.writeBack n o).currentSpsr = s.currentSpsr := by
  cases o <;> simp [writeBack]
@[simp] theorem writeBack_spsrOf (s : State) (n : Reg) (o : Option Word) (bk : Bank) : (s.writeBack n o).spsrOf bk = s.spsrOf bk := by
  cases o <;> simp [writeBack]
@[simp] theorem writeBack_reply (s : State) (n : Reg) (o : Option Word) (rw : Width) (ra : Word) : (s.writeBack n o).reply rw ra = s.reply rw ra := by
  cases o <;> simp [writeBack]
@[simp] theorem writeBack_none (s : State) (n : Reg) : s.writeBack n none = s := rfl
@[simp] theorem writeBack_some (s : State) (n : Reg) (v : Word) : s.writeBack n (some v) = s.writeReg n v := rfl

@[simp] theorem setFlags_regs (s : State) (f : Flags) : (s.setFlags f).regs = s.regs := rfl
@[simp] theorem setFlags_r15 (s : State) (f : Flags) : (s.setFlags f).r15 = s.r15 := rfl
@[simp] theorem setFlags_cpsr (s : State) (f : Flags) : (s.setFlags f).cpsr = Psr.withFlags s.cpsr f := rfl
@[simp] theorem setFlags_spsrFiq (s : State) (f : Flags) : (s.setFlags f).spsrFiq = s.spsrFiq := rfl
@[simp] theorem setFlags_spsrIrq (s : State) (f : Flags) : (s.setFlags f).spsrIrq = s.spsrIrq := rfl
@[simp] theorem setFlags_spsrSvc (s : State) (f : Flags) : (s.setFlags f).spsrSvc = s.spsrSvc := rfl
@[simp] theorem setFlags_spsrAbt (s : State) (f : Flags) : (s.setFlags f).spsrAbt = s.spsrAbt := rfl
@[simp] theorem setFlags_spsrUnd (s : State) (f : Flags) : (s.setFlags f).spsrUnd = s.spsrUnd := rfl
@[simp] theorem setFlags_p1 (s : State) (f : Flags) : (s.setFlags f).p1 = s.p1 := rfl
@[simp] theorem setFlags_p2 (s : State) (f : Flags) : (s.setFlags f).p2 = s.p2 := rfl
@[simp] theorem setFlags_p3 (s : State) (f : Flags) : (s.setFlags f).p3 = s.p3 := rfl
@[simp] theorem setFlags_nextFetchType (s : State) (f : Flags) : (s.setFlags f).nextFetchType = s.nextFetchType := rfl
@[simp] theorem setFlags_pendingFiq (s : State) (f : Flags) : (s.setFlags f).pendingFiq = s.pendingFiq := rfl
@[simp] theorem setFlags_pendingIrq (s : State) (f : Flags) : (s.setFlags f).pendingIrq = s.pendingIrq := rfl
@[simp] theorem setFlags_breakpoints (s : State) (f : Flags) : (s.setFlags f).breakpoints = s.breakpoints := rfl
@[simp] theorem setFlags_halted (s : State) (f : Flags) : (s.setFlags f).halted = s.halted := rfl
@[simp] theorem setFlags_mem (s : State) (f : Flags) : (s.setFlags f).mem = s.mem := rfl
@[simp] theorem setFlags_port (s : State) (f : Flags) : (s.setFlags f).port = s.port := rfl
@[simp] theorem setFlags_toggles (s : State) (f : Flags) : (s.setFlags f).toggles = s.toggles := rfl

@[simp] theorem setFlags_spsrOf (s : State) (f : Flags) (bk : Bank) : (s.setFlags f).spsrOf bk = s.spsrOf bk := rfl
@[simp] theorem setFlags_reply (s : State) (f : Flags) (rw : Width) (ra : Word) : (s.setFlags f).reply rw ra = s.reply rw ra := rfl
@[simp] theorem setFlags_readRegOf (s : State) (f : Flags) (bk : Bank) (rr : Reg) : (s.setFlags f).readRegOf bk rr = s.readRegOf bk rr := rfl

@[simp] theorem writeSpsrOf_regs (s : State) (b : Bank) (v : Word) : (s.writeSpsrOf b v).regs = s.regs := by
  cases b <;> rfl
@[simp] theorem writeSpsrOf_r15 (s : State) (b : Bank) (v : Word) : (s.writeSpsrOf b v).r15 = s.r15 := by
  cases b <;> rfl
@[simp] theorem writeSpsrOf_cpsr (s : State) (b : Bank) (v : Word) : (s.writeSpsrOf b v).cpsr = s.cpsr := by
  cases b <;> rfl
@[simp] theorem writeSpsrOf_p1 (s : State) (b : Bank) (v : Word) : (s.writeSpsrOf b v).p1 = s.p1 := by
  cases b <;> rfl
@[simp] theorem writeSpsrOf_p2 (s : State) (b : Bank) (v : Word) : (s.writeSpsrOf b v).p2 = s.p2 := by
  cases b <;> rfl
@[simp] theorem writeSpsrOf_p3 (s : State) (b : Bank) (v : Word) : (s.writeSpsrOf b v).p3 = s.p3 := by
  cases b <;> rfl
@[simp] theorem writeSpsrOf_nextFetchType (s : State) (b : Bank) (v : Word) : (s.writeSpsrOf b v).nextFetchType = s.nextFetchType := by
  cases b <;> rfl
@[simp] theorem writeSpsrOf_pendingFiq (s : State) (b : Bank) (v : Word) : (s.writeSpsrOf b v).pendingFiq = s.pendingFiq := by
  cases b <;> rfl
@[simp] theorem writeSpsrOf_pendingIrq (s : State) (b : Bank) (v : Word) : (s.writeSpsrOf b v).pendingIrq = s.pendingIrq := by
  cases b <;> rfl
@[simp] theorem writeSpsrOf_breakpoints (s : State) (b : Bank) (v : Word) : (s.writeSpsrOf b v).breakpoints = s.breakpoints := by
  cases b <;> rfl
@[simp] theorem writeSpsrOf_halted (s : State) (b : Bank) (v : Word) : (s.writeSpsrOf b v).halted = s.halted := by
  cases b <;> rfl
@[simp] theorem writeSpsrOf_mem (s : State) (b : Bank) (v : Word) : (s.writeSpsrOf b v).mem = s.mem := by
  cases b <;> rfl
@[simp] theorem writeSpsrOf_port (s : State) (b : Bank) (v : Word) : (s.writeSpsrOf b v).port = s.port := by
  cases b <;> rfl
@[simp] theorem writeSpsrOf_toggles (s : State) (b : Bank) (v : Word) : (s.writeSpsrOf b v).toggles = s.toggles := by
  cases b <;> rfl
@[simp] theorem enterMode_regs (s : State) (m : Mode) : (s.enterMode m).regs = s.regs := by
  simp [enterMode]
@[simp] theorem enterMode_r15 (s : State) (m : Mode) : (s.enterMode m).r15 = s.r15 := by
  simp [enterMode]
@[simp] theorem enterMode_p1 (s : State) (m : Mode) : (s.enterMode m).p1 = s.p1 := by
  simp [enterMode]
@[simp] theorem enterMode_p2 (s : State) (m : Mode) : (s.enterMode m).p2 = s.p2 := by
  simp [enterMode]
@[simp] theorem enterMode_p3 (s : State) (m : Mode) : (s.enterMode m).p3 = s.p3 := by
  simp [enterMode]
@[simp] theorem enterMode_nextFetchType (s : State) (m : Mode) : (s.enterMode m).nextFetchType = s.nextFetchType := by
  simp [enterMode]
@[simp] theorem enterMode_pendingFiq (s : State) (m : Mode) : (s.enterMode m).pendingFiq = s.pendingFiq := by
  simp [enterMode]
@[simp] theorem enterMode_pendingIrq (s : State) (m : Mode) : (s.enterMode m).pendingIrq = s.pendingIrq := by
  simp [enterMode]
@[simp] theorem enterMode_breakpoints (s : State) (m : Mode) : (s.enterMode m).breakpoints = s.breakpoints := by
  simp [enterMode]
@[simp] theorem enterMode_halted (s : State) (m : Mode) : (s.enterMode m).halted = s.halted := by
  simp [enterMode]
@[simp] theorem enterMode_mem (s : State) (m : Mode) : (s.enterMode m).mem = s.mem := by
  simp [enterMode]
@[simp] theorem enterMode_port (s : State) (m : Mode) : (s.enterMode m).port = s.port := by
  simp [enterMode]
@[simp] theorem enterMode_toggles (s : State) (m : Mode) : (s.enterMode m).toggles = s.toggles := by
  simp [enterMode]
@[simp] theorem enterMode_cpsr (s : State) (m : Mode) : (s.enterMode m).cpsr = Psr.withMode s.cpsr m := rfl

/-! ### Pipeline -/

@[simp] theorem fetchOpcode_regs (s : State) : (s.fetchOpcode).regs = s.regs := rfl
@[simp] theorem fetchOpcode_r15 (s : State) : (s.fetchOpcode).r15 = s.r15 + s.widthBytes := rfl
@[simp] theorem fetchOpcode_cpsr (s : State) : (s.fetchOpcode).cpsr = s.cpsr := rfl
@[simp] theorem fetchOpcode_spsrFiq (s : State) : (s.fetchOpcode).spsrFiq = s.spsrFiq := rfl
@[simp] theorem fetchOpcode_spsrIrq (s : State) : (s.fetchOpcode).spsrIrq = s.spsrIrq := rfl
@[simp] theorem fetchOpcode_spsrSvc (s : State) : (s.fetchOpcode).spsrSvc = s.spsrSvc := rfl
@[simp] theorem fetchOpcode_spsrAbt (s : State) : (s.fetchOpcode).spsrAbt = s.spsrAbt := rfl
@[simp] theorem fetchOpcode_spsrUnd (s : State) : (s.fetchOpcode).spsrUnd = s.spsrUnd := rfl
@[simp] theorem fetchOpcode_p1 (s : State) : (s.fetchOpcode).p1 = s.reply s.width s.r15 := rfl
@[simp] theorem fetchOpcode_p2 (s : State) : (s.fetchOpcode).p2 = s.reply s.width s.r15 := rfl
@[simp] theorem fetchOpcode_p3 (s : State) : (s.fetchOpcode).p3 = s.p2 := rfl
@[simp] theorem fetchOpcode_nextFetchType (s : State) : (s.fetchOpcode).nextFetchType = true := rfl
@[simp] theorem fetchOpcode_pendingFiq (s : State) : (s.fetchOpcode).pendingFiq = s.pendingFiq := rfl
@[simp] theorem fetchOpcode_pendingIrq (s : State) : (s.fetchOpcode).pendingIrq = s.pendingIrq := rfl
@[simp] theorem fetchOpcode_breakpoints (s : State) : (s.fetchOpcode).breakpoints = s.breakpoints := rfl
@[simp] theorem fetchOpcode_halted (s : State) : (s.fetchOpcode).halted = s.halted := rfl
@[simp] theorem fetchOpcode_mem (s : State) : (s.fetchOpcode).mem = s.mem := rfl
@[simp] theorem fetchOpcode_port (s : State) : (s.fetchOpcode).port = s.port ++ [.codeRead s.width s.r15 s.nextFetchType (s.reply s.width s.r15)] := rfl
@[simp] theorem fetchOpcode_toggles (s : State) : (s.fetchOpcode).toggles = s.toggles := rfl

@[simp] theorem fetchOpcode_bank (s : State) : (s.fetchOpcode).bank = s.bank := rfl
@[simp] theorem fetchOpcode_width (s : State) : (s.fetchOpcode).width = s.width := rfl
@[simp] theorem fetchOpcode_widthBytes (s : State) : (s.fetchOpcode).widthBytes = s.widthBytes := rfl
@[simp] theorem fetchOpcode_flags (s : State) : (s.fetchOpcode).flags = s.flags := rfl
@[simp] theorem fetchOpcode_currentSpsr (s : State) : (s.fetchOpcode).currentSpsr = s.currentSpsr := rfl
@[simp] theorem fetchOpcode_spsrOf (s : State) (bk : Bank) : (s.fetchOpcode).spsrOf bk = s.spsrOf bk := rfl
@[simp] theorem fetchOpcode_reply (s : State) (rw : Width) (ra : Word) : (s.fetchOpcode).reply rw ra = s.reply rw ra := rfl

@[simp] theorem flushPipeline_regs (s : State) : (s.flushPipeline).regs = s.regs := rfl
@[simp] theorem flushPipeline_r15 (s : State) : (s.flushPipeline).r15 = (s.width.align s.r15) + s.widthBytes + s.widthBytes := rfl
@[simp] theorem flushPipeline_cpsr (s : State) : (s.flushPipeline).cpsr = s.cpsr := rfl
@[simp] theorem flushPipeline_spsrFiq (s : State) : (s.flushPipeline).spsrFiq = s.spsrFiq := rfl
@[simp] theorem flushPipeline_spsrIrq (s : State) : (s.flushPipeline).spsrIrq = s.spsrIrq := rfl
@[simp] theorem flushPipeline_spsrSvc (s : State) : (s.flushPipeline).spsrSvc = s.spsrSvc := rfl
@[simp] theorem flushPipeline_spsrAbt (s : State) : (s.flushPipeline).spsrAbt = s.spsrAbt := rfl
@[simp] theorem flushPipeline_spsrUnd (s : State) : (s.flushPipeline).spsrUnd = s.spsrUnd := rfl
@[simp] theorem flushPipeline_p1 (s : State) : (s.flushPipeline).p1 = s.reply s.width ((s.width.align s.r15) + s.widthBytes) := rfl
@[simp] theorem flushPipeline_p2 (s : State) : (s.flushPipeline).p2 = s.reply s.width ((s.width.align s.r15) + s.widthBytes) := rfl
@[simp] theorem flushPipeline_p3 (s : State) : (s.flushPipeline).p3 = s.reply s.width (s.width.align s.r15) := rfl
@[simp] theorem flushPipeline_nextFetchType (s : State) : (s.flushPipeline).nextFetchType = true := rfl
@[simp] theorem flushPipeline_pendingFiq (s : State) : (s.flushPipeline).pendingFiq = s.pendingFiq := rfl
@[simp] theorem flushPipeline_pendingIrq (s : State) : (s.flushPipeline).pendingIrq = s.pendingIrq := rfl
@[simp] theorem flushPipeline_breakpoints (s : State) : (s.flushPipeline).breakpoints = s.breakpoints := rfl
@[simp] theorem flushPipeline_halted (s : State) : (s.flushPipeline).halted = s.halted := rfl
@[simp] theorem flushPipeline_mem (s : State) : (s.flushPipeline).mem = s.mem := rfl
@[simp] theorem flushPipeline_toggles (s : State) : (s.flushPipeline).toggles = s.toggles := rfl

@[simp] theorem flushPipeline_bank (s : State) : (s.flushPipeline).bank = s.bank := rfl
@[simp] theorem flushPipeline_width (s : State) : (s.flushPipeline).width = s.width := rfl
@[simp] theorem flushPipeline_widthBytes (s : State) : (s.flushPipeline).widthBytes = s.widthBytes := rfl
@[simp] theorem flushPipeline_flags (s : State) : (s.flushPipeline).flags = s.flags := rfl
@[simp] theorem flushPipeline_currentSpsr (s : State) : (s.flushPipeline).currentSpsr = s.currentSpsr := rfl
@[simp] theorem flushPipeline_spsrOf (s : State) (bk : Bank) : (s.flushPipeline).spsrOf bk = s.spsrOf bk := rfl
@[simp] theorem flushPipeline_reply (s : State) (rw : Width) (ra : Word) : (s.flushPipeline).reply rw ra = s.reply rw ra := rfl

@[simp] theorem jump_regs (s : State) (x : Word) : (s.jump x).regs = s.regs := rfl
@[simp] theorem jump_r15 (s : State) (x : Word) : (s.jump x).r15 = (s.width.align x) + s.widthBytes + s.widthBytes := rfl
@[simp] theorem jump_cpsr (s : State) (x : Word) : (s.jump x).cpsr = s.cpsr := rfl
@[simp] theorem jump_spsrFiq (s : State) (x : Word) : (s.jump x).spsrFiq = s.spsrFiq := rfl
@[simp] theorem jump_spsrIrq (s : State) (x : Word) : (s.jump x).spsrIrq = s.spsrIrq := rfl
@[simp] theorem jump_spsrSvc (s : State) (x : Word) : (s.jump x).spsrSvc = s.spsrSvc := rfl
@[simp] theorem jump_spsrAbt (s : State) (x : Word) : (s.jump x).spsrAbt = s.spsrAbt := rfl
@[simp] theorem jump_spsrUnd (s : State) (x : Word) : (s.jump x).spsrUnd = s.spsrUnd := rfl
@[simp] theorem jump_p1 (s : State) (x : Word) : (s.jump x).p1 = s.reply s.width ((s.width.align x) + s.widthBytes) := rfl
@[simp] theorem jump_p2 (s : State) (x : Word) : (s.jump x).p2 = s.reply s.width ((s.width.align x) + s.widthBytes) := rfl
@[simp] theorem jump_p3 (s : State) (x : Word) : (s.jump x).p3 = s.reply s.width (s.width.align x) := rfl
@[simp] theorem jump_nextFetchType (s : State) (x : Word) : (s.jump x).nextFetchType = true := rfl
@[simp] theorem jump_pendingFiq (s : State) (x : Word) : (s.jump x).pendingFiq = s.pendingFiq := rfl
@[simp] theorem jump_pendingIrq (s : State) (x : Word) : (s.jump x).pendingIrq = s.pendingIrq := rfl
@[simp] theorem jump_breakpoints (s : State) (x : Word) : (s.jump x).breakpoints = s.breakpoints := rfl
@[simp] theorem jump_halted (s : State) (x : Word) : (s.jump x).halted = s.halted := rfl
@[simp] theorem jump_mem (s : State) (x : Word) : (s.jump x).mem = s.mem := rfl
@[simp] theorem jump_toggles (s : State) (x : Word) : (s.jump x).toggles = s.toggles := rfl

@[simp] theorem jump_bank (s : State) (x : Word) : (s.jump x).bank = s.bank := rfl
@[simp] theorem jump_width (s : State) (x : Word) : (s.jump x).width = s.width := rfl
@[simp] theorem jump_widthBytes (s : State) (x : Word) : (s.jump x).widthBytes = s.widthBytes := rfl
@[simp] theorem jump_flags (s : State) (x : Word) : (s.jump x).flags = s.flags := rfl
@[simp] theorem jump_currentSpsr (s : State) (x : Word) : (s.jump x).currentSpsr = s.currentSpsr := rfl
@[simp] theorem jump_spsrOf (s : State) (x : Word) (bk : Bank) : (s.jump x).spsrOf bk = s.spsrOf bk := rfl
@[simp] theorem jump_reply (s : State) (x : Word) (rw : Width) (ra : Word) : (s.jump x).reply rw ra = s.reply rw ra := rfl

/-! ### What the environment does -/

@[simp] theorem setPendingFiq_regs (s : State) (b : Bool) : (s.setPendingFiq b).regs = s.regs := rfl
@[simp] theorem setPendingFiq_r15 (s : State) (b : Bool) : (s.setPendingFiq b).r15 = s.r15 := rfl
@[simp] theorem setPendingFiq_cpsr (s : State) (b : Bool) : (s.setPendingFiq b).cpsr = s.cpsr := rfl
@[simp] theorem setPendingFiq_spsrFiq (s : State) (b : Bool) : (s.setPendingFiq b).spsrFiq = s.spsrFiq := rfl
@[simp] theorem setPendingFiq_spsrIrq (s : State) (b : Bool) : (s.setPendingFiq b).spsrIrq = s.spsrIrq := rfl
@[simp] theorem setPendingFiq_spsrSvc (s : State) (b : Bool) : (s.setPendingFiq b).spsrSvc = s.spsrSvc := rfl
@[simp] theorem setPendingFiq_spsrAbt (s : State) (b : Bool) : (s.setPendingFiq b).spsrAbt = s.spsrAbt := rfl
@[simp] theorem setPendingFiq_spsrUnd (s : State) (b : Bool) : (s.setPendingFiq b).spsrUnd = s.spsrUnd := rfl
@[simp] theorem setPendingFiq_p1 (s : State) (b : Bool) : (s.setPendingFiq b).p1 = s.p1 := rfl
@[simp] theorem setPendingFiq_p2 (s : State) (b : Bool) : (s.setPendingFiq b).p2 = s.p2 := rfl
@[simp] theorem setPendingFiq_p3 (s : State) (b : Bool) : (s.setPendingFiq b).p3 = s.p3 := rfl
@[simp] theorem setPendingFiq_nextFetchType (s : State) (b : Bool) : (s.setPendingFiq b).nextFetchType = s.nextFetchType := rfl
@[simp] theorem setPendingFiq_pendingFiq (s : State) (b : Bool) : (s.setPendingFiq b).pendingFiq = b := rfl
@[simp] theorem setPendingFiq_pendingIrq (s : State) (b : Bool) : (s.setPendingFiq b).pendingIrq = s.pendingIrq := rfl
@[simp] theorem setPendingFiq_breakpoints (s : State) (b : Bool) : (s.setPendingFiq b).breakpoints = s.breakpoints := rfl
@[simp] theorem setPendingFiq_halted (s : State) (b : Bool) : (s.setPendingFiq b).halted = s.halted := rfl
@[simp] theorem setPendingFiq_mem (s : State) (b : Bool) : (s.setPendingFiq b).mem = s.mem := rfl
@[simp] theorem setPendingFiq_port (s : State) (b : Bool) : (s.setPendingFiq b).port = s.port := rfl
@[simp] theorem setPendingFiq_toggles (s : State) (b : Bool) : (s.setPendingFiq b).toggles = s.toggles := rfl

@[simp] theorem setPendingIrq_regs (s : State) (b : Bool) : (s.setPendingIrq b).regs = s.regs := rfl
@[simp] theorem setPendingIrq_r15 (s : State) (b : Bool) : (s.setPendingIrq b).r15 = s.r15 := rfl
@[simp] theorem setPendingIrq_cpsr (s : State) (b : Bool) : (s.setPendingIrq b).cpsr = s.cpsr := rfl
@[simp] theorem setPendingIrq_spsrFiq (s : State) (b : Bool) : (s.setPendingIrq b).spsrFiq = s.spsrFiq := rfl
@[simp] theorem setPendingIrq_spsrIrq (s : State) (b : Bool) : (s.setPendingIrq b).spsrIrq = s.spsrIrq := rfl
@[simp] theorem setPendingIrq_spsrSvc (s : State) (b : Bool) : (s.setPendingIrq b).spsrSvc = s.spsrSvc := rfl
@[simp] theorem setPendingIrq_spsrAbt (s : State) (b : Bool) : (s.setPendingIrq b).spsrAbt = s.spsrAbt := rfl
@[simp] theorem setPendingIrq_spsrUnd (s : State) (b : Bool) : (s.setPendingIrq b).spsrUnd = s.spsrUnd := rfl
@[simp] theorem setPendingIrq_p1 (s : State) (b : Bool) : (s.setPendingIrq b).p1 = s.p1 := rfl
@[simp] theorem setPendingIrq_p2 (s : State) (b : Bool) : (s.setPendingIrq b).p2 = s.p2 := rfl
@[simp] theorem setPendingIrq_p3 (s : State) (b : Bool) : (s.setPendingIrq b).p3 = s.p3 := rfl
@[simp] theorem setPendingIrq_nextFetchType (s : State) (b : Bool) : (s.setPendingIrq b).nextFetchType = s.nextFetchType := rfl
@[simp] theorem setPendingIrq_pendingFiq (s : State) (b : Bool) : (s.setPendingIrq b).pendingFiq = s.pendingFiq := rfl
@[simp] theorem setPendingIrq_pendingIrq (s : State) (b : Bool) : (s.setPendingIrq b).pendingIrq = b := rfl
@[simp] theorem setPendingIrq_breakpoints (s : State) (b : Bool) : (s.setPendingIrq b).breakpoints = s.breakpoints := rfl
@[simp] theorem setPendingIrq_halted (s : State) (b : Bool) : (s.setPendingIrq b).halted = s.halted := rfl
@[simp] theorem setPendingIrq_mem (s : State) (b : Bool) : (s.setPendingIrq b).mem = s.mem := rfl
@[simp] theorem setPendingIrq_port (s : State) (b : Bool) : (s.setPendingIrq b).port = s.port := rfl
@[simp] theorem setPendingIrq_toggles (s : State) (b : Bool) : (s.setPendingIrq b).toggles = s.toggles := rfl

@[simp] theorem addBreakpoint_regs (s : State) (a : Word) : (s.addBreakpoint a).regs = s.regs := rfl
@[simp] theorem addBreakpoint_r15 (s : State) (a : Word) : (s.addBreakpoint a).r15 = s.r15 := rfl
@[simp] theorem addBreakpoint_cpsr (s : State) (a : Word) : (s.addBreakpoint a).cpsr = s.cpsr := rfl
@[simp] theorem addBreakpoint_spsrFiq (s : State) (a : Word) : (s.addBreakpoint a).spsrFiq = s.spsrFiq := rfl
@[simp] theorem addBreakpoint_spsrIrq (s : State) (a : Word) : (s.addBreakpoint a).spsrIrq = s.spsrIrq := rfl
@[simp] theorem addBreakpoint_spsrSvc (s : State) (a : Word) : (s.addBreakpoint a).spsrSvc = s.spsrSvc := rfl
@[simp] theorem addBreakpoint_spsrAbt (s : State) (a : Word) : (s.addBreakpoint a).spsrAbt = s.spsrAbt := rfl
@[simp] theorem addBreakpoint_spsrUnd (s : State) (a : Word) : (s.addBreakpoint a).spsrUnd = s.spsrUnd := rfl
@[simp] theorem addBreakpoint_p1 (s : State) (a : Word) : (s.addBreakpoint a).p1 = s.p1 := rfl
@[simp] theorem addBreakpoint_p2 (s : State) (a : Word) : (s.addBreakpoint a).p2 = s.p2 := rfl
@[simp] theorem addBreakpoint_p3 (s : State) (a : Word) : (s.addBreakpoint a).p3 = s.p3 := rfl
@[simp] theorem addBreakpoint_nextFetchType (s : State) (a : Word) : (s.addBreakpoint a).nextFetchType = s.nextFetchType := rfl
@[simp] theorem addBreakpoint_pendingFiq (s : State) (a : Word) : (s.addBreakpoint a).pendingFiq = s.pendingFiq := rfl
@[simp] theorem addBreakpoint_pendingIrq (s : State) (a : Word) : (s.addBreakpoint a).pendingIrq = s.pendingIrq := rfl
@[simp] theorem addBreakpoint_breakpoints (s : State) (a : Word) : (s.addBreakpoint a).breakpoints = insertAddress a s.breakpoints := rfl
@[simp] theorem addBreakpoint_halted (s : State) (a : Word) : (s.addBreakpoint a).halted = s.halted := rfl
@[simp] theorem addBreakpoint_mem (s : State) (a : Word) : (s.addBreakpoint a).mem = s.mem := rfl
@[simp] theorem addBreakpoint_port (s : State) (a : Word) : (s.addBreakpoint a).port = s.port := rfl
@[simp] theorem addBreakpoint_toggles (s : State) (a : Word) : (s.addBreakpoint a).toggles = s.toggles := rfl

@[simp] theorem removeBreakpoint_regs (s : State) (a : Word) : (s.removeBreakpoint a).regs = s.regs := rfl
@[simp] theorem removeBreakpoint_r15 (s : State) (a : Word) : (s.removeBreakpoint a).r15 = s.r15 := rfl
@[simp] theorem removeBreakpoint_cpsr (s : State) (a : Word) : (s.removeBreakpoint a).cpsr = s.cpsr := rfl
@[simp] theorem removeBreakpoint_spsrFiq (s : State) (a : Word) : (s.removeBreakpoint a).spsrFiq = s.spsrFiq := rfl
@[simp] theorem removeBreakpoint_spsrIrq (s : State) (a : Word) : (s.removeBreakpoint a).spsrIrq = s.spsrIrq := rfl
@[simp] theorem removeBreakpoint_spsrSvc (s : State) (a : Word) : (s.removeBreakpoint a).spsrSvc = s.spsrSvc := rfl
@[simp] theorem removeBreakpoint_spsrAbt (s : State) (a : Word) : (s.removeBreakpoint a).spsrAbt = s.spsrAbt := rfl
@[simp] theorem removeBreakpoint_spsrUnd (s : State) (a : Word) : (s.removeBreakpoint a).spsrUnd = s.spsrUnd := rfl
@[simp] theorem removeBreakpoint_p1 (s : State) (a : Word) : (s.removeBreakpoint a).p1 = s.p1 := rfl
@[simp] theorem removeBreakpoint_p2 (s : State) (a : Word) : (s.removeBreakpoint a).p2 = s.p2 := rfl
@[simp] theorem removeBreakpoint_p3 (s : State) (a : Word) : (s.removeBreakpoint a).p3 = s.p3 := rfl
@[simp] theorem removeBreakpoint_nextFetchType (s : State) (a : Word) : (s.removeBreakpoint a).nextFetchType = s.nextFetchType := rfl
@[simp] theorem removeBreakpoint_pendingFiq (s : State) (a : Word) : (s.removeBreakpoint a).pendingFiq = s.pendingFiq := rfl
@[simp] theorem removeBreakpoint_pendingIrq (s : State) (a : Word) : (s.removeBreakpoint a).pendingIrq = s.pendingIrq := rfl
@[simp] theorem removeBreakpoint_breakpoints (s : State) (a : Word) : (s.removeBreakpoint a).breakpoints = s.breakpoints.erase a := rfl
@[simp] theorem removeBreakpoint_halted (s : State) (a : Word) : (s.removeBreakpoint a).halted = s.halted := rfl
@[simp] theorem removeBreakpoint_mem (s : State) (a : Word) : (s.removeBreakpoint a).mem = s.mem := rfl
@[simp] theorem removeBreakpoint_port (s : State) (a : Word) : (s.removeBreakpoint a).port = s.port := rfl
@[simp] theorem removeBreakpoint_toggles (s : State) (a : Word) : (s.removeBreakpoint a).toggles = s.toggles := rfl

end Sys2Proof.Machine.State
end

