-- ==== Sys2Proof/Laws/Registers.lean ====
section
/-! SUPPORT. The banked register file: which physical register a name reaches, and reads after writes (10_state.md R28,
R30). -/

namespace Sys2Proof.Machine

/-- R15 is the one register outside the banked file. -/
theorem physReg_eq_none_iff : ∀ (b : Bank) (n : Reg), physReg b n = none ↔ n = 15#4 := by
  intro b n; revert n; cases b <;> decide

@[simp] theorem physReg_r15 (b : Bank) : physReg b 15#4 = none := (physReg_eq_none_iff b _).2 rfl

/-- Inside one bank, different names are different registers. -/
theorem physReg_injective : ∀ (b : Bank) (n m : Reg), physReg b n = physReg b m → n = m := by
  intro b n m; revert n m; cases b <;> decide

theorem physReg_injective_iff {b : Bank} {n m : Reg} : physReg b n = physReg b m ↔ n = m :=
  ⟨physReg_injective b n m, fun h => h ▸ rfl⟩

/-- R0 to R7 are the same registers in every bank. -/
theorem physReg_low : ∀ (b c : Bank) (n : Reg), n < 8#4 → physReg b n = physReg c n := by
  intro b c n; revert n; cases b <;> cases c <;> decide

/-- R13 and R14 of two different banks are different registers. -/
theorem physReg_stack_ne : ∀ (b c : Bank) (n m : Reg), b ≠ c → 13#4 ≤ n → n < 15#4 → physReg b n ≠ physReg c m := by
  intro b c n m; revert n m; cases b <;> cases c <;> decide

namespace State

@[simp] theorem readRegOf_r15 (s : State) (b : Bank) : s.readRegOf b 15#4 = s.r15 := by simp [readRegOf]

@[simp] theorem readReg_r15 (s : State) : s.readReg 15#4 = s.r15 := readRegOf_r15 ..

theorem readRegOf_of_ne {s t : State} {b : Bank} {n : Reg} (hn : n ≠ 15#4) (h : t.regs = s.regs) :
    t.readRegOf b n = s.readRegOf b n := by
  unfold readRegOf
  cases hp : physReg b n with
  | none => exact absurd ((physReg_eq_none_iff ..).1 hp) hn
  | some i => simp [h]

/-- A read of any register but R15 is not affected by a fetch. -/
theorem readReg_fetchOpcode {s : State} {n : Reg} (hn : n ≠ 15#4) : s.fetchOpcode.readReg n = s.readReg n :=
  readRegOf_of_ne hn rfl

theorem readReg_flushPipeline {s : State} {n : Reg} (hn : n ≠ 15#4) : s.flushPipeline.readReg n = s.readReg n :=
  readRegOf_of_ne hn rfl

theorem readReg_jump {s : State} {n : Reg} {x : Word} (hn : n ≠ 15#4) : (s.jump x).readReg n = s.readReg n :=
  readRegOf_of_ne hn rfl

@[simp] theorem readRegOf_writeRegOf_same (s : State) (b : Bank) (n : Reg) (v : Word) :
    (s.writeRegOf b n v).readRegOf b n = v := by
  unfold readRegOf writeRegOf
  cases physReg b n <;> simp

/-- A write reaches one physical register only. -/
theorem readRegOf_writeRegOf_of_ne {s : State} {b c : Bank} {n m : Reg} {v : Word} (h : physReg b n ≠ physReg c m) :
    (s.writeRegOf b n v).readRegOf c m = s.readRegOf c m := by
  unfold readRegOf writeRegOf
  cases hn : physReg b n with
  | none =>
    cases hm : physReg c m with
    | none => exact absurd (hn.trans hm.symm) h
    | some j => simp
  | some i =>
    cases hm : physReg c m with
    | none => simp
    | some j =>
      have hij : i ≠ j := fun e => h (by rw [hn, hm, e])
      simp [Fin.getElem_fin, Fin.val_inj, hij]

@[simp] theorem readReg_writeReg_same (s : State) (n : Reg) (v : Word) : (s.writeReg n v).readReg n = v := by
  simp [readReg, writeReg]

theorem readReg_writeReg_of_ne {s : State} {n m : Reg} {v : Word} (h : n ≠ m) :
    (s.writeReg n v).readReg m = s.readReg m := by
  simp only [readReg, writeReg, writeRegOf_bank]
  exact readRegOf_writeRegOf_of_ne fun e => h (physReg_injective _ _ _ e)

/-- The physical registers a write leaves alone. -/
theorem regs_writeRegOf {s : State} {b : Bank} {n : Reg} {v : Word} {k : Fin 30} (h : physReg b n ≠ some k) :
    (s.writeRegOf b n v).regs[k] = s.regs[k] := by
  unfold writeRegOf
  cases hn : physReg b n with
  | none => rfl
  | some i =>
    have hik : i ≠ k := fun e => h (by rw [hn, e])
    simp [Fin.getElem_fin, Fin.val_inj, hik]

theorem regs_writeReg {s : State} {n : Reg} {v : Word} {k : Fin 30} (h : physReg s.bank n ≠ some k) :
    (s.writeReg n v).regs[k] = s.regs[k] := regs_writeRegOf h

/-- Only a write of R15 changes R15. -/
theorem r15_writeRegOf {s : State} {b : Bank} {n : Reg} {v : Word} (h : n ≠ 15#4) :
    (s.writeRegOf b n v).r15 = s.r15 := by
  unfold writeRegOf
  cases hn : physReg b n with
  | none => exact absurd ((physReg_eq_none_iff ..).1 hn) h
  | some i => rfl

theorem r15_writeReg {s : State} {n : Reg} {v : Word} (h : n ≠ 15#4) : (s.writeReg n v).r15 = s.r15 :=
  r15_writeRegOf h

@[simp] theorem writeReg_r15_r15 (s : State) (v : Word) : (s.writeReg 15#4 v).r15 = v := by
  simp [writeReg, writeRegOf]

@[simp] theorem writeReg_r15_regs (s : State) (v : Word) : (s.writeReg 15#4 v).regs = s.regs := by
  simp [writeReg, writeRegOf]

end State

end Sys2Proof.Machine
end

