-- ==== Sys2Proof/Laws/Status.lean ====
section
/-! SUPPORT. The fields of a status register, each after each update (10_state.md R24, R25). -/

namespace Sys2Proof.Machine

@[simp] theorem Mode.ofBits_bits (m : Mode) : Mode.ofBits m.bits = some m := by cases m <;> rfl

theorem Mode.bits_of_ofBits {b : BitVec 5} {m : Mode} : Mode.ofBits b = some m → m.bits = b := by
  revert b m
  have h : ∀ b : BitVec 5, ∀ m ∈ [Mode.usr, .fiq, .irq, .svc, .abt, .und, .sys],
      Mode.ofBits b = some m → m.bits = b := by decide
  intro b m
  exact h b m (by cases m <;> simp)

namespace Psr

@[simp] theorem flags_withFlags (p : Word) (f : Flags) : flags (withFlags p f) = f := by
  simp only [flags, withFlags, BitVec.getLsbD_append]; simp

@[simp] theorem i_withFlags (p : Word) (f : Flags) : i (withFlags p f) = i p := by
  simp only [i, withFlags, BitVec.getLsbD_append]; simp

@[simp] theorem f_withFlags (p : Word) (x : Flags) : Psr.f (withFlags p x) = Psr.f p := by
  simp only [Psr.f, withFlags, BitVec.getLsbD_append]; simp

@[simp] theorem t_withFlags (p : Word) (f : Flags) : t (withFlags p f) = t p := by
  simp only [t, withFlags, BitVec.getLsbD_append]; simp

@[simp] theorem modeBits_withFlags (p : Word) (f : Flags) : modeBits (withFlags p f) = modeBits p := by
  apply BitVec.eq_of_getLsbD_eq; intro k hk
  simp only [modeBits, withFlags, BitVec.getLsbD_extractLsb', BitVec.getLsbD_append]
  have h : k < 28 := by omega
  simp [hk, h]

/-- Only the four flags change: bits 27 to 0 stay. -/
@[simp] theorem low_withFlags (p : Word) (f : Flags) : (withFlags p f).extractLsb' 0 28 = p.extractLsb' 0 28 := by
  apply BitVec.eq_of_getLsbD_eq; intro k hk
  simp only [withFlags, BitVec.getLsbD_extractLsb', BitVec.getLsbD_append]
  simp [hk]

@[simp] theorem flags_withI (p : Word) (b : Bool) : flags (withI p b) = flags p := by
  simp only [flags, withI, BitVec.getLsbD_append]; simp

@[simp] theorem i_withI (p : Word) (b : Bool) : i (withI p b) = b := by
  simp only [i, withI, BitVec.getLsbD_append]; simp

@[simp] theorem f_withI (p : Word) (b : Bool) : f (withI p b) = f p := by
  simp only [f, withI, BitVec.getLsbD_append]; simp

@[simp] theorem t_withI (p : Word) (b : Bool) : t (withI p b) = t p := by
  simp only [t, withI, BitVec.getLsbD_append]; simp

@[simp] theorem modeBits_withI (p : Word) (b : Bool) : modeBits (withI p b) = modeBits p := by
  apply BitVec.eq_of_getLsbD_eq; intro k hk
  simp only [modeBits, withI, BitVec.getLsbD_extractLsb', BitVec.getLsbD_append]
  have h : k < 7 := by omega
  simp [hk, h]

@[simp] theorem flags_withF (p : Word) (b : Bool) : flags (withF p b) = flags p := by
  simp only [flags, withF, BitVec.getLsbD_append]; simp

@[simp] theorem i_withF (p : Word) (b : Bool) : i (withF p b) = i p := by
  simp only [i, withF, BitVec.getLsbD_append]; simp

@[simp] theorem f_withF (p : Word) (b : Bool) : f (withF p b) = b := by
  simp only [f, withF, BitVec.getLsbD_append]; simp

@[simp] theorem t_withF (p : Word) (b : Bool) : t (withF p b) = t p := by
  simp only [t, withF, BitVec.getLsbD_append]; simp

@[simp] theorem modeBits_withF (p : Word) (b : Bool) : modeBits (withF p b) = modeBits p := by
  apply BitVec.eq_of_getLsbD_eq; intro k hk
  simp only [modeBits, withF, BitVec.getLsbD_extractLsb', BitVec.getLsbD_append]
  have h : k < 6 := by omega
  simp [hk, h]

@[simp] theorem flags_withT (p : Word) (b : Bool) : flags (withT p b) = flags p := by
  simp only [flags, withT, BitVec.getLsbD_append]; simp

@[simp] theorem i_withT (p : Word) (b : Bool) : i (withT p b) = i p := by
  simp only [i, withT, BitVec.getLsbD_append]; simp

@[simp] theorem f_withT (p : Word) (b : Bool) : f (withT p b) = f p := by
  simp only [f, withT, BitVec.getLsbD_append]; simp

@[simp] theorem t_withT (p : Word) (b : Bool) : t (withT p b) = b := by
  simp only [t, withT, BitVec.getLsbD_append]; simp

@[simp] theorem modeBits_withT (p : Word) (b : Bool) : modeBits (withT p b) = modeBits p := by
  apply BitVec.eq_of_getLsbD_eq; intro k hk
  simp only [modeBits, withT, BitVec.getLsbD_extractLsb', BitVec.getLsbD_append]
  simp [hk]

@[simp] theorem flags_withMode (p : Word) (m : Mode) : flags (withMode p m) = flags p := by
  simp only [flags, withMode, BitVec.getLsbD_append]; simp

@[simp] theorem i_withMode (p : Word) (m : Mode) : i (withMode p m) = i p := by
  simp only [i, withMode, BitVec.getLsbD_append]; simp

@[simp] theorem f_withMode (p : Word) (m : Mode) : f (withMode p m) = f p := by
  simp only [f, withMode, BitVec.getLsbD_append]; simp

@[simp] theorem t_withMode (p : Word) (m : Mode) : t (withMode p m) = t p := by
  simp only [t, withMode, BitVec.getLsbD_append]; simp

@[simp] theorem modeBits_withMode (p : Word) (m : Mode) : modeBits (withMode p m) = m.bits := by
  apply BitVec.eq_of_getLsbD_eq; intro k hk
  simp only [modeBits, withMode, BitVec.getLsbD_extractLsb', BitVec.getLsbD_append]
  simp [hk]

@[simp] theorem reserved_withFlags (p : Word) (x : Flags) : reserved (withFlags p x) = reserved p := by
  apply BitVec.eq_of_getLsbD_eq; intro k hk
  simp only [reserved, withFlags, BitVec.getLsbD_extractLsb', BitVec.getLsbD_append]
  interval_cases k <;> simp

@[simp] theorem reserved_withI (p : Word) (x : Bool) : reserved (withI p x) = reserved p := by
  apply BitVec.eq_of_getLsbD_eq; intro k hk
  simp only [reserved, withI, BitVec.getLsbD_extractLsb', BitVec.getLsbD_append]
  interval_cases k <;> simp

@[simp] theorem reserved_withF (p : Word) (x : Bool) : reserved (withF p x) = reserved p := by
  apply BitVec.eq_of_getLsbD_eq; intro k hk
  simp only [reserved, withF, BitVec.getLsbD_extractLsb', BitVec.getLsbD_append]
  interval_cases k <;> simp

@[simp] theorem reserved_withT (p : Word) (x : Bool) : reserved (withT p x) = reserved p := by
  apply BitVec.eq_of_getLsbD_eq; intro k hk
  simp only [reserved, withT, BitVec.getLsbD_extractLsb', BitVec.getLsbD_append]
  interval_cases k <;> simp

@[simp] theorem reserved_withMode (p : Word) (x : Mode) : reserved (withMode p x) = reserved p := by
  apply BitVec.eq_of_getLsbD_eq; intro k hk
  simp only [reserved, withMode, BitVec.getLsbD_extractLsb', BitVec.getLsbD_append]
  interval_cases k <;> simp

end Psr

namespace State

@[simp] theorem setFlags_flags (s : State) (f : Flags) : (s.setFlags f).flags = f := Psr.flags_withFlags ..

@[simp] theorem setFlags_bank (s : State) (f : Flags) : (s.setFlags f).bank = s.bank := by simp [bank]

@[simp] theorem setFlags_width (s : State) (f : Flags) : (s.setFlags f).width = s.width := by simp [width]

@[simp] theorem setFlags_widthBytes (s : State) (f : Flags) : (s.setFlags f).widthBytes = s.widthBytes := by
  simp [widthBytes]

@[simp] theorem setFlags_readReg (s : State) (f : Flags) (n : Reg) : (s.setFlags f).readReg n = s.readReg n := by
  simp [readReg]

/-- The bank after entering a mode. -/
@[simp] theorem enterMode_bank (s : State) (m : Mode) : (s.enterMode m).bank = m.bank := by simp [bank]

@[simp] theorem enterMode_width (s : State) (m : Mode) : (s.enterMode m).width = s.width := by simp [width]

@[simp] theorem enterMode_widthBytes (s : State) (m : Mode) : (s.enterMode m).widthBytes = s.widthBytes := by
  simp [widthBytes]

@[simp] theorem enterMode_reply (s : State) (m : Mode) (w : Width) (a : Word) :
    (s.enterMode m).reply w a = s.reply w a := by simp [reply]

/-- Entering an exception mode saves CPSR in its SPSR (R31). -/
theorem enterMode_spsrOf_same {s : State} {m : Mode} (h : m.bank ≠ .usr) :
    (s.enterMode m).spsrOf m.bank = some s.cpsr := by
  cases m <;> first | rfl | exact absurd rfl h

/-- The other SPSRs are left alone. -/
theorem enterMode_spsrOf_of_ne {s : State} {m : Mode} {b : Bank} (h : m.bank ≠ b) :
    (s.enterMode m).spsrOf b = s.spsrOf b := by
  cases m <;> cases b <;> first | rfl | exact absurd rfl h

@[simp] theorem enterMode_readRegOf (s : State) (m : Mode) (b : Bank) (n : Reg) :
    (s.enterMode m).readRegOf b n = s.readRegOf b n := by simp [readRegOf]

/-- The bank in a mode. -/
theorem bank_of_mode {s : State} {m : Mode} (h : Psr.modeBits s.cpsr = m.bits) : s.bank = m.bank := by simp [bank, h]

/-- The return from a mode whose SPSR holds a status with a valid mode: CPSR only (R33). -/
theorem leaveMode_of_spsr {s : State} {p : Word} (h : s.spsrOf s.bank = some p)
    (hp : (Mode.ofBits (Psr.modeBits p)).isSome = true) : s.leaveMode = some { s with cpsr := p } := by
  obtain ⟨m, hm⟩ := Option.isSome_iff_exists.1 hp
  simp [leaveMode, currentSpsr, h, hm]

/-- All that `leaveMode()` can do. -/
theorem leaveMode_cases (s : State) :
    (∃ m, Mode.ofBits (Psr.modeBits s.currentSpsr) = some m ∧ s.leaveMode = some { s with cpsr := s.currentSpsr }) ∨
      (Mode.ofBits (Psr.modeBits s.currentSpsr) = none ∧ s.leaveMode = none) := by
  unfold leaveMode
  cases h : Mode.ofBits (Psr.modeBits s.currentSpsr) with
  | none => exact .inr ⟨rfl, rfl⟩
  | some m => exact .inl ⟨m, rfl, rfl⟩

end State

end Sys2Proof.Machine
end

