-- ==== Sys2Proof/Laws/Shapes.lean ====
section
/-! SUPPORT. One lemma per shared shape of instruction: what a fetch, a jump, a register result and a test leave, so that a
proof about an instruction cites the shape and does not unfold the pipeline. -/

namespace Sys2Proof.Machine

theorem Completes.of {i : Instr} {s t : State} {post : State → Prop} (h : exec i s = .next t) (hp : post t) :
    Completes i s post := ⟨t, h, hp⟩

@[simp] theorem SameSpecial.refl (s : State) : SameSpecial s s := ⟨fun _ => rfl, rfl, rfl, rfl, rfl, rfl⟩

theorem SameSpecial.trans {s t u : State} (h : SameSpecial s t) (k : SameSpecial t u) : SameSpecial s u :=
  ⟨fun b => (k.spsrs b).trans (h.spsrs b), k.pendingFiq.trans h.pendingFiq, k.pendingIrq.trans h.pendingIrq,
    k.halted.trans h.halted, k.breakpoints.trans h.breakpoints, k.toggles.trans h.toggles⟩

@[simp] theorem SameMemory.refl (s : State) : SameMemory s s := fun _ => rfl

theorem SameMemory.of_eq {s t : State} (h : t.mem = s.mem) : SameMemory s t := fun a => by rw [h]

theorem SameRegistersBut.of_eq {s t : State} {l : List (Option (Fin 30))} (h : t.regs = s.regs) :
    SameRegistersBut s t l := fun k _ => by rw [h]

namespace State

theorem conditional_pass {s : State} {c : Cond} {f : State → State} (h : conditionPassed c s.flags = true) :
    s.conditional c f = f s := if_pos h

theorem conditional_fail {s : State} {c : Cond} {f : State → State} (h : conditionPassed c s.flags = false) :
    s.conditional c f = s.fetchOpcode := if_neg (by simp [h])

end State

/-- An ARM instruction whose condition passes completes as its body does. -/
theorem Completes.pass {i : Instr} {c : Cond} {s : State} {f : State → State} {post : State → Prop}
    (hi : exec i s = .next (s.conditional c f)) (hc : conditionPassed c s.flags = true) (hp : post (f s)) :
    Completes i s post := ⟨f s, by rw [hi, State.conditional_pass hc], hp⟩

namespace State

/-! ### The order of independent updates -/

theorem writeReg_emit (s : State) (e : PortEvent) (n : Reg) (v : Word) :
    (s.emit e).writeReg n v = (s.writeReg n v).emit e := by
  simp only [writeReg, writeRegOf, emit_bank]
  split <;> rfl

theorem writeReg_internalCycle (s : State) (k : Nat) (n : Reg) (v : Word) :
    (s.internalCycle k).writeReg n v = (s.writeReg n v).internalCycle k := writeReg_emit ..

theorem setFlags_emit (s : State) (e : PortEvent) (f : Flags) : (s.emit e).setFlags f = (s.setFlags f).emit e := rfl

theorem setFlags_internalCycle (s : State) (k : Nat) (f : Flags) :
    (s.internalCycle k).setFlags f = (s.setFlags f).internalCycle k := rfl

/-- A write of a register other than R15 and a fetch do not interfere. -/
theorem fetchOpcode_writeReg {s : State} {n : Reg} (h : n ≠ 15#4) (v : Word) :
    (s.writeReg n v).fetchOpcode = s.fetchOpcode.writeReg n v := by
  simp only [writeReg, writeRegOf, fetchOpcode_bank]
  cases hn : physReg s.bank n with
  | none => exact absurd ((physReg_eq_none_iff ..).1 hn) h
  | some i => rfl

theorem fetchOpcode_setFlags (s : State) (f : Flags) : (s.setFlags f).fetchOpcode = s.fetchOpcode.setFlags f := by
  simp only [fetchOpcode, setFlags_width, setFlags_widthBytes, setFlags_reply, setFlags_r15, setFlags_p2]
  rfl

theorem setFlags_writeReg (s : State) (n : Reg) (v : Word) (f : Flags) :
    (s.writeReg n v).setFlags f = (s.setFlags f).writeReg n v := by
  simp only [writeReg, writeRegOf, setFlags_bank]
  split <;> rfl

/-- Writing back the flags a state has changes nothing. -/
@[simp] theorem setFlags_self (s : State) : s.setFlags s.flags = s := by
  have h : Psr.withFlags s.cpsr s.flags = s.cpsr := by
    apply BitVec.eq_of_getLsbD_eq
    intro k hk
    simp only [Psr.withFlags, flags, Psr.flags, BitVec.getLsbD_append, BitVec.getLsbD_extractLsb']
    interval_cases k <;> simp
  simp only [setFlags, h]

end State

/-! ### What a fetch leaves -/

theorem advances_fetchOpcode (s : State) : Advances s s.fetchOpcode := ⟨rfl, rfl, rfl, rfl⟩

theorem sameSpecial_fetchOpcode (s : State) : SameSpecial s s.fetchOpcode := ⟨fun _ => rfl, rfl, rfl, rfl, rfl, rfl⟩

theorem sameSpecial_emit (s : State) (e : PortEvent) : SameSpecial s (s.emit e) := ⟨fun _ => rfl, rfl, rfl, rfl, rfl, rfl⟩

theorem sameSpecial_setFlags (s : State) (f : Flags) : SameSpecial s (s.setFlags f) :=
  ⟨fun _ => rfl, rfl, rfl, rfl, rfl, rfl⟩

theorem sameSpecial_writeReg (s : State) (n : Reg) (v : Word) : SameSpecial s (s.writeReg n v) :=
  ⟨fun b => by simp, by simp, by simp, by simp, by simp, by simp⟩

theorem sameSpecial_jump (s : State) (x : Word) : SameSpecial s (s.jump x) := ⟨fun _ => rfl, rfl, rfl, rfl, rfl, rfl⟩

/-- A register result: fetch, one register, the flags; the port may record more. -/
theorem registerResult_fetch (s : State) (rd : Reg) (v : Word) (f : Flags) :
    RegisterResult s ((s.fetchOpcode.writeReg rd v).setFlags f) rd v f where
  value := by simp
  registers := fun k hk => by
    simp only [List.mem_singleton] at hk
    simpa using State.regs_writeReg (s := s.fetchOpcode) (v := v) (fun e => hk e.symm)
  flags := by simp
  status := by simp [SameStatusButFlags]
  pc := fun h => by simp [State.r15_writeReg h]
  current := by simp
  next := by simp
  fetchType := by simp
  special := (sameSpecial_fetchOpcode s).trans ((sameSpecial_writeReg ..).trans (sameSpecial_setFlags ..))
  memory := SameMemory.of_eq (by simp)

theorem registerResult_fetch' (s : State) (rd : Reg) (v : Word) :
    RegisterResult s (s.fetchOpcode.writeReg rd v) rd v s.flags := by
  have h := registerResult_fetch s rd v s.flags
  have e : s.flags = (s.fetchOpcode.writeReg rd v).flags := by simp
  rwa [e, State.setFlags_self, ← e] at h

theorem RegisterResult.emit {s t : State} {rd : Reg} {v : Word} {f : Flags} (h : RegisterResult s t rd v f)
    (e : PortEvent) : RegisterResult s (t.emit e) rd v f :=
  ⟨h.value, h.registers, h.flags, h.status, h.pc, h.current, h.next, h.fetchType, h.special.trans (sameSpecial_emit ..),
    h.memory⟩

/-- A result that is the flags only. -/
theorem flagResult_fetch (s : State) (f : Flags) : FlagResult s (s.fetchOpcode.setFlags f) f where
  registers := SameRegistersBut.of_eq rfl
  flags := by simp
  status := by simp [SameStatusButFlags]
  advances := ⟨by simp, by simp, by simp, by simp⟩
  special := (sameSpecial_fetchOpcode s).trans (sameSpecial_setFlags ..)
  memory := SameMemory.of_eq (by simp)

theorem flagResult_fetch' (s : State) : FlagResult s s.fetchOpcode s.flags := by
  have h := flagResult_fetch s s.flags
  have e : s.flags = s.fetchOpcode.flags := by simp
  rwa [e, State.setFlags_self, ← e] at h

theorem FlagResult.emit {s t : State} {f : Flags} (h : FlagResult s t f) (e : PortEvent) : FlagResult s (t.emit e) f :=
  ⟨h.registers, h.flags, h.status, ⟨h.advances.pc, h.advances.current, h.advances.next, h.advances.fetchType⟩,
    h.special.trans (sameSpecial_emit ..), h.memory⟩

/-! ### Where a jump goes -/

/-- A jump refills the pipeline at the aligned target. -/
theorem continuesAt_jump (s : State) (x : Word) : ContinuesAt (s.jump x) x :=
  ⟨by simp, by simp, by simp, by simp⟩

theorem continuesAt_flushPipeline (s : State) : ContinuesAt s.flushPipeline s.r15 :=
  ⟨by simp, by simp, by simp, by simp⟩

theorem continuesAt_flushPipeline_of {s : State} {x : Word} (h : s.r15 = x) : ContinuesAt s.flushPipeline x := by
  subst h; exact continuesAt_flushPipeline s

/-- Aligning twice is aligning once. -/
@[simp] theorem Width.align_align (w : Width) (a : Word) : w.align (w.align a) = w.align a := by
  cases w with
  | byte => rfl
  | half =>
    simp only [Width.align]
    apply BitVec.eq_of_getLsbD_eq; intro k hk
    simp only [BitVec.getLsbD_append, BitVec.getLsbD_extractLsb']
    rcases k with _ | k <;> simp
  | word =>
    simp only [Width.align]
    apply BitVec.eq_of_getLsbD_eq; intro k hk
    simp only [BitVec.getLsbD_append, BitVec.getLsbD_extractLsb']
    have h (j : Nat) : ¬ 2 + j ≤ 1 := by omega
    rcases k with _ | _ | k <;> simp [h]

/-- A jump after a fetch: no register, no status bit. -/
theorem jumpResult_fetch (s : State) (x : Word) : JumpResult s (s.fetchOpcode.jump x) x [] where
  registers := SameRegistersBut.of_eq rfl
  status := by simp
  target := continuesAt_jump ..
  special := (sameSpecial_fetchOpcode s).trans (sameSpecial_jump ..)
  memory := SameMemory.of_eq (by simp)

end Sys2Proof.Machine
end

