-- ==== Sys2Proof/Laws/Transfers.lean ====
section
/-! SUPPORT. What single transfers and swaps leave (44_arm_load_store.md R260 to R264, R290): registers, memory and the port. -/

namespace Sys2Proof.Machine

/-! ### Reading back what was written -/

/-- A read of the width just written, inside the same aligned unit, gives the low bits of the value (R74, R75). -/
theorem Memory.readWidth_writeWidth {m : Memory} (h : Memory.wf m) (w : Width) {a b : Word} (v : Word)
    (hab : w.align b = w.align a) : (m.writeWidth w a v).readWidth w b = w.truncate v := by
  cases w with
  | byte =>
    simp only [Memory.readWidth, hab, Memory.writeWidth, Memory.read_write h, if_true, Width.truncate]
  | half =>
    obtain ⟨h0, h1⟩ := Memory.read_writeWidth_half h a v
    simp only [Memory.readWidth, hab, h0, h1, Width.truncate]
    congr 1
    apply BitVec.eq_of_getLsbD_eq; intro k hk
    simp only [BitVec.getLsbD_append, BitVec.getLsbD_extractLsb']
    have h16 : k < 16 := hk
    by_cases h8 : k < 8
    · simp [h8, h16]
    · simp [h8, h16, show 8 + (k - 8) = k by omega, show k - 8 < 8 by omega]
  | word =>
    obtain ⟨h0, h1, h2, h3⟩ := Memory.read_writeWidth_word h a v
    simp only [Memory.readWidth, hab, h0, h1, h2, h3, Width.truncate]
    apply BitVec.eq_of_getLsbD_eq; intro k hk
    simp only [BitVec.getLsbD_append, BitVec.getLsbD_extractLsb']
    interval_cases k <;> simp

/-- A byte of memory inside a read. -/
theorem State.reply_of_same_bytes {s t : State} {w : Width} {a : Word}
    (h : ∀ k < w.bytes, Memory.read t.mem ((w.align a).toNat + k) = Memory.read s.mem ((w.align a).toNat + k)) :
    t.reply w a = s.reply w a := by
  unfold State.reply
  cases w <;> simp only [Width.bytes] at h <;> have h0 := h 0 (by omega) <;> rw [Nat.add_zero] at h0
  · simp only [Memory.readWidth, h0]
  · simp only [Memory.readWidth, h0, h 1 (by omega)]
  · simp only [Memory.readWidth, h0, h 1 (by omega), h 2 (by omega), h 3 (by omega)]

/-! ### Addresses and write-back -/

/-- The address of R261, spelled out. -/
theorem transferAddress_eq (ix : Indexing) (base o : Word) :
    transferAddress ix base o = if ix.p then (if ix.u then base + o else base - o) else base := rfl

/-- The write-back of R261, spelled out. -/
theorem writeBackValue_eq (ix : Indexing) (base o : Word) :
    writeBackValue ix base o = if ix.p = false ∨ ix.w = true then some (if ix.u then base + o else base - o) else none := by
  cases h : ix.p <;> cases h' : ix.w <;> simp [writeBackValue, indexed, h, h']

/-- A written-back base holds the index. -/
theorem State.readReg_writeBack {s : State} {rn : Reg} {wb : Option Word} {v : Word} (h : wb = some v) :
    (s.writeBack rn wb).readReg rn = v := by subst h; simp

theorem State.regs_writeBack {s : State} {rn : Reg} {wb : Option Word} {k : Fin 30}
    (h : some k ∉ (wb.map fun _ => physReg s.bank rn).toList) : (s.writeBack rn wb).regs[k] = s.regs[k] := by
  cases wb with
  | none => rfl
  | some v =>
    simp only [Option.map_some, Option.toList_some, List.mem_singleton] at h
    exact State.regs_writeReg fun e => h e.symm

theorem State.r15_writeBack {s : State} {rn : Reg} {wb : Option Word} (h : wb.isSome = true → rn ≠ 15#4) :
    (s.writeBack rn wb).r15 = s.r15 := by
  cases wb with
  | none => rfl
  | some v => exact State.r15_writeReg (h rfl)

theorem State.readReg_writeBack_of_ne {s : State} {rn m : Reg} {wb : Option Word} (h : rn ≠ m) :
    (s.writeBack rn wb).readReg m = s.readReg m := by
  cases wb with
  | none => rfl
  | some v => exact State.readReg_writeReg_of_ne h

theorem sameSpecial_writeBack (s : State) (rn : Reg) (wb : Option Word) : SameSpecial s (s.writeBack rn wb) := by
  cases wb
  · exact SameSpecial.refl s
  · exact sameSpecial_writeReg ..

theorem sameSpecial_dataWrite (s : State) (w : Width) (a v : Word) (q : Bool) : SameSpecial s (s.dataWrite w a v q) :=
  ⟨fun _ => rfl, rfl, rfl, rfl, rfl, rfl⟩

theorem sameSpecial_flushPipeline (s : State) : SameSpecial s s.flushPipeline := ⟨fun _ => rfl, rfl, rfl, rfl, rfl, rfl⟩

/-! ### Loads -/

/-- The load sequence (R263, R264), in every indexing form and for every destination. -/
theorem loadTransfer_result (s : State) (k : LoadKind) (ix : Indexing) (rn rd : Reg) (o : Word) :
    LoadResult s (s.loadTransfer k ix rn rd o) rd rn (s.loadValue k (transferAddress ix (s.readReg rn) o))
      (writeBackValue ix (s.readReg rn) o) := by
  generalize ha : transferAddress ix (s.readReg rn) o = addr
  generalize hb : writeBackValue ix (s.readReg rn) o = wb
  have he : s.loadTransfer k ix rn rd o =
      if rd = 15#4 then ((((s.fetchOpcode.dataRead k.width addr false).writeBack rn wb).writeReg rd
        (s.loadValue k addr)).internalCycle 1).flushPipeline
      else (((s.fetchOpcode.dataRead k.width addr false).writeBack rn wb).writeReg rd
        (s.loadValue k addr)).internalCycle 1 := by subst ha hb; rfl
  rw [he]
  generalize s.loadValue k addr = v
  generalize hu : s.fetchOpcode.dataRead k.width addr false = u
  have hur : u.regs = s.regs := by subst hu; rfl
  have hub : u.bank = s.bank := by subst hu; rfl
  have hsp : SameSpecial s u := by subst hu; exact (sameSpecial_fetchOpcode s).trans (sameSpecial_emit ..)
  have hregs : SameRegistersBut s ((u.writeBack rn wb).writeReg rd v)
      (physReg s.bank rd :: (wb.map fun _ => physReg s.bank rn).toList) := by
    intro j hj
    simp only [List.mem_cons, not_or] at hj
    rw [State.regs_writeReg (by rw [State.writeBack_bank, hub]; exact fun e => hj.1 e.symm),
      State.regs_writeBack (by rw [hub]; exact hj.2), hur]
  have hsp' : SameSpecial s ((u.writeBack rn wb).writeReg rd v) :=
    hsp.trans ((sameSpecial_writeBack ..).trans (sameSpecial_writeReg ..))
  have hbase : ∀ x, wb = some x → rn ≠ rd → ((u.writeBack rn wb).writeReg rd v).readReg rn = x := fun x hx hne => by
    rw [State.readReg_writeReg_of_ne hne.symm, State.readReg_writeBack hx]
  have hmem : u.mem = s.mem := by subst hu; rfl
  have hcpsr : u.cpsr = s.cpsr := by subst hu; rfl
  by_cases h15 : rd = 15#4
  · subst h15
    rw [if_pos rfl]
    refine ⟨fun h => absurd rfl h, fun _ => ?_, fun x hx hne => ?_, hregs, fun h => absurd rfl h, fun h => absurd rfl h,
      by simp [hcpsr], hsp'.trans ((sameSpecial_emit ..).trans (sameSpecial_flushPipeline _)), SameMemory.of_eq (by simp [hmem])⟩
    · have h := continuesAt_flushPipeline (((u.writeBack rn wb).writeReg 15#4 v).internalCycle 1)
      simpa using h
    · rw [State.readReg_flushPipeline hne]; exact hbase x hx hne
  · rw [if_neg h15]
    refine ⟨fun _ => by simp, fun h => absurd h h15, hbase, hregs, fun _ h => ?_, fun _ => ?_, by simp [hcpsr],
      hsp'.trans (sameSpecial_emit ..), SameMemory.of_eq (by simp [hmem])⟩
    · rw [State.internalCycle_r15, State.r15_writeReg h15, State.r15_writeBack h, ← hu]; simp
    · rw [← hu]; exact ⟨by simp, by simp, by simp⟩

/-! ### Stores -/

/-- The value a store reads after the fetch: R15 is one width further (R79). -/
theorem State.readReg_fetchOpcode_any (s : State) (rd : Reg) :
    s.fetchOpcode.readReg rd = if rd = 15#4 then s.r15 + s.widthBytes else s.readReg rd := by
  split
  · rename_i h; subst h; simp
  · rename_i h; exact State.readReg_fetchOpcode h

/-- The store sequence (R262, R263), in every indexing form and for every source. -/
theorem storeTransfer_result (s : State) (hwf : Memory.wf s.mem) (w : Width) (ix : Indexing) (rn rd : Reg) (o : Word) :
    StoreResult s (s.storeTransfer w ix rn rd o) w (transferAddress ix (s.readReg rn) o)
      (if rd = 15#4 then s.r15 + s.widthBytes else s.readReg rd) rn (writeBackValue ix (s.readReg rn) o) := by
  generalize ha : transferAddress ix (s.readReg rn) o = addr
  generalize hb : writeBackValue ix (s.readReg rn) o = wb
  rw [← State.readReg_fetchOpcode_any]
  have he : s.storeTransfer w ix rn rd o =
      { (s.fetchOpcode.dataWrite w addr (s.fetchOpcode.readReg rd) false).writeBack rn wb with nextFetchType := false } := by
    subst ha hb; rfl
  rw [he]
  generalize s.fetchOpcode.readReg rd = v
  generalize hu : s.fetchOpcode.dataWrite w addr v false = u
  have hmem : u.mem = Memory.writeWidth s.mem w addr v := by subst hu; rfl
  have hub : u.bank = s.bank := by subst hu; rfl
  have hur : u.regs = s.regs := by subst hu; rfl
  refine ⟨?_, fun x hx => ?_, fun x hx => State.readReg_writeBack hx, fun j hj => ?_, fun h => ?_, ?_, ?_, rfl, ?_, ?_⟩
  · show Memory.readWidth (u.writeBack rn wb).mem w addr = _
    rw [State.writeBack_mem, hmem]
    exact Memory.readWidth_writeWidth hwf w v rfl
  · show Memory.read (u.writeBack rn wb).mem x = _
    rw [State.writeBack_mem, hmem]
    exact Memory.read_writeWidth_of_outside hwf hx
  · show (u.writeBack rn wb).regs[j] = _
    rw [State.regs_writeBack (by rw [hub]; exact hj), hur]
  · show (u.writeBack rn wb).r15 = _
    rw [State.r15_writeBack h, ← hu]; simp
  · show (u.writeBack rn wb).p3 = _
    rw [← hu]; simp
  · show (u.writeBack rn wb).p2 = _
    rw [← hu]; simp
  · show (u.writeBack rn wb).cpsr = _
    rw [← hu]; simp
  · have h : SameSpecial s u := by subst hu; exact (sameSpecial_fetchOpcode s).trans (sameSpecial_dataWrite ..)
    have h' := h.trans (sameSpecial_writeBack u rn wb)
    exact ⟨h'.spsrs, h'.pendingFiq, h'.pendingIrq, h'.halted, h'.breakpoints, h'.toggles⟩

/-! ### Swaps -/

/-- The swap sequence (R290, R291): the old memory value to Rd, Rm to memory. -/
theorem swapTransfer_result (s : State) (hwf : Memory.wf s.mem) (k : LoadKind) (rn rd rm : Reg) :
    let a := s.readReg rn
    let w := k.width
    let t := s.swapTransfer k rn rd rm
    (rd ≠ 15#4 → t.readReg rd = s.loadValue k a ∧ t.r15 = s.r15 + s.widthBytes ∧ FetchedOnce s t) ∧
    (rd = 15#4 → ContinuesAt t (s.loadValue k a)) ∧
    t.reply w a = w.truncate (s.readReg rm) ∧ SameMemoryOutside s t (w.align a).toNat w.bytes ∧
    SameRegistersBut s t [physReg s.bank rd] ∧ t.cpsr = s.cpsr ∧ SameSpecial s t ∧ t.nextFetchType = true := by
  intro a w t
  have he : t =
      if rd = 15#4 then ((((s.fetchOpcode.dataRead w a false).dataWrite w a (s.readReg rm) false).internalCycle 1).writeReg
        rd (s.loadValue k a)).flushPipeline
      else (((s.fetchOpcode.dataRead w a false).dataWrite w a (s.readReg rm) false).internalCycle 1).writeReg rd
        (s.loadValue k a) := rfl
  generalize s.loadValue k a = v at *
  generalize s.readReg rm = x at *
  generalize hu : ((s.fetchOpcode.dataRead w a false).dataWrite w a x false).internalCycle 1 = u at he
  have hmem : u.mem = Memory.writeWidth s.mem w a x := by subst hu; rfl
  have hub : u.bank = s.bank := by subst hu; rfl
  have hur : u.regs = s.regs := by subst hu; rfl
  have hsp : SameSpecial s (u.writeReg rd v) := by
    subst hu
    exact (sameSpecial_fetchOpcode s).trans ((sameSpecial_emit ..).trans ((sameSpecial_dataWrite ..).trans
      ((sameSpecial_emit ..).trans (sameSpecial_writeReg ..))))
  have hreg : SameRegistersBut s (u.writeReg rd v) [physReg s.bank rd] := by
    intro j hj
    simp only [List.mem_singleton] at hj
    rw [State.regs_writeReg (by rw [hub]; exact fun e => hj e.symm), hur]
  have hrd : Memory.readWidth (Memory.writeWidth s.mem w a x) w a = w.truncate x :=
    Memory.readWidth_writeWidth hwf w x rfl
  have hout : ∀ y, y < (w.align a).toNat ∨ (w.align a).toNat + w.bytes ≤ y →
      Memory.read (Memory.writeWidth s.mem w a x) y = Memory.read s.mem y := fun y hy =>
    Memory.read_writeWidth_of_outside hwf hy
  by_cases h : rd = 15#4
  · subst h
    rw [if_pos rfl] at he
    rw [he]
    refine ⟨fun h => absurd rfl h, fun _ => ?_, ?_, ?_, hreg, by simp [← hu], hsp.trans (sameSpecial_flushPipeline _),
      by simp⟩
    · simpa using continuesAt_flushPipeline (u.writeReg 15#4 v)
    · unfold State.reply; simp [hmem, hrd]
    · intro y hy; simpa [hmem] using hout y hy
  · rw [if_neg h] at he
    rw [he]
    refine ⟨fun _ => ⟨by simp, ?_, by simp [← hu], by simp [← hu], by simp [← hu]⟩, fun h' => absurd h' h, ?_, ?_, hreg, by simp [← hu], hsp,
      by simp [← hu]⟩
    · rw [State.r15_writeReg h, ← hu]; simp
    · unfold State.reply; simp [hmem, hrd]
    · intro y hy; simpa [hmem] using hout y hy

end Sys2Proof.Machine
end

