-- ==== Sys2Proof/Laws/BlockTransfer.lean ====
section
/-! SUPPORT. Register lists and what the loads and stores of a block transfer leave (45_arm_block_transfer.md R301 to R306). -/

namespace Sys2Proof.Machine

/-! ### Register lists -/

theorem registerList_empty : registerList 0#16 = [15#4] := by decide

theorem registerList_of_ne {list : BitVec 16} (h : list ≠ 0#16) :
    registerList list = ((List.range 16).filter fun r => list.getLsbD r).map (BitVec.ofNat 4) := if_neg h

/-- Registers are transferred in strictly ascending order (R302). -/
theorem registerList_pairwise (list : BitVec 16) : (registerList list).Pairwise (· < ·) := by
  by_cases h : list = 0#16
  · subst h; rw [registerList_empty]; simp
  · rw [registerList_of_ne h, List.pairwise_map]
    have hr : (List.range 16).Pairwise (· < ·) := List.pairwise_lt_range
    refine (List.Pairwise.filter _ (List.Pairwise.and_mem.1 hr)).imp ?_
    rintro a b ⟨ha, hb, hab⟩
    simp only [List.mem_range] at ha hb
    rw [BitVec.lt_def, BitVec.toNat_ofNat, BitVec.toNat_ofNat, Nat.mod_eq_of_lt (by omega), Nat.mod_eq_of_lt (by omega)]
    exact hab

theorem mem_registerList {list : BitVec 16} (h : list ≠ 0#16) (r : Reg) :
    r ∈ registerList list ↔ list.getLsbD r.toNat = true := by
  rw [registerList_of_ne h]
  simp only [List.mem_map, List.mem_filter, List.mem_range]
  constructor
  · rintro ⟨n, ⟨hn, hl⟩, rfl⟩
    rwa [BitVec.toNat_ofNat, Nat.mod_eq_of_lt (by omega)]
  · intro hl
    exact ⟨r.toNat, ⟨r.isLt, hl⟩, by simp⟩

theorem registerList_ne_nil (list : BitVec 16) : registerList list ≠ [] := by
  by_cases h : list = 0#16
  · subst h; rw [registerList_empty]; simp
  · intro hnil
    apply h
    apply BitVec.eq_of_getLsbD_eq
    intro k hk
    have := (mem_registerList h (BitVec.ofNat 4 k)).not.1 (by rw [hnil]; simp)
    rw [BitVec.toNat_ofNat, Nat.mod_eq_of_lt (by omega)] at this
    simpa using this

theorem registerList_length_le (list : BitVec 16) : (registerList list).length ≤ 16 := by
  by_cases h : list = 0#16
  · subst h; rw [registerList_empty]; simp
  · rw [registerList_of_ne h, List.length_map]
    exact (List.length_filter_le ..).trans (by simp)

theorem registerList_nodup (list : BitVec 16) : (registerList list).Nodup :=
  (registerList_pairwise list).imp fun h e => by subst e; exact absurd h (by simp)

/-- R15, when transferred, is the last (R302). -/
theorem registerList_last {list : BitVec 16} (h : 15#4 ∈ registerList list) :
    (registerList list)[(registerList list).length - 1]'(by
      have := List.length_pos_of_mem h; omega) = 15#4 := by
  obtain ⟨k, hk, e⟩ := List.getElem_of_mem h
  by_cases hlast : k = (registerList list).length - 1
  · subst hlast; exact e
  · have hlt : k < (registerList list).length - 1 := by omega
    have hp := List.pairwise_iff_getElem.1 (registerList_pairwise list) k _ hk (by omega) hlt
    rw [e] at hp
    exfalso
    generalize (registerList list)[(registerList list).length - 1]'(by omega) = r at hp
    revert r; decide

/-! ### Word addresses -/

theorem Width.align_word_toNat (a : Word) : (Width.word.align a).toNat = a.toNat / 4 * 4 := by
  rw [Width.align, BitVec.toNat_append]
  simp only [BitVec.extractLsb'_toNat, Nat.shiftLeft_eq, Nat.shiftRight_eq_div_pow, BitVec.toNat_zero, Nat.or_zero]
  have := a.isLt
  omega

theorem wordAddress_toNat (a : Word) (k : Nat) : (Width.word.align (a + BitVec.ofNat 32 (4 * k))).toNat =
    (a.toNat / 4 + k) % 2 ^ 30 * 4 := by
  rw [Width.align_word_toNat, BitVec.toNat_add, BitVec.toNat_ofNat]
  have := a.isLt
  omega

theorem wordAddress_succ (a : Word) (k : Nat) :
    a + 4#32 + BitVec.ofNat 32 (4 * k) = a + BitVec.ofNat 32 (4 * (k + 1)) := by
  apply BitVec.eq_of_toNat_eq
  simp only [BitVec.toNat_add, BitVec.toNat_ofNat]
  omega

/-! ### Loads -/

/-- The bank a transfer uses. -/
theorem loadRegisters_cons (s : State) (ub : Bool) (rn : Reg) (wb : Option Word) (r : Reg) (rest : List Reg) (a : Word)
    (q : Bool) : s.loadRegisters ub rn wb (r :: rest) a q =
      (((s.dataRead .word a q).writeBack rn wb).writeRegOf (blockBank s ub) r (s.reply .word a)).loadRegisters ub rn none
        rest (a + 4#32) true := by
  cases ub
  · have h : ((s.dataRead .word a q).writeBack rn wb).writeReg r (s.reply .word a) =
        ((s.dataRead .word a q).writeBack rn wb).writeRegOf s.bank r (s.reply .word a) := by
      simp only [State.writeReg]; simp
    simp only [State.loadRegisters, blockBank, Bool.false_eq_true, if_false, h]
  · rfl

/-- What loads leave alone, whatever the list. -/
theorem loadRegisters_other (ub : Bool) (rn : Reg) (regs : List Reg) : ∀ (s : State) (wb : Option Word) (a : Word) (q : Bool),
    let u := s.loadRegisters ub rn wb regs a q
    u.mem = s.mem ∧ u.cpsr = s.cpsr ∧ u.p1 = s.p1 ∧ u.p2 = s.p2 ∧ u.p3 = s.p3 ∧ u.nextFetchType = s.nextFetchType ∧
      SameSpecial s u := by
  induction regs with
  | nil => intro s wb a q; exact ⟨rfl, rfl, rfl, rfl, rfl, rfl, SameSpecial.refl s⟩
  | cons r rest ih =>
    intro s wb a q
    rw [loadRegisters_cons]
    obtain ⟨h1, h2, h3, h4, h5, h6, h7⟩ :=
      ih (((s.dataRead .word a q).writeBack rn wb).writeRegOf (blockBank s ub) r (s.reply .word a)) none (a + 4#32) true
    refine ⟨by rw [h1]; simp, by rw [h2]; simp, by rw [h3]; simp, by rw [h4]; simp, by rw [h5]; simp, by rw [h6]; simp,
      SameSpecial.trans ⟨fun b => by simp, by simp, by simp, by simp, by simp, by simp⟩ h7⟩

/-- The registers that loads without a write-back leave. -/
theorem loadRegisters_regs (ub : Bool) (rn : Reg) (regs : List Reg) : ∀ (s : State) (a : Word) (q : Bool), regs.Nodup →
    let u := s.loadRegisters ub rn none regs a q
    let b := blockBank s ub
    (∀ (k : Nat) (hk : k < regs.length), u.readRegOf b regs[k] = s.reply .word (a + BitVec.ofNat 32 (4 * k))) ∧
      (∀ j : Fin 30, some j ∉ regs.map (physReg b) → u.regs[j] = s.regs[j]) ∧ (15#4 ∉ regs → u.r15 = s.r15) := by
  induction regs with
  | nil => intro s a q _; exact ⟨fun k hk => absurd hk (by simp), fun _ _ => rfl, fun _ => rfl⟩
  | cons r rest ih =>
    intro s a q hnd u b
    obtain ⟨hr, hrest⟩ := List.nodup_cons.1 hnd
    let s2 := (s.dataRead .word a q).writeRegOf b r (s.reply .word a)
    have hu : u = s2.loadRegisters ub rn none rest (a + 4#32) true := loadRegisters_cons ..
    have hb : blockBank s2 ub = b := by simp only [s2, b, blockBank]; split <;> simp
    obtain ⟨h1, h2, h3⟩ := ih s2 (a + 4#32) true hrest
    rw [hb] at h1 h2
    rw [hu]
    refine ⟨fun k hk => ?_, fun j hj => ?_, fun h => ?_⟩
    · cases k with
      | zero =>
        have hs2 : s2.readRegOf b r = s.reply .word (a + BitVec.ofNat 32 (4 * 0)) := by simp [s2]
        rw [← hs2]
        simp only [List.getElem_cons_zero]
        cases hp : physReg b r with
        | none =>
          have hr15 := (physReg_eq_none_iff b r).1 hp
          subst hr15
          rw [State.readRegOf_r15, State.readRegOf_r15]
          exact h3 hr
        | some i =>
          have hi : some i ∉ rest.map (physReg b) := by
            rw [← hp, List.mem_map]
            rintro ⟨m, hm, e⟩
            exact hr (physReg_injective _ _ _ e ▸ hm)
          unfold State.readRegOf
          rw [hp]
          exact h2 i hi
      | succ k =>
        simp only [List.getElem_cons_succ]
        rw [h1 k (by simpa using hk), wordAddress_succ]
        simp [s2]
    · simp only [List.map_cons, List.mem_cons, not_or] at hj
      rw [h2 j hj.2]
      exact State.regs_writeRegOf fun e => hj.1 e.symm
    · simp only [List.mem_cons, not_or] at h
      rw [h3 h.2]
      exact State.r15_writeRegOf fun e => h.1 e.symm

/-- The write-back comes first in effect: before every register load (R304). -/
theorem loadRegisters_writeBack (s : State) (ub : Bool) (rn : Reg) (wb : Option Word) {regs : List Reg} (h : regs ≠ [])
    (a : Word) (q : Bool) :
    s.loadRegisters ub rn wb regs a q = (s.writeBack rn wb).loadRegisters ub rn none regs a q := by
  cases regs with
  | nil => exact absurd rfl h
  | cons r rest =>
    rw [loadRegisters_cons, loadRegisters_cons]
    have hb : blockBank (s.writeBack rn wb) ub = blockBank s ub := by unfold blockBank; split <;> simp
    have hw : ((s.writeBack rn wb).dataRead .word a q).writeBack rn none = (s.dataRead .word a q).writeBack rn wb := by
      cases wb with
      | none => rfl
      | some v =>
        show ((s.writeReg rn v).emit _) = (s.emit _).writeReg rn v
        rw [State.writeReg_emit, State.writeBack_reply]
    rw [hb, hw, State.writeBack_reply]

/-! ### Stores -/

theorem storeRegisters_cons (s : State) (ub : Bool) (rn : Reg) (wb : Option Word) (r : Reg) (rest : List Reg) (a : Word)
    (q : Bool) : s.storeRegisters ub rn wb (r :: rest) a q =
      ((s.dataWrite .word a (s.readRegOf (blockBank s ub) r) q).writeBack rn wb).storeRegisters ub rn none rest
        (a + 4#32) true := by
  cases ub <;> rfl

/-- What stores leave alone, whatever the list, when nothing is written back. -/
theorem storeRegisters_other (ub : Bool) (rn : Reg) (regs : List Reg) : ∀ (s : State) (a : Word) (q : Bool),
    let u := s.storeRegisters ub rn none regs a q
    u.regs = s.regs ∧ u.r15 = s.r15 ∧ u.cpsr = s.cpsr ∧ u.p1 = s.p1 ∧ u.p2 = s.p2 ∧ u.p3 = s.p3 ∧ SameSpecial s u := by
  induction regs with
  | nil => intro s a q; exact ⟨rfl, rfl, rfl, rfl, rfl, rfl, SameSpecial.refl s⟩
  | cons r rest ih =>
    intro s a q
    rw [storeRegisters_cons]
    obtain ⟨h1, h2, h3, h4, h5, h6, h7⟩ := ih (s.dataWrite .word a (s.readRegOf (blockBank s ub) r) q) (a + 4#32) true
    exact ⟨h1, h2, h3, h4, h5, h6, (sameSpecial_dataWrite ..).trans h7⟩

/-- The memory that stores without a write-back leave. -/
theorem storeRegisters_mem (ub : Bool) (rn : Reg) (regs : List Reg) : ∀ (s : State) (a : Word) (q : Bool),
    regs.length ≤ 16 → Memory.wf s.mem →
    let u := s.storeRegisters ub rn none regs a q
    Memory.wf u.mem ∧
      (∀ (k : Nat) (hk : k < regs.length),
        u.reply .word (a + BitVec.ofNat 32 (4 * k)) = s.readRegOf (blockBank s ub) regs[k]) ∧
      ∀ x, (∀ k < regs.length, let e := (Width.word.align (a + BitVec.ofNat 32 (4 * k))).toNat; x < e ∨ e + 4 ≤ x) →
        Memory.read u.mem x = Memory.read s.mem x := by
  induction regs with
  | nil => intro s a q _ hwf; exact ⟨hwf, fun k hk => absurd hk (by simp), fun _ _ => rfl⟩
  | cons r rest ih =>
    intro s a q hlen hwf u
    simp only [List.length_cons] at hlen
    let v := s.readRegOf (blockBank s ub) r
    let s2 := s.dataWrite .word a v q
    have hu : u = s2.storeRegisters ub rn none rest (a + 4#32) true := storeRegisters_cons ..
    have hm2 : s2.mem = Memory.writeWidth s.mem .word a v := rfl
    have hwf2 : Memory.wf s2.mem := by rw [hm2]; exact Memory.wf_writeWidth hwf ..
    obtain ⟨h1, h2, h3⟩ := ih s2 (a + 4#32) true (by omega) hwf2
    rw [hu]
    refine ⟨h1, fun k hk => ?_, fun x hx => ?_⟩
    · cases k with
      | zero =>
        have hfar : ∀ i < 4, Memory.read (s2.storeRegisters ub rn none rest (a + 4#32) true).mem
            ((Width.word.align a).toNat + i) = Memory.read s2.mem ((Width.word.align a).toNat + i) := by
          intro i hi
          refine h3 _ fun j hj => ?_
          have e := wordAddress_toNat a (j + 1)
          rw [wordAddress_succ, e, Width.align_word_toNat]
          have := a.isLt
          simp only []
          omega
        have ha : a + BitVec.ofNat 32 (4 * 0) = a := by simp
        rw [ha, State.reply_of_same_bytes (s := s2) (w := .word) (a := a) hfar]
        exact Memory.readWidth_writeWidth hwf .word v rfl
      | succ k =>
        have h := h2 k (by simpa using hk)
        rw [wordAddress_succ] at h
        rw [h]; rfl
    · have h0 := hx 0 (by simp)
      rw [h3 x fun k hk => ?_]
      · rw [hm2]
        refine Memory.read_writeWidth_of_outside hwf ?_
        simpa [Width.bytes] using h0
      · have := hx (k + 1) (by simpa using hk)
        rwa [← wordAddress_succ] at this

end Sys2Proof.Machine
end

