-- ==== Sys2Proof/Laws/BlockResults.lean ====
section
/-! SUPPORT. What LDM and STM leave as a whole (45_arm_block_transfer.md R304 to R307). -/

namespace Sys2Proof.Machine

theorem registerList_contains (list : BitVec 16) :
    (registerList list).contains 15#4 = decide (15#4 ∈ registerList list) := by
  simp

/-- The first address of R302 in the four modes. -/
theorem blockAddress_eq (s : State) (ix : Indexing) (rn : Reg) (list : BitVec 16) :
    s.blockAddress ix rn list =
      let base := s.readReg rn
      let size := BitVec.ofNat 32 (4 * registerCount list)
      if ix.u then (if ix.p then base + 4#32 else base) else if ix.p then base - size else base - size + 4#32 := by
  cases h : ix.u <;> cases h' : ix.p <;> simp [State.blockAddress, blockStart, h, h']

/-- The write-back of R302, when W asks for it. -/
theorem blockBase_eq (s : State) (ix : Indexing) (rn : Reg) (list : BitVec 16) :
    s.blockBase ix rn list =
      let base := s.readReg rn
      let size := BitVec.ofNat 32 (4 * registerCount list)
      if ix.w then some (if ix.u then base + size else base - size) else none := rfl

/-- The registers after the loads of an LDM, before its end. -/
theorem loadRegisters_result (s : State) (ub : Bool) (rn : Reg) (list : BitVec 16) (wb : Option Word) (a : Word) :
    let u := (s.fetchOpcode.loadRegisters ub rn wb (registerList list) a false).internalCycle 1
    BlockLoaded s u (blockBank s ub) rn list a wb ∧ u.cpsr = s.cpsr ∧ FetchedOnce s u ∧
      (15#4 ∉ registerList list →
        u.r15 = if rn = 15#4 then wb.getD (s.r15 + s.widthBytes) else s.r15 + s.widthBytes) ∧
      (15#4 ∈ registerList list →
        u.r15 = s.reply .word (a + BitVec.ofNat 32 (4 * ((registerList list).length - 1)))) := by
  intro u
  let f := s.fetchOpcode.writeBack rn wb
  have hu : u = (f.loadRegisters ub rn none (registerList list) a false).internalCycle 1 := by
    simp only [u, f]
    rw [loadRegisters_writeBack _ _ _ _ (registerList_ne_nil list)]
  have hb : blockBank f ub = blockBank s ub := by simp only [f, blockBank]; split <;> simp
  obtain ⟨h1, h2, h3⟩ := loadRegisters_regs ub rn (registerList list) f a false (registerList_nodup list)
  obtain ⟨g1, g2, g3, g4, g5, g6, g7⟩ := loadRegisters_other ub rn (registerList list) f none a false
  rw [hb] at h1 h2
  have hreply : ∀ w x, f.reply w x = s.reply w x := fun w x => by simp [f]
  refine ⟨⟨fun k hk _ => ?_, fun v i hwb hp hi => ?_, fun j hj => ?_, ?_, SameMemory.of_eq ?_⟩, ?_, ?_, fun h => ?_,
    fun h => ?_⟩
  · rw [hu]
    exact (h1 k hk).trans (hreply ..)
  · rw [hu]
    refine (h2 i hi).trans ?_
    subst hwb
    have e := State.readReg_writeReg_same s.fetchOpcode rn v
    unfold State.readReg State.readRegOf at e
    simpa [hp, f] using e
  · rw [hu]
    simp only [List.mem_append, not_or] at hj
    refine (h2 j hj.1).trans ?_
    rw [State.regs_writeBack (by simpa using hj.2)]; rfl
  · rw [hu]
    refine SameSpecial.trans ?_ (g7.trans (sameSpecial_emit ..))
    exact (sameSpecial_fetchOpcode s).trans (sameSpecial_writeBack ..)
  · rw [hu]; simp only [State.internalCycle_mem, g1]; simp [f]
  · rw [hu]; simp only [State.internalCycle_cpsr, g2]; simp [f]
  · rw [hu]
    exact ⟨by simp only [State.internalCycle_p3, g5]; simp [f], by simp only [State.internalCycle_p2, g4]; simp [f],
      by simp only [State.internalCycle_nextFetchType, g6]; simp [f]⟩
  · rw [hu]
    simp only [State.internalCycle_r15]
    rw [h3 h]
    cases wb with
    | none => simp [f]
    | some v =>
      by_cases hn : rn = 15#4
      · subst hn; simp [f]
      · simp only [f, State.writeBack_some]; rw [State.r15_writeReg hn, if_neg hn]; simp
  · rw [hu]
    have hlen := List.length_pos_of_mem h
    have e := h1 ((registerList list).length - 1) (by omega)
    rw [registerList_last h, State.readRegOf_r15, hreply] at e
    simpa using e

/-- A block load is a statement about registers, special registers and memory only. -/
theorem BlockLoaded.congr {s t u : State} {b : Bank} {rn : Reg} {list : BitVec 16} {a : Word} {wb : Option Word}
    (h : BlockLoaded s t b rn list a wb) (hr : u.regs = t.regs) (hs : SameSpecial t u) (hm : u.mem = t.mem) :
    BlockLoaded s u b rn list a wb :=
  ⟨fun k hk hne => (State.readRegOf_of_ne hne hr).trans (h.loaded k hk hne), fun v i hw hp hi => by
      rw [hr]; exact h.base v i hw hp hi,
    fun j hj => by rw [hr]; exact h.registers j hj, h.special.trans hs, fun x => by rw [hm]; exact h.memory x⟩

/-- LDM without R15. -/
theorem loadMultiple_result (s : State) (ix : Indexing) (sBit : Bool) (rn : Reg) {list : BitVec 16}
    (h : 15#4 ∉ registerList list) :
    let t := s.loadMultiple ix sBit rn list
    BlockLoaded s t (blockBank s sBit) rn list (s.blockAddress ix rn list) (s.blockBase ix rn list) ∧
      t.cpsr = s.cpsr ∧ FetchedOnce s t ∧
      t.r15 = (if rn = 15#4 then (s.blockBase ix rn list).getD (s.r15 + s.widthBytes) else s.r15 + s.widthBytes) := by
  have hc : (registerList list).contains 15#4 = false := by rw [registerList_contains]; simpa using h
  have ht : s.loadMultiple ix sBit rn list = (s.fetchOpcode.loadRegisters sBit rn (s.blockBase ix rn list)
      (registerList list) (s.blockAddress ix rn list) false).internalCycle 1 := by
    simp only [State.loadMultiple, hc, Bool.not_false, Bool.and_true, Bool.false_eq_true, if_false]
  rw [ht]
  obtain ⟨h1, h2, h3, h4, -⟩ := loadRegisters_result s sBit rn list (s.blockBase ix rn list) (s.blockAddress ix rn list)
  exact ⟨h1, h2, h3, h4 h⟩

/-- LDM with R15: a jump, the return with S, or HACF. -/
theorem loadMultiple_pc (s : State) (ix : Indexing) (sBit : Bool) (rn : Reg) {list : BitVec 16}
    (h : 15#4 ∈ registerList list) :
    let start := s.blockAddress ix rn list
    let pc := s.reply .word (start + BitVec.ofNat 32 (4 * ((registerList list).length - 1)))
    let t := s.loadMultiple ix sBit rn list
    if sBit = true ∧ Mode.ofBits (Psr.modeBits s.currentSpsr) = none then
      t.halted = true ∧ t.cpsr = s.cpsr ∧ t.r15 = pc ∧ FetchedOnce s t ∧
        BlockLoaded s { t with halted := s.halted } s.bank rn list start (s.blockBase ix rn list)
    else
      BlockLoaded s t s.bank rn list start (s.blockBase ix rn list) ∧ ContinuesAt t pc ∧
        t.cpsr = (if sBit then s.currentSpsr else s.cpsr) := by
  intro start pc t
  have hc : (registerList list).contains 15#4 = true := by rw [registerList_contains]; simpa using h
  obtain ⟨h1, h2, h3, -, h5⟩ := loadRegisters_result s false rn list (s.blockBase ix rn list) start
  generalize hu : (s.fetchOpcode.loadRegisters false rn (s.blockBase ix rn list) (registerList list) start
    false).internalCycle 1 = u at h1 h2 h3 h5
  have ht : t = u.finishLoadPc sBit := by
    simp only [t, State.loadMultiple, hc, Bool.not_true, Bool.and_false, if_true]
    rw [hu]
  have hpc : u.r15 = pc := h5 h
  have hbank : blockBank s false = s.bank := rfl
  rw [hbank] at h1
  have hsp : u.currentSpsr = s.currentSpsr := by
    have hb : u.bank = s.bank := by unfold State.bank; rw [h2]
    unfold State.currentSpsr; rw [hb, h1.special.spsrs, h2]
  cases sBit with
  | false =>
    rw [if_neg (by simp)]
    have ht' : t = u.flushPipeline := ht
    rw [ht']
    refine ⟨h1.congr rfl (sameSpecial_flushPipeline u) rfl, ?_, ?_⟩
    · exact continuesAt_flushPipeline_of hpc
    · exact h2
  | true =>
    have ht' : t = match u.leaveMode with | some s' => s'.flushPipeline | none => u.hacf := ht
    rcases u.leaveMode_cases with ⟨m, hm, hl⟩ | ⟨hm, hl⟩
    · rw [hsp] at hm hl
      rw [if_neg (by simp [hm]), ht', hl]
      refine ⟨h1.congr rfl ?_ rfl, ?_, rfl⟩
      · exact ⟨fun _ => rfl, rfl, rfl, rfl, rfl, rfl⟩
      · exact continuesAt_flushPipeline_of (s := { u with cpsr := s.currentSpsr }) hpc
    · rw [hsp] at hm
      rw [if_pos ⟨rfl, hm⟩, ht', hl]
      refine ⟨rfl, h2, hpc, ⟨h3.current, h3.next, h3.fetchType⟩, h1.congr rfl ?_ rfl⟩
      exact ⟨fun _ => rfl, rfl, rfl, h1.special.halted.symm, rfl, rfl⟩

/-- STM in every form. -/
theorem storeMultiple_result (s : State) (hwf : Memory.wf s.mem) (ix : Indexing) (sBit : Bool) (rn : Reg)
    (list : BitVec 16) :
    BlockStored s (s.storeMultiple ix sBit rn list) (blockBank s sBit) rn list (s.blockAddress ix rn list)
      (s.blockBase ix rn list) := by
  generalize ha : s.blockAddress ix rn list = a
  generalize hb : s.blockBase ix rn list = wb
  generalize hl : registerList list = regs
  have hlen : regs.length ≤ 16 := hl ▸ registerList_length_le list
  cases regs with
  | nil => exact absurd hl (registerList_ne_nil list)
  | cons r rest =>
    have hlen' : rest.length < 16 := by simpa using hlen
    let f := s.fetchOpcode
    let b := blockBank s sBit
    let s1 := (f.dataWrite .word a (f.readRegOf b r) false).writeBack rn wb
    let u := s1.storeRegisters sBit rn none rest (a + 4#32) true
    have ht : s.storeMultiple ix sBit rn list = { u with nextFetchType := false } := by
      simp only [State.storeMultiple, hl, ha, hb]
      rw [storeRegisters_cons]
      rfl
    have hm1 : s1.mem = Memory.writeWidth s.mem .word a (f.readRegOf b r) := by simp [s1, f]
    have hwf1 : Memory.wf s1.mem := by rw [hm1]; exact Memory.wf_writeWidth hwf ..
    obtain ⟨o1, o2, o3, o4, o5, o6, o7⟩ := storeRegisters_other sBit rn rest s1 (a + 4#32) true
    obtain ⟨m1, m2, m3⟩ := storeRegisters_mem sBit rn rest s1 (a + 4#32) true (by omega) hwf1
    have hbank : blockBank s1 sBit = b := by simp only [s1, b, f, blockBank]; split <;> simp
    have hsbank : (f.dataWrite .word a (f.readRegOf b r) false).bank = s.bank := rfl
    have hread : ∀ m, s1.readRegOf b m = (if physReg b m = physReg s.bank rn then wb else none).getD (f.readRegOf b m) := by
      intro m
      cases wb with
      | none => simp [s1]
      | some v =>
        simp only [s1, State.writeBack_some, State.writeReg, hsbank]
        by_cases h : physReg b m = physReg s.bank rn
        · rw [if_pos h]
          unfold State.readRegOf State.writeRegOf
          rw [h]
          cases physReg s.bank rn <;> simp
        · rw [if_neg h, State.readRegOf_writeRegOf_of_ne (Ne.symm h)]
          rfl
    rw [ht]
    have hl0 : ∀ h, (registerList list)[0]'h = r := fun h => by simp [hl]
    have hlS : ∀ k h h', (registerList list)[k + 1]'h = rest[k]'h' := fun k h h' => by simp [hl]
    have hlenL : (registerList list).length = rest.length + 1 := by simp [hl]
    refine ⟨fun k hk => ?_, fun x hx => ?_, fun v hv => ?_, fun j hj => ?_, fun h => ?_, ?_, ?_, rfl, ?_, ?_⟩
    · show u.reply .word _ = _
      cases k with
      | zero =>
        rw [if_neg (by simp), hl0]
        have hfar : ∀ i < Width.word.bytes, Memory.read u.mem ((Width.word.align a).toNat + i) =
            Memory.read s1.mem ((Width.word.align a).toNat + i) := by
          intro i hi
          refine m3 _ fun j hj => ?_
          have e := wordAddress_toNat a (j + 1)
          rw [wordAddress_succ, e, Width.align_word_toNat]
          have := a.isLt
          simp only [Width.bytes] at hi ⊢
          omega
        have h0 : a + BitVec.ofNat 32 (4 * 0) = a := by simp
        rw [h0, State.reply_of_same_bytes (s := s1) hfar]
        unfold State.reply
        rw [hm1]
        exact Memory.readWidth_writeWidth hwf .word _ rfl
      | succ k =>
        have h := m2 k (by omega)
        rw [wordAddress_succ] at h
        rw [h, hbank, hread, hlS k hk (by omega)]
        simp [f, b]
    · show Memory.read u.mem x = _
      rw [m3 x fun k hk => ?_]
      · rw [hm1]
        refine Memory.read_writeWidth_of_outside hwf ?_
        have := hx 0 (by omega)
        simpa [Width.bytes] using this
      · have := hx (k + 1) (by omega)
        rwa [← wordAddress_succ] at this
    · have e : s1.readReg rn = v := State.readReg_writeBack hv
      have hbk : u.bank = s1.bank := by unfold State.bank; rw [o3]
      show u.readRegOf u.bank rn = v
      rw [hbk]
      have hrr : u.readRegOf s1.bank rn = s1.readRegOf s1.bank rn := by unfold State.readRegOf; rw [o1, o2]
      rw [hrr]; exact e
    · show u.regs[j] = _
      rw [o1]
      exact (State.regs_writeBack (by rw [hsbank]; exact hj)).trans rfl
    · show u.r15 = _
      rw [o2, State.r15_writeBack h]; rfl
    · show u.p3 = _
      rw [o6]; simp [s1, f]
    · show u.p2 = _
      rw [o5]; simp [s1, f]
    · show u.cpsr = _
      rw [o3]; simp [s1, f]
    · have h' : SameSpecial s u := ((sameSpecial_fetchOpcode s).trans ((sameSpecial_dataWrite ..).trans
        (sameSpecial_writeBack _ rn wb))).trans o7
      exact ⟨h'.spsrs, h'.pendingFiq, h'.pendingIrq, h'.halted, h'.breakpoints, h'.toggles⟩

end Sys2Proof.Machine
end

