-- ==== Sys2Proof/Laws/Branches.lean ====
section
/-! SUPPORT. What the branches leave: the state switch of BX, the jump that writes the link register, and the offsets of the
branch encodings as numbers. -/

namespace Sys2Proof.Machine

/-- BX after its fetch (R322, R465). -/
theorem exchange_result (s : State) (v : Word) :
    let t := s.fetchOpcode.exchange v
    t.cpsr = Psr.withT s.cpsr (v.getLsbD 0) ∧ ContinuesAt t v ∧ SameRegistersBut s t [] ∧ SameSpecial s t ∧
      SameMemory s t := by
  intro t
  let u : State := { s.fetchOpcode with cpsr := Psr.withT s.cpsr (v.getLsbD 0) }
  have ht : t = u.jump ((if v.getLsbD 0 then Width.half else Width.word).align v) := by
    simp only [t, u, State.exchange]; split <;> rfl
  have hw : t.width = if v.getLsbD 0 then Width.half else Width.word := by
    rw [ht]; simp [u, State.width]
  have hc := continuesAt_jump u ((if v.getLsbD 0 then Width.half else Width.word).align v)
  rw [← ht] at hc
  refine ⟨by rw [ht]; simp [u], ⟨?_, ?_, ?_, hc.fetchType⟩, SameRegistersBut.of_eq (by rw [ht]; simp [u]), ?_,
    SameMemory.of_eq (by rw [ht]; simp [u])⟩
  · rw [hc.pc, ← hw, Width.align_align]
  · rw [hc.current, ← hw, Width.align_align]
  · rw [hc.next, ← hw, Width.align_align]
  · rw [ht]; exact ⟨fun _ => rfl, rfl, rfl, rfl, rfl, rfl⟩

/-- A jump that writes the link register first (R321, R471). -/
theorem linkJump_result (s : State) (link target : Word) :
    let t := (s.fetchOpcode.writeReg 14#4 link).jump target
    JumpResult s t target [physReg s.bank 14#4] ∧ t.readReg 14#4 = link := by
  intro t
  refine ⟨⟨fun k hk => ?_, by simp [t], continuesAt_jump .., ?_, SameMemory.of_eq (by simp [t])⟩, ?_⟩
  · simp only [List.mem_singleton] at hk
    simp only [t, State.jump_regs]
    rw [State.regs_writeReg (by simpa using fun e => hk e.symm)]; rfl
  · exact (sameSpecial_fetchOpcode s).trans ((sameSpecial_writeReg ..).trans (sameSpecial_jump ..))
  · simp only [t]; rw [State.readReg_jump (by decide)]; simp

/-! ### Offsets as numbers -/

theorem branchOffset_eq (off : BitVec 24) : ((off.signExtend 30 ++ 0#2 : Word)) = BitVec.ofInt 32 (off.toInt * 4) := by
  apply BitVec.eq_of_toInt_eq
  rw [BitVec.toInt_append, BitVec.toInt_signExtend, BitVec.toInt_ofInt]
  have := off.toInt_lt; have := off.le_toInt
  simp [Int.bmod_def] at *
  omega

theorem thumbOffset8_eq (off : BitVec 8) : ((off ++ 0#1).signExtend 32 : Word) = BitVec.ofInt 32 (2 * off.toInt) := by
  apply BitVec.eq_of_toInt_eq
  rw [BitVec.toInt_signExtend, BitVec.toInt_append, BitVec.toInt_ofInt]
  have := off.toInt_lt; have := off.le_toInt
  simp [Int.bmod_def] at *
  omega

theorem thumbOffset11_eq (off : BitVec 11) : ((off ++ 0#1).signExtend 32 : Word) = BitVec.ofInt 32 (2 * off.toInt) := by
  apply BitVec.eq_of_toInt_eq
  rw [BitVec.toInt_signExtend, BitVec.toInt_append, BitVec.toInt_ofInt]
  have := off.toInt_lt; have := off.le_toInt
  simp [Int.bmod_def] at *
  omega

theorem longBranchHigh_eq (off : BitVec 11) :
    ((off ++ 0#12).signExtend 32 : Word) = BitVec.ofInt 32 (off.toInt * 4096) := by
  apply BitVec.eq_of_toInt_eq
  rw [BitVec.toInt_signExtend, BitVec.toInt_append, BitVec.toInt_ofInt]
  have := off.toInt_lt; have := off.le_toInt
  simp [Int.bmod_def] at *
  omega

theorem longBranchLow_eq (off : BitVec 11) : ((off ++ 0#1).setWidth 32 : Word) = BitVec.ofNat 32 (2 * off.toNat) := by
  apply BitVec.eq_of_toNat_eq
  rw [BitVec.toNat_setWidth, BitVec.toNat_append, BitVec.toNat_ofNat]
  simp [Nat.shiftLeft_eq]
  omega

end Sys2Proof.Machine
end

