-- ==== Sys2Proof/Laws/DataProcessing.lean ====
section
/-! SUPPORT. What the data-processing sequence of 42_arm_data_processing.md R201 leaves: with a destination register, with R15
and for the test opcodes. -/

namespace Sys2Proof.Machine

namespace State

/-- The early fetch leaves every register but R15, and the flags. -/
@[simp] theorem operandFetch_flags (s : State) (op2 : Operand2) : (s.operandFetch op2).flags = s.flags := by
  unfold operandFetch; split <;> simp

@[simp] theorem operandFetch_cpsr (s : State) (op2 : Operand2) : (s.operandFetch op2).cpsr = s.cpsr := by
  unfold operandFetch; split <;> simp

@[simp] theorem operandFetch_regs (s : State) (op2 : Operand2) : (s.operandFetch op2).regs = s.regs := by
  unfold operandFetch; split <;> simp

@[simp] theorem operandFetch_bank (s : State) (op2 : Operand2) : (s.operandFetch op2).bank = s.bank := by
  unfold operandFetch; split <;> simp

@[simp] theorem operandFetch_mem (s : State) (op2 : Operand2) : (s.operandFetch op2).mem = s.mem := by
  unfold operandFetch; split <;> simp

@[simp] theorem operandFetch_currentSpsr (s : State) (op2 : Operand2) :
    (s.operandFetch op2).currentSpsr = s.currentSpsr := by
  unfold operandFetch; split <;> simp

/-- The result of the operation: operands after the early fetch, flags before the instruction. -/
theorem dpResult_operandFetch (s : State) (op : AluOp) (rn : Reg) (op2 : Operand2) :
    (s.operandFetch op2).dpResult op rn op2 =
      op ((s.operandFetch op2).readReg rn) ((s.operandFetch op2).shifter op2).value
        ((s.operandFetch op2).shifter op2).carry s.flags := by
  unfold dpResult; rw [operandFetch_flags]

theorem operandFetch_r15 (s : State) (op2 : Operand2) :
    (s.operandFetch op2).r15 = if isRegShift op2 then s.r15 + s.widthBytes else s.r15 := by
  unfold operandFetch; split <;> simp

theorem sameSpecial_operandFetch (s : State) (op2 : Operand2) : SameSpecial s (s.operandFetch op2) := by
  unfold operandFetch
  split
  · exact ⟨fun _ => rfl, rfl, rfl, rfl, rfl, rfl⟩
  · exact SameSpecial.refl s

/-- The fetch of either end of the sequence is one fetch. -/
theorem closingFetch_operandFetch (s : State) (op2 : Operand2) :
    (s.operandFetch op2).closingFetch op2 = s.fetchOpcode ∨
      (s.operandFetch op2).closingFetch op2 = s.fetchOpcode.internalCycle 1 := by
  unfold operandFetch closingFetch
  split <;> simp

end State

/-- Rd is not R15: the result, the flags with S, and nothing else. -/
theorem dataProcessing_result (s : State) (op : AluOp) (setFlags : Bool) (rn : Reg) {rd : Reg} (op2 : Operand2)
    (hrd : rd ≠ 15#4) :
    let r := (s.operandFetch op2).dpResult op rn op2
    RegisterResult s (s.dataProcessing op setFlags rn rd op2) rd r.value (if setFlags then r.flags else s.flags) := by
  intro r
  have hrd' : (rd == 15#4) = false := by simpa using hrd
  cases hshift : isRegShift op2 <;> cases setFlags <;>
    simp only [State.dataProcessing, State.dpStatus, hrd', hrd, Bool.and_false, if_false, if_true, Bool.false_eq_true]
  · show RegisterResult s (((s.operandFetch op2).writeReg rd r.value).closingFetch op2) rd r.value s.flags
    simp only [State.closingFetch, State.operandFetch, hshift, Bool.false_eq_true, if_false]
    rw [State.fetchOpcode_writeReg hrd]
    exact registerResult_fetch' ..
  · show RegisterResult s ((((s.operandFetch op2).setFlags r.flags).writeReg rd r.value).closingFetch op2) rd r.value r.flags
    simp only [State.closingFetch, State.operandFetch, hshift, Bool.false_eq_true, if_false]
    rw [State.fetchOpcode_writeReg hrd, State.fetchOpcode_setFlags, ← State.setFlags_writeReg]
    exact registerResult_fetch ..
  · show RegisterResult s (((s.operandFetch op2).writeReg rd r.value).closingFetch op2) rd r.value s.flags
    simp only [State.closingFetch, State.operandFetch, hshift, if_true]
    rw [State.writeReg_internalCycle]
    exact (registerResult_fetch' ..).emit _
  · show RegisterResult s ((((s.operandFetch op2).setFlags r.flags).writeReg rd r.value).closingFetch op2) rd r.value r.flags
    simp only [State.closingFetch, State.operandFetch, hshift, if_true]
    rw [← State.setFlags_writeReg, State.writeReg_internalCycle, State.setFlags_internalCycle]
    exact (registerResult_fetch ..).emit _

/-- A test opcode with S whose Rd is not R15: the flags, and nothing else. -/
theorem testProcessing_result (s : State) (op : AluOp) (rn : Reg) {rd : Reg} (op2 : Operand2) (hrd : rd ≠ 15#4) :
    FlagResult s (s.testProcessing op true rn rd op2) ((s.operandFetch op2).dpResult op rn op2).flags := by
  have hrd' : (rd == 15#4) = false := by simpa using hrd
  simp only [State.testProcessing, State.dpStatus, hrd', Bool.and_false, if_true, Bool.false_eq_true, if_false]
  generalize ((s.operandFetch op2).dpResult op rn op2).flags = f
  cases hshift : isRegShift op2
  · simp only [State.closingFetch, State.operandFetch, hshift, Bool.false_eq_true, if_false]
    rw [State.fetchOpcode_setFlags]
    exact flagResult_fetch ..
  · simp only [State.closingFetch, State.operandFetch, hshift, if_true]
    rw [State.setFlags_internalCycle]
    exact (flagResult_fetch ..).emit _

/-- A test opcode without S: one fetch. -/
theorem testProcessing_noS (s : State) (op : AluOp) (rn rd : Reg) (op2 : Operand2) :
    FlagResult s (s.testProcessing op false rn rd op2) s.flags := by
  simp only [State.testProcessing, State.dpStatus, Bool.false_and, Bool.false_eq_true, if_false]
  rcases s.closingFetch_operandFetch op2 with h | h <;> rw [h]
  · exact flagResult_fetch' s
  · exact (flagResult_fetch' s).emit _

/-- Rd is R15 without S: a jump to the result. -/
theorem dataProcessing_jump (s : State) (op : AluOp) (rn : Reg) (op2 : Operand2) :
    JumpResult s (s.dataProcessing op false rn 15#4 op2) ((s.operandFetch op2).dpResult op rn op2).value [] := by
  simp only [State.dataProcessing, State.dpStatus, Bool.false_and, Bool.false_eq_true, if_false, if_true]
  rcases s.closingFetch_operandFetch op2 with h | h <;> rw [h]
  · exact jumpResult_fetch ..
  · exact ⟨SameRegistersBut.of_eq rfl, by simp, continuesAt_jump ..,
      (sameSpecial_fetchOpcode s).trans ((sameSpecial_emit ..).trans (sameSpecial_jump ..)), SameMemory.of_eq (by simp)⟩

/-- Rd is R15 with S and a valid SPSR: the return from exception (R515). -/
theorem dataProcessing_return (s : State) (op : AluOp) (rn : Reg) (op2 : Operand2)
    (hm : (Mode.ofBits (Psr.modeBits s.currentSpsr)).isSome = true) :
    let t := s.dataProcessing op true rn 15#4 op2
    t.cpsr = s.currentSpsr ∧ ContinuesAt t ((s.operandFetch op2).dpResult op rn op2).value ∧
      SameRegistersBut s t [] ∧ SameSpecial s t ∧ SameMemory s t := by
  have hl : (s.operandFetch op2).leaveMode = some { s.operandFetch op2 with cpsr := s.currentSpsr } := by
    rcases (s.operandFetch op2).leaveMode_cases with ⟨m, -, h⟩ | ⟨h, -⟩
    · simpa using h
    · rw [State.operandFetch_currentSpsr] at h
      simp [h] at hm
  simp only [State.dataProcessing, State.dpStatus, beq_self_eq_true, Bool.and_true, if_true, hl]
  have hs : SameSpecial s { s.operandFetch op2 with cpsr := s.currentSpsr } := by
    have h := s.sameSpecial_operandFetch op2
    exact ⟨h.spsrs, h.pendingFiq, h.pendingIrq, h.halted, h.breakpoints, h.toggles⟩
  refine ⟨?_, continuesAt_jump .., SameRegistersBut.of_eq ?_, ?_, SameMemory.of_eq ?_⟩ <;>
    unfold State.closingFetch <;> split
  · simp
  · simp
  · simp
  · simp
  · exact hs.trans (sameSpecial_jump ..)
  · exact hs.trans ((sameSpecial_fetchOpcode _).trans (sameSpecial_jump ..))
  · simp
  · simp

/-- Rd is R15 with S and an SPSR whose mode is invalid: HACF after the early fetch. -/
theorem dpStatus_invalid {s : State} {op2 : Operand2} (r : AluResult)
    (hm : Mode.ofBits (Psr.modeBits s.currentSpsr) = none) : (s.operandFetch op2).dpStatus true 15#4 r = none := by
  rcases (s.operandFetch op2).leaveMode_cases with ⟨m, h, -⟩ | ⟨-, h⟩
  · rw [State.operandFetch_currentSpsr, hm] at h
    simp at h
  · simpa [State.dpStatus] using h

/-- A test opcode with Rd = R15 and a valid SPSR: CPSR is restored, nothing is flushed (R205). -/
theorem testProcessing_return (s : State) (op : AluOp) (rn : Reg) (op2 : Operand2)
    (hm : (Mode.ofBits (Psr.modeBits s.currentSpsr)).isSome = true) :
    let t := s.testProcessing op true rn 15#4 op2
    t.cpsr = s.currentSpsr ∧ t.regs = s.regs ∧ t.p3 = s.p2 ∧
      t.p2 = s.reply (if isRegShift op2 then s.width else t.width) s.r15 ∧ t.nextFetchType = true ∧
      t.r15 = s.r15 + (if isRegShift op2 then s.widthBytes else t.widthBytes) ∧ SameSpecial s t ∧ SameMemory s t := by
  have hl : (s.operandFetch op2).leaveMode = some { s.operandFetch op2 with cpsr := s.currentSpsr } := by
    rcases (s.operandFetch op2).leaveMode_cases with ⟨m, -, h⟩ | ⟨h, -⟩
    · simpa using h
    · rw [State.operandFetch_currentSpsr] at h
      simp [h] at hm
  simp only [State.testProcessing, State.dpStatus, beq_self_eq_true, Bool.and_true, if_true, hl]
  have hs : SameSpecial s { s.operandFetch op2 with cpsr := s.currentSpsr } := by
    have h := s.sameSpecial_operandFetch op2
    exact ⟨h.spsrs, h.pendingFiq, h.pendingIrq, h.halted, h.breakpoints, h.toggles⟩
  cases hshift : isRegShift op2
  · simp only [State.closingFetch, State.operandFetch, hshift, Bool.false_eq_true, if_false] at hs ⊢
    exact ⟨by simp, by simp, by simp, rfl, by simp, by simp, hs.trans (sameSpecial_fetchOpcode _),
      SameMemory.of_eq (by simp)⟩
  · simp only [State.closingFetch, State.operandFetch, hshift, if_true] at hs ⊢
    exact ⟨by simp, by simp, by simp, rfl, by simp, by simp, hs, SameMemory.of_eq (by simp)⟩

end Sys2Proof.Machine
end

