-- ==== Sys2Proof/Laws/Decode.lean ====
section
/-! SUPPORT. The decoder's index of every encoding form, and the class that the first-match order gives it: what the
proofs of the round trips cite instead of unfolding the pattern lists. -/

namespace Sys2Proof

/-- Two bit vectors with the same bits. -/
theorem ext_bits {n : Nat} {x y : BitVec n} (h : ∀ k < n, x.getLsbD k = y.getLsbD k) : x = y :=
  BitVec.eq_of_getLsbD_eq fun k hk => h k hk

/-! ### Names and their bits -/

@[simp] theorem Cond.ofBits_bits (c : Cond) : Cond.ofBits c.bits = c := by cases c <;> rfl
@[simp] theorem Cond.bits_ofBits (c : BitVec 4) : (Cond.ofBits c).bits = c := by revert c; decide
@[simp] theorem ShiftType.ofBits_bits (t : ShiftType) : ShiftType.ofBits t.bits = t := by cases t <;> rfl
@[simp] theorem ShiftType.bits_ofBits (t : BitVec 2) : (ShiftType.ofBits t).bits = t := by revert t; decide
@[simp] theorem DpOp.ofBits_bits (o : DpOp) : DpOp.ofBits o.bits = o := by cases o <;> rfl
@[simp] theorem DpOp.bits_ofBits (o : BitVec 4) : (DpOp.ofBits o).bits = o := by revert o; decide

/-! ### The index of each ARM form -/

theorem armIndex_dp (c : Cond) (op : DpOp) (s : Bool) (rn rd : Reg) (op2 : Operand2) :
    armIndex (encodeDp c op s rn rd op2) =
      0b00#2 ++ op2.formBit ++ op.bits ++ BitVec.ofBool s ++ op2.bits.extractLsb' 4 4 := by
  apply ext_bits; intro k hk
  simp only [armIndex, encodeDp, BitVec.getLsbD_append, BitVec.getLsbD_extractLsb']
  interval_cases k <;> simp

theorem armIndex_mul (c : Cond) (a s : Bool) (rd rn rs rm : Reg) :
    armIndex (encodeMul c a s rd rn rs rm) = 0b000000#6 ++ BitVec.ofBool a ++ BitVec.ofBool s ++ 0b1001#4 := by
  apply ext_bits; intro k hk
  simp only [armIndex, encodeMul, BitVec.getLsbD_append, BitVec.getLsbD_extractLsb']
  interval_cases k <;> simp

theorem armIndex_mulLong (c : Cond) (u a s : Bool) (hi lo rs rm : Reg) :
    armIndex (encodeMulLong c u a s hi lo rs rm) =
      0b00001#5 ++ BitVec.ofBool u ++ BitVec.ofBool a ++ BitVec.ofBool s ++ 0b1001#4 := by
  apply ext_bits; intro k hk
  simp only [armIndex, encodeMulLong, BitVec.getLsbD_append, BitVec.getLsbD_extractLsb']
  interval_cases k <;> simp

theorem armIndex_swap (c : Cond) (b : Bool) (rn rd rm : Reg) (ign : BitVec 4) :
    armIndex (encodeSwap c b rn rd rm ign) = 0b00010#5 ++ BitVec.ofBool b ++ 0b00#2 ++ 0b1001#4 := by
  apply ext_bits; intro k hk
  simp only [armIndex, encodeSwap, BitVec.getLsbD_append, BitVec.getLsbD_extractLsb']
  interval_cases k <;> simp

theorem armIndex_half (c : Cond) (l : Bool) (sh : BitVec 2) (ix : Indexing) (rn rd : Reg) (off : HalfOffset) :
    armIndex (encodeHalf c l sh ix rn rd off) =
      0b000#3 ++ BitVec.ofBool ix.p ++ BitVec.ofBool ix.u ++ off.formBit ++ BitVec.ofBool ix.w ++ BitVec.ofBool l ++
        1#1 ++ sh ++ 1#1 := by
  apply ext_bits; intro k hk
  simp only [armIndex, encodeHalf, BitVec.getLsbD_append, BitVec.getLsbD_extractLsb']
  interval_cases k <;> simp

theorem armIndex_sdt (c : Cond) (b l : Bool) (ix : Indexing) (rn rd : Reg) (off : Offset) :
    armIndex (encodeSdt c b l ix rn rd off) =
      0b01#2 ++ off.formBit ++ BitVec.ofBool ix.p ++ BitVec.ofBool ix.u ++ BitVec.ofBool b ++ BitVec.ofBool ix.w ++
        BitVec.ofBool l ++ off.bits.extractLsb' 4 4 := by
  apply ext_bits; intro k hk
  simp only [armIndex, encodeSdt, BitVec.getLsbD_append, BitVec.getLsbD_extractLsb']
  interval_cases k <;> simp

theorem armIndex_block (c : Cond) (l : Bool) (ix : Indexing) (s : Bool) (rn : Reg) (list : BitVec 16) :
    armIndex (encodeBlock c l ix s rn list) =
      0b100#3 ++ BitVec.ofBool ix.p ++ BitVec.ofBool ix.u ++ BitVec.ofBool s ++ BitVec.ofBool ix.w ++ BitVec.ofBool l ++
        list.extractLsb' 4 4 := by
  apply ext_bits; intro k hk
  simp only [armIndex, encodeBlock, BitVec.getLsbD_append, BitVec.getLsbD_extractLsb']
  interval_cases k <;> simp

theorem armIndex_coprocRegister (c : Cond) (l : Bool) (rd cp : BitVec 4) (i23 : BitVec 3) (i19 : BitVec 4)
    (i7 : BitVec 3) (i3 : BitVec 4) :
    armIndex (encodeCoprocRegister c l rd cp i23 i19 i7 i3) = 0b1110#4 ++ i23 ++ BitVec.ofBool l ++ i7 ++ 1#1 := by
  apply ext_bits; intro k hk
  simp only [armIndex, encodeCoprocRegister, BitVec.getLsbD_append, BitVec.getLsbD_extractLsb']
  interval_cases k <;> simp

/-! ### The class of each ARM form -/

/-- The opcodes that are tests: op[24:23] = 10 (30_encoding.md R105). -/
def DpOp.isTest (o : DpOp) : Bool := o.bits.extractLsb' 2 2 == 0b10#2

theorem armClass_dp (op : DpOp) (s : Bool) (op2 : Operand2) (h : op.isTest = true → s = true) :
    armClass (0b00#2 ++ op2.formBit ++ op.bits ++ BitVec.ofBool s ++ op2.bits.extractLsb' 4 4) = .dataProcessing := by
  have key : ∀ (o : BitVec 4) (s : Bool) (n : BitVec 4), (o.extractLsb' 2 2 = 0b10#2 → s = true) →
      armClass (0b00#2 ++ 1#1 ++ o ++ BitVec.ofBool s ++ n) = .dataProcessing ∧
      (n.getLsbD 3 = false ∨ n.getLsbD 0 = false →
        armClass (0b00#2 ++ 0#1 ++ o ++ BitVec.ofBool s ++ n) = .dataProcessing) := by decide +kernel
  have ho : op.bits.extractLsb' 2 2 = 0b10#2 → s = true := fun e => h (by simpa [DpOp.isTest] using e)
  cases op2 with
  | imm rot imm8 => exact (key _ _ _ ho).1
  | immShift type amt rm =>
    exact (key _ _ _ ho).2 (.inr (by
      simp only [Operand2.bits, BitVec.getLsbD_append, BitVec.getLsbD_extractLsb']; simp))
  | regShift type rs rm =>
    exact (key _ _ _ ho).2 (.inl (by
      simp only [Operand2.bits, BitVec.getLsbD_append, BitVec.getLsbD_extractLsb']; simp))

/-- A test opcode without S is data processing in the forms that WellFormed names, and in no other (R110, R113). -/
theorem armClass_testNoS (opc : BitVec 2) (op2 : Operand2) :
    armClass (0b00#2 ++ op2.formBit ++ (0b10#2 ++ opc) ++ BitVec.ofBool false ++ op2.bits.extractLsb' 4 4) =
      .dataProcessing ↔ irregularTestOperand opc op2 = true := by
  cases op2 with
  | imm rot imm8 =>
    have : ∀ (o : BitVec 2) (n : BitVec 4),
        armClass (0b00#2 ++ 1#1 ++ (0b10#2 ++ o) ++ BitVec.ofBool false ++ n) ≠ .dataProcessing := by decide +kernel
    simp only [irregularTestOperand, Bool.false_eq_true, iff_false]
    exact this _ _
  | immShift type amt rm =>
    have key : ∀ (o : BitVec 2) (t : BitVec 2) (a : Bool),
        armClass (0b00#2 ++ 0#1 ++ (0b10#2 ++ o) ++ BitVec.ofBool false ++ (BitVec.ofBool a ++ t ++ 0#1)) =
          .dataProcessing ↔ (!(ShiftType.ofBits t == .lsl && !a)) = true := by decide +kernel
    have e : (amt ++ type.bits ++ 0#1 ++ rm : BitVec 12).extractLsb' 4 4 =
        BitVec.ofBool (amt.getLsbD 0) ++ type.bits ++ 0#1 := by
      apply ext_bits; intro k hk
      simp only [BitVec.getLsbD_append, BitVec.getLsbD_extractLsb']
      interval_cases k <;> simp
    have := key opc type.bits (amt.getLsbD 0)
    rw [ShiftType.ofBits_bits] at this
    simp only [irregularTestOperand, Operand2.bits, Operand2.formBit, e]
    exact this
  | regShift type rs rm =>
    have key : ∀ (o : BitVec 2) (t : BitVec 2),
        armClass (0b00#2 ++ 0#1 ++ (0b10#2 ++ o) ++ BitVec.ofBool false ++ (0#1 ++ t ++ 1#1)) =
          .dataProcessing ↔ irregularTestOperand o (.regShift (ShiftType.ofBits t) 0#4 0#4) = true := by
      decide +kernel
    have e : (rs ++ 0#1 ++ type.bits ++ 1#1 ++ rm : BitVec 12).extractLsb' 4 4 = 0#1 ++ type.bits ++ 1#1 := by
      apply ext_bits; intro k hk
      simp only [BitVec.getLsbD_append, BitVec.getLsbD_extractLsb']
      interval_cases k <;> simp
    have := key opc type.bits
    rw [ShiftType.ofBits_bits] at this
    simp only [Operand2.bits, Operand2.formBit, e]
    exact this

theorem Offset.low_bit (off : Offset) : off.formBit = 0#1 ∨ (off.bits.extractLsb' 4 4).getLsbD 0 = false := by
  cases off with
  | imm n => exact .inl rfl
  | shifted t a rm => exact .inr (by
      simp only [Offset.bits, BitVec.getLsbD_append, BitVec.getLsbD_extractLsb']; simp)

/-- The class of every index that a form with fixed class bits has (30_encoding.md R110). -/
structure ArmClassTable : Prop where
  multiply : ∀ a s : BitVec 1, armClass (0b000000#6 ++ a ++ s ++ 0b1001#4) = .multiply
  multiplyLong : ∀ u a s : BitVec 1, armClass (0b00001#5 ++ u ++ a ++ s ++ 0b1001#4) = .multiplyLong
  mrs : ∀ p : BitVec 1, armClass (0b00010#5 ++ p ++ 0b00#2 ++ 0b0000#4) = .mrs
  msrReg : ∀ p : BitVec 1, armClass (0b00010#5 ++ p ++ 0b10#2 ++ 0b0000#4) = .msrReg
  msrImm : ∀ (p : BitVec 1) (n : BitVec 4), armClass (0b00110#5 ++ p ++ 0b10#2 ++ n) = .msrImm
  swap : ∀ b : BitVec 1, armClass (0b00010#5 ++ b ++ 0b00#2 ++ 0b1001#4) = .swap
  bx : armClass 0b000100100001#12 = .bx
  half : ∀ (p u f w l : BitVec 1) (sh : BitVec 2), sh ≠ 0b00#2 → (l = 1#1 ∨ sh = 0b01#2) →
    armClass (0b000#3 ++ p ++ u ++ f ++ w ++ l ++ 1#1 ++ sh ++ 1#1) = .halfword
  sdt : ∀ (f p u b w l : BitVec 1) (n : BitVec 4), (f = 0#1 ∨ n.getLsbD 0 = false) →
    armClass (0b01#2 ++ f ++ p ++ u ++ b ++ w ++ l ++ n) = .singleTransfer
  block : ∀ (p u s w l : BitVec 1) (n : BitVec 4), armClass (0b100#3 ++ p ++ u ++ s ++ w ++ l ++ n) = .blockTransfer
  branch : ∀ (l : BitVec 1) (m n : BitVec 4), armClass (0b101#3 ++ l ++ m ++ n) = .branch
  coprocTransfer : ∀ (m : BitVec 4) (l : BitVec 1) (n : BitVec 4), armClass (0b110#3 ++ m ++ l ++ n) = .coprocTransfer
  coprocOperation : ∀ (m : BitVec 4) (n : BitVec 3), armClass (0b1110#4 ++ m ++ n ++ 0#1) = .coprocOperation
  coprocRegister : ∀ (m : BitVec 3) (l : BitVec 1) (n : BitVec 3),
    armClass (0b1110#4 ++ m ++ l ++ n ++ 1#1) = .coprocRegister
  swi : ∀ m n : BitVec 4, armClass (0b1111#4 ++ m ++ n) = .swi
  u1 : ∀ (b : BitVec 1) (n : BitVec 4), armClass (0b00110#5 ++ b ++ 0b00#2 ++ n) = .u1
  u2 : ∀ (m : BitVec 5) (n : BitVec 3), armClass (0b011#3 ++ m ++ n ++ 1#1) = .u2
  u3 : armClass 0b000101100001#12 = .u3
  u4 : ∀ (m : BitVec 2) (b : BitVec 1), armClass (0b00010#5 ++ m ++ 0#1 ++ 0b01#2 ++ b ++ 1#1) = .u4
  unknownMulSwap : ∀ sel : BitVec 5, isUnknownMulSwap sel = true → armClass (0b000#3 ++ sel ++ 0b1001#4) = .halfword
  unknownHalf : ∀ (m : BitVec 4) (b : BitVec 1), armClass (0b000#3 ++ m ++ 0#1 ++ 0b11#2 ++ b ++ 1#1) = .halfword

theorem armClassTable : ArmClassTable := by constructor <;> decide +kernel

/-! ### The index of each Thumb layout -/

theorem thumbIndex_imm5 (op imm : BitVec 5) (a b : LowReg) : thumbIndex (op ++ imm ++ a ++ b) = op ++ imm := by
  apply ext_bits; intro k hk
  simp only [thumbIndex, BitVec.getLsbD_append, BitVec.getLsbD_extractLsb']
  interval_cases k <;> simp

theorem thumbIndex_reg3 (op : BitVec 7) (a b c : LowReg) : thumbIndex (op ++ a ++ b ++ c) = op ++ a := by
  apply ext_bits; intro k hk
  simp only [thumbIndex, BitVec.getLsbD_append, BitVec.getLsbD_extractLsb']
  interval_cases k <;> simp

theorem thumbIndex_regImm8 (op : BitVec 5) (a : LowReg) (imm : BitVec 8) :
    thumbIndex (op ++ a ++ imm) = op ++ a ++ imm.extractLsb' 6 2 := by
  apply ext_bits; intro k hk
  simp only [thumbIndex, BitVec.getLsbD_append, BitVec.getLsbD_extractLsb']
  interval_cases k <;> simp

theorem thumbIndex_alu (op : BitVec 4) (a b : LowReg) : thumbIndex (encodeThumbAlu op a b) = 0b010000#6 ++ op := by
  apply ext_bits; intro k hk
  simp only [thumbIndex, encodeThumbAlu, BitVec.getLsbD_append, BitVec.getLsbD_extractLsb']
  interval_cases k <;> simp

theorem thumbIndex_high (op : BitVec 2) (h1 : BitVec 1) (rs : Reg) (low : BitVec 3) :
    thumbIndex (encodeThumbHigh op h1 rs low) = 0b010001#6 ++ op ++ h1 ++ rs.extractLsb' 3 1 := by
  apply ext_bits; intro k hk
  simp only [thumbIndex, encodeThumbHigh, BitVec.getLsbD_append, BitVec.getLsbD_extractLsb']
  interval_cases k <;> simp

theorem thumbIndex_regOffset (op : BitVec 3) (rd rb ro : LowReg) :
    thumbIndex (encodeThumbRegOffset op rd rb ro) = 0b0101#4 ++ op ++ ro := by
  apply ext_bits; intro k hk
  simp only [thumbIndex, encodeThumbRegOffset, BitVec.getLsbD_append, BitVec.getLsbD_extractLsb']
  interval_cases k <;> simp

theorem thumbIndex_adjSp (op : BitVec 8) (b : BitVec 1) (imm : BitVec 7) :
    thumbIndex (op ++ b ++ imm) = op ++ b ++ imm.extractLsb' 6 1 := by
  apply ext_bits; intro k hk
  simp only [thumbIndex, BitVec.getLsbD_append, BitVec.getLsbD_extractLsb']
  interval_cases k <;> simp

theorem thumbIndex_pushPop (op : BitVec 7) (b : BitVec 1) (list : BitVec 8) :
    thumbIndex (op ++ b ++ list) = op ++ b ++ list.extractLsb' 6 2 := by
  apply ext_bits; intro k hk
  simp only [thumbIndex, BitVec.getLsbD_append, BitVec.getLsbD_extractLsb']
  interval_cases k <;> simp

theorem thumbIndex_nibble (op c : BitVec 4) (imm : BitVec 8) :
    thumbIndex (op ++ c ++ imm) = op ++ c ++ imm.extractLsb' 6 2 := by
  apply ext_bits; intro k hk
  simp only [thumbIndex, BitVec.getLsbD_append, BitVec.getLsbD_extractLsb']
  interval_cases k <;> simp

theorem thumbIndex_imm8 (op imm : BitVec 8) : thumbIndex (op ++ imm) = op ++ imm.extractLsb' 6 2 := by
  apply ext_bits; intro k hk
  simp only [thumbIndex, BitVec.getLsbD_append, BitVec.getLsbD_extractLsb']
  interval_cases k <;> simp

theorem thumbIndex_imm11 (op : BitVec 5) (imm : BitVec 11) : thumbIndex (op ++ imm) = op ++ imm.extractLsb' 6 5 := by
  apply ext_bits; intro k hk
  simp only [thumbIndex, BitVec.getLsbD_append, BitVec.getLsbD_extractLsb']
  interval_cases k <;> simp

/-! ### The class of each Thumb layout -/

/-- The class of every index (30_encoding.md R130). -/
structure ThumbClassTable : Prop where
  moveShifted : ∀ op imm : BitVec 5, op.toNat < 3 → thumbClass (op ++ imm) = .moveShifted
  immOffset : ∀ op imm : BitVec 5, 12 ≤ op.toNat → op.toNat < 16 → thumbClass (op ++ imm) = .immOffset
  halfImm : ∀ op imm : BitVec 5, 16 ≤ op.toNat → op.toNat < 18 → thumbClass (op ++ imm) = .halfImm
  addSub : ∀ (op : BitVec 7) (a : BitVec 3), 12 ≤ op.toNat → op.toNat < 16 → thumbClass (op ++ a) = .addSub
  aluImm : ∀ (op : BitVec 5) (a : BitVec 3) (n : BitVec 2), 4 ≤ op.toNat → op.toNat < 8 →
    thumbClass (op ++ a ++ n) = .aluImm
  aluReg : ∀ op : BitVec 4, thumbClass (0b010000#6 ++ op) = .aluReg
  highReg : ∀ (op : BitVec 2) (a b : BitVec 1), thumbClass (0b010001#6 ++ op ++ a ++ b) = .highReg
  pcLoad : ∀ (a : BitVec 3) (n : BitVec 2), thumbClass (0b01001#5 ++ a ++ n) = .pcLoad
  regOffset : ∀ op ro : BitVec 3, op.getLsbD 0 = false → thumbClass (0b0101#4 ++ op ++ ro) = .regOffset
  signExt : ∀ op ro : BitVec 3, op.getLsbD 0 = true → thumbClass (0b0101#4 ++ op ++ ro) = .signExt
  spRel : ∀ (op : BitVec 5) (a : BitVec 3) (n : BitVec 2), 18 ≤ op.toNat → op.toNat < 20 →
    thumbClass (op ++ a ++ n) = .spRel
  loadAddr : ∀ (op : BitVec 5) (a : BitVec 3) (n : BitVec 2), 20 ≤ op.toNat → op.toNat < 22 →
    thumbClass (op ++ a ++ n) = .loadAddr
  spAdd : ∀ a b : BitVec 1, thumbClass (0b10110000#8 ++ a ++ b) = .spAdd
  pushPop : ∀ (op : BitVec 7) (a : BitVec 1) (n : BitVec 2), (op = 0b1011010#7 ∨ op = 0b1011110#7) →
    thumbClass (op ++ a ++ n) = .pushPop
  multiple : ∀ (op : BitVec 5) (a : BitVec 3) (n : BitVec 2), 24 ≤ op.toNat → op.toNat < 26 →
    thumbClass (op ++ a ++ n) = .multiple
  undefined1 : ∀ n : BitVec 2, thumbClass (0b11011110#8 ++ n) = .undefined1
  swi : ∀ n : BitVec 2, thumbClass (0b11011111#8 ++ n) = .swi
  condBranch : ∀ (c : BitVec 4) (n : BitVec 2), c.toNat < 14 → thumbClass (0b1101#4 ++ c ++ n) = .condBranch
  branch : ∀ n : BitVec 5, thumbClass (0b11100#5 ++ n) = .branch
  undefined2 : ∀ n : BitVec 5, thumbClass (0b11101#5 ++ n) = .undefined2
  longBranch : ∀ op n : BitVec 5, 30 ≤ op.toNat → thumbClass (op ++ n) = .longBranch
  unknown : ∀ (sel : BitVec 4) (n : BitVec 2), isUnknownThumb sel = true →
    thumbClass (0b1011#4 ++ sel ++ n) = .unknown

theorem thumbClassTable : ThumbClassTable := by constructor <;> decide +kernel

end Sys2Proof
end

