-- ==== Sys2Proof/Laws/Evolves.lean ====
section
/-! SUPPORT. Once and for all what an instruction can do to the state: every meaning is a chain of the operations below, ending in
a next state, in HACF or in an exception entry. An invariant of the machine is proved over this list, not over 116 meanings. -/

namespace Sys2Proof.Machine

/-- A chain of the operations instructions are written over; `w` says whether it may write memory. -/
inductive Evolves (w : Bool) (s : State) : State → Prop where
  | refl : Evolves w s s
  | emit {t : State} (h : Evolves w s t) (e : PortEvent) (he : e ≠ .breakpoint) : Evolves w s (t.emit e)
  | fetchOpcode {t : State} (h : Evolves w s t) : Evolves w s t.fetchOpcode
  | flushPipeline {t : State} (h : Evolves w s t) : Evolves w s t.flushPipeline
  | writeReg {t : State} (h : Evolves w s t) (n : Reg) (v : Word) : Evolves w s (t.writeReg n v)
  | writeUserReg {t : State} (h : Evolves w s t) (n : Reg) (v : Word) : Evolves w s (t.writeUserReg n v)
  | setFlags {t : State} (h : Evolves w s t) (f : Flags) : Evolves w s (t.setFlags f)
  | setT {t : State} (h : Evolves w s t) (b : Bool) : Evolves w s { t with cpsr := Psr.withT t.cpsr b }
  | setR15 {t : State} (h : Evolves w s t) (x : Word) : Evolves w s { t with r15 := x }
  | setFetchType {t : State} (h : Evolves w s t) (b : Bool) : Evolves w s { t with nextFetchType := b }
  | dataWrite {t : State} (h : Evolves w s t) (hw : w = true) (width : Width) (a v : Word) (q : Bool) :
      Evolves w s (t.dataWrite width a v q)
  | leaveMode {t u : State} (h : Evolves w s t) (hl : t.leaveMode = some u) : Evolves w s u
  | writeCpsr {t u : State} (h : Evolves w s t) (mask : BitVec 4) (v : Word)
      (hu : t.writeCpsr (msrMask mask) v = some u) : Evolves w s u
  | writeCurrentSpsr {t : State} (h : Evolves w s t) (mask : BitVec 4) (v : Word) :
      Evolves w s (t.writeCurrentSpsr (msrMask mask) v)

/-- How an instruction ends: with the chain's state, with HACF, or with an exception entry right after the fetch. -/
def Ends (w : Bool) (s t : State) : Prop :=
  (∃ u, Evolves w s u ∧ (t = u ∨ t = u.hacf)) ∨
    ∃ x link, (x = Exception.swi ∨ x = .undefined) ∧ t = s.fetchOpcode.takeException x link

namespace Evolves

variable {w : Bool} {s t : State}

theorem ends (h : Evolves w s t) : Ends w s t := .inl ⟨t, h, .inl rfl⟩

theorem internalCycle (h : Evolves w s t) (n : Nat) : Evolves w s (t.internalCycle n) := h.emit _ (by simp)

theorem dataRead (h : Evolves w s t) (width : Width) (a : Word) (q : Bool) : Evolves w s (t.dataRead width a q) :=
  h.emit _ (by simp)

theorem jump (h : Evolves w s t) (x : Word) : Evolves w s (t.jump x) := (h.setR15 x).flushPipeline

theorem writeBack (h : Evolves w s t) (n : Reg) (o : Option Word) : Evolves w s (t.writeBack n o) := by
  cases o with
  | none => exact h
  | some v => exact h.writeReg n v

theorem ite {p : Prop} [Decidable p] {a b : State} (ha : Evolves w s a) (hb : Evolves w s b) :
    Evolves w s (if p then a else b) := by
  split
  · exact ha
  · exact hb

theorem operandFetch (h : Evolves w s t) (op2 : Operand2) : Evolves w s (t.operandFetch op2) :=
  ite (h.fetchOpcode.internalCycle 1) h

theorem closingFetch (h : Evolves w s t) (op2 : Operand2) : Evolves w s (t.closingFetch op2) := ite h h.fetchOpcode

end Evolves

section Shapes

variable (w : Bool) (s : State)

theorem dpStatus_evolves {t u : State} (h : Evolves w s t) {setFlags : Bool} {rd : Reg} {r : AluResult}
    (hu : t.dpStatus setFlags rd r = some u) : Evolves w s u := by
  unfold State.dpStatus at hu
  split at hu
  · exact h.leaveMode hu
  · split at hu
    · exact Option.some.inj hu ▸ h.setFlags _
    · exact Option.some.inj hu ▸ h

theorem dataProcessing_ends (op : AluOp) (setFlags : Bool) (rn rd : Reg) (op2 : Operand2) :
    Ends w s (s.dataProcessing op setFlags rn rd op2) := by
  have h := (Evolves.refl (w := w) (s := s)).operandFetch op2
  unfold State.dataProcessing
  simp only []
  split
  · exact .inl ⟨_, h, .inr rfl⟩
  · rename_i u hu
    have h2 := dpStatus_evolves w s h hu
    split
    · exact ((h2.closingFetch op2).jump _).ends
    · exact ((h2.writeReg rd _).closingFetch op2).ends

theorem testProcessing_ends (op : AluOp) (setFlags : Bool) (rn rd : Reg) (op2 : Operand2) :
    Ends w s (s.testProcessing op setFlags rn rd op2) := by
  have h := (Evolves.refl (w := w) (s := s)).operandFetch op2
  unfold State.testProcessing
  simp only []
  split
  · exact .inl ⟨_, h, .inr rfl⟩
  · rename_i u hu
    exact ((dpStatus_evolves w s h hu).closingFetch op2).ends

theorem finishMultiply_ends (setFlags : Bool) (rd : Reg) (v : Word) (n : Nat) :
    Ends w s (s.finishMultiply setFlags rd v n) := by
  have h := ((Evolves.refl (w := w) (s := s)).fetchOpcode.internalCycle n).writeReg rd v
  exact (Evolves.ite (h.setFlags _) h).ends

theorem finishMultiplyLong_ends (setFlags : Bool) (hi lo : Reg) (r : BitVec 64) (n : Nat) :
    Ends w s (s.finishMultiplyLong setFlags hi lo r n) := by
  have h := (((Evolves.refl (w := w) (s := s)).fetchOpcode.internalCycle n).writeReg lo (r.extractLsb' 0 32)).writeReg hi
    (r.extractLsb' 32 32)
  exact (Evolves.ite (h.setFlags _) h).ends

theorem loadTransfer_ends (k : LoadKind) (ix : Indexing) (rn rd : Reg) (o : Word) :
    Ends w s (s.loadTransfer k ix rn rd o) := by
  have h := (((((Evolves.refl (w := w) (s := s)).fetchOpcode.dataRead k.width
    (transferAddress ix (s.readReg rn) o) false).writeBack rn (writeBackValue ix (s.readReg rn) o)).writeReg rd
    (s.fetchOpcode.loadValue k (transferAddress ix (s.readReg rn) o))).internalCycle 1)
  exact (Evolves.ite h.flushPipeline h).ends

theorem storeTransfer_ends (width : Width) (ix : Indexing) (rn rd : Reg) (o : Word) :
    Ends true s (s.storeTransfer width ix rn rd o) :=
  ((((Evolves.refl (w := true) (s := s)).fetchOpcode.dataWrite rfl width _ _ false).writeBack rn _).setFetchType false).ends

theorem swapTransfer_ends (k : LoadKind) (rn rd rm : Reg) : Ends true s (s.swapTransfer k rn rd rm) := by
  have h := ((((Evolves.refl (w := true) (s := s)).fetchOpcode.dataRead k.width (s.readReg rn) false).dataWrite rfl k.width
    (s.readReg rn) (s.readReg rm) false).internalCycle 1).writeReg rd (s.fetchOpcode.loadValue k (s.readReg rn))
  exact (Evolves.ite h.flushPipeline h).ends

theorem loadRegisters_evolves (ub : Bool) (rn : Reg) (regs : List Reg) : ∀ {t : State} (wb : Option Word) (a : Word)
    (q : Bool), Evolves w s t → Evolves w s (t.loadRegisters ub rn wb regs a q) := by
  induction regs with
  | nil => intro t wb a q h; exact h
  | cons r rest ih =>
    intro t wb a q h
    have h1 := (h.dataRead .word a q).writeBack rn wb
    exact ih none (a + 4#32) true (Evolves.ite (h1.writeUserReg r _) (h1.writeReg r _))

theorem storeRegisters_evolves (ub : Bool) (rn : Reg) (regs : List Reg) : ∀ {t : State} (wb : Option Word) (a : Word)
    (q : Bool), Evolves true s t → Evolves true s (t.storeRegisters ub rn wb regs a q) := by
  induction regs with
  | nil => intro t wb a q h; exact h
  | cons r rest ih =>
    intro t wb a q h
    exact ih none (a + 4#32) true ((h.dataWrite rfl .word a _ q).writeBack rn wb)

theorem loadMultiple_ends (ix : Indexing) (sBit : Bool) (rn : Reg) (list : BitVec 16) :
    Ends w s (s.loadMultiple ix sBit rn list) := by
  unfold State.loadMultiple
  simp only []
  have h := (loadRegisters_evolves w s (sBit && !(registerList list).contains 15#4) rn (registerList list)
    (s.blockBase ix rn list) (s.blockAddress ix rn list) false Evolves.refl.fetchOpcode).internalCycle 1
  split
  · unfold State.finishLoadPc
    split
    · split
      · rename_i u hu
        exact (h.leaveMode hu).flushPipeline.ends
      · exact .inl ⟨_, h, .inr rfl⟩
    · exact h.flushPipeline.ends
  · exact h.ends

theorem storeMultiple_ends (ix : Indexing) (sBit : Bool) (rn : Reg) (list : BitVec 16) :
    Ends true s (s.storeMultiple ix sBit rn list) :=
  ((storeRegisters_evolves s sBit rn (registerList list) (s.blockBase ix rn list) (s.blockAddress ix rn list) false
    Evolves.refl.fetchOpcode).setFetchType false).ends

theorem exchange_evolves {t : State} (h : Evolves w s t) (v : Word) : Evolves w s (t.exchange v) := (h.setT _).jump _

theorem msr_ends (spsr : Bool) (mask : BitVec 4) (v : Word) : Ends w s (s.msr spsr mask v) := by
  unfold State.msr
  split
  · exact (Evolves.refl.writeCurrentSpsr mask v).fetchOpcode.ends
  · split
    · rename_i u hu
      exact (Evolves.refl.writeCpsr mask v hu).fetchOpcode.ends
    · exact .inl ⟨_, Evolves.refl, .inr rfl⟩

theorem enterUndefined_ends : Ends w s s.enterUndefined :=
  .inr ⟨.undefined, _, .inr rfl, rfl⟩

theorem enterSwi_ends : Ends w s s.enterSwi := .inr ⟨.swi, _, .inl rfl, rfl⟩

theorem hacf_ends : Ends w s s.hacf := .inl ⟨_, Evolves.refl, .inr rfl⟩

theorem coprocessorTransfer_ends (cp : BitVec 4) : Ends w s (s.coprocessorTransfer cp) := by
  unfold State.coprocessorTransfer
  split
  · exact Evolves.refl.fetchOpcode.ends
  · exact enterUndefined_ends w s

theorem conditional_ends (c : Cond) {f : State → State} (h : Ends w s (f s)) : Ends w s (s.conditional c f) := by
  unfold State.conditional
  split
  · exact h
  · exact Evolves.refl.fetchOpcode.ends

theorem thumbResult_ends (rd : LowReg) (r : AluResult) : Ends w s (s.thumbResult rd r) :=
  ((Evolves.refl.writeReg _ _).setFlags _).fetchOpcode.ends

theorem thumbCompare_ends (r : AluResult) : Ends w s (s.thumbCompare r) := (Evolves.refl.setFlags _).fetchOpcode.ends

theorem thumbShiftReg_ends (type : ShiftType) (rd rs : LowReg) : Ends w s (s.thumbShiftReg type rd rs) :=
  (((Evolves.refl.fetchOpcode.internalCycle 1).writeReg _ _).setFlags _).ends

theorem thumbHighResult_ends (rd : Reg) (v : Word) : Ends w s (s.thumbHighResult rd v) :=
  (Evolves.ite (Evolves.refl.fetchOpcode.writeReg rd v).flushPipeline (Evolves.refl.fetchOpcode.writeReg rd v)).ends

theorem thumbLoadAt_ends (a : Word) (rd : LowReg) : Ends w s (s.thumbLoadAt a rd) :=
  (((Evolves.refl.fetchOpcode.dataRead .word a false).writeReg _ _).internalCycle 1).ends

end Shapes

end Sys2Proof.Machine
end

