-- ==== Sys2Proof/Laws/Exceptions.lean ====
section
/-! SUPPORT. What every exception entry leaves (60_exceptions.md R505), said once over `takeException`, and how the end of a
step keeps it. -/

namespace Sys2Proof.Machine

namespace Psr

/-- Bits 31 to 8 are no mode, mask or state bit. -/
@[simp] theorem upper_withMode (p : Word) (m : Mode) : (withMode p m).extractLsb' 8 24 = p.extractLsb' 8 24 := by
  apply BitVec.eq_of_getLsbD_eq; intro k hk
  simp only [withMode, BitVec.getLsbD_extractLsb', BitVec.getLsbD_append]
  interval_cases k <;> simp

@[simp] theorem upper_withI (p : Word) (b : Bool) : (withI p b).extractLsb' 8 24 = p.extractLsb' 8 24 := by
  apply BitVec.eq_of_getLsbD_eq; intro k hk
  simp only [withI, BitVec.getLsbD_extractLsb', BitVec.getLsbD_append]
  interval_cases k <;> simp

@[simp] theorem upper_withF (p : Word) (b : Bool) : (withF p b).extractLsb' 8 24 = p.extractLsb' 8 24 := by
  apply BitVec.eq_of_getLsbD_eq; intro k hk
  simp only [withF, BitVec.getLsbD_extractLsb', BitVec.getLsbD_append]
  interval_cases k <;> simp

@[simp] theorem upper_withT (p : Word) (b : Bool) : (withT p b).extractLsb' 8 24 = p.extractLsb' 8 24 := by
  apply BitVec.eq_of_getLsbD_eq; intro k hk
  simp only [withT, BitVec.getLsbD_extractLsb', BitVec.getLsbD_append]
  interval_cases k <;> simp

end Psr

/-- Every exception enters a mode that has an SPSR. -/
theorem Exception.bank_ne_usr (x : Exception) : x.mode.bank ≠ .usr := by cases x <;> decide

/-- CPSR after an entry. -/
theorem takeException_cpsr (s : State) (x : Exception) (link : Word) :
    (s.takeException x link).cpsr =
      Psr.withT (if x.masksFiq then Psr.withF (Psr.withI (Psr.withMode s.cpsr x.mode) true) true
        else Psr.withI (Psr.withMode s.cpsr x.mode) true) false := by
  simp [State.takeException]

theorem takeException_bank (s : State) (x : Exception) (link : Word) : (s.takeException x link).bank = x.mode.bank := by
  unfold State.bank
  rw [takeException_cpsr]
  cases x <;> simp [Exception.masksFiq, Exception.mode]

/-- The register file after an entry: R14 of the new mode is written. -/
theorem takeException_regs (s : State) (x : Exception) (link : Word) :
    (s.takeException x link).regs = ((s.enterMode x.mode).writeReg 14#4 link).regs := rfl

theorem takeException_spsrOf (s : State) (x : Exception) (link : Word) (b : Bank) :
    (s.takeException x link).spsrOf b = (s.enterMode x.mode).spsrOf b :=
  State.writeReg_spsrOf ..

theorem takeException_width (s : State) (x : Exception) (link : Word) : (s.takeException x link).width = .word := by
  unfold State.width; rw [takeException_cpsr]; simp

theorem takeException_widthBytes (s : State) (x : Exception) (link : Word) :
    (s.takeException x link).widthBytes = 4#32 := by
  unfold State.widthBytes; rw [takeException_cpsr]; simp

theorem takeException_r15 (s : State) (x : Exception) (link : Word) :
    (s.takeException x link).r15 = x.vector + 8#32 := by
  have h : (s.takeException x link).r15 = (s.takeException x link).width.align x.vector +
      (s.takeException x link).widthBytes + (s.takeException x link).widthBytes := rfl
  rw [h, takeException_width, takeException_widthBytes]
  cases x <;> rfl

/-- Every field an entry does not name. -/
theorem takeException_other (s : State) (x : Exception) (link : Word) :
    (s.takeException x link).pendingFiq = s.pendingFiq ∧ (s.takeException x link).pendingIrq = s.pendingIrq ∧
      (s.takeException x link).halted = s.halted ∧ (s.takeException x link).breakpoints = s.breakpoints ∧
      (s.takeException x link).toggles = s.toggles ∧ (s.takeException x link).mem = s.mem := by
  simp [State.takeException]

/-- Taking an exception, whole (R505). -/
theorem entryResult_takeException (s : State) (x : Exception) (link : Word) :
    EntryResult s (s.takeException x link) x link where
  saved := by rw [takeException_spsrOf, State.enterMode_spsrOf_same x.bank_ne_usr]
  link := by
    have h : (s.takeException x link).readReg 14#4 = ((s.enterMode x.mode).writeReg 14#4 link).readReg 14#4 := by
      unfold State.readReg
      rw [takeException_bank, State.writeReg_bank, State.enterMode_bank]
      exact State.readRegOf_of_ne (by decide) (takeException_regs ..)
    rw [h]; simp
  mode := by rw [takeException_cpsr]; cases x <;> simp [Exception.masksFiq]
  irqMasked := by rw [takeException_cpsr]; cases x <;> simp [Exception.masksFiq]
  fiqMasked := by rw [takeException_cpsr]; cases x <;> simp [Exception.masksFiq]
  armState := by rw [takeException_cpsr]; simp
  upper := by rw [takeException_cpsr]; cases x <;> simp [Exception.masksFiq]
  vector := continuesAt_jump ..
  registers := fun k hk => by
    simp only [List.mem_singleton] at hk
    rw [takeException_regs, State.regs_writeReg (by simpa using fun e => hk e.symm)]
    simp
  otherSpsrs := fun b hne => by rw [takeException_spsrOf, State.enterMode_spsrOf_of_ne hne.symm]
  memory := SameMemory.of_eq (takeException_other s x link).2.2.2.2.2
  halted := (takeException_other s x link).2.2.1
  breakpoints := (takeException_other s x link).2.2.2.1
  toggles := (takeException_other s x link).2.2.2.2.1

/-- An entry seen from an earlier state with the same registers, status, memory and index. -/
theorem EntryResult.of_earlier {s u t : State} {x : Exception} {link : Word} (h : EntryResult u t x link)
    (hr : u.regs = s.regs) (hc : u.cpsr = s.cpsr) (hs : ∀ b, u.spsrOf b = s.spsrOf b) (hm : u.mem = s.mem)
    (hh : u.halted = s.halted) (hb : u.breakpoints = s.breakpoints) (ht : u.toggles = s.toggles) :
    EntryResult s t x link :=
  ⟨by rw [h.saved, hc], h.link, h.mode, h.irqMasked, by rw [h.fiqMasked, hc], h.armState, by rw [h.upper, hc], h.vector,
    fun k hk => by rw [h.registers k hk, hr], fun b hb => by rw [h.otherSpsrs b hb, hs], fun a => by rw [h.memory a, hm],
    by rw [h.halted, hh], by rw [h.breakpoints, hb], by rw [h.toggles, ht]⟩

theorem EntryResult.emit {s t : State} {x : Exception} {link : Word} (h : EntryResult s t x link) (e : PortEvent) :
    EntryResult s (t.emit e) x link :=
  ⟨h.saved, h.link, h.mode, h.irqMasked, h.fiqMasked, h.armState, h.upper,
    ⟨h.vector.pc, h.vector.current, h.vector.next, h.vector.fetchType⟩, h.registers, h.otherSpsrs, h.memory, h.halted,
    h.breakpoints, h.toggles⟩

/-- The software-interrupt entry saves the address of the next instruction (R503). -/
theorem enterSwi_eq (s : State) :
    s.enterSwi = s.fetchOpcode.takeException .swi (s.r15 - (if Psr.t s.cpsr then 2#32 else 4#32)) := by
  have h : s.fetchOpcode.r15 - (if Psr.t s.fetchOpcode.cpsr then 4#32 else 8#32) =
      s.r15 - (if Psr.t s.cpsr then 2#32 else 4#32) := by
    simp only [State.fetchOpcode_r15, State.fetchOpcode_cpsr, State.widthBytes]
    by_cases ht : Psr.t s.cpsr = true <;> simp only [ht, if_true, if_false, Bool.false_eq_true] <;> bv_omega
  exact congrArg (s.fetchOpcode.takeException .swi) h

/-- The end of a step of a running core is the state or the state with a breakpoint signalled. -/
theorem finishStep_next (t : State) : finishStep (.next t) = .next t ∨ finishStep (.next t) = .next (t.emit .breakpoint) := by
  simp only [finishStep, State.breakpointCheck]
  split
  · exact .inl rfl
  · split
    · exact .inr rfl
    · exact .inl rfl

end Sys2Proof.Machine
end

