-- ==== Sys2Proof/Laws/ExecEnds.lean ====
section
/-! SUPPORT. Every instruction is a chain of the operations of Evolves.lean and has one of three ends; the instructions that
write no memory use no write. -/

namespace Sys2Proof.Machine

/-- Every instruction answers a next state. -/
theorem exec_next (i : Instr) (s : State) : ∃ t, exec i s = .next t := by cases i <;> exact ⟨_, rfl⟩

theorem exec_ends {i : Instr} {s t : State} (h : exec i s = .next t) : Ends (writesMemory i) s t := by
  cases i <;> cases h
  case and => exact conditional_ends _ _ _ (dataProcessing_ends ..)
  case eor => exact conditional_ends _ _ _ (dataProcessing_ends ..)
  case sub => exact conditional_ends _ _ _ (dataProcessing_ends ..)
  case rsb => exact conditional_ends _ _ _ (dataProcessing_ends ..)
  case add => exact conditional_ends _ _ _ (dataProcessing_ends ..)
  case adc => exact conditional_ends _ _ _ (dataProcessing_ends ..)
  case sbc => exact conditional_ends _ _ _ (dataProcessing_ends ..)
  case rsc => exact conditional_ends _ _ _ (dataProcessing_ends ..)
  case orr => exact conditional_ends _ _ _ (dataProcessing_ends ..)
  case mov => exact conditional_ends _ _ _ (dataProcessing_ends ..)
  case bic => exact conditional_ends _ _ _ (dataProcessing_ends ..)
  case mvn => exact conditional_ends _ _ _ (dataProcessing_ends ..)
  case tst => exact conditional_ends _ _ _ (testProcessing_ends ..)
  case teq => exact conditional_ends _ _ _ (testProcessing_ends ..)
  case cmp => exact conditional_ends _ _ _ (testProcessing_ends ..)
  case cmn => exact conditional_ends _ _ _ (testProcessing_ends ..)
  case testNoS => exact conditional_ends _ _ _ (testProcessing_ends ..)
  case mul => exact conditional_ends _ _ _ (finishMultiply_ends ..)
  case mla => exact conditional_ends _ _ _ (finishMultiply_ends ..)
  case umull => exact conditional_ends _ _ _ (finishMultiplyLong_ends ..)
  case umlal => exact conditional_ends _ _ _ (finishMultiplyLong_ends ..)
  case smull => exact conditional_ends _ _ _ (finishMultiplyLong_ends ..)
  case smlal => exact conditional_ends _ _ _ (finishMultiplyLong_ends ..)
  case ldr => exact conditional_ends _ _ _ (loadTransfer_ends ..)
  case ldrb => exact conditional_ends _ _ _ (loadTransfer_ends ..)
  case ldrh => exact conditional_ends _ _ _ (loadTransfer_ends ..)
  case ldrsb => exact conditional_ends _ _ _ (loadTransfer_ends ..)
  case ldrsh => exact conditional_ends _ _ _ (loadTransfer_ends ..)
  case str => exact conditional_ends _ _ _ (storeTransfer_ends ..)
  case strb => exact conditional_ends _ _ _ (storeTransfer_ends ..)
  case strh => exact conditional_ends _ _ _ (storeTransfer_ends ..)
  case swp => exact conditional_ends _ _ _ (swapTransfer_ends ..)
  case swpb => exact conditional_ends _ _ _ (swapTransfer_ends ..)
  case ldm => exact conditional_ends _ _ _ (loadMultiple_ends ..)
  case stm => exact conditional_ends _ _ _ (storeMultiple_ends ..)
  case b => exact conditional_ends _ _ _ (Evolves.refl.fetchOpcode.jump _).ends
  case bl => exact conditional_ends _ _ _ ((Evolves.refl.fetchOpcode.writeReg _ _).jump _).ends
  case bx => exact conditional_ends _ _ _ (exchange_evolves _ _ Evolves.refl.fetchOpcode _).ends
  case mrs => exact conditional_ends _ _ _ (Evolves.refl.writeReg _ _).fetchOpcode.ends
  case msrReg => exact conditional_ends _ _ _ (msr_ends ..)
  case msrImm => exact conditional_ends _ _ _ (msr_ends ..)
  case stc => exact conditional_ends _ _ _ (enterUndefined_ends ..)
  case ldc => exact conditional_ends _ _ _ (enterUndefined_ends ..)
  case cdp => exact conditional_ends _ _ _ (enterUndefined_ends ..)
  case mcr => exact conditional_ends _ _ _ (coprocessorTransfer_ends ..)
  case mrc => exact conditional_ends _ _ _ (coprocessorTransfer_ends ..)
  case swi => exact conditional_ends _ _ _ (enterSwi_ends ..)
  case undefinedU1 => exact conditional_ends _ _ _ (enterUndefined_ends ..)
  case undefinedU2 => exact conditional_ends _ _ _ (enterUndefined_ends ..)
  case undefinedU3 => exact conditional_ends _ _ _ (enterUndefined_ends ..)
  case undefinedU4 => exact conditional_ends _ _ _ (enterUndefined_ends ..)
  case unknownMulSwap => exact conditional_ends _ _ _ (hacf_ends ..)
  case unknownHalf => exact conditional_ends _ _ _ (hacf_ends ..)
  case tAddHi => exact thumbHighResult_ends ..
  case tMovHi => exact thumbHighResult_ends ..
  case tLslReg => exact thumbShiftReg_ends ..
  case tLsrReg => exact thumbShiftReg_ends ..
  case tAsrReg => exact thumbShiftReg_ends ..
  case tRorReg => exact thumbShiftReg_ends ..
  case tMul => exact (((Evolves.refl.fetchOpcode.internalCycle _).writeReg _ _).setFlags _).ends
  case tBx => exact (exchange_evolves _ _ Evolves.refl.fetchOpcode _).ends
  case tLdrPc => exact thumbLoadAt_ends ..
  case tAddPc => exact (Evolves.refl.writeReg _ _).fetchOpcode.ends
  case tAddSp => exact (Evolves.refl.writeReg _ _).fetchOpcode.ends
  case tAdjSp => exact (Evolves.refl.writeReg _ _).fetchOpcode.ends
  case tPush => exact storeMultiple_ends ..
  case tStmia => exact storeMultiple_ends ..
  case tPop => exact loadMultiple_ends ..
  case tLdmia => exact loadMultiple_ends ..
  case tBCond => exact (Evolves.ite (Evolves.refl.fetchOpcode.jump _) Evolves.refl.fetchOpcode).ends
  case tUndefined1 => exact enterUndefined_ends ..
  case tUndefined2 => exact enterUndefined_ends ..
  case tSwi => exact enterSwi_ends ..
  case tB => exact (Evolves.refl.fetchOpcode.jump _).ends
  case tBlFirst => exact (Evolves.refl.fetchOpcode.writeReg _ _).ends
  case tBlSecond => exact ((Evolves.refl.fetchOpcode.writeReg _ _).jump _).ends
  case tUnknown => exact hacf_ends ..
  case tLslImm => exact thumbResult_ends ..
  case tLsrImm => exact thumbResult_ends ..
  case tAsrImm => exact thumbResult_ends ..
  case tAddReg => exact thumbResult_ends ..
  case tSubReg => exact thumbResult_ends ..
  case tAddImm3 => exact thumbResult_ends ..
  case tSubImm3 => exact thumbResult_ends ..
  case tMovImm => exact thumbResult_ends ..
  case tAddImm8 => exact thumbResult_ends ..
  case tSubImm8 => exact thumbResult_ends ..
  case tAnd => exact thumbResult_ends ..
  case tEor => exact thumbResult_ends ..
  case tAdc => exact thumbResult_ends ..
  case tSbc => exact thumbResult_ends ..
  case tNeg => exact thumbResult_ends ..
  case tOrr => exact thumbResult_ends ..
  case tBic => exact thumbResult_ends ..
  case tMvn => exact thumbResult_ends ..
  case tCmpImm => exact thumbCompare_ends ..
  case tTst => exact thumbCompare_ends ..
  case tCmpReg => exact thumbCompare_ends ..
  case tCmn => exact thumbCompare_ends ..
  case tCmpHi => exact thumbCompare_ends ..
  case tLdrReg => exact loadTransfer_ends ..
  case tLdrbReg => exact loadTransfer_ends ..
  case tLdsbReg => exact loadTransfer_ends ..
  case tLdrhReg => exact loadTransfer_ends ..
  case tLdshReg => exact loadTransfer_ends ..
  case tLdrImm => exact loadTransfer_ends ..
  case tLdrbImm => exact loadTransfer_ends ..
  case tLdrhImm => exact loadTransfer_ends ..
  case tLdrSp => exact loadTransfer_ends ..
  case tStrReg => exact storeTransfer_ends ..
  case tStrbReg => exact storeTransfer_ends ..
  case tStrhReg => exact storeTransfer_ends ..
  case tStrImm => exact storeTransfer_ends ..
  case tStrbImm => exact storeTransfer_ends ..
  case tStrhImm => exact storeTransfer_ends ..
  case tStrSp => exact storeTransfer_ends ..

end Sys2Proof.Machine
end

