-- ==== Sys2Proof/Laws/PerInstr.lean ====
section
/-! SUPPORT. The family ClassOf: the word of every well-formed instruction falls in the decode class of the instruction
(30_encoding.md R110, R130), one lemma per constructor. -/

namespace Sys2Proof.Laws.ClassOf

/-- A class of either instruction set. -/
inductive Class where
  | arm (c : ArmClass)
  | thumb (c : ThumbClass)
  deriving DecidableEq, Repr

/-- The class the decoder finds for a word. -/
def ofCode : Code → Class
  | .arm w => .arm (armClass (armIndex w))
  | .thumb h => .thumb (thumbClass (thumbIndex h))

/-- The class an instruction belongs to. -/
def ofInstr : Instr → Class
  | .and .. | .eor .. | .sub .. | .rsb .. | .add .. | .adc .. | .sbc .. | .rsc .. | .tst .. | .teq .. | .cmp ..
  | .cmn .. | .orr .. | .mov .. | .bic .. | .mvn .. | .testNoS .. => .arm .dataProcessing
  | .mul .. | .mla .. => .arm .multiply
  | .umull .. | .umlal .. | .smull .. | .smlal .. => .arm .multiplyLong
  | .mrs .. => .arm .mrs
  | .msrReg .. => .arm .msrReg
  | .msrImm .. => .arm .msrImm
  | .swp .. | .swpb .. => .arm .swap
  | .bx .. => .arm .bx
  | .strh .. | .ldrh .. | .ldrsb .. | .ldrsh .. => .arm .halfword
  | .ldr .. | .str .. | .ldrb .. | .strb .. => .arm .singleTransfer
  | .ldm .. | .stm .. => .arm .blockTransfer
  | .b .. | .bl .. => .arm .branch
  | .stc .. | .ldc .. => .arm .coprocTransfer
  | .cdp .. => .arm .coprocOperation
  | .mcr .. | .mrc .. => .arm .coprocRegister
  | .swi .. => .arm .swi
  | .undefinedU1 .. => .arm .u1
  | .undefinedU2 .. => .arm .u2
  | .undefinedU3 .. => .arm .u3
  | .undefinedU4 .. => .arm .u4
  | .unknownMulSwap .. | .unknownHalf .. => .arm .halfword
  | .tLslImm .. | .tLsrImm .. | .tAsrImm .. => .thumb .moveShifted
  | .tAddReg .. | .tSubReg .. | .tAddImm3 .. | .tSubImm3 .. => .thumb .addSub
  | .tMovImm .. | .tCmpImm .. | .tAddImm8 .. | .tSubImm8 .. => .thumb .aluImm
  | .tAnd .. | .tEor .. | .tLslReg .. | .tLsrReg .. | .tAsrReg .. | .tAdc .. | .tSbc .. | .tRorReg ..
  | .tTst .. | .tNeg .. | .tCmpReg .. | .tCmn .. | .tOrr .. | .tMul .. | .tBic .. | .tMvn .. => .thumb .aluReg
  | .tAddHi .. | .tCmpHi .. | .tMovHi .. | .tBx .. => .thumb .highReg
  | .tLdrPc .. => .thumb .pcLoad
  | .tStrReg .. | .tStrbReg .. | .tLdrReg .. | .tLdrbReg .. => .thumb .regOffset
  | .tStrhReg .. | .tLdsbReg .. | .tLdrhReg .. | .tLdshReg .. => .thumb .signExt
  | .tStrImm .. | .tLdrImm .. | .tStrbImm .. | .tLdrbImm .. => .thumb .immOffset
  | .tStrhImm .. | .tLdrhImm .. => .thumb .halfImm
  | .tStrSp .. | .tLdrSp .. => .thumb .spRel
  | .tAddPc .. | .tAddSp .. => .thumb .loadAddr
  | .tAdjSp .. => .thumb .spAdd
  | .tPush .. | .tPop .. => .thumb .pushPop
  | .tStmia .. | .tLdmia .. => .thumb .multiple
  | .tBCond .. => .thumb .condBranch
  | .tUndefined1 .. => .thumb .undefined1
  | .tSwi .. => .thumb .swi
  | .tB .. => .thumb .branch
  | .tUndefined2 .. => .thumb .undefined2
  | .tBlFirst .. | .tBlSecond .. => .thumb .longBranch
  | .tUnknown .. => .thumb .unknown

/-- The word of a well-formed instruction is in the instruction's class. -/
def Statement (i : Instr) : Prop := i.wellFormed = true → ofCode (encode i) = ofInstr i

theorem and (cond : Cond) (s : Bool) (rn rd : Reg) (op2 : Operand2) :
    Statement (.and cond s rn rd op2) := fun _ =>
  congrArg Class.arm ((congrArg armClass (armIndex_dp ..)).trans (armClass_dp _ _ _ fun h => absurd h (by decide)))

theorem eor (cond : Cond) (s : Bool) (rn rd : Reg) (op2 : Operand2) :
    Statement (.eor cond s rn rd op2) := fun _ =>
  congrArg Class.arm ((congrArg armClass (armIndex_dp ..)).trans (armClass_dp _ _ _ fun h => absurd h (by decide)))

theorem sub (cond : Cond) (s : Bool) (rn rd : Reg) (op2 : Operand2) :
    Statement (.sub cond s rn rd op2) := fun _ =>
  congrArg Class.arm ((congrArg armClass (armIndex_dp ..)).trans (armClass_dp _ _ _ fun h => absurd h (by decide)))

theorem rsb (cond : Cond) (s : Bool) (rn rd : Reg) (op2 : Operand2) :
    Statement (.rsb cond s rn rd op2) := fun _ =>
  congrArg Class.arm ((congrArg armClass (armIndex_dp ..)).trans (armClass_dp _ _ _ fun h => absurd h (by decide)))

theorem add (cond : Cond) (s : Bool) (rn rd : Reg) (op2 : Operand2) :
    Statement (.add cond s rn rd op2) := fun _ =>
  congrArg Class.arm ((congrArg armClass (armIndex_dp ..)).trans (armClass_dp _ _ _ fun h => absurd h (by decide)))

theorem adc (cond : Cond) (s : Bool) (rn rd : Reg) (op2 : Operand2) :
    Statement (.adc cond s rn rd op2) := fun _ =>
  congrArg Class.arm ((congrArg armClass (armIndex_dp ..)).trans (armClass_dp _ _ _ fun h => absurd h (by decide)))

theorem sbc (cond : Cond) (s : Bool) (rn rd : Reg) (op2 : Operand2) :
    Statement (.sbc cond s rn rd op2) := fun _ =>
  congrArg Class.arm ((congrArg armClass (armIndex_dp ..)).trans (armClass_dp _ _ _ fun h => absurd h (by decide)))

theorem rsc (cond : Cond) (s : Bool) (rn rd : Reg) (op2 : Operand2) :
    Statement (.rsc cond s rn rd op2) := fun _ =>
  congrArg Class.arm ((congrArg armClass (armIndex_dp ..)).trans (armClass_dp _ _ _ fun h => absurd h (by decide)))

theorem tst (cond : Cond) (rn rd : Reg) (op2 : Operand2) :
    Statement (.tst cond rn rd op2) := fun _ =>
  congrArg Class.arm ((congrArg armClass (armIndex_dp ..)).trans (armClass_dp _ _ _ fun _ => rfl))

theorem teq (cond : Cond) (rn rd : Reg) (op2 : Operand2) :
    Statement (.teq cond rn rd op2) := fun _ =>
  congrArg Class.arm ((congrArg armClass (armIndex_dp ..)).trans (armClass_dp _ _ _ fun _ => rfl))

theorem cmp (cond : Cond) (rn rd : Reg) (op2 : Operand2) :
    Statement (.cmp cond rn rd op2) := fun _ =>
  congrArg Class.arm ((congrArg armClass (armIndex_dp ..)).trans (armClass_dp _ _ _ fun _ => rfl))

theorem cmn (cond : Cond) (rn rd : Reg) (op2 : Operand2) :
    Statement (.cmn cond rn rd op2) := fun _ =>
  congrArg Class.arm ((congrArg armClass (armIndex_dp ..)).trans (armClass_dp _ _ _ fun _ => rfl))

theorem orr (cond : Cond) (s : Bool) (rn rd : Reg) (op2 : Operand2) :
    Statement (.orr cond s rn rd op2) := fun _ =>
  congrArg Class.arm ((congrArg armClass (armIndex_dp ..)).trans (armClass_dp _ _ _ fun h => absurd h (by decide)))

theorem mov (cond : Cond) (s : Bool) (rn rd : Reg) (op2 : Operand2) :
    Statement (.mov cond s rn rd op2) := fun _ =>
  congrArg Class.arm ((congrArg armClass (armIndex_dp ..)).trans (armClass_dp _ _ _ fun h => absurd h (by decide)))

theorem bic (cond : Cond) (s : Bool) (rn rd : Reg) (op2 : Operand2) :
    Statement (.bic cond s rn rd op2) := fun _ =>
  congrArg Class.arm ((congrArg armClass (armIndex_dp ..)).trans (armClass_dp _ _ _ fun h => absurd h (by decide)))

theorem mvn (cond : Cond) (s : Bool) (rn rd : Reg) (op2 : Operand2) :
    Statement (.mvn cond s rn rd op2) := fun _ =>
  congrArg Class.arm ((congrArg armClass (armIndex_dp ..)).trans (armClass_dp _ _ _ fun h => absurd h (by decide)))

theorem testNoS (cond : Cond) (opc : BitVec 2) (rn rd : Reg) (op2 : Operand2) :
    Statement (.testNoS cond opc rn rd op2) := by
  intro h
  refine congrArg Class.arm ?_
  rw [armIndex_dp, DpOp.bits_ofBits]
  exact (armClass_testNoS opc op2).mpr h

theorem mul (cond : Cond) (s : Bool) (rd ignRn rs rm : Reg) :
    Statement (.mul cond s rd ignRn rs rm) := by
  intro hw; clear hw
  refine congrArg Class.arm ?_
  rw [armIndex_mul]
  exact armClassTable.multiply ..

theorem mla (cond : Cond) (s : Bool) (rd rn rs rm : Reg) :
    Statement (.mla cond s rd rn rs rm) := by
  intro hw; clear hw
  refine congrArg Class.arm ?_
  rw [armIndex_mul]
  exact armClassTable.multiply ..

theorem umull (cond : Cond) (s : Bool) (rdHi rdLo rs rm : Reg) :
    Statement (.umull cond s rdHi rdLo rs rm) := by
  intro hw; clear hw
  refine congrArg Class.arm ?_
  rw [armIndex_mulLong]
  exact armClassTable.multiplyLong ..

theorem umlal (cond : Cond) (s : Bool) (rdHi rdLo rs rm : Reg) :
    Statement (.umlal cond s rdHi rdLo rs rm) := by
  intro hw; clear hw
  refine congrArg Class.arm ?_
  rw [armIndex_mulLong]
  exact armClassTable.multiplyLong ..

theorem smull (cond : Cond) (s : Bool) (rdHi rdLo rs rm : Reg) :
    Statement (.smull cond s rdHi rdLo rs rm) := by
  intro hw; clear hw
  refine congrArg Class.arm ?_
  rw [armIndex_mulLong]
  exact armClassTable.multiplyLong ..

theorem smlal (cond : Cond) (s : Bool) (rdHi rdLo rs rm : Reg) :
    Statement (.smlal cond s rdHi rdLo rs rm) := by
  intro hw; clear hw
  refine congrArg Class.arm ?_
  rw [armIndex_mulLong]
  exact armClassTable.multiplyLong ..

theorem mrs (cond : Cond) (spsr : Bool) (rd : Reg) (ign19 ign11 ign3 : BitVec 4) :
    Statement (.mrs cond spsr rd ign19 ign11 ign3) := by
  intro hw; clear hw
  refine congrArg Class.arm ?_
  have e : armIndex
      (cond.bits ++ 0b00010#5 ++ BitVec.ofBool spsr ++ 0b00#2 ++ ign19 ++ rd ++ ign11 ++ 0b0000#4 ++ ign3) =
      0b00010#5 ++ BitVec.ofBool spsr ++ 0b00#2 ++ 0b0000#4 := by
    apply ext_bits; intro k hk
    simp only [armIndex, BitVec.getLsbD_append, BitVec.getLsbD_extractLsb']
    interval_cases k <;> simp
  rw [e]
  exact armClassTable.mrs ..

theorem msrReg (cond : Cond) (spsr : Bool) (mask : BitVec 4) (rm : Reg) (ign : BitVec 8) :
    Statement (.msrReg cond spsr mask rm ign) := by
  intro hw; clear hw
  refine congrArg Class.arm ?_
  have e : armIndex (cond.bits ++ 0b00010#5 ++ BitVec.ofBool spsr ++ 0b10#2 ++ mask ++ ign ++ 0b0000#4 ++ rm) =
      0b00010#5 ++ BitVec.ofBool spsr ++ 0b10#2 ++ 0b0000#4 := by
    apply ext_bits; intro k hk
    simp only [armIndex, BitVec.getLsbD_append, BitVec.getLsbD_extractLsb']
    interval_cases k <;> simp
  rw [e]
  exact armClassTable.msrReg ..

theorem msrImm (cond : Cond) (spsr : Bool) (mask : BitVec 4) (rot : BitVec 4) (imm8 : BitVec 8) (ign : BitVec 4) :
    Statement (.msrImm cond spsr mask rot imm8 ign) := by
  intro hw; clear hw
  refine congrArg Class.arm ?_
  have e : armIndex (cond.bits ++ 0b00110#5 ++ BitVec.ofBool spsr ++ 0b10#2 ++ mask ++ ign ++ rot ++ imm8) =
      0b00110#5 ++ BitVec.ofBool spsr ++ 0b10#2 ++ imm8.extractLsb' 4 4 := by
    apply ext_bits; intro k hk
    simp only [armIndex, BitVec.getLsbD_append, BitVec.getLsbD_extractLsb']
    interval_cases k <;> simp
  rw [e]
  exact armClassTable.msrImm ..

theorem swp (cond : Cond) (rn rd rm : Reg) (ign : BitVec 4) :
    Statement (.swp cond rn rd rm ign) := by
  intro hw; clear hw
  refine congrArg Class.arm ?_
  rw [armIndex_swap]
  exact armClassTable.swap ..

theorem swpb (cond : Cond) (rn rd rm : Reg) (ign : BitVec 4) :
    Statement (.swpb cond rn rd rm ign) := by
  intro hw; clear hw
  refine congrArg Class.arm ?_
  rw [armIndex_swap]
  exact armClassTable.swap ..

theorem bx (cond : Cond) (rm : Reg) (ign : BitVec 12) :
    Statement (.bx cond rm ign) := by
  intro hw; clear hw
  refine congrArg Class.arm ?_
  have e : armIndex (cond.bits ++ 0b00010010#8 ++ ign ++ 0b0001#4 ++ rm) =
      0b000100100001#12 := by
    apply ext_bits; intro k hk
    simp only [armIndex, BitVec.getLsbD_append, BitVec.getLsbD_extractLsb']
    interval_cases k <;> simp
  rw [e]
  exact armClassTable.bx

theorem strh (cond : Cond) (ix : Indexing) (rn rd : Reg) (off : HalfOffset) :
    Statement (.strh cond ix rn rd off) := fun _ =>
  congrArg Class.arm ((congrArg armClass (armIndex_half ..)).trans
    (armClassTable.half _ _ _ _ _ _ (by decide) (.inr rfl)))

theorem ldrh (cond : Cond) (ix : Indexing) (rn rd : Reg) (off : HalfOffset) :
    Statement (.ldrh cond ix rn rd off) := fun _ =>
  congrArg Class.arm ((congrArg armClass (armIndex_half ..)).trans
    (armClassTable.half _ _ _ _ _ _ (by decide) (.inl rfl)))

theorem ldrsb (cond : Cond) (ix : Indexing) (rn rd : Reg) (off : HalfOffset) :
    Statement (.ldrsb cond ix rn rd off) := fun _ =>
  congrArg Class.arm ((congrArg armClass (armIndex_half ..)).trans
    (armClassTable.half _ _ _ _ _ _ (by decide) (.inl rfl)))

theorem ldrsh (cond : Cond) (ix : Indexing) (rn rd : Reg) (off : HalfOffset) :
    Statement (.ldrsh cond ix rn rd off) := fun _ =>
  congrArg Class.arm ((congrArg armClass (armIndex_half ..)).trans
    (armClassTable.half _ _ _ _ _ _ (by decide) (.inl rfl)))

theorem ldr (cond : Cond) (ix : Indexing) (rn rd : Reg) (off : Offset) :
    Statement (.ldr cond ix rn rd off) := fun _ =>
  congrArg Class.arm ((congrArg armClass (armIndex_sdt ..)).trans
    (armClassTable.sdt _ _ _ _ _ _ _ off.low_bit))

theorem str (cond : Cond) (ix : Indexing) (rn rd : Reg) (off : Offset) :
    Statement (.str cond ix rn rd off) := fun _ =>
  congrArg Class.arm ((congrArg armClass (armIndex_sdt ..)).trans
    (armClassTable.sdt _ _ _ _ _ _ _ off.low_bit))

theorem ldrb (cond : Cond) (ix : Indexing) (rn rd : Reg) (off : Offset) :
    Statement (.ldrb cond ix rn rd off) := fun _ =>
  congrArg Class.arm ((congrArg armClass (armIndex_sdt ..)).trans
    (armClassTable.sdt _ _ _ _ _ _ _ off.low_bit))

theorem strb (cond : Cond) (ix : Indexing) (rn rd : Reg) (off : Offset) :
    Statement (.strb cond ix rn rd off) := fun _ =>
  congrArg Class.arm ((congrArg armClass (armIndex_sdt ..)).trans
    (armClassTable.sdt _ _ _ _ _ _ _ off.low_bit))

theorem ldm (cond : Cond) (ix : Indexing) (s : Bool) (rn : Reg) (list : BitVec 16) :
    Statement (.ldm cond ix s rn list) := fun _ =>
  congrArg Class.arm ((congrArg armClass (armIndex_block ..)).trans
    (armClassTable.block ..))

theorem stm (cond : Cond) (ix : Indexing) (s : Bool) (rn : Reg) (list : BitVec 16) :
    Statement (.stm cond ix s rn list) := fun _ =>
  congrArg Class.arm ((congrArg armClass (armIndex_block ..)).trans
    (armClassTable.block ..))

theorem b (cond : Cond) (offset24 : BitVec 24) :
    Statement (.b cond offset24) := by
  intro hw; clear hw
  refine congrArg Class.arm ?_
  have e : armIndex (cond.bits ++ 0b1010#4 ++ offset24) =
      0b101#3 ++ 0#1 ++ offset24.extractLsb' 20 4 ++ offset24.extractLsb' 4 4 := by
    apply ext_bits; intro k hk
    simp only [armIndex, BitVec.getLsbD_append, BitVec.getLsbD_extractLsb']
    interval_cases k <;> simp
  rw [e]
  exact armClassTable.branch 0#1 _ _

theorem bl (cond : Cond) (offset24 : BitVec 24) :
    Statement (.bl cond offset24) := by
  intro hw; clear hw
  refine congrArg Class.arm ?_
  have e : armIndex (cond.bits ++ 0b1011#4 ++ offset24) =
      0b101#3 ++ 1#1 ++ offset24.extractLsb' 20 4 ++ offset24.extractLsb' 4 4 := by
    apply ext_bits; intro k hk
    simp only [armIndex, BitVec.getLsbD_append, BitVec.getLsbD_extractLsb']
    interval_cases k <;> simp
  rw [e]
  exact armClassTable.branch 1#1 _ _

theorem stc (cond : Cond) (ign24 : BitVec 4) (ign19 : BitVec 20) :
    Statement (.stc cond ign24 ign19) := by
  intro hw; clear hw
  refine congrArg Class.arm ?_
  have e : armIndex (cond.bits ++ 0b110#3 ++ ign24 ++ 0#1 ++ ign19) =
      0b110#3 ++ ign24 ++ 0#1 ++ ign19.extractLsb' 4 4 := by
    apply ext_bits; intro k hk
    simp only [armIndex, BitVec.getLsbD_append, BitVec.getLsbD_extractLsb']
    interval_cases k <;> simp
  rw [e]
  exact armClassTable.coprocTransfer ..

theorem ldc (cond : Cond) (ign24 : BitVec 4) (ign19 : BitVec 20) :
    Statement (.ldc cond ign24 ign19) := by
  intro hw; clear hw
  refine congrArg Class.arm ?_
  have e : armIndex (cond.bits ++ 0b110#3 ++ ign24 ++ 1#1 ++ ign19) =
      0b110#3 ++ ign24 ++ 1#1 ++ ign19.extractLsb' 4 4 := by
    apply ext_bits; intro k hk
    simp only [armIndex, BitVec.getLsbD_append, BitVec.getLsbD_extractLsb']
    interval_cases k <;> simp
  rw [e]
  exact armClassTable.coprocTransfer ..

theorem cdp (cond : Cond) (ign23 : BitVec 19) (ign3 : BitVec 4) :
    Statement (.cdp cond ign23 ign3) := by
  intro hw; clear hw
  refine congrArg Class.arm ?_
  have e : armIndex (cond.bits ++ 0b1110#4 ++ ign23 ++ 0#1 ++ ign3) =
      0b1110#4 ++ ign23.extractLsb' 15 4 ++ ign23.extractLsb' 0 3 ++ 0#1 := by
    apply ext_bits; intro k hk
    simp only [armIndex, BitVec.getLsbD_append, BitVec.getLsbD_extractLsb']
    interval_cases k <;> simp
  rw [e]
  exact armClassTable.coprocOperation ..

theorem mcr (cond : Cond) (rd cp : BitVec 4) (ign23 : BitVec 3) (ign19 : BitVec 4) (ign7 : BitVec 3) (ign3 : BitVec 4) :
    Statement (.mcr cond rd cp ign23 ign19 ign7 ign3) := by
  intro hw; clear hw
  refine congrArg Class.arm ?_
  rw [armIndex_coprocRegister]
  exact armClassTable.coprocRegister ..

theorem mrc (cond : Cond) (rd cp : BitVec 4) (ign23 : BitVec 3) (ign19 : BitVec 4) (ign7 : BitVec 3) (ign3 : BitVec 4) :
    Statement (.mrc cond rd cp ign23 ign19 ign7 ign3) := by
  intro hw; clear hw
  refine congrArg Class.arm ?_
  rw [armIndex_coprocRegister]
  exact armClassTable.coprocRegister ..

theorem swi (cond : Cond) (comment : BitVec 24) :
    Statement (.swi cond comment) := by
  intro hw; clear hw
  refine congrArg Class.arm ?_
  have e : armIndex (cond.bits ++ 0b1111#4 ++ comment) =
      0b1111#4 ++ comment.extractLsb' 20 4 ++ comment.extractLsb' 4 4 := by
    apply ext_bits; intro k hk
    simp only [armIndex, BitVec.getLsbD_append, BitVec.getLsbD_extractLsb']
    interval_cases k <;> simp
  rw [e]
  exact armClassTable.swi ..

theorem undefinedU1 (cond : Cond) (ign22 : Bool) (ign19 : BitVec 20) :
    Statement (.undefinedU1 cond ign22 ign19) := by
  intro hw; clear hw
  refine congrArg Class.arm ?_
  have e : armIndex (cond.bits ++ 0b00110#5 ++ BitVec.ofBool ign22 ++ 0b00#2 ++ ign19) =
      0b00110#5 ++ BitVec.ofBool ign22 ++ 0b00#2 ++ ign19.extractLsb' 4 4 := by
    apply ext_bits; intro k hk
    simp only [armIndex, BitVec.getLsbD_append, BitVec.getLsbD_extractLsb']
    interval_cases k <;> simp
  rw [e]
  exact armClassTable.u1 ..

theorem undefinedU2 (cond : Cond) (ign24 : BitVec 20) (ign3 : BitVec 4) :
    Statement (.undefinedU2 cond ign24 ign3) := by
  intro hw; clear hw
  refine congrArg Class.arm ?_
  have e : armIndex (cond.bits ++ 0b011#3 ++ ign24 ++ 1#1 ++ ign3) =
      0b011#3 ++ ign24.extractLsb' 15 5 ++ ign24.extractLsb' 0 3 ++ 1#1 := by
    apply ext_bits; intro k hk
    simp only [armIndex, BitVec.getLsbD_append, BitVec.getLsbD_extractLsb']
    interval_cases k <;> simp
  rw [e]
  exact armClassTable.u2 ..

theorem undefinedU3 (cond : Cond) (ign19 : BitVec 12) (ign3 : BitVec 4) :
    Statement (.undefinedU3 cond ign19 ign3) := by
  intro hw; clear hw
  refine congrArg Class.arm ?_
  have e : armIndex (cond.bits ++ 0b00010110#8 ++ ign19 ++ 0b0001#4 ++ ign3) =
      0b000101100001#12 := by
    apply ext_bits; intro k hk
    simp only [armIndex, BitVec.getLsbD_append, BitVec.getLsbD_extractLsb']
    interval_cases k <;> simp
  rw [e]
  exact armClassTable.u3

theorem undefinedU4 (cond : Cond) (ign22 : BitVec 2) (ign19 : BitVec 12) (ign5 : Bool) (ign3 : BitVec 4) :
    Statement (.undefinedU4 cond ign22 ign19 ign5 ign3) := by
  intro hw; clear hw
  refine congrArg Class.arm ?_
  have e : armIndex (cond.bits ++ 0b00010#5 ++ ign22 ++ 0#1 ++ ign19 ++ 0b01#2 ++ BitVec.ofBool ign5 ++ 1#1 ++ ign3) =
      0b00010#5 ++ ign22 ++ 0#1 ++ 0b01#2 ++ BitVec.ofBool ign5 ++ 1#1 := by
    apply ext_bits; intro k hk
    simp only [armIndex, BitVec.getLsbD_append, BitVec.getLsbD_extractLsb']
    interval_cases k <;> simp
  rw [e]
  exact armClassTable.u4 ..

theorem unknownMulSwap (cond : Cond) (sel : BitVec 5) (ign19 : BitVec 12) (ign3 : BitVec 4) :
    Statement (.unknownMulSwap cond sel ign19 ign3) := by
  intro h
  refine congrArg Class.arm ?_
  have e : armIndex (cond.bits ++ 0b000#3 ++ sel ++ ign19 ++ 0b1001#4 ++ ign3) =
      0b000#3 ++ sel ++ 0b1001#4 := by
    apply ext_bits; intro k hk
    simp only [armIndex, BitVec.getLsbD_append, BitVec.getLsbD_extractLsb']
    interval_cases k <;> simp
  rw [e]
  exact armClassTable.unknownMulSwap _ h

theorem unknownHalf (cond : Cond) (ign24 : BitVec 4) (ign19 : BitVec 12) (ign5 : Bool) (ign3 : BitVec 4) :
    Statement (.unknownHalf cond ign24 ign19 ign5 ign3) := by
  intro hw; clear hw
  refine congrArg Class.arm ?_
  have e : armIndex (cond.bits ++ 0b000#3 ++ ign24 ++ 0#1 ++ ign19 ++ 0b11#2 ++ BitVec.ofBool ign5 ++ 1#1 ++ ign3) =
      0b000#3 ++ ign24 ++ 0#1 ++ 0b11#2 ++ BitVec.ofBool ign5 ++ 1#1 := by
    apply ext_bits; intro k hk
    simp only [armIndex, BitVec.getLsbD_append, BitVec.getLsbD_extractLsb']
    interval_cases k <;> simp
  rw [e]
  exact armClassTable.unknownHalf ..

theorem tLslImm (rd rs : LowReg) (amt : BitVec 5) :
    Statement (.tLslImm rd rs amt) := fun _ =>
  congrArg Class.thumb ((congrArg thumbClass (thumbIndex_imm5 ..)).trans
    (thumbClassTable.moveShifted _ _ (by decide)))

theorem tLsrImm (rd rs : LowReg) (amt : BitVec 5) :
    Statement (.tLsrImm rd rs amt) := fun _ =>
  congrArg Class.thumb ((congrArg thumbClass (thumbIndex_imm5 ..)).trans
    (thumbClassTable.moveShifted _ _ (by decide)))

theorem tAsrImm (rd rs : LowReg) (amt : BitVec 5) :
    Statement (.tAsrImm rd rs amt) := fun _ =>
  congrArg Class.thumb ((congrArg thumbClass (thumbIndex_imm5 ..)).trans
    (thumbClassTable.moveShifted _ _ (by decide)))

theorem tAddReg (rd rs rn : LowReg) :
    Statement (.tAddReg rd rs rn) := fun _ =>
  congrArg Class.thumb ((congrArg thumbClass (thumbIndex_reg3 ..)).trans
    (thumbClassTable.addSub _ _ (by decide) (by decide)))

theorem tSubReg (rd rs rn : LowReg) :
    Statement (.tSubReg rd rs rn) := fun _ =>
  congrArg Class.thumb ((congrArg thumbClass (thumbIndex_reg3 ..)).trans
    (thumbClassTable.addSub _ _ (by decide) (by decide)))

theorem tAddImm3 (rd rs : LowReg) (imm3 : BitVec 3) :
    Statement (.tAddImm3 rd rs imm3) := fun _ =>
  congrArg Class.thumb ((congrArg thumbClass (thumbIndex_reg3 ..)).trans
    (thumbClassTable.addSub _ _ (by decide) (by decide)))

theorem tSubImm3 (rd rs : LowReg) (imm3 : BitVec 3) :
    Statement (.tSubImm3 rd rs imm3) := fun _ =>
  congrArg Class.thumb ((congrArg thumbClass (thumbIndex_reg3 ..)).trans
    (thumbClassTable.addSub _ _ (by decide) (by decide)))

theorem tMovImm (rd : LowReg) (imm8 : BitVec 8) :
    Statement (.tMovImm rd imm8) := fun _ =>
  congrArg Class.thumb ((congrArg thumbClass (thumbIndex_regImm8 ..)).trans
    (thumbClassTable.aluImm _ _ _ (by decide) (by decide)))

theorem tCmpImm (rd : LowReg) (imm8 : BitVec 8) :
    Statement (.tCmpImm rd imm8) := fun _ =>
  congrArg Class.thumb ((congrArg thumbClass (thumbIndex_regImm8 ..)).trans
    (thumbClassTable.aluImm _ _ _ (by decide) (by decide)))

theorem tAddImm8 (rd : LowReg) (imm8 : BitVec 8) :
    Statement (.tAddImm8 rd imm8) := fun _ =>
  congrArg Class.thumb ((congrArg thumbClass (thumbIndex_regImm8 ..)).trans
    (thumbClassTable.aluImm _ _ _ (by decide) (by decide)))

theorem tSubImm8 (rd : LowReg) (imm8 : BitVec 8) :
    Statement (.tSubImm8 rd imm8) := fun _ =>
  congrArg Class.thumb ((congrArg thumbClass (thumbIndex_regImm8 ..)).trans
    (thumbClassTable.aluImm _ _ _ (by decide) (by decide)))

theorem tAnd (rd rs : LowReg) :
    Statement (.tAnd rd rs) := fun _ =>
  congrArg Class.thumb ((congrArg thumbClass (thumbIndex_alu ..)).trans
    (thumbClassTable.aluReg _))

theorem tEor (rd rs : LowReg) :
    Statement (.tEor rd rs) := fun _ =>
  congrArg Class.thumb ((congrArg thumbClass (thumbIndex_alu ..)).trans
    (thumbClassTable.aluReg _))

theorem tLslReg (rd rs : LowReg) :
    Statement (.tLslReg rd rs) := fun _ =>
  congrArg Class.thumb ((congrArg thumbClass (thumbIndex_alu ..)).trans
    (thumbClassTable.aluReg _))

theorem tLsrReg (rd rs : LowReg) :
    Statement (.tLsrReg rd rs) := fun _ =>
  congrArg Class.thumb ((congrArg thumbClass (thumbIndex_alu ..)).trans
    (thumbClassTable.aluReg _))

theorem tAsrReg (rd rs : LowReg) :
    Statement (.tAsrReg rd rs) := fun _ =>
  congrArg Class.thumb ((congrArg thumbClass (thumbIndex_alu ..)).trans
    (thumbClassTable.aluReg _))

theorem tAdc (rd rs : LowReg) :
    Statement (.tAdc rd rs) := fun _ =>
  congrArg Class.thumb ((congrArg thumbClass (thumbIndex_alu ..)).trans
    (thumbClassTable.aluReg _))

theorem tSbc (rd rs : LowReg) :
    Statement (.tSbc rd rs) := fun _ =>
  congrArg Class.thumb ((congrArg thumbClass (thumbIndex_alu ..)).trans
    (thumbClassTable.aluReg _))

theorem tRorReg (rd rs : LowReg) :
    Statement (.tRorReg rd rs) := fun _ =>
  congrArg Class.thumb ((congrArg thumbClass (thumbIndex_alu ..)).trans
    (thumbClassTable.aluReg _))

theorem tTst (rd rs : LowReg) :
    Statement (.tTst rd rs) := fun _ =>
  congrArg Class.thumb ((congrArg thumbClass (thumbIndex_alu ..)).trans
    (thumbClassTable.aluReg _))

theorem tNeg (rd rs : LowReg) :
    Statement (.tNeg rd rs) := fun _ =>
  congrArg Class.thumb ((congrArg thumbClass (thumbIndex_alu ..)).trans
    (thumbClassTable.aluReg _))

theorem tCmpReg (rd rs : LowReg) :
    Statement (.tCmpReg rd rs) := fun _ =>
  congrArg Class.thumb ((congrArg thumbClass (thumbIndex_alu ..)).trans
    (thumbClassTable.aluReg _))

theorem tCmn (rd rs : LowReg) :
    Statement (.tCmn rd rs) := fun _ =>
  congrArg Class.thumb ((congrArg thumbClass (thumbIndex_alu ..)).trans
    (thumbClassTable.aluReg _))

theorem tOrr (rd rs : LowReg) :
    Statement (.tOrr rd rs) := fun _ =>
  congrArg Class.thumb ((congrArg thumbClass (thumbIndex_alu ..)).trans
    (thumbClassTable.aluReg _))

theorem tMul (rd rs : LowReg) :
    Statement (.tMul rd rs) := fun _ =>
  congrArg Class.thumb ((congrArg thumbClass (thumbIndex_alu ..)).trans
    (thumbClassTable.aluReg _))

theorem tBic (rd rs : LowReg) :
    Statement (.tBic rd rs) := fun _ =>
  congrArg Class.thumb ((congrArg thumbClass (thumbIndex_alu ..)).trans
    (thumbClassTable.aluReg _))

theorem tMvn (rd rs : LowReg) :
    Statement (.tMvn rd rs) := fun _ =>
  congrArg Class.thumb ((congrArg thumbClass (thumbIndex_alu ..)).trans
    (thumbClassTable.aluReg _))

theorem tAddHi (rd rs : Reg) :
    Statement (.tAddHi rd rs) := fun _ =>
  congrArg Class.thumb ((congrArg thumbClass (thumbIndex_high ..)).trans
    (thumbClassTable.highReg _ _ _))

theorem tCmpHi (rd rs : Reg) :
    Statement (.tCmpHi rd rs) := fun _ =>
  congrArg Class.thumb ((congrArg thumbClass (thumbIndex_high ..)).trans
    (thumbClassTable.highReg _ _ _))

theorem tMovHi (rd rs : Reg) :
    Statement (.tMovHi rd rs) := fun _ =>
  congrArg Class.thumb ((congrArg thumbClass (thumbIndex_high ..)).trans
    (thumbClassTable.highReg _ _ _))

theorem tBx (rs : Reg) (ignH1 : Bool) (ign2 : BitVec 3) :
    Statement (.tBx rs ignH1 ign2) := fun _ =>
  congrArg Class.thumb ((congrArg thumbClass (thumbIndex_high ..)).trans
    (thumbClassTable.highReg _ _ _))

theorem tLdrPc (rd : LowReg) (imm8 : BitVec 8) :
    Statement (.tLdrPc rd imm8) := fun _ =>
  congrArg Class.thumb ((congrArg thumbClass (thumbIndex_regImm8 ..)).trans
    (thumbClassTable.pcLoad _ _))

theorem tStrReg (rd rb ro : LowReg) :
    Statement (.tStrReg rd rb ro) := fun _ =>
  congrArg Class.thumb ((congrArg thumbClass (thumbIndex_regOffset ..)).trans
    (thumbClassTable.regOffset _ _ (by decide)))

theorem tStrbReg (rd rb ro : LowReg) :
    Statement (.tStrbReg rd rb ro) := fun _ =>
  congrArg Class.thumb ((congrArg thumbClass (thumbIndex_regOffset ..)).trans
    (thumbClassTable.regOffset _ _ (by decide)))

theorem tLdrReg (rd rb ro : LowReg) :
    Statement (.tLdrReg rd rb ro) := fun _ =>
  congrArg Class.thumb ((congrArg thumbClass (thumbIndex_regOffset ..)).trans
    (thumbClassTable.regOffset _ _ (by decide)))

theorem tLdrbReg (rd rb ro : LowReg) :
    Statement (.tLdrbReg rd rb ro) := fun _ =>
  congrArg Class.thumb ((congrArg thumbClass (thumbIndex_regOffset ..)).trans
    (thumbClassTable.regOffset _ _ (by decide)))

theorem tStrhReg (rd rb ro : LowReg) :
    Statement (.tStrhReg rd rb ro) := fun _ =>
  congrArg Class.thumb ((congrArg thumbClass (thumbIndex_regOffset ..)).trans
    (thumbClassTable.signExt _ _ (by decide)))

theorem tLdsbReg (rd rb ro : LowReg) :
    Statement (.tLdsbReg rd rb ro) := fun _ =>
  congrArg Class.thumb ((congrArg thumbClass (thumbIndex_regOffset ..)).trans
    (thumbClassTable.signExt _ _ (by decide)))

theorem tLdrhReg (rd rb ro : LowReg) :
    Statement (.tLdrhReg rd rb ro) := fun _ =>
  congrArg Class.thumb ((congrArg thumbClass (thumbIndex_regOffset ..)).trans
    (thumbClassTable.signExt _ _ (by decide)))

theorem tLdshReg (rd rb ro : LowReg) :
    Statement (.tLdshReg rd rb ro) := fun _ =>
  congrArg Class.thumb ((congrArg thumbClass (thumbIndex_regOffset ..)).trans
    (thumbClassTable.signExt _ _ (by decide)))

theorem tStrImm (rd rb : LowReg) (imm5 : BitVec 5) :
    Statement (.tStrImm rd rb imm5) := fun _ =>
  congrArg Class.thumb ((congrArg thumbClass (thumbIndex_imm5 ..)).trans
    (thumbClassTable.immOffset _ _ (by decide) (by decide)))

theorem tLdrImm (rd rb : LowReg) (imm5 : BitVec 5) :
    Statement (.tLdrImm rd rb imm5) := fun _ =>
  congrArg Class.thumb ((congrArg thumbClass (thumbIndex_imm5 ..)).trans
    (thumbClassTable.immOffset _ _ (by decide) (by decide)))

theorem tStrbImm (rd rb : LowReg) (imm5 : BitVec 5) :
    Statement (.tStrbImm rd rb imm5) := fun _ =>
  congrArg Class.thumb ((congrArg thumbClass (thumbIndex_imm5 ..)).trans
    (thumbClassTable.immOffset _ _ (by decide) (by decide)))

theorem tLdrbImm (rd rb : LowReg) (imm5 : BitVec 5) :
    Statement (.tLdrbImm rd rb imm5) := fun _ =>
  congrArg Class.thumb ((congrArg thumbClass (thumbIndex_imm5 ..)).trans
    (thumbClassTable.immOffset _ _ (by decide) (by decide)))

theorem tStrhImm (rd rb : LowReg) (imm5 : BitVec 5) :
    Statement (.tStrhImm rd rb imm5) := fun _ =>
  congrArg Class.thumb ((congrArg thumbClass (thumbIndex_imm5 ..)).trans
    (thumbClassTable.halfImm _ _ (by decide) (by decide)))

theorem tLdrhImm (rd rb : LowReg) (imm5 : BitVec 5) :
    Statement (.tLdrhImm rd rb imm5) := fun _ =>
  congrArg Class.thumb ((congrArg thumbClass (thumbIndex_imm5 ..)).trans
    (thumbClassTable.halfImm _ _ (by decide) (by decide)))

theorem tStrSp (rd : LowReg) (imm8 : BitVec 8) :
    Statement (.tStrSp rd imm8) := fun _ =>
  congrArg Class.thumb ((congrArg thumbClass (thumbIndex_regImm8 ..)).trans
    (thumbClassTable.spRel _ _ _ (by decide) (by decide)))

theorem tLdrSp (rd : LowReg) (imm8 : BitVec 8) :
    Statement (.tLdrSp rd imm8) := fun _ =>
  congrArg Class.thumb ((congrArg thumbClass (thumbIndex_regImm8 ..)).trans
    (thumbClassTable.spRel _ _ _ (by decide) (by decide)))

theorem tAddPc (rd : LowReg) (imm8 : BitVec 8) :
    Statement (.tAddPc rd imm8) := fun _ =>
  congrArg Class.thumb ((congrArg thumbClass (thumbIndex_regImm8 ..)).trans
    (thumbClassTable.loadAddr _ _ _ (by decide) (by decide)))

theorem tAddSp (rd : LowReg) (imm8 : BitVec 8) :
    Statement (.tAddSp rd imm8) := fun _ =>
  congrArg Class.thumb ((congrArg thumbClass (thumbIndex_regImm8 ..)).trans
    (thumbClassTable.loadAddr _ _ _ (by decide) (by decide)))

theorem tAdjSp (neg : Bool) (imm7 : BitVec 7) :
    Statement (.tAdjSp neg imm7) := fun _ =>
  congrArg Class.thumb ((congrArg thumbClass (thumbIndex_adjSp ..)).trans
    (thumbClassTable.spAdd _ _))

theorem tPush (r : Bool) (list : BitVec 8) :
    Statement (.tPush r list) := fun _ =>
  congrArg Class.thumb ((congrArg thumbClass (thumbIndex_pushPop ..)).trans
    (thumbClassTable.pushPop _ _ _ (by decide)))

theorem tPop (r : Bool) (list : BitVec 8) :
    Statement (.tPop r list) := fun _ =>
  congrArg Class.thumb ((congrArg thumbClass (thumbIndex_pushPop ..)).trans
    (thumbClassTable.pushPop _ _ _ (by decide)))

theorem tStmia (rb : LowReg) (list : BitVec 8) :
    Statement (.tStmia rb list) := fun _ =>
  congrArg Class.thumb ((congrArg thumbClass (thumbIndex_regImm8 ..)).trans
    (thumbClassTable.multiple _ _ _ (by decide) (by decide)))

theorem tLdmia (rb : LowReg) (list : BitVec 8) :
    Statement (.tLdmia rb list) := fun _ =>
  congrArg Class.thumb ((congrArg thumbClass (thumbIndex_regImm8 ..)).trans
    (thumbClassTable.multiple _ _ _ (by decide) (by decide)))

theorem tBCond (cond : Cond) (offset8 : BitVec 8) :
    Statement (.tBCond cond offset8) := by
  intro h
  have hc : cond.bits.toNat < 14 := by
    change (cond != .al && cond != .nv) = true at h
    revert h; cases cond <;> decide
  exact congrArg Class.thumb ((congrArg thumbClass (thumbIndex_nibble ..)).trans
    (thumbClassTable.condBranch _ _ hc))

theorem tUndefined1 (ign : BitVec 8) :
    Statement (.tUndefined1 ign) := fun _ =>
  congrArg Class.thumb ((congrArg thumbClass (thumbIndex_imm8 ..)).trans
    (thumbClassTable.undefined1 _))

theorem tSwi (comment : BitVec 8) :
    Statement (.tSwi comment) := fun _ =>
  congrArg Class.thumb ((congrArg thumbClass (thumbIndex_imm8 ..)).trans
    (thumbClassTable.swi _))

theorem tB (offset11 : BitVec 11) :
    Statement (.tB offset11) := fun _ =>
  congrArg Class.thumb ((congrArg thumbClass (thumbIndex_imm11 ..)).trans
    (thumbClassTable.branch _))

theorem tUndefined2 (ign : BitVec 11) :
    Statement (.tUndefined2 ign) := fun _ =>
  congrArg Class.thumb ((congrArg thumbClass (thumbIndex_imm11 ..)).trans
    (thumbClassTable.undefined2 _))

theorem tBlFirst (offset11 : BitVec 11) :
    Statement (.tBlFirst offset11) := fun _ =>
  congrArg Class.thumb ((congrArg thumbClass (thumbIndex_imm11 ..)).trans
    (thumbClassTable.longBranch _ _ (by decide)))

theorem tBlSecond (offset11 : BitVec 11) :
    Statement (.tBlSecond offset11) := fun _ =>
  congrArg Class.thumb ((congrArg thumbClass (thumbIndex_imm11 ..)).trans
    (thumbClassTable.longBranch _ _ (by decide)))

theorem tUnknown (sel : BitVec 4) (ign : BitVec 8) :
    Statement (.tUnknown sel ign) := fun h =>
  congrArg Class.thumb ((congrArg thumbClass (thumbIndex_nibble ..)).trans
    (thumbClassTable.unknown _ _ h))

end Sys2Proof.Laws.ClassOf
end

