-- ==== Sys2Proof/Laws/Shifts.lean ====
section
/-! SUPPORT. The shifts as arithmetic, and the count of leading zeros that the multiplier's cycle formula uses. -/

namespace Sys2Proof.Machine

theorem toNat_shl (v : Word) (n : Nat) : (v <<< n).toNat = v.toNat * 2 ^ n % 2 ^ 32 := by
  rw [BitVec.toNat_shiftLeft, Nat.shiftLeft_eq]

theorem toNat_shr (v : Word) (n : Nat) : (v >>> n).toNat = v.toNat / 2 ^ n := by
  rw [BitVec.toNat_ushiftRight, Nat.shiftRight_eq_div_pow]

theorem toInt_sar (v : Word) (n : Nat) : (v.sshiftRight n).toInt = v.toInt / 2 ^ n := by
  rw [BitVec.toInt_sshiftRight, Int.shiftRight_eq_div_pow]; norm_cast

theorem sar_32 (v : Word) : v.sshiftRight 32 = if v.getLsbD 31 then 0xFFFFFFFF#32 else 0#32 := by
  apply BitVec.eq_of_getLsbD_eq; intro k hk
  rw [BitVec.getLsbD_sshiftRight, BitVec.msb_eq_getLsbD_last]
  have : ¬ 32 + k < 32 := by omega
  have h2 : ¬ 32 ≤ k := by omega
  cases h : v.getLsbD 31
  · simp [hk]
  · simp only [if_true]
    interval_cases k <;> simp

theorem getLsbD_ror (v : Word) (n : Nat) (hn : n < 32) :
    ∀ k < 32, (v.rotateRight n).getLsbD k = v.getLsbD ((k + n) % 32) := by
  intro k hk
  rw [BitVec.getLsbD_rotateRight, Nat.mod_eq_of_lt hn]
  by_cases h : k < 32 - n
  · rw [decide_eq_true h]; simp only [cond_true]
    congr 1; omega
  · rw [decide_eq_false h]; simp only [cond_false]
    rw [decide_eq_true hk, Bool.true_and]
    congr 1; omega

/-- A word has at least `n` leading zeros exactly when it is below `2 ^ (32 - n)`. -/
theorem le_leadingZeros (x : Word) (n : Nat) (hn : n ≤ 32) : n ≤ leadingZeros x ↔ x.toNat < 2 ^ (32 - n) := by
  unfold leadingZeros
  have h1 := BitVec.toNat_lt_two_pow_sub_clz (x := x)
  constructor
  · intro h
    exact lt_of_lt_of_le h1 (Nat.pow_le_pow_right (by omega) (by omega))
  · intro h
    by_contra hlt
    have hx : x ≠ 0#32 := by
      intro e; subst e; revert hlt; simp; omega
    have := BitVec.two_pow_sub_clz_le_toNat_of_ne_zero (x := x) (by omega) hx
    have : 2 ^ (32 - n) ≤ 2 ^ (32 - 1 - x.clz.toNat) := Nat.pow_le_pow_right (by omega) (by omega)
    omega

end Sys2Proof.Machine
end

