-- ==== Sys2Proof/Laws/StatusAccess.lean ====
section
/-! SUPPORT. What MSR writes (46_arm_branch_psr_system.md R331, R332), byte by byte. -/

namespace Sys2Proof.Machine

/-- The flag byte and the control byte are taken from the value when the mask selects them; the middle bytes stay. -/
theorem mergeBits_msrMask (old val : Word) (mask : BitVec 4) :
    mergeBits old (msrMask mask) val =
      (if mask.getLsbD 3 then val.extractLsb' 24 8 else old.extractLsb' 24 8) ++ old.extractLsb' 8 16 ++
        (if mask.getLsbD 0 then val.extractLsb' 0 8 else old.extractLsb' 0 8) := by
  apply BitVec.eq_of_getLsbD_eq; intro k hk
  unfold mergeBits msrMask
  cases mask.getLsbD 3 <;> cases mask.getLsbD 0 <;>
    simp only [BitVec.getLsbD_or, BitVec.getLsbD_and, BitVec.getLsbD_not, BitVec.getLsbD_append,
      BitVec.getLsbD_extractLsb', if_true, Bool.false_eq_true, if_false] <;>
    interval_cases k <;> simp

@[simp] theorem msrMask_bit0 (mask : BitVec 4) : (msrMask mask).getLsbD 0 = mask.getLsbD 0 := by
  unfold msrMask
  cases mask.getLsbD 3 <;> cases mask.getLsbD 0 <;> rfl

/-- In USR mode the control byte is not selected. -/
theorem msrMask_user (mask : BitVec 4) : msrMask mask &&& 0xFF000000#32 = msrMask (mask &&& 0b1000#4) := by
  revert mask; decide

namespace State

theorem msrForceF_low (s : State) (mask : BitVec 4) (v : Word) (h : mask.getLsbD 0 = true) :
    (s.msrForceF (msrMask mask) v).extractLsb' 0 8 =
      v.extractLsb' 0 8 ||| (if s.toggles.fiqEnabled then 0#8 else 0x40#8) := by
  apply BitVec.eq_of_getLsbD_eq; intro k hk
  unfold msrForceF
  rw [msrMask_bit0, h]
  cases s.toggles.fiqEnabled <;>
    simp only [BitVec.getLsbD_or, BitVec.getLsbD_extractLsb', Bool.not_false, Bool.not_true, Bool.and_true, if_true,
      if_false, Bool.false_eq_true] <;>
    interval_cases k <;> simp

theorem msrForceF_top (s : State) (mask v : Word) : (s.msrForceF mask v).extractLsb' 24 8 = v.extractLsb' 24 8 := by
  apply BitVec.eq_of_getLsbD_eq; intro k hk
  unfold msrForceF
  split <;> simp only [BitVec.getLsbD_or, BitVec.getLsbD_extractLsb'] <;> (interval_cases k <;> simp)

/-- MSR to CPSR without the control byte: the flag byte as selected. -/
theorem writeCpsr_flagByte {s : State} {mask : BitVec 4} (v : Word)
    (h : mask.getLsbD 0 = false ∨ Psr.modeBits s.cpsr = Mode.usr.bits) :
    s.writeCpsr (msrMask mask) v =
      some { s with cpsr := (if mask.getLsbD 3 then v.extractLsb' 24 8 else s.cpsr.extractLsb' 24 8) ++
        s.cpsr.extractLsb' 8 16 ++ s.cpsr.extractLsb' 0 8 } := by
  unfold writeCpsr
  by_cases hu : Psr.modeBits s.cpsr = Mode.usr.bits
  · have h0 : (mask &&& 0b1000#4).getLsbD 0 = false := by simp
    have h3 : (mask &&& 0b1000#4).getLsbD 3 = mask.getLsbD 3 := by simp
    simp only [hu, beq_self_eq_true, if_true, msrMask_user, msrMask_bit0, h0, mergeBits_msrMask, h3, Bool.false_eq_true,
      if_false]
  · have h0 := h.resolve_right hu
    have hu' : (Psr.modeBits s.cpsr == Mode.usr.bits) = false := by simpa using hu
    simp only [hu', Bool.false_eq_true, if_false, msrMask_bit0, h0, mergeBits_msrMask]

/-- MSR to CPSR with the control byte, in a privileged mode: refused when the new mode is invalid. -/
theorem writeCpsr_controlByte {s : State} {mask : BitVec 4} (v : Word) (hm : mask.getLsbD 0 = true)
    (hu : Psr.modeBits s.cpsr ≠ Mode.usr.bits) :
    let byte := v.extractLsb' 0 8 ||| 0x10#8 ||| (if s.toggles.fiqEnabled then 0#8 else 0x40#8)
    s.writeCpsr (msrMask mask) v =
      if Mode.ofBits (byte.extractLsb' 0 5) = none then none
      else some { s with cpsr := (if mask.getLsbD 3 then v.extractLsb' 24 8 else s.cpsr.extractLsb' 24 8) ++
        s.cpsr.extractLsb' 8 16 ++ byte } := by
  intro byte
  have hlow : (s.msrForceF (msrMask mask) (v ||| 0x10#32)).extractLsb' 0 8 = byte := by
    rw [msrForceF_low _ _ _ hm]
    have e : (v ||| 0x10#32).extractLsb' 0 8 = v.extractLsb' 0 8 ||| 0x10#8 := by
      apply BitVec.eq_of_getLsbD_eq; intro k hk
      simp only [BitVec.getLsbD_or, BitVec.getLsbD_extractLsb']
      interval_cases k <;> simp
    rw [e]
  have htop : (s.msrForceF (msrMask mask) (v ||| 0x10#32)).extractLsb' 24 8 = v.extractLsb' 24 8 := by
    rw [msrForceF_top]
    apply BitVec.eq_of_getLsbD_eq; intro k hk
    simp only [BitVec.getLsbD_or, BitVec.getLsbD_extractLsb']
    interval_cases k <;> simp
  have hmode : Psr.modeBits (s.msrForceF (msrMask mask) (v ||| 0x10#32)) = byte.extractLsb' 0 5 := by
    rw [← hlow]
    apply BitVec.eq_of_getLsbD_eq; intro k hk
    simp only [Psr.modeBits, BitVec.getLsbD_extractLsb', Nat.zero_add]
    simp [hk, show k < 8 by omega]
  have hu' : (Psr.modeBits s.cpsr == Mode.usr.bits) = false := by simpa using hu
  unfold writeCpsr
  simp only [hu', Bool.false_eq_true, if_false, msrMask_bit0, hm, if_true, hmode, mergeBits_msrMask, hlow, htop]
  cases Mode.ofBits (byte.extractLsb' 0 5) <;> simp

/-- A word with the middle bytes of a status register has its reserved bits. -/
theorem reserved_middle (a c : BitVec 8) (p : Word) :
    Psr.reserved (a ++ p.extractLsb' 8 16 ++ c) = Psr.reserved p := by
  apply BitVec.eq_of_getLsbD_eq; intro k hk
  simp only [Psr.reserved, BitVec.getLsbD_extractLsb', BitVec.getLsbD_append]
  interval_cases k <;> simp

theorem getLsbD_low (a c : BitVec 8) (m : BitVec 16) {k : Nat} (h : k < 8) :
    (a ++ m ++ c : Word).getLsbD k = c.getLsbD k := by
  simp only [BitVec.getLsbD_append]
  simp [h]

/-- All that an MSR to CPSR can do: CPSR only, its reserved bits kept, and either mode and masks kept too or, outside USR mode,
a valid mode with F forced when FIQ is disabled. -/
theorem writeCpsr_cases {t u : State} {mask : BitVec 4} {v : Word} (hu : t.writeCpsr (msrMask mask) v = some u) :
    ∃ p, u = { t with cpsr := p } ∧ Psr.reserved p = Psr.reserved t.cpsr ∧
      ((Psr.modeBits p = Psr.modeBits t.cpsr ∧ Psr.i p = Psr.i t.cpsr ∧ Psr.f p = Psr.f t.cpsr) ∨
        (Psr.modeBits t.cpsr ≠ Mode.usr.bits ∧ (Mode.ofBits (Psr.modeBits p)).isSome = true ∧
          (t.toggles.fiqEnabled = false → Psr.f p = true))) := by
  by_cases hm : mask.getLsbD 0 = false ∨ Psr.modeBits t.cpsr = Mode.usr.bits
  · rw [writeCpsr_flagByte v hm] at hu
    refine ⟨_, (Option.some.inj hu).symm, reserved_middle .., .inl ⟨?_, ?_, ?_⟩⟩
    · apply BitVec.eq_of_getLsbD_eq; intro k hk
      simp only [Psr.modeBits, BitVec.getLsbD_extractLsb', Nat.zero_add]
      rw [getLsbD_low _ _ _ (by omega)]; simp [show k < 8 by omega]
    · unfold Psr.i; rw [getLsbD_low _ _ _ (by omega)]; simp
    · unfold Psr.f; rw [getLsbD_low _ _ _ (by omega)]; simp
  · push Not at hm
    have h := writeCpsr_controlByte (s := t) v (by simpa using hm.1) hm.2
    simp only [] at h
    generalize hb : v.extractLsb' 0 8 ||| 0x10#8 ||| (if t.toggles.fiqEnabled then 0#8 else 0x40#8) = byte at h
    by_cases hn : Mode.ofBits (byte.extractLsb' 0 5) = none
    · rw [h, if_pos hn] at hu
      exact absurd hu (by simp)
    · rw [h, if_neg hn] at hu
      refine ⟨_, (Option.some.inj hu).symm, reserved_middle .., .inr ⟨hm.2, ?_, fun hf => ?_⟩⟩
      · have e (a : BitVec 8) : Psr.modeBits (a ++ t.cpsr.extractLsb' 8 16 ++ byte) = byte.extractLsb' 0 5 := by
          apply BitVec.eq_of_getLsbD_eq; intro k hk
          simp only [Psr.modeBits, BitVec.getLsbD_extractLsb', Nat.zero_add]
          rw [getLsbD_low _ _ _ (by omega)]
        rw [e]
        exact Option.isSome_iff_ne_none.2 hn
      · unfold Psr.f
        rw [getLsbD_low _ _ _ (by omega), ← hb, hf]
        simp

/-- A write of an SPSR reaches that SPSR only. -/
theorem writeSpsrOf_spsrOf (s : State) (b c : Bank) (v : Word) :
    (s.writeSpsrOf b v).spsrOf c = if c = b then (s.spsrOf c).map fun _ => v else s.spsrOf c := by
  cases b <;> cases c <;> rfl

@[simp] theorem writeSpsrOf_bank (s : State) (b : Bank) (v : Word) : (s.writeSpsrOf b v).bank = s.bank := by
  simp [bank]

@[simp] theorem writeSpsrOf_width (s : State) (b : Bank) (v : Word) : (s.writeSpsrOf b v).width = s.width := by
  simp [width]

@[simp] theorem writeSpsrOf_widthBytes (s : State) (b : Bank) (v : Word) :
    (s.writeSpsrOf b v).widthBytes = s.widthBytes := by simp [widthBytes]

@[simp] theorem writeSpsrOf_reply (s : State) (b : Bank) (v : Word) (w : Width) (a : Word) :
    (s.writeSpsrOf b v).reply w a = s.reply w a := by simp [reply]

/-- MSR to the current SPSR, as one write. -/
theorem writeCurrentSpsr_eq (s : State) (mask : BitVec 4) (v : Word) :
    s.writeCurrentSpsr (msrMask mask) v = s ∧ s.spsrOf s.bank = none ∨
      ∃ old, s.spsrOf s.bank = some old ∧ s.writeCurrentSpsr (msrMask mask) v = s.writeSpsrOf s.bank
        ((if mask.getLsbD 3 then v.extractLsb' 24 8 else old.extractLsb' 24 8) ++ old.extractLsb' 8 16 ++
          (if mask.getLsbD 0 then v.extractLsb' 0 8 ||| (if s.toggles.fiqEnabled then 0#8 else 0x40#8)
            else old.extractLsb' 0 8)) := by
  unfold writeCurrentSpsr
  cases hb : s.spsrOf s.bank with
  | none => exact .inl ⟨rfl, rfl⟩
  | some old =>
    refine .inr ⟨old, rfl, ?_⟩
    simp only [mergeBits_msrMask, msrForceF_top]
    cases h : mask.getLsbD 0
    · simp
    · simp [msrForceF_low _ _ _ h]

end State

end Sys2Proof.Machine
end

