-- ==== Sys2Proof/Laws/Steps.lean ====
section
/-! SUPPORT. Everything one step can do, said once: nothing, an interrupt entry, or the end of an instruction, then the
breakpoint check (40_cycle_pipeline_conditions.md R150). -/

namespace Sys2Proof.Machine

/-- The cases of a step, guards included. -/
theorem step_cases {s t : State} (h : step s = .next t) :
    (s.halted = true ∧ t = s.beginStep) ∨
    (s.halted = false ∧ ∃ u,
      ((s.pendingFiq = true ∧ Psr.f s.cpsr = false ∧
          u = ({ s.beginStep with pendingFiq := false } : State).takeException .fiq s.interruptLink) ∨
        (s.pendingIrq = true ∧ Psr.i s.cpsr = false ∧ (s.pendingFiq = false ∨ Psr.f s.cpsr = true) ∧
          u = ({ s.beginStep with pendingIrq := false } : State).takeException .irq s.interruptLink) ∨
        (s.RunsInstruction ∧ ∃ w, Ends w s.beginStep u)) ∧
      (t = u ∨ t = u.emit .breakpoint) ∧ finishStep (.next u) = .next t) := by
  have fin : ∀ u, finishStep (.next u) = .next t → t = u ∨ t = u.emit .breakpoint := by
    intro u hu
    rcases finishStep_next u with e | e <;> rw [e] at hu <;> cases hu
    · exact .inl rfl
    · exact .inr rfl
  unfold step cycle at h
  simp only [] at h
  split at h
  · exact .inl ⟨by simpa using ‹_›, by cases h; rfl⟩
  · rename_i h0
    have h0 : s.halted = false := by simpa using h0
    refine .inr ⟨h0, ?_⟩
    split at h
    · rename_i h1
      simp only [State.beginStep, Bool.and_eq_true, Bool.not_eq_true'] at h1
      exact ⟨_, .inl ⟨h1.1, h1.2, rfl⟩, fin _ h, h⟩
    · rename_i h1
      have h1 : s.pendingFiq = false ∨ Psr.f s.cpsr = true := by
        cases hp : s.pendingFiq
        · exact .inl rfl
        · refine .inr ?_
          cases hf : Psr.f s.cpsr
          · exact absurd (by simp [State.beginStep, hp, hf]) h1
          · rfl
      split at h
      · rename_i h2
        simp only [State.beginStep, Bool.and_eq_true, Bool.not_eq_true'] at h2
        exact ⟨_, .inr (.inl ⟨h2.1, h2.2, h1, rfl⟩), fin _ h, h⟩
      · rename_i h2
        have h2 : s.pendingIrq = false ∨ Psr.i s.cpsr = true := by
          cases hp : s.pendingIrq
          · exact .inl rfl
          · refine .inr ?_
            cases hf : Psr.i s.cpsr
            · exact absurd (by simp [State.beginStep, hp, hf]) h2
            · rfl
        unfold State.runCurrent at h
        split at h
        · obtain ⟨u, hu⟩ := exec_next ‹Instr› s.beginStep
          rw [hu] at h
          exact ⟨u, .inr (.inr ⟨⟨h0, h1, h2⟩, _, exec_ends hu⟩), fin _ h, h⟩
        · exact ⟨_, .inr (.inr ⟨⟨h0, h1, h2⟩, false, conditional_ends _ _ _ (hacf_ends ..)⟩), fin _ h, h⟩

end Sys2Proof.Machine
end

