-- ==== Sys2Proof/Laws/Thumb.lean ====
section
/-! SUPPORT. The shapes of the Thumb instructions: what `thumbResult`, `thumbCompare`, `thumbLoad` and `thumbStore` do, and
the immediates of the Thumb formats as numbers. -/

namespace Sys2Proof.Machine

/-- A meaning that answers a next state completes with what holds of it. -/
theorem Completes.next {i : Instr} {s t : State} {post : State → Prop} (hi : exec i s = .next t) (hp : post t) :
    Completes i s post := ⟨t, hi, hp⟩

theorem lowReg_ne (r : LowReg) : lowReg r ≠ 15#4 := by revert r; decide

theorem State.low_fetchOpcode (s : State) (r : LowReg) : s.fetchOpcode.low r = s.low r :=
  State.readReg_fetchOpcode (lowReg_ne r)

theorem thumbResult_eq (s : State) (rd : LowReg) (r : AluResult) :
    s.thumbResult rd r = (s.fetchOpcode.writeReg (lowReg rd) r.value).setFlags r.flags := by
  unfold State.thumbResult
  rw [State.fetchOpcode_setFlags, State.fetchOpcode_writeReg (lowReg_ne rd)]

theorem thumbCompare_eq (s : State) (r : AluResult) : s.thumbCompare r = s.fetchOpcode.setFlags r.flags := by
  unfold State.thumbCompare
  rw [State.fetchOpcode_setFlags]

/-- Everything a Thumb result does. -/
theorem thumbResult_shape (s : State) (rd : LowReg) (r : AluResult) :
    (s.thumbResult rd r).port = s.port ++ [s.fetchEvent] ∧
      RegisterResult s (s.thumbResult rd r) (rd.setWidth 4) r.value r.flags := by
  rw [thumbResult_eq]
  exact ⟨by simp [State.fetchEvent], registerResult_fetch ..⟩

/-- Everything a Thumb comparison does. -/
theorem thumbCompare_shape (s : State) (r : AluResult) :
    (s.thumbCompare r).port = s.port ++ [s.fetchEvent] ∧ FlagResult s (s.thumbCompare r) r.flags := by
  rw [thumbCompare_eq]
  exact ⟨by simp [State.fetchEvent], flagResult_fetch ..⟩

/-- Everything a Thumb load of a low register does. -/
theorem thumbLoad_shape (s : State) (k : LoadKind) (rb : Reg) (rd : LowReg) (o : Word) :
    RegisterResult s (s.thumbLoad k rb rd o) (rd.setWidth 4) (s.loadValue k (s.readReg rb + o)) s.flags ∧
      (s.thumbLoad k rb rd o).port = s.port ++ [s.fetchEvent,
        .dataRead k.width (s.readReg rb + o) false (s.reply k.width (s.readReg rb + o)), .iCycle 1] := by
  have he : s.thumbLoad k rb rd o =
      if lowReg rd = 15#4 then ((((s.fetchOpcode.dataRead k.width (s.readReg rb + o) false)).writeReg (lowReg rd)
        (s.loadValue k (s.readReg rb + o))).internalCycle 1).flushPipeline
      else (((s.fetchOpcode.dataRead k.width (s.readReg rb + o) false)).writeReg (lowReg rd)
        (s.loadValue k (s.readReg rb + o))).internalCycle 1 := rfl
  have h : ((s.fetchOpcode.dataRead k.width (s.readReg rb + o) false)).writeReg (lowReg rd)
      (s.loadValue k (s.readReg rb + o)) =
        (s.fetchOpcode.writeReg (lowReg rd) (s.loadValue k (s.readReg rb + o))).emit _ := State.writeReg_emit ..
  rw [he, if_neg (lowReg_ne rd), h]
  exact ⟨((registerResult_fetch' ..).emit _).emit _, by simp [State.fetchEvent]⟩

/-- Everything a Thumb store of a low register does. -/
theorem thumbStore_shape (s : State) (hwf : Memory.wf s.mem) (w : Width) (rb : Reg) (rd : LowReg) (o : Word) :
    StoreResult s (s.thumbStore w rb rd o) w (s.readReg rb + o) (s.readReg (lowReg rd)) 15#4 none ∧
      (s.thumbStore w rb rd o).port = s.port ++ [s.fetchEvent,
        .dataWrite w (s.readReg rb + o) (w.truncate (s.readReg (lowReg rd))) false] := by
  have h := storeTransfer_result s hwf w thumbIndexing rb (lowReg rd) o
  rw [if_neg (lowReg_ne rd)] at h
  refine ⟨⟨h.stored, h.memory, fun _ h => by simp at h, h.registers,
    fun _ => h.pc (by simp [writeBackValue, thumbIndexing]), h.current, h.next, h.fetchType, h.status, h.special⟩, ?_⟩
  rw [← State.readReg_fetchOpcode (lowReg_ne rd)]
  simp only [State.thumbStore, State.storeTransfer]
  simp [State.fetchEvent, transferAddress, indexed, thumbIndexing]

/-! ### Immediates as numbers -/

theorem wordOffset8_eq (i : BitVec 8) : wordOffset8 i = BitVec.ofNat 32 (4 * i.toNat) := by
  unfold wordOffset8
  apply BitVec.eq_of_toNat_eq
  rw [BitVec.toNat_setWidth, BitVec.toNat_append, BitVec.toNat_ofNat]; simp [Nat.shiftLeft_eq]; omega

theorem imm7_words (i : BitVec 7) : ((i ++ 0#2).setWidth 32 : Word) = BitVec.ofNat 32 (4 * i.toNat) := by
  apply BitVec.eq_of_toNat_eq
  rw [BitVec.toNat_setWidth, BitVec.toNat_append, BitVec.toNat_ofNat]; simp [Nat.shiftLeft_eq]; omega

theorem imm5_words (i : BitVec 5) : ((i ++ 0#2).setWidth 32 : Word) = BitVec.ofNat 32 (4 * i.toNat) := by
  apply BitVec.eq_of_toNat_eq
  rw [BitVec.toNat_setWidth, BitVec.toNat_append, BitVec.toNat_ofNat]; simp [Nat.shiftLeft_eq]; omega

theorem imm5_halves (i : BitVec 5) : ((i ++ 0#1).setWidth 32 : Word) = BitVec.ofNat 32 (2 * i.toNat) := by
  apply BitVec.eq_of_toNat_eq
  rw [BitVec.toNat_setWidth, BitVec.toNat_append, BitVec.toNat_ofNat]; simp [Nat.shiftLeft_eq]; omega

theorem State.alignedPc_eq (s : State) : s.alignedPc = s.r15 &&& 0xFFFFFFFC#32 := by
  unfold State.alignedPc Width.align
  apply BitVec.eq_of_getLsbD_eq; intro k hk
  simp only [BitVec.getLsbD_append, BitVec.getLsbD_extractLsb', BitVec.getLsbD_and]
  interval_cases k <;> simp

end Sys2Proof.Machine
end

