-- ==== Sys2Proof/Tests/Slice0.lean ====
section
/-! SUPPORT. The model's own tests: ill-formed terms are refused; every constructor's word, written out from the
encodings of spec/opcode_table.json, decodes to it; single steps of the spec's own vectors (95_test_vectors.md,
96_test_vectors_thumb_exceptions.md; V<n> names the vector); and for every statement of Obligations.lean that has
hypotheses a concrete state and operands that meet them. Every expected value is the spec's. -/

namespace Sys2Proof.Tests

open Sys2Proof Sys2Proof.Machine

section

set_option Elab.async false

/-! ### Small states -/

/-- The register file with the listed physical registers set, every other 0. -/
def regsOf (l : List (Fin 30 × Word)) : Vector Word 30 := l.foldl (fun v x => v.set x.1 x.2) (Vector.replicate 30 0#32)

/-- The start state of an ARM vector: the word in p3, the instruction at 0x100 (95_test_vectors.md section 0). -/
def armAt (cpsr w : Word) (regs : List (Fin 30 × Word)) : State :=
  { State.reset with regs := regsOf regs, cpsr := cpsr, r15 := 0x108#32, p3 := w, port := [] }

/-- The start state of a Thumb vector: the halfword in p3, the instruction at 0x200. -/
def thumbAt (cpsr : Word) (h : Half) (regs : List (Fin 30 × Word)) : State :=
  { State.reset with regs := regsOf regs, cpsr := cpsr, r15 := 0x204#32, p3 := h.setWidth 32, port := [] }

/-- Words of memory. -/
def put (s : State) (l : List (Word × Word)) : State :=
  l.foldl (fun s x => { s with mem := Memory.writeWidth s.mem .word x.1 x.2 }) s

/-- The state after one step. -/
def after (s : State) : Option State :=
  match step s with
  | .next t => some t
  | .fault _ => none
  | .refused _ => none

/-- What a vector states after a step: registers, words of memory, SPSRs, then R15 and CPSR; whether the core halted. -/
def seen (ks : List (Fin 30)) (as : List Word) (bs : List Bank) (s : State) : Option (List Word × Bool) :=
  (after s).map fun t =>
    (ks.map (fun k => t.regs[k]) ++ as.map (t.reply .word) ++ bs.map (fun b => (t.spsrOf b).getD 0#32) ++
      [t.r15, t.cpsr], t.halted)

theorem after_some {s : State} {p : State → Bool} (h : (after s).any p = true) :
    ∃ t, step s = .next t ∧ p t = true := by
  unfold after at h
  split at h
  · exact ⟨_, ‹_›, h⟩
  · cases h
  · cases h

/-! ### WellFormed -/

/-- An irregular test opcode with an immediate is MSR or undefined (R110 rows 1 and 9). -/
theorem test_ill_formed_testNoS_immediate :
    (Instr.testNoS .al 1#2 0#4 0#4 (.imm 0#4 0#8)).wellFormed = false := by decide

/-- With LSL and an even amount it is MRS or MSR (rows 7 and 8); with an odd amount it is data processing. -/
theorem test_ill_formed_testNoS_lsl :
    (Instr.testNoS .al 1#2 0#4 0#4 (.immShift .lsl 2#5 0#4)).wellFormed = false ∧
    (Instr.testNoS .al 1#2 0#4 0#4 (.immShift .lsl 3#5 0#4)).wellFormed = true := by decide

/-- In the register form BX and the patterns U3 and U4 win (rows 3, 4 and 11). -/
theorem test_ill_formed_testNoS_register :
    (Instr.testNoS .al 1#2 0#4 0#4 (.regShift .lsl 0#4 0#4)).wellFormed = false ∧
    (Instr.testNoS .al 3#2 0#4 0#4 (.regShift .lsl 0#4 0#4)).wellFormed = false ∧
    (Instr.testNoS .al 0#2 0#4 0#4 (.regShift .asr 0#4 0#4)).wellFormed = false := by decide

/-- The multiply, multiply-long and swap words are not unknown (R112). -/
theorem test_ill_formed_unknownMulSwap :
    (Instr.unknownMulSwap .al 0b00010#5 0#12 0#4).wellFormed = false ∧
    (Instr.unknownMulSwap .al 0b01111#5 0#12 0#4).wellFormed = false ∧
    (Instr.unknownMulSwap .al 0b10100#5 0#12 0#4).wellFormed = false := by decide

/-- A conditional branch has no condition 1110 or 1111 (R130 rows 16 and 17). -/
theorem test_ill_formed_tBCond :
    (Instr.tBCond .al 0#8).wellFormed = false ∧ (Instr.tBCond .nv 0#8).wellFormed = false := by decide

/-- Formats 13 and 14 are not unknown (R464). -/
theorem test_ill_formed_tUnknown :
    (Instr.tUnknown 0#4 0#8).wellFormed = false ∧ (Instr.tUnknown 0b0100#4 0#8).wellFormed = false ∧
    (Instr.tUnknown 0b1101#4 0#8).wellFormed = false := by decide

/-! ### Decoding -/

/-- Words written out from the encodings of the table (30_encoding.md R104, R105: the three operand forms). -/
theorem test_decode_data_processing :
    decodeArm 0b11100000000000100011001010000001#32 = .ok (.and .al false 2#4 3#4 (.immShift .lsl 5#5 1#4)) ∧
    decodeArm 0b11100010001101000101111100001111#32 = .ok (.eor .al true 4#4 5#4 (.imm 15#4 0x0F#8)) ∧
    decodeArm 0b00000000010101100111100100111000#32 = .ok (.sub .eq true 6#4 7#4 (.regShift .lsr 9#4 8#4)) ∧
    decodeArm 0b00010000011000010010111111000011#32 = .ok (.rsb .ne false 1#4 2#4 (.immShift .asr 31#5 3#4)) ∧
    decodeArm 0b00100000100111101111000101110010#32 = .ok (.add .cs true 14#4 15#4 (.regShift .ror 1#4 2#4)) ∧
    decodeArm 0b00110010101000000001000100000010#32 = .ok (.adc .cc false 0#4 1#4 (.imm 1#4 0x02#8)) ∧
    decodeArm 0b01000010110000000001000100000010#32 = .ok (.sbc .mi false 0#4 1#4 (.imm 1#4 0x02#8)) ∧
    decodeArm 0b01010010111100000001000100000010#32 = .ok (.rsc .pl true 0#4 1#4 (.imm 1#4 0x02#8)) ∧
    decodeArm 0b01100011100000000001000100000010#32 = .ok (.orr .vs false 0#4 1#4 (.imm 1#4 0x02#8)) ∧
    decodeArm 0b01110011101000110001000100000010#32 = .ok (.mov .vc false 3#4 1#4 (.imm 1#4 0x02#8)) ∧
    decodeArm 0b10000011110000000001000100000010#32 = .ok (.bic .hi false 0#4 1#4 (.imm 1#4 0x02#8)) ∧
    decodeArm 0b10010011111000110001000100000010#32 = .ok (.mvn .ls false 3#4 1#4 (.imm 1#4 0x02#8)) := by
  decide +kernel

/-- Words written out from the encodings of the table (30_encoding.md R105, R113: the four tests and the irregular opcode). -/
theorem test_decode_tests :
    decodeArm 0b10100001000100010010000001100011#32 = .ok (.tst .ge 1#4 2#4 (.immShift .ror 0#5 3#4)) ∧
    decodeArm 0b10110011001100010010001111111111#32 = .ok (.teq .lt 1#4 2#4 (.imm 3#4 0xFF#8)) ∧
    decodeArm 0b11000011010100010010001111111111#32 = .ok (.cmp .gt 1#4 2#4 (.imm 3#4 0xFF#8)) ∧
    decodeArm 0b11010011011100010010001111111111#32 = .ok (.cmn .le 1#4 2#4 (.imm 3#4 0xFF#8)) ∧
    decodeArm 0b11100001010000010010000000100011#32 = .ok (.testNoS .al 2#2 1#4 2#4 (.immShift .lsr 0#5 3#4)) := by
  decide +kernel

/-- Words written out from the encodings of the table (30_encoding.md R104). -/
theorem test_decode_multiply :
    decodeArm 0b11100000000100010010001110010100#32 = .ok (.mul .al true 1#4 2#4 3#4 4#4) ∧
    decodeArm 0b11100000001000010010001110010100#32 = .ok (.mla .al false 1#4 2#4 3#4 4#4) ∧
    decodeArm 0b11100000100100010010001110010100#32 = .ok (.umull .al true 1#4 2#4 3#4 4#4) ∧
    decodeArm 0b11100000101000010010001110010100#32 = .ok (.umlal .al false 1#4 2#4 3#4 4#4) ∧
    decodeArm 0b11100000110100010010001110010100#32 = .ok (.smull .al true 1#4 2#4 3#4 4#4) ∧
    decodeArm 0b11110000111000010010001110010100#32 = .ok (.smlal .nv false 1#4 2#4 3#4 4#4) := by
  decide +kernel

/-- Words written out from the encodings of the table (30_encoding.md R104). -/
theorem test_decode_status_swap_branch_exchange :
    decodeArm 0b11100001010011110010000100000011#32 = .ok (.mrs .al true 2#4 15#4 1#4 3#4) ∧
    decodeArm 0b11100001001010011111000100000010#32 = .ok (.msrReg .al false 9#4 2#4 0xF1#8) ∧
    decodeArm 0b11100011011010001111001011110000#32 = .ok (.msrImm .al true 8#4 2#4 0xF0#8 15#4) ∧
    decodeArm 0b11100001000000010010010110010011#32 = .ok (.swp .al 1#4 2#4 3#4 5#4) ∧
    decodeArm 0b11100001010000010010000010010011#32 = .ok (.swpb .al 1#4 2#4 3#4 0#4) ∧
    decodeArm 0b11100001001011111111111000010011#32 = .ok (.bx .al 3#4 0xFFE#12) := by
  decide +kernel

/-- Words written out from the encodings of the table (30_encoding.md R112). -/
theorem test_decode_halfword_transfers :
    decodeArm 0b11100001010000010010101010110101#32 = .ok (.strh .al ⟨true, false, false⟩ 1#4 2#4 (.imm 0xA5#8)) ∧
    decodeArm 0b11100000100100010010000010110011#32 = .ok (.ldrh .al ⟨false, true, false⟩ 1#4 2#4 (.reg 0#4 3#4)) ∧
    decodeArm 0b11100001101100010010011111010011#32 = .ok (.ldrsb .al ⟨true, true, true⟩ 1#4 2#4 (.reg 7#4 3#4)) ∧
    decodeArm 0b11100000011100010010000011110001#32 = .ok (.ldrsh .al ⟨false, false, true⟩ 1#4 2#4 (.imm 0x01#8)) := by
  decide +kernel

/-- Words written out from the encodings of the table (30_encoding.md R104, R260). -/
theorem test_decode_single_transfers :
    decodeArm 0b11100101100111110001101010111100#32 = .ok (.ldr .al ⟨true, true, false⟩ 15#4 1#4 (.imm 0xABC#12)) ∧
    decodeArm 0b11100110001000100011000100000100#32 = .ok (.str .al ⟨false, false, true⟩ 2#4 3#4 (.shifted .lsl 2#5 4#4)) ∧
    decodeArm 0b11100111011100100011000001100100#32 = .ok (.ldrb .al ⟨true, false, true⟩ 2#4 3#4 (.shifted .ror 0#5 4#4)) ∧
    decodeArm 0b11100100110000100011000000000001#32 = .ok (.strb .al ⟨false, true, false⟩ 2#4 3#4 (.imm 1#12)) := by
  decide +kernel

/-- Words written out from the encodings of the table (30_encoding.md R104). -/
theorem test_decode_block_branch_swi :
    decodeArm 0b11101000101111011000000000000001#32 = .ok (.ldm .al ⟨false, true, true⟩ false 13#4 0x8001#16) ∧
    decodeArm 0b11101001010011010100000000000010#32 = .ok (.stm .al ⟨true, false, false⟩ true 13#4 0x4002#16) ∧
    decodeArm 0b11101010111111111111111111111110#32 = .ok (.b .al 0xFFFFFE#24) ∧
    decodeArm 0b00011011100000000000000000000001#32 = .ok (.bl .ne 0x800001#24) ∧
    decodeArm 0b11101111000100100011010001010110#32 = .ok (.swi .al 0x123456#24) := by
  decide +kernel

/-- Words written out from the encodings of the table (30_encoding.md R104). -/
theorem test_decode_coprocessor :
    decodeArm 0b11101101010000010010001101000101#32 = .ok (.stc .al 0xA#4 0x12345#20) ∧
    decodeArm 0b11101100101101010100001100100001#32 = .ok (.ldc .al 0x5#4 0x54321#20) ∧
    decodeArm 0b11101110100000000000000000101001#32 = .ok (.cdp .al 0x40001#19 0x9#4) ∧
    decodeArm 0b11101110101001100001111001110010#32 = .ok (.mcr .al 1#4 14#4 5#3 6#4 3#3 2#4) ∧
    decodeArm 0b11101110101101100001111101110010#32 = .ok (.mrc .al 1#4 15#4 5#3 6#4 3#3 2#4) := by
  decide +kernel

/-- Words written out from the encodings of the table (30_encoding.md R110, R112). -/
theorem test_decode_undefined_and_unknown :
    decodeArm 0b11100011010010101011110011011110#32 = .ok (.undefinedU1 .al true 0xABCDE#20) ∧
    decodeArm 0b11100111000000000000000000111111#32 = .ok (.undefinedU2 .al 0x80001#20 0xF#4) ∧
    decodeArm 0b11100001011011111111111100010001#32 = .ok (.undefinedU3 .al 0xFFF#12 0x1#4) ∧
    decodeArm 0b11100001010000000000000101111000#32 = .ok (.undefinedU4 .al 2#2 0x001#12 true 0x8#4) ∧
    decodeArm 0b11100000011100110010000110010100#32 = .ok (.unknownMulSwap .al 0b00111#5 0x321#12 0x4#4) ∧
    decodeArm 0b11100001110000000000111111010001#32 = .ok (.unknownHalf .al 0xE#4 0x00F#12 false 0x1#4) := by
  decide +kernel

/-- Words written out from the encodings of the table (30_encoding.md R120). -/
theorem test_decode_thumb_shift_add_immediate :
    decodeThumb 0b0000011111010001#16 = .tLslImm 1#3 2#3 31#5 ∧
    decodeThumb 0b0000100001010001#16 = .tLsrImm 1#3 2#3 1#5 ∧
    decodeThumb 0b0001000000111001#16 = .tAsrImm 1#3 7#3 0#5 ∧
    decodeThumb 0b0001100001010011#16 = .tAddReg 3#3 2#3 1#3 ∧
    decodeThumb 0b0001101001010011#16 = .tSubReg 3#3 2#3 1#3 ∧
    decodeThumb 0b0001110001010011#16 = .tAddImm3 3#3 2#3 1#3 ∧
    decodeThumb 0b0001111001010011#16 = .tSubImm3 3#3 2#3 1#3 ∧
    decodeThumb 0b0010010110000001#16 = .tMovImm 5#3 0x81#8 ∧
    decodeThumb 0b0010110110000001#16 = .tCmpImm 5#3 0x81#8 ∧
    decodeThumb 0b0011010110000001#16 = .tAddImm8 5#3 0x81#8 ∧
    decodeThumb 0b0011110110000001#16 = .tSubImm8 5#3 0x81#8 := by
  decide +kernel

/-- Words written out from the encodings of the table (47_thumb_alu.md R380). -/
theorem test_decode_thumb_alu :
    decodeThumb 0b0100000000101110#16 = .tAnd 6#3 5#3 ∧
    decodeThumb 0b0100000001101110#16 = .tEor 6#3 5#3 ∧
    decodeThumb 0b0100000010101110#16 = .tLslReg 6#3 5#3 ∧
    decodeThumb 0b0100000011101110#16 = .tLsrReg 6#3 5#3 ∧
    decodeThumb 0b0100000100101110#16 = .tAsrReg 6#3 5#3 ∧
    decodeThumb 0b0100000101101110#16 = .tAdc 6#3 5#3 ∧
    decodeThumb 0b0100000110101110#16 = .tSbc 6#3 5#3 ∧
    decodeThumb 0b0100000111101110#16 = .tRorReg 6#3 5#3 ∧
    decodeThumb 0b0100001000101110#16 = .tTst 6#3 5#3 ∧
    decodeThumb 0b0100001001101110#16 = .tNeg 6#3 5#3 ∧
    decodeThumb 0b0100001010101110#16 = .tCmpReg 6#3 5#3 ∧
    decodeThumb 0b0100001011101110#16 = .tCmn 6#3 5#3 ∧
    decodeThumb 0b0100001100101110#16 = .tOrr 6#3 5#3 ∧
    decodeThumb 0b0100001101101110#16 = .tMul 6#3 5#3 ∧
    decodeThumb 0b0100001110101110#16 = .tBic 6#3 5#3 ∧
    decodeThumb 0b0100001111101110#16 = .tMvn 6#3 5#3 := by
  decide +kernel

/-- Words written out from the encodings of the table (30_encoding.md R120). -/
theorem test_decode_thumb_high_registers :
    decodeThumb 0b0100010010011010#16 = .tAddHi 10#4 3#4 ∧
    decodeThumb 0b0100010101011010#16 = .tCmpHi 2#4 11#4 ∧
    decodeThumb 0b0100011011111110#16 = .tMovHi 14#4 15#4 ∧
    decodeThumb 0b0100011111110101#16 = .tBx 14#4 true 5#3 := by
  decide +kernel

/-- Words written out from the encodings of the table (30_encoding.md R120). -/
theorem test_decode_thumb_transfers :
    decodeThumb 0b0100110110000001#16 = .tLdrPc 5#3 0x81#8 ∧
    decodeThumb 0b0101000001010011#16 = .tStrReg 3#3 2#3 1#3 ∧
    decodeThumb 0b0101010001010011#16 = .tStrbReg 3#3 2#3 1#3 ∧
    decodeThumb 0b0101100001010011#16 = .tLdrReg 3#3 2#3 1#3 ∧
    decodeThumb 0b0101110001010011#16 = .tLdrbReg 3#3 2#3 1#3 ∧
    decodeThumb 0b0101001001010011#16 = .tStrhReg 3#3 2#3 1#3 ∧
    decodeThumb 0b0101011001010011#16 = .tLdsbReg 3#3 2#3 1#3 ∧
    decodeThumb 0b0101101001010011#16 = .tLdrhReg 3#3 2#3 1#3 ∧
    decodeThumb 0b0101111001010011#16 = .tLdshReg 3#3 2#3 1#3 ∧
    decodeThumb 0b0110011110010001#16 = .tStrImm 1#3 2#3 30#5 ∧
    decodeThumb 0b0110111110010001#16 = .tLdrImm 1#3 2#3 30#5 ∧
    decodeThumb 0b0111011110010001#16 = .tStrbImm 1#3 2#3 30#5 ∧
    decodeThumb 0b0111111110010001#16 = .tLdrbImm 1#3 2#3 30#5 ∧
    decodeThumb 0b1000011110010001#16 = .tStrhImm 1#3 2#3 30#5 ∧
    decodeThumb 0b1000111110010001#16 = .tLdrhImm 1#3 2#3 30#5 ∧
    decodeThumb 0b1001010110000001#16 = .tStrSp 5#3 0x81#8 ∧
    decodeThumb 0b1001110110000001#16 = .tLdrSp 5#3 0x81#8 := by
  decide +kernel

/-- Words written out from the encodings of the table (30_encoding.md R120). -/
theorem test_decode_thumb_addresses_and_blocks :
    decodeThumb 0b1010010110000001#16 = .tAddPc 5#3 0x81#8 ∧
    decodeThumb 0b1010110110000001#16 = .tAddSp 5#3 0x81#8 ∧
    decodeThumb 0b1011000011111111#16 = .tAdjSp true 0x7F#7 ∧
    decodeThumb 0b1011010100001111#16 = .tPush true 0x0F#8 ∧
    decodeThumb 0b1011110011110000#16 = .tPop false 0xF0#8 ∧
    decodeThumb 0b1100001110101010#16 = .tStmia 3#3 0xAA#8 ∧
    decodeThumb 0b1100110001010101#16 = .tLdmia 4#3 0x55#8 := by
  decide +kernel

/-- Words written out from the encodings of the table (30_encoding.md R120, R130). -/
theorem test_decode_thumb_branches :
    decodeThumb 0b1101110110000000#16 = .tBCond .le 0x80#8 ∧
    decodeThumb 0b1101111011111111#16 = .tUndefined1 0xFF#8 ∧
    decodeThumb 0b1101111100101010#16 = .tSwi 0x2A#8 ∧
    decodeThumb 0b1110010000000001#16 = .tB 0x401#11 ∧
    decodeThumb 0b1110111111111111#16 = .tUndefined2 0x7FF#11 ∧
    decodeThumb 0b1111010000000001#16 = .tBlFirst 0x401#11 ∧
    decodeThumb 0b1111101111111110#16 = .tBlSecond 0x3FE#11 ∧
    decodeThumb 0b1011111000000001#16 = .tUnknown 0xE#4 0x01#8 := by
  decide +kernel

/-- The host's numbering: 32 bits are an ARM word, 16 a Thumb halfword. -/
theorem test_decodeTableWord :
    decodeTableWord 32 0xE3B00000 = some (.mov .al true 0#4 0#4 (.imm 0#4 0#8)) ∧
    decodeTableWord 16 0x0108 = some (.tLslImm 0#3 1#3 4#5) := by decide +kernel

/-- The word placed by the host is the one the next step runs: MOV R0, #1 and its Thumb form. -/
theorem test_withFetchWord :
    (after (State.reset.withFetchWord 32 0xE3A00001)).map (fun t => t.readReg 0#4) = some 1#32 ∧
    (after (State.reset.withFetchWord 16 0x2001)).map (fun t => t.readReg 0#4) = some 1#32 := by decide +kernel

/-- The four examples of R181, with C set: rotate field and immediate, then operand and carry. -/
theorem test_rotatedImm :
    rotatedImm 0#4 0xFF#8 true = ⟨0x000000FF#32, true⟩ ∧ rotatedImm 4#4 0xFF#8 true = ⟨0xFF000000#32, true⟩ ∧
    rotatedImm 1#4 0x02#8 true = ⟨0x80000000#32, true⟩ ∧ rotatedImm 8#4 0x01#8 true = ⟨0x00010000#32, false⟩ := by decide

/-! ### Single steps -/

/-- V037, R214: `ADDS r0, r0, r0 (D0 scenario 2)`. -/
theorem test_V037_adds_r0_r0_r0 :
    seen [0] [] []
      (armAt 0x1F#32 0xE0900000#32 [(0, 0x80000000#32)]) =
    some ([0x0#32, 0x10C#32, 0x7000001F#32], false) := by
  decide +kernel

/-- V031, R212: `SUBS r0, r1, #1`. -/
theorem test_V031_subs_r0_r1_1 :
    seen [0] [] []
      (armAt 0x1F#32 0xE2510001#32 [(1, 0x80000000#32)]) =
    some ([0x7FFFFFFF#32, 0x10C#32, 0x3000001F#32], false) := by
  decide +kernel

/-- V055, R223: `MOVS r0, #0 (D0 scenario 1 with C = V = 1 at the start)`. -/
theorem test_V055_movs_r0_0 :
    seen [0] [] []
      (armAt 0x3000001F#32 0xE3B00000#32 [(0, 0x55#32)]) =
    some ([0x0#32, 0x10C#32, 0x7000001F#32], false) := by
  decide +kernel

/-- V061, R202: `ADD r0, pc, r1, LSL r2`. -/
theorem test_V061_add_r0_pc_r1_lsl_r2 :
    seen [0] [] []
      (armAt 0x1F#32 0xE08F0211#32 []) =
    some ([0x10C#32, 0x10C#32, 0x1F#32], false) := by
  decide +kernel

/-- V067, R205: `SUBS pc, lr, #4`. -/
theorem test_V067_subs_pc_lr_4 :
    seen [] [] []
      ({ (armAt 0xD2#32 0xE25EF004#32 [(23, 0x3006#32)]) with spsrIrq := 0x30#32 } : State) =
    some ([0x3006#32, 0x30#32], false) := by
  decide +kernel

/-- V069, R205: `MOVS pc, lr (SPSR mode invalid)`. -/
theorem test_V069_movs_pc_lr :
    seen [] [] []
      (armAt 0xD3#32 0xE1B0F00E#32 [(25, 0x3000#32)]) =
    some ([0x108#32, 0xD3#32], true) := by
  decide +kernel

/-- V071, R161: `ADDEQ r0, r0, #1 (Z=0: skipped)`. -/
theorem test_V071_addeq_r0_r0_1 :
    seen [0] [] []
      (armAt 0x1F#32 0x02800001#32 [(0, 0x5#32)]) =
    some ([0x5#32, 0x10C#32, 0x1F#32], false) := by
  decide +kernel

/-- V047, R217: `RSCS r0, r1, r2`. -/
theorem test_V047_rscs_r0_r1_r2 :
    seen [0] [] []
      (armAt 0x1F#32 0xE0F10002#32 [(1, 0x3#32), (2, 0x3#32)]) =
    some ([0xFFFFFFFF#32, 0x10C#32, 0x8000001F#32], false) := by
  decide +kernel

/-- V045, R216: `SBCS r0, r1, r2`. -/
theorem test_V045_sbcs_r0_r1_r2 :
    seen [0] [] []
      (armAt 0x1F#32 0xE0D10002#32 [(1, 0x80000000#32)]) =
    some ([0x7FFFFFFF#32, 0x10C#32, 0x3000001F#32], false) := by
  decide +kernel

/-- V075, R243: `MULS r0, r1, r2`. -/
theorem test_V075_muls_r0_r1_r2 :
    seen [0] [] []
      (armAt 0x3000001F#32 0xE0100291#32 [(1, 0x2#32), (2, 0xFFFFFF00#32)]) =
    some ([0xFFFFFE00#32, 0x10C#32, 0xB000001F#32], false) := by
  decide +kernel

/-- V081, R244: `MLAS r0, r1, r2, r3`. -/
theorem test_V081_mlas_r0_r1_r2_r3 :
    seen [0] [] []
      (armAt 0x3000001F#32 0xE0303291#32 [(1, 0xFFFFFFFF#32), (2, 0x1#32), (3, 0x1#32)]) =
    some ([0x0#32, 0x10C#32, 0x7000001F#32], false) := by
  decide +kernel

/-- V085, R246: `UMLAL r0, r1, r2, r3`. -/
theorem test_V085_umlal_r0_r1_r2_r3 :
    seen [0, 1] [] []
      (armAt 0x1F#32 0xE0A10392#32 [(0, 0xFFFFFFFF#32), (2, 0x1#32), (3, 0x1#32)]) =
    some ([0x0#32, 0x1#32, 0x10C#32, 0x1F#32], false) := by
  decide +kernel

/-- V087, R247: `SMULLS r0, r1, r2, r3`. -/
theorem test_V087_smulls_r0_r1_r2_r3 :
    seen [0, 1] [] []
      (armAt 0x1F#32 0xE0D10392#32 [(2, 0x2#32), (3, 0xFFFFFFFF#32)]) =
    some ([0xFFFFFFFE#32, 0xFFFFFFFF#32, 0x10C#32, 0x8000001F#32], false) := by
  decide +kernel

/-- V093, R270: `LDR r0, [r1] (address 2 mod 4)`. -/
theorem test_V093_ldr_r0_r1 :
    seen [0] [] []
      (put (armAt 0x1F#32 0xE5910000#32 [(1, 0x2002#32)])
        [(0x2000#32, 0x44332211#32), (0x2004#32, 0x88776655#32)]) =
    some ([0x22114433#32, 0x10C#32, 0x1F#32], false) := by
  decide +kernel

/-- V105, R271: `STR r0, [r1, #-4]!`. -/
theorem test_V105_str_r0_r1_4 :
    seen [0, 1] [0x2000#32] []
      (armAt 0x1F#32 0xE5210004#32 [(0, 0xCAFEBABE#32), (1, 0x2004#32)]) =
    some ([0xCAFEBABE#32, 0x2000#32, 0xCAFEBABE#32, 0x10C#32, 0x1F#32], false) := by
  decide +kernel

/-- V107, R262: `STR pc, [r1]`. -/
theorem test_V107_str_pc_r1 :
    seen [] [0x2000#32] []
      (armAt 0x1F#32 0xE581F000#32 [(1, 0x2000#32)]) =
    some ([0x10C#32, 0x10C#32, 0x1F#32], false) := by
  decide +kernel

/-- V109, R273: `STRB r0, [r1, #3]`. -/
theorem test_V109_strb_r0_r1_3 :
    seen [0] [0x2000#32] []
      (put (armAt 0x1F#32 0xE5C10003#32 [(0, 0x123456AB#32), (1, 0x2000#32)])
        [(0x2000#32, 0x44332211#32), (0x2004#32, 0x88776655#32)]) =
    some ([0x123456AB#32, 0xAB332211#32, 0x10C#32, 0x1F#32], false) := by
  decide +kernel

/-- V113, R281: `LDRH r0, [r1, r2]!`. -/
theorem test_V113_ldrh_r0_r1_r2 :
    seen [0, 1] [] []
      (put (armAt 0x1F#32 0xE1B100B2#32 [(1, 0x2000#32), (2, 0x6#32)])
        [(0x2000#32, 0x44332211#32), (0x2004#32, 0x88776655#32)]) =
    some ([0x8877#32, 0x2006#32, 0x10C#32, 0x1F#32], false) := by
  decide +kernel

/-- V119, R284: `LDRSH r0, [r1] (odd address)`. -/
theorem test_V119_ldrsh_r0_r1 :
    seen [0] [] []
      (put (armAt 0x1F#32 0xE1D100F0#32 [(1, 0x2001#32)])
        [(0x2000#32, 0x44332211#32), (0x2004#32, 0x88776655#32)]) =
    some ([0x22#32, 0x10C#32, 0x1F#32], false) := by
  decide +kernel

/-- V121, R290: `SWP r0, r1, [r2] (address 1 mod 4)`. -/
theorem test_V121_swp_r0_r1_r2 :
    seen [0] [0x2000#32] []
      (put (armAt 0x1F#32 0xE1020091#32 [(1, 0xCAFEBABE#32), (2, 0x2001#32)])
        [(0x2000#32, 0x44332211#32), (0x2004#32, 0x88776655#32)]) =
    some ([0x11443322#32, 0xCAFEBABE#32, 0x10C#32, 0x1F#32], false) := by
  decide +kernel

/-- V123, R291: `SWPB r0, r1, [r2]`. -/
theorem test_V123_swpb_r0_r1_r2 :
    seen [0] [0x2000#32] []
      (put (armAt 0x1F#32 0xE1420091#32 [(1, 0xCAFEBABE#32), (2, 0x2002#32)])
        [(0x2000#32, 0x44332211#32), (0x2004#32, 0x88776655#32)]) =
    some ([0x33#32, 0x44BE2211#32, 0x10C#32, 0x1F#32], false) := by
  decide +kernel

/-- V131, R307: `LDMIA r0!, {r0, r1} (base in list)`. -/
theorem test_V131_ldmia_r0_r0_r1 :
    seen [0, 1] [] []
      (put (armAt 0x1F#32 0xE8B00003#32 [(0, 0x2000#32)])
        [(0x2000#32, 0xA0#32), (0x2004#32, 0xA1#32), (0x2008#32, 0xA2#32), (0x200C#32, 0xA3#32), (0x2010#32, 0xA4#32)]) =
    some ([0xA0#32, 0xA1#32, 0x10C#32, 0x1F#32], false) := by
  decide +kernel

/-- V139, R307: `STMIA r1!, {r0, r1}`. -/
theorem test_V139_stmia_r1_r0_r1 :
    seen [1] [0x2000#32, 0x2004#32] []
      (armAt 0x1F#32 0xE8A10003#32 [(0, 0x11#32), (1, 0x2000#32)]) =
    some ([0x2008#32, 0x11#32, 0x2008#32, 0x10C#32, 0x1F#32], false) := by
  decide +kernel

/-- V141, R312: `LDMIA r0!, {}`. -/
theorem test_V141_ldmia_r0 :
    seen [0] [] []
      (put (armAt 0x1F#32 0xE8B00000#32 [(0, 0x2000#32)])
        [(0x2000#32, 0x3000#32)]) =
    some ([0x2040#32, 0x3008#32, 0x1F#32], false) := by
  decide +kernel

/-- V145, R305: `STMIA r0, {r13, r14}^ in IRQ mode`. -/
theorem test_V145_stmia_r0_r13_r14_in_irq_mode :
    seen [0] [0x2000#32, 0x2004#32] []
      (armAt 0xD2#32 0xE8C06000#32 [(0, 0x2000#32), (13, 0xAAAA#32), (14, 0xBBBB#32), (22, 0x1111#32), (23, 0x2222#32)]) =
    some ([0x2000#32, 0xAAAA#32, 0xBBBB#32, 0x10C#32, 0xD2#32], false) := by
  decide +kernel

/-- V147, R305: `LDMIA r0, {r8, r13}^ in SVC mode`. -/
theorem test_V147_ldmia_r0_r8_r13_in_svc_mode :
    seen [0, 8, 13] [] []
      (put (armAt 0xD3#32 0xE8D02100#32 [(0, 0x2000#32), (8, 0x8F#32), (24, 0x13F#32)])
        [(0x2000#32, 0xA0#32), (0x2004#32, 0xA1#32), (0x2008#32, 0xA2#32), (0x200C#32, 0xA3#32), (0x2010#32, 0xA4#32)]) =
    some ([0x2000#32, 0xA0#32, 0xA1#32, 0x10C#32, 0xD3#32], false) := by
  decide +kernel

/-- V149, R306: `LDMIA sp!, {r0, pc}^ with SPSR_svc=0 (invalid mode)`. -/
theorem test_V149_ldmia_sp_r0_pc_with_spsr_svc_0 :
    seen [0, 24] [] []
      (put (armAt 0xD3#32 0xE8FD8001#32 [(24, 0x2000#32)])
        [(0x2000#32, 0x77#32), (0x2004#32, 0x3001#32)]) =
    some ([0x77#32, 0x2008#32, 0x3001#32, 0xD3#32], true) := by
  decide +kernel

/-- V153, R320: `B with offset 0x800000 (most negative)`. -/
theorem test_V153_b_with_offset_0x800000 :
    seen [] [] []
      (armAt 0x1F#32 0xEA800000#32 []) =
    some ([0xFE000110#32, 0x1F#32], false) := by
  decide +kernel

/-- V157, R322: `BX r0 (bit 0 clear, bit 1 set)`. -/
theorem test_V157_bx_r0 :
    seen [0] [] []
      (armAt 0x1F#32 0xE12FFF10#32 [(0, 0x202#32)]) =
    some ([0x202#32, 0x208#32, 0x1F#32], false) := by
  decide +kernel

/-- V161, R330: `MRS r0, SPSR (SYS mode: reads CPSR)`. -/
theorem test_V161_mrs_r0_spsr :
    seen [0] [] []
      (armAt 0x4000001F#32 0xE14F0000#32 []) =
    some ([0x4000001F#32, 0x10C#32, 0x4000001F#32], false) := by
  decide +kernel

/-- V165, R331: `MSR CPSR_fc, r0 (USR mode: flags only)`. -/
theorem test_V165_msr_cpsr_fc_r0 :
    seen [] [] []
      (armAt 0x10#32 0xE129F000#32 [(0, 0xF00000DF#32)]) =
    some ([0x10C#32, 0xF0000010#32], false) := by
  decide +kernel

/-- V167, R332: `MSR CPSR_c, r0 (invalid mode 0x14)`. -/
theorem test_V167_msr_cpsr_c_r0 :
    seen [] [] []
      (armAt 0xD3#32 0xE121F000#32 [(0, 0x14#32)]) =
    some ([0x108#32, 0xD3#32], true) := by
  decide +kernel

/-- V171, R331: `MSR CPSR_c, #0x1F with FIQ_ENABLED false`. -/
theorem test_V171_msr_cpsr_c_0x1f_with_fiq_enabled_f :
    seen [] [] []
      ({ (armAt 0xD3#32 0xE321F01F#32 []) with toggles := ⟨false, true⟩ } : State) =
    some ([0x10C#32, 0x5F#32], false) := by
  decide +kernel

/-- V173, R341: `MCR p14, 0, r0, c0, c0, 0`. -/
theorem test_V173_mcr_p14_0_r0_c0_c0_0 :
    seen [] [] []
      (armAt 0x1F#32 0xEE000E10#32 [(0, 0x55#32)]) =
    some ([0x10C#32, 0x1F#32], false) := by
  decide +kernel

/-- V175, R342: `CDP p1, 0, c0, c0, c0`. -/
theorem test_V175_cdp_p1_0_c0_c0_c0 :
    seen [29] [] [.und]
      (armAt 0x10#32 0xEE000100#32 []) =
    some ([0x104#32, 0x10#32, 0xC#32, 0x9B#32], false) := by
  decide +kernel

/-- V177, R345: `SWI #0 (D0 scenario 5, ARM)`. -/
theorem test_V177_swi_0 :
    seen [25] [] [.svc]
      ({ (armAt 0x10#32 0xEF000000#32 []) with r15 := 0x1008#32 } : State) =
    some ([0x1004#32, 0x10#32, 0x10#32, 0x93#32], false) := by
  decide +kernel

/-- V181, R346: `word 0x07F000F0 (U2 with cond EQ, Z=0: skipped)`. -/
theorem test_V181_word_0x07f000f0 :
    seen [] [] []
      (armAt 0x10#32 0x07F000F0#32 []) =
    some ([0x10C#32, 0x10#32], false) := by
  decide +kernel

/-- V125, R347: `word 0xE1C000D0 (L=0, S=1, H=0: no handler)`. -/
theorem test_V125_word_0xe1c000d0 :
    seen [] [] []
      (armAt 0x1F#32 0xE1C000D0#32 []) =
    some ([0x108#32, 0x1F#32], true) := by
  decide +kernel

/-- V183, R365: `LSL r0, r1, #4`. -/
theorem test_V183_lsl_r0_r1_4 :
    seen [0] [] []
      (thumbAt 0x3F#32 0x0108#16 [(1, 0x10000001#32)]) =
    some ([0x10#32, 0x206#32, 0x2000003F#32], false) := by
  decide +kernel

/-- V185, R367: `ASR r0, r1, #32 (field 0)`. -/
theorem test_V185_asr_r0_r1_32 :
    seen [0] [] []
      (thumbAt 0x3F#32 0x1008#16 [(1, 0x80000001#32)]) =
    some ([0xFFFFFFFF#32, 0x206#32, 0xA000003F#32], false) := by
  decide +kernel

/-- V187, R370: `ADD r0, r1, r2`. -/
theorem test_V187_add_r0_r1_r2 :
    seen [0] [] []
      (thumbAt 0x3F#32 0x1888#16 [(1, 0x7FFFFFFF#32), (2, 0x1#32)]) =
    some ([0x80000000#32, 0x206#32, 0x9000003F#32], false) := by
  decide +kernel

/-- V193, R376: `CMP r0, #1`. -/
theorem test_V193_cmp_r0_1 :
    seen [0] [] []
      (thumbAt 0x3F#32 0x2801#16 []) =
    some ([0x0#32, 0x206#32, 0x8000003F#32], false) := by
  decide +kernel

/-- V195, R378: `SUB r0, #1`. -/
theorem test_V195_sub_r0_1 :
    seen [0] [] []
      (thumbAt 0x3F#32 0x3801#16 [(0, 0x80000000#32)]) =
    some ([0x7FFFFFFF#32, 0x206#32, 0x3000003F#32], false) := by
  decide +kernel

/-- V199, R383: `LSL r0, r1 (amount 0: C kept)`. -/
theorem test_V199_lsl_r0_r1 :
    seen [0] [] []
      (thumbAt 0x2000003F#32 0x4088#16 [(0, 0x1#32), (1, 0x100#32)]) =
    some ([0x1#32, 0x206#32, 0x2000003F#32], false) := by
  decide +kernel

/-- V201, R385: `ASR r0, r1`. -/
theorem test_V201_asr_r0_r1 :
    seen [0] [] []
      (thumbAt 0x3F#32 0x4108#16 [(0, 0x80000000#32), (1, 0x28#32)]) =
    some ([0xFFFFFFFF#32, 0x206#32, 0xA000003F#32], false) := by
  decide +kernel

/-- V203, R387: `SBC r0, r1`. -/
theorem test_V203_sbc_r0_r1 :
    seen [0] [] []
      (thumbAt 0x3F#32 0x4188#16 [(0, 0x5#32), (1, 0x5#32)]) =
    some ([0xFFFFFFFF#32, 0x206#32, 0x8000003F#32], false) := by
  decide +kernel

/-- V205, R388: `ROR r0, r1`. -/
theorem test_V205_ror_r0_r1 :
    seen [0] [] []
      (thumbAt 0x3F#32 0x41C8#16 [(0, 0xF0#32), (1, 0x4#32)]) =
    some ([0xF#32, 0x206#32, 0x3F#32], false) := by
  decide +kernel

/-- V207, R390: `NEG r0, r1`. -/
theorem test_V207_neg_r0_r1 :
    seen [0] [] []
      (thumbAt 0x3F#32 0x4248#16 [(1, 0x1#32)]) =
    some ([0xFFFFFFFF#32, 0x206#32, 0x8000003F#32], false) := by
  decide +kernel

/-- V213, R394: `MUL r0, r1`. -/
theorem test_V213_mul_r0_r1 :
    seen [0] [] []
      (thumbAt 0x3F#32 0x4348#16 [(0, 0xFFFFFFFF#32), (1, 0x12345678#32)]) =
    some ([0xEDCBA988#32, 0x206#32, 0x8000003F#32], false) := by
  decide +kernel

/-- V217, R397: `ADD r0, pc`. -/
theorem test_V217_add_r0_pc :
    seen [0] [] []
      (thumbAt 0x3F#32 0x4478#16 [(0, 0x10#32)]) =
    some ([0x214#32, 0x206#32, 0x3F#32], false) := by
  decide +kernel

/-- V219, R398: `CMP r8, r9`. -/
theorem test_V219_cmp_r8_r9 :
    seen [8] [] []
      (thumbAt 0x3F#32 0x45C8#16 [(8, 0x1#32), (9, 0x2#32)]) =
    some ([0x1#32, 0x206#32, 0x8000003F#32], false) := by
  decide +kernel

/-- V221, R399: `MOV pc, lr`. -/
theorem test_V221_mov_pc_lr :
    seen [] [] []
      (thumbAt 0x3F#32 0x46F7#16 [(14, 0x301#32)]) =
    some ([0x304#32, 0x3F#32], false) := by
  decide +kernel

/-- V223, R400: `ADD r0, pc, #4`. -/
theorem test_V223_add_r0_pc_4 :
    seen [0] [] []
      ({ (thumbAt 0x3F#32 0xA001#16 []) with r15 := 0x206#32 } : State) =
    some ([0x208#32, 0x208#32, 0x3F#32], false) := by
  decide +kernel

/-- V225, R402: `ADD sp, #508`. -/
theorem test_V225_add_sp_508 :
    seen [13] [] []
      (thumbAt 0x3F#32 0xB07F#16 [(13, 0x3000#32)]) =
    some ([0x31FC#32, 0x206#32, 0x3F#32], false) := by
  decide +kernel

/-- V227, R420: `LDR r0, [pc, #4]`. -/
theorem test_V227_ldr_r0_pc_4 :
    seen [0] [] []
      ({ (put (thumbAt 0x3F#32 0x4801#16 [])
        [(0x208#32, 0xDEADBEEF#32)]) with r15 := 0x206#32 } : State) =
    some ([0xDEADBEEF#32, 0x208#32, 0x3F#32], false) := by
  decide +kernel

/-- V233, R426: `LDRH r0, [r1, r2] (odd address)`. -/
theorem test_V233_ldrh_r0_r1_r2 :
    seen [0] [] []
      (put (thumbAt 0x3F#32 0x5A88#16 [(1, 0x2000#32), (2, 0x1#32)])
        [(0x2000#32, 0x44332211#32), (0x2004#32, 0x88776655#32)]) =
    some ([0x11000022#32, 0x206#32, 0x3F#32], false) := by
  decide +kernel

/-- V235, R428: `LDSH r0, [r1, r2]`. -/
theorem test_V235_ldsh_r0_r1_r2 :
    seen [0] [] []
      (put (thumbAt 0x3F#32 0x5E88#16 [(1, 0x2000#32), (2, 0x6#32)])
        [(0x2000#32, 0x44332211#32), (0x2004#32, 0x88776655#32)]) =
    some ([0xFFFF8877#32, 0x206#32, 0x3F#32], false) := by
  decide +kernel

/-- V229, R422: `STRB r0, [r1, r2]`. -/
theorem test_V229_strb_r0_r1_r2 :
    seen [0] [0x2000#32] []
      (thumbAt 0x3F#32 0x5488#16 [(0, 0xCAFEBABE#32), (1, 0x2000#32), (2, 0x1#32)]) =
    some ([0xCAFEBABE#32, 0xBE00#32, 0x206#32, 0x3F#32], false) := by
  decide +kernel

/-- V241, R433: `STRH r0, [r1, #62]`. -/
theorem test_V241_strh_r0_r1_62 :
    seen [0] [0x203C#32] []
      (thumbAt 0x3F#32 0x87C8#16 [(0, 0xCAFEBABE#32), (1, 0x2000#32)]) =
    some ([0xCAFEBABE#32, 0xBABE0000#32, 0x206#32, 0x3F#32], false) := by
  decide +kernel

/-- V245, R440: `PUSH {r0, r1, lr}`. -/
theorem test_V245_push_r0_r1_lr :
    seen [13] [0x2FF4#32, 0x2FF8#32, 0x2FFC#32] []
      (thumbAt 0x3F#32 0xB503#16 [(0, 0x1#32), (1, 0x2#32), (13, 0x3000#32), (14, 0x301#32)]) =
    some ([0x2FF4#32, 0x1#32, 0x2#32, 0x301#32, 0x206#32, 0x3F#32], false) := by
  decide +kernel

/-- V251, R446: `LDMIA r0!, {r0, r1} (base in list)`. -/
theorem test_V251_ldmia_r0_r0_r1 :
    seen [0, 1] [] []
      (put (thumbAt 0x3F#32 0xC803#16 [(0, 0x2000#32)])
        [(0x2000#32, 0x44332211#32), (0x2004#32, 0x88776655#32)]) =
    some ([0x44332211#32, 0x88776655#32, 0x206#32, 0x3F#32], false) := by
  decide +kernel

/-- V255, R460: `BLT -256 (N=1, V=0: taken)`. -/
theorem test_V255_blt_256 :
    seen [] [] []
      (thumbAt 0x8000003F#32 0xDB80#16 []) =
    some ([0x108#32, 0x8000003F#32], false) := by
  decide +kernel

/-- V259, R463: `0xDE00 (undefined-1)`. -/
theorem test_V259_0xde00 :
    seen [29] [] [.und]
      (thumbAt 0x30#32 0xDE00#16 []) =
    some ([0x202#32, 0x30#32, 0xC#32, 0x9B#32], false) := by
  decide +kernel

/-- V261, R464: `0xBE00 (no handler)`. -/
theorem test_V261_0xbe00 :
    seen [] [] []
      (thumbAt 0x3F#32 0xBE00#16 []) =
    some ([0x204#32, 0x3F#32], true) := by
  decide +kernel

/-- V265, R465: `BX r0 (to ARM, bit 1 set)`. -/
theorem test_V265_bx_r0 :
    seen [0] [] []
      (thumbAt 0x3F#32 0x4700#16 [(0, 0x302#32)]) =
    some ([0x302#32, 0x308#32, 0x1F#32], false) := by
  decide +kernel

/-- V269, R470: `BL first half, offset field 0x7FF (-1)`. -/
theorem test_V269_bl_first_half_offset_field_0x7ff :
    seen [14] [] []
      (thumbAt 0x3F#32 0xF7FF#16 []) =
    some ([0xFFFFF204#32, 0x206#32, 0x3F#32], false) := by
  decide +kernel

/-- V270, R471: `BL second half, offset field 0x010`. -/
theorem test_V270_bl_second_half_offset_field_0x010 :
    seen [14] [] []
      (thumbAt 0x3F#32 0xF810#16 [(14, 0x1204#32)]) =
    some ([0x203#32, 0x1228#32, 0x3F#32], false) := by
  decide +kernel

/-- V273, R502: `IRQ entry from Thumb state`. -/
theorem test_V273_irq_entry_from_thumb_state :
    seen [23] [] [.irq]
      ({ (thumbAt 0x3F#32 0x3001#16 []) with pendingIrq := true } : State) =
    some ([0x204#32, 0x3F#32, 0x20#32, 0xD2#32], false) := by
  decide +kernel

/-- V275, R501: `FIQ entry from Thumb state`. -/
theorem test_V275_fiq_entry_from_thumb_state :
    seen [21] [] [.fiq]
      ({ (thumbAt 0x3F#32 0x3001#16 []) with pendingFiq := true } : State) =
    some ([0x204#32, 0x3F#32, 0x24#32, 0xD1#32], false) := by
  decide +kernel

/-- V279, R510: `FIQ pending, F=1, IRQ pending, I=0: IRQ taken`. -/
theorem test_V279_fiq_pending_f_1_irq_pending_i_0_ir :
    seen [23] [] [.irq]
      ({ (armAt 0x5F#32 0xE2800001#32 []) with pendingFiq := true, pendingIrq := true } : State) =
    some ([0x104#32, 0x5F#32, 0x20#32, 0xD2#32], false) := by
  decide +kernel

/-- V283, R155: `breakpoint at the next instruction`. -/
theorem test_V283_breakpoint_at_the_next_instruction :
    seen [0] [] []
      ({ (armAt 0x1F#32 0xE2800001#32 []) with breakpoints := [0x104#32] } : State) =
    some ([0x1#32, 0x10C#32, 0x1F#32], false) := by
  decide +kernel

/-! ### Witnesses: states and operands that meet the hypotheses of the statements -/

/-- A system-mode state whose condition AL passes. -/
def sys : State := armAt 0x1F#32 0xE3A00001#32 []

/-- DecodeEncode, DecodeBytesEncode: well-formed terms of every row that WellFormed restricts. -/
theorem witness_DecodeEncode :
    (Instr.testNoS .al 0#2 0#4 0#4 (.regShift .lsl 0#4 0#4)).wellFormed = true ∧
    (Instr.unknownMulSwap .al 0b00100#5 0#12 0#4).wellFormed = true ∧ (Instr.tBCond .le 0#8).wellFormed = true ∧
    (Instr.tUnknown 0b1111#4 0#8).wellFormed = true ∧ (Instr.b .al 0#24).wellFormed = true := by decide

/-- StepRunsDecoded, in ARM and in Thumb state; the interrupts absent or masked. -/
theorem witness_StepRunsDecoded :
    (sys.RunsInstruction ∧ encode (.mov .al false 0#4 0#4 (.imm 0#4 1#8)) = .arm sys.p3 ∧ Psr.t sys.cpsr = false) ∧
    (∃ s : State, s.RunsInstruction ∧ s.pendingFiq = true ∧ s.pendingIrq = true ∧ Psr.t s.cpsr = true ∧
      encode (.tMovImm 0#3 1#8) = .thumb (s.p3.extractLsb' 0 16)) :=
  ⟨⟨⟨by decide, .inl (by decide), .inl (by decide)⟩, by decide, by decide⟩,
    { thumbAt 0xFF#32 0x2001#16 [] with pendingFiq := true, pendingIrq := true },
    ⟨by decide, .inr (by decide), .inr (by decide)⟩, by decide, by decide, by decide, by decide⟩

/-- StepAnswersNext: a halted state. -/
theorem witness_StepAnswersNext : ∃ s : State, s.halted = true := ⟨{ sys with halted := true }, rfl⟩

/-- FiqEntry: also with IRQ pending. -/
theorem witness_FiqEntry :
    let s : State := { sys with pendingFiq := true, pendingIrq := true }
    s.halted = false ∧ s.pendingFiq = true ∧ Psr.f s.cpsr = false := by decide

/-- IrqEntry: no FIQ pending, and an FIQ pending but masked. -/
theorem witness_IrqEntry :
    (∃ s : State, s.halted = false ∧ s.pendingFiq = false ∧ s.pendingIrq = true ∧ Psr.i s.cpsr = false) ∧
    (∃ s : State, s.halted = false ∧ Psr.f s.cpsr = true ∧ s.pendingIrq = true ∧ Psr.i s.cpsr = false) :=
  ⟨⟨{ sys with pendingIrq := true }, by decide⟩,
    { armAt 0x5F#32 0#32 [] with pendingIrq := true, pendingFiq := true }, by decide⟩

/-- BreakpointReported: a step that signals a breakpoint and one that does not. -/
theorem witness_BreakpointReported :
    (∃ t, step { sys with breakpoints := [0x104#32] } = .next t ∧ (!t.halted && t.port.contains .breakpoint) = true) ∧
    (∃ t, step { sys with breakpoints := [0x108#32] } = .next t ∧ (!t.halted && !t.port.contains .breakpoint) = true) :=
  ⟨after_some (by decide +kernel), after_some (by decide +kernel)⟩

/-- SkippedInstruction. -/
theorem witness_SkippedInstruction :
    conditionOf (.b .eq 0#24) = some .eq ∧ conditionPassed .eq sys.flags = false := by decide

/-- InvStep, StepKeepsIndexAndToggles: the invariant holds in a state that a step leaves. -/
theorem witness_InvStep : sys.Inv ∧ ∃ t, step sys = .next t ∧ (t.regs[0] == 1#32) = true :=
  ⟨⟨by decide, by decide, by decide, by intro b p h; cases b <;> cases h <;> decide, by decide, by decide⟩,
    after_some (by decide +kernel)⟩

/-- UserModeIsolation: a step that stays in USR mode and one that enters an exception. -/
theorem witness_UserModeIsolation :
    (∃ s t, Psr.modeBits s.cpsr = Mode.usr.bits ∧ step s = .next t ∧ (Psr.modeBits t.cpsr == Mode.usr.bits) = true) ∧
    (∃ s t, Psr.modeBits s.cpsr = Mode.usr.bits ∧ step s = .next t ∧ (Psr.modeBits t.cpsr == Mode.svc.bits) = true) := by
  obtain ⟨t, h⟩ := after_some (s := armAt 0x10#32 0xE321F0DF#32 []) (p := fun t => Psr.modeBits t.cpsr == Mode.usr.bits)
    (by decide +kernel)
  obtain ⟨u, k⟩ := after_some (s := armAt 0x10#32 0xEF000000#32 []) (p := fun t => Psr.modeBits t.cpsr == Mode.svc.bits)
    (by decide +kernel)
  exact ⟨⟨_, t, by decide, h⟩, _, u, by decide, k⟩

/-- FiqStaysLocked: `MSR CPSR_c, #0x1F` with FIQ_ENABLED false (V171) and an FIQ pending. -/
theorem witness_FiqStaysLocked :
    let s : State := { armAt 0xD3#32 0xE321F01F#32 [] with toggles := ⟨false, true⟩, pendingFiq := true }
    s.FiqLocked ∧ ∃ t, step s = .next t ∧ (t.cpsr == 0x5F#32 && t.pendingFiq) = true :=
  ⟨⟨by decide, by decide, by intro b p h; cases b <;> cases h <;> exact .inr (by decide)⟩, after_some (by decide +kernel)⟩

/-- OnlyStoresWriteMemory. -/
theorem witness_OnlyStoresWriteMemory :
    writesMemory (.b .al 0#24) = false ∧ ∃ t, exec (.b .al 0#24) sys = .next t := ⟨rfl, _, rfl⟩

/-- ModeRoundTrip: from USR mode into FIQ mode, with a later FIQ state in which the handler has written its own R8 and R13;
and from UND mode into UND mode, where the banks do not differ. -/
theorem witness_ModeRoundTrip :
    (let s := armAt 0x10#32 0#32 [(13, 0x2000#32)]
     let u := ((s.enterMode .fiq).writeReg 8#4 1#32).writeReg 13#4 2#32
     (Mode.ofBits (Psr.modeBits s.cpsr)).isSome = true ∧ Mode.fiq.bank ≠ .usr ∧ Psr.modeBits u.cpsr = Mode.fiq.bits ∧
       u.spsrOf Mode.fiq.bank = some s.cpsr ∧ Mode.fiq.bank ≠ s.bank ∧ u.regs ≠ s.regs ∧
       ∀ k : Fin 30, (∀ n, physReg Mode.fiq.bank n ≠ some k) → u.regs[k] = s.regs[k]) ∧
    (Mode.ofBits (Psr.modeBits 0x9B#32)).isSome = true ∧ Mode.und.bank ≠ .usr := by decide +kernel

/-- BankedRegisters: a state in each of the seven modes. -/
theorem witness_BankedRegisters :
    ∀ m ∈ [0x10#5, 0x11#5, 0x12#5, 0x13#5, 0x17#5, 0x1B#5, 0x1F#5], ∃ s : State, Psr.modeBits s.cpsr = m := by
  simp only [List.forall_mem_cons]
  exact ⟨⟨armAt 0x10#32 0#32 [], by decide⟩, ⟨armAt 0x11#32 0#32 [], by decide⟩, ⟨armAt 0x12#32 0#32 [], by decide⟩,
    ⟨armAt 0xD3#32 0#32 [], by decide⟩, ⟨armAt 0x17#32 0#32 [], by decide⟩, ⟨armAt 0x1B#32 0#32 [], by decide⟩,
    ⟨sys, by decide⟩, by simp⟩

/-- MemoryReadsBack: a listed byte; addresses of one aligned word; the last word of the address space; the bytes beside. -/
theorem witness_MemoryReadsBack :
    Memory.wf [(0x2000, 1#8)] = true ∧ Width.word.align 0x2003#32 = Width.word.align 0x2000#32 ∧
    (Width.word.align 0xFFFFFFFF#32).toNat + 4 = 2 ^ 32 ∧ 0x1FFF < (Width.word.align 0x2003#32).toNat ∧
    (Width.word.align 0x2003#32).toNat + 4 ≤ 0x2004 := by decide

/-- BreakpointIndex. -/
theorem witness_BreakpointIndex : [4#32, 8#32].Pairwise (· < ·) := by decide

/-- ShiftByRegister and ShiftByImmediate: amounts at both ends of each clause's range; ShiftByImmediate: rotate fields 0, 1
and 15. -/
theorem witness_ShiftByRegister :
    (0#8).toNat = 0 ∧ (1 ≤ (1#8).toNat ∧ (31#8).toNat < 32) ∧ (32#8).toNat = 32 ∧ 32 < (33#8).toNat ∧ 32 < (255#8).toNat ∧
    ((64#8).toNat ≠ 0 ∧ (64#8).toNat % 32 = 0) ∧ (255#8).toNat % 32 ≠ 0 ∧ (0#5).toNat = 0 ∧
    (1#5).toNat ≠ 0 ∧ (31#5).toNat ≠ 0 ∧ (0#4 : BitVec 4) = 0#4 ∧ (1#4 : BitVec 4) ≠ 0#4 ∧ (15#4 : BitVec 4) ≠ 0#4 := by decide

/-- LogicalInstructions, ArithmeticInstructions, and every statement whose one hypothesis is that the condition passes
(MultiplyInstructions, MultiplyLongInstructions, LoadInstructions, BranchInstructions, CoprocessorFourteen): a destination
other than R15, in every operand form. -/
theorem witness_LogicalInstructions :
    conditionPassed .al sys.flags = true ∧ conditionPassed .nv sys.flags = true ∧ (0#4 : Reg) ≠ 15#4 ∧
    (14#4 : Reg) ≠ 15#4 := by decide

/-- DataProcessingWritesPc, TestsWithoutEffect: a valid SPSR, an invalid one, and SYS mode, where CPSR stands in. -/
theorem witness_DataProcessingWritesPc :
    (∃ s : State, conditionPassed .al s.flags = true ∧ s.spsrOf s.bank = some 0x30#32 ∧
      (Mode.ofBits (Psr.modeBits s.currentSpsr)).isSome = true) ∧
    (∃ s : State, conditionPassed .al s.flags = true ∧ Mode.ofBits (Psr.modeBits s.currentSpsr) = none) ∧
    (Mode.ofBits (Psr.modeBits sys.currentSpsr)).isSome = true :=
  ⟨⟨{ armAt 0xD2#32 0#32 [] with spsrIrq := 0x30#32 }, by decide⟩, ⟨armAt 0xD3#32 0#32 [], by decide⟩, by decide⟩

/-- StoreInstructions, SwapInstructions, StoreMultiple, ThumbStores, ThumbBlockTransfers: memory in canonical form. -/
theorem witness_StoreInstructions :
    Memory.wf (put sys [(0x2000#32, 0x44332211#32)]).mem = true ∧ conditionPassed .al sys.flags = true := by decide +kernel

/-- LoadedValues: an aligned and an odd address, the last byte of the address space among them. -/
theorem witness_LoadedValues :
    (0x2000#32).getLsbD 0 = false ∧ (0x2001#32).getLsbD 0 = true ∧ (0xFFFFFFFF#32).getLsbD 0 = true := by decide

/-- RegisterLists: a list that is not empty, with its lowest and highest register. -/
theorem witness_RegisterLists : (0x8001#16 : BitVec 16) ≠ 0#16 ∧ registerList 0x8001#16 = [0#4, 15#4] := by decide

/-- LoadMultiple and LoadMultiplePc: a list without R15, one with R15, the empty list (R302); S with a valid and with an
invalid SPSR. -/
theorem witness_LoadMultiple :
    conditionPassed .al sys.flags = true ∧ (15#4 : Reg) ∉ registerList 0x4001#16 ∧ (15#4 : Reg) ∈ registerList 0x8001#16 ∧
    (15#4 : Reg) ∈ registerList 0#16 ∧ Mode.ofBits (Psr.modeBits (armAt 0xD3#32 0#32 []).currentSpsr) = none ∧
    Mode.ofBits (Psr.modeBits sys.currentSpsr) ≠ none := by decide

/-- ReadStatus: R15 and another destination. -/
theorem witness_ReadStatus : conditionPassed .al sys.flags = true ∧ (0#4 : Reg) ≠ 15#4 ∧ (15#4 : Reg) = 15#4 := by decide

/-- WriteStatus, WriteSavedStatus: a control byte that names no mode, one that names a mode, and USR mode, where the control
byte is not written. -/
theorem witness_WriteStatus :
    conditionPassed .al (armAt 0xD3#32 0#32 []).flags = true ∧
    (Psr.modeBits (armAt 0xD3#32 0#32 []).cpsr ≠ Mode.usr.bits ∧ (1#4 : BitVec 4).getLsbD 0 = true ∧
      Mode.ofBits ((0x14#8 ||| 0x10#8).extractLsb' 0 5) = none) ∧
    Mode.ofBits ((0x0F#8 ||| 0x10#8).extractLsb' 0 5) = some .sys ∧
    Psr.modeBits (armAt 0x10#32 0#32 []).cpsr = Mode.usr.bits := by decide

/-- SoftwareInterrupts, UndefinedInstructions, UnknownEncodingsHalt: a coprocessor other than 14. -/
theorem witness_UndefinedInstructions : conditionPassed .al sys.flags = true ∧ (15#4 : BitVec 4) ≠ 14#4 := by decide

/-- ThumbHighRegisters: both clauses; ThumbBlockTransfers: lists with and without R15. -/
theorem witness_ThumbHighRegisters :
    (14#4 : Reg) ≠ 15#4 ∧ (15#4 : Reg) = 15#4 ∧ (15#4 : Reg) ∈ registerList (0x00#16 ||| 0x8000#16) ∧
    (15#4 : Reg) ∉ registerList 0x00FF#16 := by decide

/-- ThumbLongBranch: Thumb state. -/
theorem witness_ThumbLongBranch : Psr.t (thumbAt 0x3F#32 0#16 []).cpsr = true := by decide

end

end Sys2Proof.Tests
end

section
/-! PROOFS. Every step answers a next state, and a step of a halted core does nothing (00_scope.md R12, 10_state.md R48,
60_exceptions.md R520). -/

namespace Sys2Proof.Machine

/-- Running p3 answers a next state: a decoded instruction by `exec_next`, an ARM word without a class by halting. -/
theorem State.runCurrent_next (s : State) : ∃ t, s.runCurrent = .next t := by
  unfold State.runCurrent
  split
  · exact exec_next _ s
  · exact ⟨_, rfl⟩

/-- Halted, FIQ, IRQ or the instruction in p3: each way through `cycle` (R150) answers a next state. -/
theorem step_next (s : State) : ∃ t, step s = .next t := by
  unfold step cycle
  dsimp only
  split_ifs with halted fiq irq
  · exact ⟨_, rfl⟩
  · exact ⟨_, rfl⟩
  · exact ⟨_, rfl⟩
  · obtain ⟨t, ht⟩ := s.beginStep.runCurrent_next
    exact ⟨_, congrArg finishStep ht⟩

/-- The halt bit comes before the interrupts and the instruction: the port record is emptied and nothing else happens. -/
theorem step_of_halted {s : State} (h : s.halted = true) : step s = .next s.beginStep := by
  obtain ⟨t, ht⟩ := step_next s
  rcases step_cases ht with ⟨-, rfl⟩ | ⟨running, -⟩
  · exact ht
  · simp [h] at running

/-- Settles O7: no branch of `cycle` faults or refuses, and the halt bit is tested first. -/
theorem stepAnswersNext : Obligations.StepAnswersNext :=
  fun s => ⟨step_next s, step_of_halted⟩

end Sys2Proof.Machine
end

section
/-! PROOFS. What no step breaks: the invariant of the machine, the breakpoint index and the toggles (10_state.md R24, R27,
R40, R47; 00_scope.md R5). Both are proved over the operations of Laws/Evolves and carried to the step once. -/

namespace Sys2Proof.Machine

/-! ### From the operations to the step -/

/-- A property that nothing a step does can break: recording port events, changing the interrupt requests, halting, a chain
of operations, an exception entry. -/
structure StepInvariant (P : State → Prop) : Prop where
  record : ∀ {s : State}, P s → ∀ events, P { s with port := events }
  request : ∀ {s : State}, P s → ∀ fiq irq, P { s with pendingFiq := fiq, pendingIrq := irq }
  halt : ∀ {s : State}, P s → P { s with halted := true }
  evolves : ∀ {w : Bool} {s t : State}, Evolves w s t → P s → P t
  entry : ∀ {s : State}, P s → ∀ x link, P (s.takeException x link)

namespace StepInvariant

variable {P : State → Prop} {s t : State}

theorem ends (hP : StepInvariant P) {w : Bool} (h : Ends w s t) (hs : P s) : P t := by
  obtain ⟨u, hu, rfl | rfl⟩ | ⟨x, link, -, rfl⟩ := h
  · exact hP.evolves hu hs
  · exact hP.halt (hP.record (hP.evolves hu hs) _)
  · exact hP.entry (hP.evolves (w := w) Evolves.refl.fetchOpcode hs) x link

/-- The cases of `step_cases`: halted, FIQ, IRQ or an instruction, then the breakpoint check (R150). -/
theorem step (hP : StepInvariant P) (h : step s = .next t) (hs : P s) : P t := by
  have begun : P s.beginStep := hP.record hs []
  obtain ⟨-, rfl⟩ | ⟨-, u, hu, ht, -⟩ := step_cases h
  · exact begun
  · have done : P u := by
      obtain ⟨-, -, rfl⟩ | ⟨-, -, -, rfl⟩ | ⟨-, w, hw⟩ := hu
      · exact hP.entry (hP.request begun false _) ..
      · exact hP.entry (hP.request begun _ false) ..
      · exact hP.ends hw begun
    obtain rfl | rfl := ht
    · exact done
    · exact hP.record done _

end StepInvariant

/-! ### The invariant -/

namespace State.Inv

variable {s t : State}

/-- The invariant speaks of memory, the status registers, p1 and p2, and the index only. -/
theorem of_same (h : s.Inv) (mem : t.mem = s.mem) (cpsr : t.cpsr = s.cpsr) (spsrs : ∀ b, t.spsrOf b = s.spsrOf b)
    (latch : t.p1 = t.p2) (breakpoints : t.breakpoints = s.breakpoints) : t.Inv where
  memory := mem ▸ h.memory
  mode := cpsr ▸ h.mode
  cpsr := cpsr ▸ h.cpsr
  spsrs := fun b p hp => h.spsrs b p (spsrs b ▸ hp)
  latch := latch
  breakpoints := breakpoints ▸ h.breakpoints

theorem withCpsr (h : s.Inv) {p : Word} (mode : (Mode.ofBits (Psr.modeBits p)).isSome = true)
    (reserved : Psr.reserved p = 0#16) : ({ s with cpsr := p } : State).Inv :=
  ⟨h.memory, mode, reserved, h.spsrs, h.latch, h.breakpoints⟩

theorem writeSpsrOf (h : s.Inv) (b : Bank) {p : Word} (reserved : Psr.reserved p = 0#16) : (s.writeSpsrOf b p).Inv where
  memory := by simpa using h.memory
  mode := by simpa using h.mode
  cpsr := by simpa using h.cpsr
  spsrs := fun c q hq => by
    rw [writeSpsrOf_spsrOf] at hq
    split at hq
    · obtain ⟨_, -, rfl⟩ := Option.map_eq_some_iff.1 hq
      exact reserved
    · exact h.spsrs c q hq
  latch := by simpa using h.latch
  breakpoints := by simpa using h.breakpoints

theorem writeRegOf (h : s.Inv) (b : Bank) (n : Reg) (v : Word) : (s.writeRegOf b n v).Inv :=
  h.of_same (by simp) (by simp) (by simp) (by simpa using h.latch) (by simp)

/-- A refill copies the word it reads into p1 and p2. -/
theorem jump (h : s.Inv) (x : Word) : (s.jump x).Inv := h.of_same rfl rfl (fun _ => rfl) rfl rfl

theorem reserved_currentSpsr (h : s.Inv) : Psr.reserved s.currentSpsr = 0#16 := by
  unfold currentSpsr
  cases hp : s.spsrOf s.bank with
  | none => exact h.cpsr
  | some p => exact h.spsrs _ p hp

theorem leaveMode (h : s.Inv) (ht : s.leaveMode = some t) : t.Inv := by
  obtain ⟨m, hm, e⟩ | ⟨-, e⟩ := leaveMode_cases s <;> rw [e] at ht
  · cases ht
    exact h.withCpsr (by simp [hm]) h.reserved_currentSpsr
  · cases ht

theorem writeCpsr (h : s.Inv) {mask : BitVec 4} {v : Word} (ht : s.writeCpsr (msrMask mask) v = some t) : t.Inv := by
  obtain ⟨p, rfl, reserved, ⟨mode, -⟩ | ⟨-, mode, -⟩⟩ := writeCpsr_cases ht
  · exact h.withCpsr (mode ▸ h.mode) (reserved.trans h.cpsr)
  · exact h.withCpsr mode (reserved.trans h.cpsr)

/-- MSR to an SPSR keeps its middle bytes, whose bits are the reserved ones. -/
theorem writeCurrentSpsr (h : s.Inv) (mask : BitVec 4) (v : Word) : (s.writeCurrentSpsr (msrMask mask) v).Inv := by
  obtain ⟨e, -⟩ | ⟨old, hold, e⟩ := writeCurrentSpsr_eq s mask v <;> rw [e]
  · exact h
  · exact h.writeSpsrOf _ ((reserved_middle ..).trans (h.spsrs _ old hold))

theorem enterMode (h : s.Inv) (m : Mode) : (s.enterMode m).Inv :=
  (h.writeSpsrOf m.bank h.cpsr).withCpsr (by simp) (by simpa using h.cpsr)

theorem takeException (h : s.Inv) (x : Exception) (link : Word) : (s.takeException x link).Inv := by
  have entered : ((s.enterMode x.mode).writeReg 14#4 link).Inv := (h.enterMode x.mode).writeRegOf ..
  refine (entered.withCpsr ?_ ?_).jump x.vector
  · cases x.masksFiq <;> simp
  · cases x.masksFiq <;> simpa using entered.cpsr

theorem evolves {w : Bool} (he : Evolves w s t) (h : s.Inv) : t.Inv := by
  induction he with
  | refl => exact h
  | emit _ _ _ ih => exact ih.of_same rfl rfl (fun _ => rfl) ih.latch rfl
  | fetchOpcode _ ih => exact ih.of_same rfl rfl (fun _ => rfl) rfl rfl
  | flushPipeline _ ih => exact ih.of_same rfl rfl (fun _ => rfl) rfl rfl
  | writeReg _ n v ih => exact ih.writeRegOf _ n v
  | writeUserReg _ n v ih => exact ih.writeRegOf _ n v
  | setFlags _ f ih => exact ih.withCpsr (by simpa using ih.mode) (by simpa using ih.cpsr)
  | setT _ b ih => exact ih.withCpsr (by simpa using ih.mode) (by simpa using ih.cpsr)
  | setR15 _ _ ih => exact ih.of_same rfl rfl (fun _ => rfl) ih.latch rfl
  | setFetchType _ _ ih => exact ih.of_same rfl rfl (fun _ => rfl) ih.latch rfl
  | dataWrite _ _ width a v _ ih =>
    exact ⟨Memory.wf_writeWidth ih.memory width a v, ih.mode, ih.cpsr, ih.spsrs, ih.latch, ih.breakpoints⟩
  | leaveMode _ ht ih => exact ih.leaveMode ht
  | writeCpsr _ _ _ ht ih => exact ih.writeCpsr ht
  | writeCurrentSpsr _ mask v ih => exact ih.writeCurrentSpsr mask v

theorem stepInvariant : StepInvariant State.Inv where
  record h _ := h.of_same rfl rfl (fun _ => rfl) h.latch rfl
  request h _ _ := h.of_same rfl rfl (fun _ => rfl) h.latch rfl
  halt h := h.of_same rfl rfl (fun _ => rfl) h.latch rfl
  evolves he h := h.evolves he
  entry h := h.takeException

end State.Inv

/-- Settles O13: every operation of a step keeps the invariant; MSR and the return from an exception are where the mode and
the reserved bits are at stake. -/
theorem invStep : Obligations.InvStep :=
  fun _ _ hs h => State.Inv.stepInvariant.step h hs

/-! ### The breakpoint index and the toggles -/

/-- Both fields are as before: the index belongs to the environment (R47), the toggles to the machine (R5). -/
structure SameIndexAndToggles (s t : State) : Prop where
  breakpoints : t.breakpoints = s.breakpoints
  toggles : t.toggles = s.toggles

namespace SameIndexAndToggles

variable {s t u : State}

theorem trans (h : SameIndexAndToggles s t) (k : SameIndexAndToggles t u) : SameIndexAndToggles s u :=
  ⟨k.breakpoints.trans h.breakpoints, k.toggles.trans h.toggles⟩

theorem leaveMode (ht : s.leaveMode = some t) : SameIndexAndToggles s t := by
  obtain ⟨-, -, e⟩ | ⟨-, e⟩ := s.leaveMode_cases <;> rw [e] at ht <;> cases ht
  exact ⟨rfl, rfl⟩

theorem writeCpsr {mask : BitVec 4} {v : Word} (ht : s.writeCpsr (msrMask mask) v = some t) : SameIndexAndToggles s t := by
  obtain ⟨p, rfl, -⟩ := State.writeCpsr_cases ht
  exact ⟨rfl, rfl⟩

theorem writeCurrentSpsr (s : State) (mask : BitVec 4) (v : Word) :
    SameIndexAndToggles s (s.writeCurrentSpsr (msrMask mask) v) := by
  obtain ⟨e, -⟩ | ⟨_, -, e⟩ := s.writeCurrentSpsr_eq mask v <;> rw [e]
  · exact ⟨rfl, rfl⟩
  · exact ⟨by simp, by simp⟩

theorem evolves {w : Bool} (he : Evolves w s t) : SameIndexAndToggles s t := by
  induction he with
  | refl => exact ⟨rfl, rfl⟩
  | emit _ _ _ ih | fetchOpcode _ ih | flushPipeline _ ih | setFlags _ _ ih | setT _ _ ih | setR15 _ _ ih
  | setFetchType _ _ ih | dataWrite _ _ _ _ _ _ ih => exact ih.trans ⟨rfl, rfl⟩
  | writeReg _ _ _ ih | writeUserReg _ _ _ ih => exact ih.trans ⟨by simp, by simp⟩
  | leaveMode _ ht ih => exact ih.trans (leaveMode ht)
  | writeCpsr _ _ _ ht ih => exact ih.trans (writeCpsr ht)
  | writeCurrentSpsr _ mask v ih => exact ih.trans (writeCurrentSpsr _ mask v)

theorem takeException (s : State) (x : Exception) (link : Word) : SameIndexAndToggles s (s.takeException x link) :=
  have entry := entryResult_takeException s x link
  ⟨entry.breakpoints, entry.toggles⟩

theorem stepInvariant (s : State) : StepInvariant (SameIndexAndToggles s) where
  record h _ := h.trans ⟨rfl, rfl⟩
  request h _ _ := h.trans ⟨rfl, rfl⟩
  halt h := h.trans ⟨rfl, rfl⟩
  evolves he h := h.trans (evolves he)
  entry h x link := h.trans (takeException _ x link)

end SameIndexAndToggles

/-- Settles O14: no operation of a step writes either field. -/
theorem stepKeepsIndexAndToggles : Obligations.StepKeepsIndexAndToggles := fun s _ h =>
  have kept := (SameIndexAndToggles.stepInvariant s).step h ⟨rfl, rfl⟩
  ⟨kept.breakpoints, kept.toggles⟩

end Sys2Proof.Machine
end

section
/-! PROOFS. The register banks and what each mode shows, the round trip through an exception mode, and the breakpoint index
as a set (10_state.md R25, R28 to R34, R47). -/

namespace Sys2Proof.Machine

/-! ### The registers and the SPSR a mode shows -/

/-- When two banks name one physical register (R28, R30). -/
theorem physReg_eq_iff : ∀ (b c : Bank) (n m : Reg), physReg b n = physReg c m ↔
    n = m ∧ (b = c ∨ n < 8#4 ∨ n = 15#4 ∨ (n < 13#4 ∧ b ≠ .fiq ∧ c ≠ .fiq)) := by
  intro b c n m; revert n m; cases b <;> cases c <;> decide

namespace State

theorem readRegOf_writeRegOf (s : State) (b c : Bank) (n m : Reg) (v : Word) :
    (s.writeRegOf b n v).readRegOf c m = if physReg b n = physReg c m then v else s.readRegOf c m := by
  split
  · rename_i same
    calc (s.writeRegOf b n v).readRegOf c m = (s.writeRegOf b n v).readRegOf b n := by simp only [readRegOf, same]
      _ = v := readRegOf_writeRegOf_same ..
  · exact readRegOf_writeRegOf_of_ne ‹_›

/-- What a state in a given mode shows (R30, R32). -/
theorem shown_of_mode {s : State} {m : Mode} (h : Psr.modeBits s.cpsr = m.bits) :
    s.bank = m.bank ∧ s.currentSpsr = (s.spsrOf m.bank).getD s.cpsr ∧ ∀ n, s.readReg n = s.readRegOf m.bank n := by
  have hb := bank_of_mode h
  simp only [currentSpsr, readReg, hb, implies_true, and_self]

end State

/-- Settles O20: one write reaches one physical register, and the mode decides the bank. -/
theorem bankedRegisters : Obligations.BankedRegisters := by
  intro s
  refine ⟨fun b c n m v => ?_, ?_⟩
  · simp only [s.readRegOf_writeRegOf, physReg_eq_iff]
  · simp only [List.forall_mem_cons]
    exact ⟨State.shown_of_mode (m := .usr), State.shown_of_mode (m := .fiq), State.shown_of_mode (m := .irq),
      State.shown_of_mode (m := .svc), State.shown_of_mode (m := .abt), State.shown_of_mode (m := .und),
      State.shown_of_mode (m := .sys), by simp⟩

/-! ### Into an exception mode and back -/

namespace State

/-- R13 and R14 of one bank are registers that another bank does not show. -/
theorem readRegOf_stack_of_hidden_same {s u : State} {b c : Bank} {n : Reg} (hbc : b ≠ c)
    (hidden : ∀ k : Fin 30, (∀ m, physReg c m ≠ some k) → u.regs[k] = s.regs[k]) (low : 13#4 ≤ n) (high : n < 15#4) :
    u.readRegOf b n = s.readRegOf b n := by
  unfold readRegOf
  cases hk : physReg b n with
  | none => exact absurd ((physReg_eq_none_iff ..).1 hk) (by bv_omega)
  | some k => exact hidden k fun m => hk ▸ (physReg_stack_ne b c n m hbc low high).symm

/-- Leaving a mode whose SPSR holds the CPSR of a state `s` shows the registers of the bank of `s` (R31, R33). -/
theorem leaveMode_to_saved {s u : State} {m : Mode} (valid : (Mode.ofBits (Psr.modeBits s.cpsr)).isSome = true)
    (mode : Psr.modeBits u.cpsr = m.bits) (saved : u.spsrOf m.bank = some s.cpsr) :
    ∃ t, u.leaveMode = some t ∧ t.cpsr = s.cpsr ∧ ∀ n, t.readReg n = u.readRegOf s.bank n :=
  ⟨_, leaveMode_of_spsr (bank_of_mode mode ▸ saved) valid, rfl, fun _ => rfl⟩

end State

/-- Settles O19: entry saves CPSR and moves no register; the return only puts CPSR back, and with it the bank. -/
theorem modeRoundTrip : Obligations.ModeRoundTrip := by
  intro s m valid hasSpsr e
  have mode : Psr.modeBits e.cpsr = m.bits := by simp [e]
  have saved : e.spsrOf m.bank = some s.cpsr := State.enterMode_spsrOf_same hasSpsr
  refine ⟨⟨mode, saved, by simp [e], by simp [e]⟩, ?_, fun u hmode hsaved => ?_⟩
  · obtain ⟨t, left, cpsr, regs⟩ := State.leaveMode_to_saved valid mode saved
    exact ⟨t, left, cpsr, fun n => (regs n).trans (s.enterMode_readRegOf m _ n)⟩
  · obtain ⟨t, left, cpsr, regs⟩ := State.leaveMode_to_saved valid hmode hsaved
    refine ⟨t, left, cpsr, regs, fun hne hidden => ⟨?_, ?_⟩⟩
    · exact (regs _).trans (State.readRegOf_stack_of_hidden_same hne.symm hidden (by decide) (by decide))
    · exact (regs _).trans (State.readRegOf_stack_of_hidden_same hne.symm hidden (by decide) (by decide))

/-! ### The breakpoint index -/

theorem mem_insertAddress {a x : Word} {l : List Word} : x ∈ insertAddress a l ↔ x = a ∨ x ∈ l := by
  induction l with
  | nil => simp [insertAddress]
  | cons y l ih =>
    unfold insertAddress
    split_ifs with below found
    · simp
    · simp [found]
    · simp only [List.mem_cons, ih]
      tauto

theorem pairwise_insertAddress (a : Word) {l : List Word} (h : l.Pairwise (· < ·)) :
    (insertAddress a l).Pairwise (· < ·) := by
  induction l with
  | nil => simp [insertAddress]
  | cons y l ih =>
    obtain ⟨head, tail⟩ := List.pairwise_cons.1 h
    unfold insertAddress
    split_ifs with below found
    · refine List.pairwise_cons.2 ⟨fun x hx => ?_, h⟩
      rcases List.mem_cons.1 hx with rfl | hx
      · exact below
      · exact BitVec.lt_trans below (head x hx)
    · exact h
    · refine List.pairwise_cons.2 ⟨fun x hx => ?_, ih tail⟩
      rcases mem_insertAddress.1 hx with rfl | hx
      · bv_omega
      · exact head x hx

/-- Settles O22: insertion at the address's place, and erasure from a list without repeats. -/
theorem breakpointIndex : Obligations.BreakpointIndex := by
  intro s a x rising
  have distinct : s.breakpoints.Nodup := rising.imp fun h => BitVec.ne_of_lt h
  exact ⟨mem_insertAddress, distinct.mem_erase_iff, pairwise_insertAddress a rising, rising.sublist List.erase_sublist⟩

end Sys2Proof.Machine
end

section
/-! PROOFS. Which instructions leave memory alone, what a write leaves in it and what a load makes of it (20_memory.md R74
to R77, R80, R87, R89; 44_arm_load_store.md R270, R281, R284). -/

namespace Sys2Proof.Machine

/-! ### Instructions that write no memory -/

namespace State

variable {s t : State}

theorem leaveMode_mem (h : s.leaveMode = some t) : t.mem = s.mem := by
  obtain ⟨-, -, e⟩ | ⟨-, e⟩ := s.leaveMode_cases <;> rw [e] at h <;> cases h
  rfl

theorem writeCpsr_mem {mask : BitVec 4} {v : Word} (h : s.writeCpsr (msrMask mask) v = some t) : t.mem = s.mem := by
  obtain ⟨p, rfl, -⟩ := writeCpsr_cases h
  rfl

@[simp] theorem writeCurrentSpsr_mem (s : State) (mask : BitVec 4) (v : Word) :
    (s.writeCurrentSpsr (msrMask mask) v).mem = s.mem := by
  obtain ⟨e, -⟩ | ⟨_, -, e⟩ := s.writeCurrentSpsr_eq mask v <;> simp [e]

@[simp] theorem takeException_mem (s : State) (x : Exception) (link : Word) : (s.takeException x link).mem = s.mem := by
  obtain ⟨-, -, -, -, -, mem⟩ := takeException_other s x link
  exact mem

end State

/-- A chain of operations without `dataWrite` leaves memory alone. -/
theorem Evolves.mem_eq {s t : State} (h : Evolves false s t) : t.mem = s.mem := by
  induction h with
  | refl => rfl
  | emit _ _ _ ih | fetchOpcode _ ih | flushPipeline _ ih | setFlags _ _ ih | setT _ _ ih | setR15 _ _ ih
  | setFetchType _ _ ih => exact ih
  | writeReg _ _ _ ih | writeUserReg _ _ _ ih | writeCurrentSpsr _ _ _ ih => simpa using ih
  | dataWrite _ mayWrite => cases mayWrite
  | leaveMode _ left ih => exact (State.leaveMode_mem left).trans ih
  | writeCpsr _ _ _ written ih => exact (State.writeCpsr_mem written).trans ih

/-- The three ends of an instruction: the chain's state, HACF, an exception entry, which pushes nothing (R505). -/
theorem Ends.mem_eq {s t : State} (h : Ends false s t) : t.mem = s.mem := by
  obtain ⟨u, hu, rfl | rfl⟩ | ⟨x, link, -, rfl⟩ := h
  · exact hu.mem_eq
  · exact hu.mem_eq
  · simp

/-- Settles O17: an instruction that is no store, swap or block store is a chain without `dataWrite`. -/
theorem onlyStoresWriteMemory : Obligations.OnlyStoresWriteMemory :=
  fun _ _ _ reads h => (reads ▸ exec_ends h).mem_eq

/-! ### Bytes written and bytes read -/

namespace Memory

/-- A write puts byte `k` of the value `k` places after the aligned address: little-endian (R75). -/
theorem read_writeWidth {m : Memory} (h : wf m) (w : Width) (a v : Word) {k : Nat} (hk : k < w.bytes) :
    Memory.read (m.writeWidth w a v) ((w.align a).toNat + k) = v.extractLsb' (8 * k) 8 := by
  cases w with
  | byte =>
    obtain rfl : k = 0 := by simpa [Width.bytes] using hk
    simp [writeWidth, read_write h]
  | half =>
    obtain ⟨b0, b1⟩ := read_writeWidth_half h a v
    match k, hk with
    | 0, _ => exact b0
    | 1, _ => exact b1
  | word =>
    obtain ⟨b0, b1, b2, b3⟩ := read_writeWidth_word h a v
    match k, hk with
    | 0, _ => exact b0
    | 1, _ => exact b1
    | 2, _ => exact b2
    | 3, _ => exact b3

open BitVec (extractLsb'_append_eq_of_le extractLsb'_append_eq_left extractLsb'_append_eq_right) in
/-- A word read delivers the byte `k` places after the aligned address as byte `k`. -/
theorem extractLsb'_readWidth_word (m : Memory) (a : Word) {k : Nat} (hk : k < 4) :
    (m.readWidth .word a).extractLsb' (8 * k) 8 = Memory.read m ((Width.word.align a).toNat + k) := by
  match k, hk with
  | 0, _ => exact extractLsb'_append_eq_right
  | 1, _ => exact (extractLsb'_append_eq_of_le (by decide)).trans extractLsb'_append_eq_right
  | 2, _ =>
    exact (extractLsb'_append_eq_of_le (by decide)).trans
      ((extractLsb'_append_eq_of_le (by decide)).trans extractLsb'_append_eq_right)
  | 3, _ =>
    exact (extractLsb'_append_eq_of_le (by decide)).trans
      ((extractLsb'_append_eq_of_le (by decide)).trans extractLsb'_append_eq_left)

end Memory

/-- Settles O21: the write's bytes one by one, and their composition by the read. -/
theorem memoryReadsBack : Obligations.MemoryReadsBack := fun _ w a _ v h =>
  ⟨Memory.wf_writeWidth h w a v, Memory.readWidth_writeWidth h w v, fun _ => Memory.read_writeWidth h w a v,
    fun _ => Memory.read_writeWidth_of_outside h⟩

/-! ### What loads deliver: words -/

/-- A rotation right by `r` bytes moves byte `(i + r) mod 4` to byte `i`. -/
theorem extractLsb'_rotateRight_bytes (x : Word) {i r : Nat} (hi : i < 4) (hr : r < 4) :
    (x.rotateRight (8 * r)).extractLsb' (8 * i) 8 = x.extractLsb' (8 * ((i + r) % 4)) 8 := by
  apply BitVec.eq_of_getLsbD_eq; intro j hj
  rw [BitVec.getLsbD_extractLsb', BitVec.getLsbD_extractLsb', BitVec.getLsbD_rotateRight_of_lt (by omega)]
  by_cases stays : i + r < 4
  · rw [decide_eq_true (show 8 * i + j < 32 - 8 * r by omega), cond_true,
      show 8 * r + (8 * i + j) = 8 * ((i + r) % 4) + j by omega]
  · rw [decide_eq_false (show ¬ 8 * i + j < 32 - 8 * r by omega), cond_false,
      decide_eq_true (show 8 * i + j < 32 by omega), Bool.true_and,
      show 8 * i + j - (32 - 8 * r) = 8 * ((i + r) % 4) + j by omega]

/-- The bytes of a loaded word: those of the aligned word (R75), rotated by the low address bits (R76, R270). -/
theorem State.extractLsb'_loadValue_word (s : State) (a : Word) {i : Nat} (hi : i < 4) :
    (s.loadValue .word a).extractLsb' (8 * i) 8 =
      Memory.read s.mem ((Width.word.align a).toNat + (i + a.toNat % 4) % 4) := by
  have low : (a.extractLsb' 0 2).toNat = a.toNat % 4 := BitVec.extractLsb'_toNat ..
  calc (s.loadValue .word a).extractLsb' (8 * i) 8
      = ((Memory.readWidth s.mem .word a).rotateRight (8 * (a.toNat % 4))).extractLsb' (8 * i) 8 := by rw [← low]; rfl
    _ = (Memory.readWidth s.mem .word a).extractLsb' (8 * ((i + a.toNat % 4) % 4)) 8 :=
        extractLsb'_rotateRight_bytes _ hi (by omega)
    _ = _ := Memory.extractLsb'_readWidth_word _ _ (by omega)

/-! ### What loads deliver: bytes and halfwords -/

/-- The low bits of a zero-extended value are the value. -/
theorem extractLsb'_setWidth_self {n : Nat} (hn : n ≤ 32) (x : BitVec n) : (x.setWidth 32).extractLsb' 0 n = x := by
  rw [BitVec.extractLsb'_setWidth_of_le (by omega), BitVec.extractLsb'_eq_self]

/-- The low byte of a halfword, rotated right by 8, becomes the top byte of the word. -/
theorem rotateRight_setWidth_bytes (high low : Byte) :
    ((high ++ low).setWidth 32).rotateRight 8 = low ++ 0#16 ++ high := by
  apply BitVec.eq_of_getLsbD_eq; intro j hj
  simp only [BitVec.getLsbD_rotateRight, BitVec.getLsbD_setWidth, BitVec.getLsbD_append]
  interval_cases j <;> simp

theorem Width.align_half_toNat (a : Word) : (Width.half.align a).toNat = a.toNat / 2 * 2 := by
  rw [Width.align, BitVec.toNat_append]
  simp only [BitVec.extractLsb'_toNat, Nat.shiftLeft_eq, Nat.shiftRight_eq_div_pow, BitVec.toNat_zero, Nat.or_zero]
  have := a.isLt
  omega

/-- Bit 0 of an address says whether it is odd. -/
theorem toNat_mod_two (a : Word) : a.toNat % 2 = (a.getLsbD 0).toNat := by
  rw [BitVec.getLsbD, Nat.toNat_testBit, pow_zero, Nat.div_one]

/-- At an even address the port delivers the halfword that begins there. -/
theorem State.reply_half_of_even (s : State) {a : Word} (even : a.getLsbD 0 = false) :
    s.reply .half a = (Memory.read s.mem (a.toNat + 1) ++ Memory.read s.mem a.toNat).setWidth 32 := by
  have parity := toNat_mod_two a
  rw [even, Bool.toNat_false] at parity
  have aligned : (Width.half.align a).toNat = a.toNat := by rw [Width.align_half_toNat]; omega
  simp only [reply, Memory.readWidth, aligned]

/-- At an odd address the port delivers the halfword that begins one byte before. -/
theorem State.reply_half_of_odd (s : State) {a : Word} (odd : a.getLsbD 0 = true) :
    s.reply .half a = (Memory.read s.mem a.toNat ++ Memory.read s.mem (a.toNat - 1)).setWidth 32 := by
  have parity := toNat_mod_two a
  rw [odd, Bool.toNat_true] at parity
  have aligned : (Width.half.align a).toNat = a.toNat - 1 := by rw [Width.align_half_toNat]; omega
  simp only [reply, Memory.readWidth, aligned, show a.toNat - 1 + 1 = a.toNat by omega]

/-- LDRH rotates its reply by one byte at an odd address and not at an even one (R77, R281). -/
theorem LoadKind.deliver_half (a x : Word) : LoadKind.half.deliver a x = x.rotateRight (8 * (a.getLsbD 0).toNat) := by
  rw [← toNat_mod_two]
  exact congrArg (fun n => x.rotateRight (8 * n)) (BitVec.extractLsb'_toNat ..)

/-- A byte reply has no bits above the byte that LDRSB extends (R75, R284). -/
theorem State.loadValue_signedByte (s : State) (a : Word) :
    s.loadValue .signedByte a = (Memory.read s.mem a.toNat).signExtend 32 :=
  congrArg (BitVec.signExtend 32) (extractLsb'_setWidth_self (by decide) (Memory.read s.mem a.toNat))

/-- Settles O36: the bytes of the port's reply, then what each kind of load makes of them. -/
theorem loadedValues : Obligations.LoadedValues := by
  intro s a
  refine ⟨fun _ => s.extractLsb'_loadValue_word a, rfl, s.loadValue_signedByte a, fun even => ⟨?_, ?_⟩,
    fun odd => ⟨?_, ?_⟩⟩
  · show LoadKind.half.deliver a (s.reply .half a) = _
    rw [LoadKind.deliver_half, s.reply_half_of_even even, even]
    simp [BitVec.rotateRight_def]
  · show LoadKind.signedHalf.deliver a (s.reply .half a) = _
    rw [LoadKind.deliver, even, if_neg Bool.false_ne_true, s.reply_half_of_even even,
      extractLsb'_setWidth_self (by decide)]
  · show LoadKind.half.deliver a (s.reply .half a) = _
    rw [LoadKind.deliver_half, s.reply_half_of_odd odd, odd]
    exact rotateRight_setWidth_bytes ..
  · show LoadKind.signedHalf.deliver a (s.reply .half a) = _
    rw [LoadKind.deliver, odd, if_pos rfl, s.reply_half_of_odd odd, BitVec.extractLsb'_setWidth_of_le (by decide),
      BitVec.extractLsb'_append_eq_left]

end Sys2Proof.Machine
end

section
/-! PROOFS. Decoding undoes encoding (30_encoding.md R100, R104, R110, R120, R130): the class of the word is the
instruction's (Laws/PerInstr), and each field that the class's decoder cuts out is the operand that the encoder put
there. -/

namespace Sys2Proof

open BitVec (extractLsb'_append_eq_of_le extractLsb'_append_eq_of_add_le extractLsb'_eq_self)

/-! ### One bit of a word laid out in fields -/

theorem getLsbD_append_of_le {n m k : Nat} {x : BitVec n} {y : BitVec m} (h : m ≤ k) :
    (x ++ y).getLsbD k = x.getLsbD (k - m) := by
  rw [BitVec.getLsbD_append, if_neg (by omega)]

theorem getLsbD_append_of_lt {n m k : Nat} {x : BitVec n} {y : BitVec m} (h : k < m) :
    (x ++ y).getLsbD k = y.getLsbD k := by
  rw [BitVec.getLsbD_append, if_pos h]

theorem getLsbD_ofBool_zero (b : Bool) : (BitVec.ofBool b).getLsbD 0 = b := by cases b <;> rfl

/-- A 2-bit field by its values, as the decoder's matches take them. -/
theorem bitVec2_cases : ∀ x : BitVec 2, x = 0b00#2 ∨ x = 0b01#2 ∨ x = 0b10#2 ∨ x = 0b11#2 := by decide

/-! ### The fields of the shared ARM layouts -/

/-- The decoder's fields of a data-processing word: Rn, Rd, S, the opcode and its low half, operand 2. -/
theorem encodeDp_fields (c : Cond) (op : DpOp) (s : Bool) (rn rd : Reg) (op2 : Operand2) :
    (encodeDp c op s rn rd op2).extractLsb' 28 4 = c.bits ∧
      (encodeDp c op s rn rd op2).extractLsb' 21 4 = op.bits ∧
      (encodeDp c op s rn rd op2).extractLsb' 21 2 = op.bits.extractLsb' 0 2 ∧
      (encodeDp c op s rn rd op2).getLsbD 20 = s ∧
      (encodeDp c op s rn rd op2).extractLsb' 16 4 = rn ∧
      (encodeDp c op s rn rd op2).extractLsb' 12 4 = rd ∧
      decodeOperand2 (encodeDp c op s rn rd op2) = op2 := by
  refine ⟨?_, ?_, ?_, ?_, ?_, ?_, ?_⟩
  case refine_7 =>
    cases op2 <;>
    simp (disch := decide) only [encodeDp, decodeOperand2, Operand2.formBit, Operand2.bits, getLsbD_append_of_le,
      getLsbD_append_of_lt, extractLsb'_append_eq_of_le, extractLsb'_append_eq_of_add_le, extractLsb'_eq_self,
      ShiftType.ofBits_bits, Nat.reduceSub] <;> rfl
  all_goals
    simp (disch := decide) only [encodeDp, getLsbD_append_of_le, getLsbD_append_of_lt, getLsbD_ofBool_zero,
      extractLsb'_append_eq_of_le, extractLsb'_append_eq_of_add_le, extractLsb'_eq_self, Nat.reduceSub]

/-- The decoder's fields of a halfword transfer. -/
theorem encodeHalf_fields (c : Cond) (l : Bool) (sh : BitVec 2) (ix : Indexing) (rn rd : Reg) (off : HalfOffset) :
    (encodeHalf c l sh ix rn rd off).extractLsb' 28 4 = c.bits ∧
      decodeIndexing (encodeHalf c l sh ix rn rd off) = ix ∧
      (encodeHalf c l sh ix rn rd off).getLsbD 20 = l ∧
      (encodeHalf c l sh ix rn rd off).extractLsb' 16 4 = rn ∧
      (encodeHalf c l sh ix rn rd off).extractLsb' 12 4 = rd ∧
      (encodeHalf c l sh ix rn rd off).extractLsb' 5 2 = sh ∧
      decodeHalfOffset (encodeHalf c l sh ix rn rd off) = off := by
  cases off <;>
  simp (disch := decide) only [encodeHalf, decodeHalfOffset, decodeIndexing, HalfOffset.formBit, HalfOffset.high,
    HalfOffset.low, getLsbD_append_of_le, getLsbD_append_of_lt, getLsbD_ofBool_zero, extractLsb'_append_eq_of_le,
    extractLsb'_append_eq_of_add_le, extractLsb'_eq_self, BitVec.extractLsb'_append_extractLsb', Nat.reduceSub] <;>
  trivial

/-- The decoder's fields of a single data transfer. -/
theorem encodeSdt_fields (c : Cond) (b l : Bool) (ix : Indexing) (rn rd : Reg) (off : Offset) :
    (encodeSdt c b l ix rn rd off).extractLsb' 28 4 = c.bits ∧
      decodeIndexing (encodeSdt c b l ix rn rd off) = ix ∧
      (encodeSdt c b l ix rn rd off).getLsbD 22 = b ∧
      (encodeSdt c b l ix rn rd off).getLsbD 20 = l ∧
      (encodeSdt c b l ix rn rd off).extractLsb' 16 4 = rn ∧
      (encodeSdt c b l ix rn rd off).extractLsb' 12 4 = rd ∧
      decodeOffset (encodeSdt c b l ix rn rd off) = off := by
  refine ⟨?_, ?_, ?_, ?_, ?_, ?_, ?_⟩
  case refine_7 =>
    cases off <;>
    simp (disch := decide) only [encodeSdt, decodeOffset, Offset.formBit, Offset.bits, getLsbD_append_of_le,
      getLsbD_append_of_lt, extractLsb'_append_eq_of_le, extractLsb'_append_eq_of_add_le, extractLsb'_eq_self,
      ShiftType.ofBits_bits, Nat.reduceSub] <;> rfl
  all_goals
    simp (disch := decide) only [encodeSdt, decodeIndexing, getLsbD_append_of_le, getLsbD_append_of_lt,
      getLsbD_ofBool_zero, extractLsb'_append_eq_of_le, extractLsb'_append_eq_of_add_le, extractLsb'_eq_self,
      Nat.reduceSub]

/-- The decoder's fields of a multiply. -/
theorem encodeMul_fields (c : Cond) (a s : Bool) (rd rn rs rm : Reg) :
    (encodeMul c a s rd rn rs rm).extractLsb' 28 4 = c.bits ∧
      (encodeMul c a s rd rn rs rm).getLsbD 21 = a ∧
      (encodeMul c a s rd rn rs rm).getLsbD 20 = s ∧
      (encodeMul c a s rd rn rs rm).extractLsb' 16 4 = rd ∧
      (encodeMul c a s rd rn rs rm).extractLsb' 12 4 = rn ∧
      (encodeMul c a s rd rn rs rm).extractLsb' 8 4 = rs ∧
      (encodeMul c a s rd rn rs rm).extractLsb' 0 4 = rm := by
  simp (disch := decide) only [encodeMul, getLsbD_append_of_le, getLsbD_append_of_lt, getLsbD_ofBool_zero,
    extractLsb'_append_eq_of_le, extractLsb'_append_eq_of_add_le, extractLsb'_eq_self, Nat.reduceSub, and_self]

/-- The decoder's fields of a long multiply. -/
theorem encodeMulLong_fields (c : Cond) (u a s : Bool) (hi lo rs rm : Reg) :
    (encodeMulLong c u a s hi lo rs rm).extractLsb' 28 4 = c.bits ∧
      (encodeMulLong c u a s hi lo rs rm).getLsbD 22 = u ∧
      (encodeMulLong c u a s hi lo rs rm).getLsbD 21 = a ∧
      (encodeMulLong c u a s hi lo rs rm).getLsbD 20 = s ∧
      (encodeMulLong c u a s hi lo rs rm).extractLsb' 16 4 = hi ∧
      (encodeMulLong c u a s hi lo rs rm).extractLsb' 12 4 = lo ∧
      (encodeMulLong c u a s hi lo rs rm).extractLsb' 8 4 = rs ∧
      (encodeMulLong c u a s hi lo rs rm).extractLsb' 0 4 = rm := by
  simp (disch := decide) only [encodeMulLong, getLsbD_append_of_le, getLsbD_append_of_lt, getLsbD_ofBool_zero,
    extractLsb'_append_eq_of_le, extractLsb'_append_eq_of_add_le, extractLsb'_eq_self, Nat.reduceSub, and_self]

/-- The decoder's fields of a swap. -/
theorem encodeSwap_fields (c : Cond) (b : Bool) (rn rd rm : Reg) (ign : BitVec 4) :
    (encodeSwap c b rn rd rm ign).extractLsb' 28 4 = c.bits ∧
      (encodeSwap c b rn rd rm ign).getLsbD 22 = b ∧
      (encodeSwap c b rn rd rm ign).extractLsb' 16 4 = rn ∧
      (encodeSwap c b rn rd rm ign).extractLsb' 12 4 = rd ∧
      (encodeSwap c b rn rd rm ign).extractLsb' 8 4 = ign ∧
      (encodeSwap c b rn rd rm ign).extractLsb' 0 4 = rm := by
  simp (disch := decide) only [encodeSwap, getLsbD_append_of_le, getLsbD_append_of_lt, getLsbD_ofBool_zero,
    extractLsb'_append_eq_of_le, extractLsb'_append_eq_of_add_le, extractLsb'_eq_self, Nat.reduceSub, and_self]

/-- The decoder's fields of a block transfer. -/
theorem encodeBlock_fields (c : Cond) (l : Bool) (ix : Indexing) (s : Bool) (rn : Reg) (list : BitVec 16) :
    (encodeBlock c l ix s rn list).extractLsb' 28 4 = c.bits ∧
      decodeIndexing (encodeBlock c l ix s rn list) = ix ∧
      (encodeBlock c l ix s rn list).getLsbD 22 = s ∧
      (encodeBlock c l ix s rn list).getLsbD 20 = l ∧
      (encodeBlock c l ix s rn list).extractLsb' 16 4 = rn ∧
      (encodeBlock c l ix s rn list).extractLsb' 0 16 = list := by
  simp (disch := decide) only [encodeBlock, decodeIndexing, getLsbD_append_of_le, getLsbD_append_of_lt,
    getLsbD_ofBool_zero, extractLsb'_append_eq_of_le, extractLsb'_append_eq_of_add_le, extractLsb'_eq_self,
    Nat.reduceSub, and_self]

/-- The decoder's fields of a coprocessor register transfer. -/
theorem encodeCoprocRegister_fields (c : Cond) (l : Bool) (rd cp : BitVec 4) (i23 : BitVec 3) (i19 : BitVec 4)
    (i7 : BitVec 3) (i3 : BitVec 4) :
    (encodeCoprocRegister c l rd cp i23 i19 i7 i3).extractLsb' 28 4 = c.bits ∧
      (encodeCoprocRegister c l rd cp i23 i19 i7 i3).getLsbD 20 = l ∧
      (encodeCoprocRegister c l rd cp i23 i19 i7 i3).extractLsb' 12 4 = rd ∧
      (encodeCoprocRegister c l rd cp i23 i19 i7 i3).extractLsb' 8 4 = cp ∧
      (encodeCoprocRegister c l rd cp i23 i19 i7 i3).extractLsb' 21 3 = i23 ∧
      (encodeCoprocRegister c l rd cp i23 i19 i7 i3).extractLsb' 16 4 = i19 ∧
      (encodeCoprocRegister c l rd cp i23 i19 i7 i3).extractLsb' 5 3 = i7 ∧
      (encodeCoprocRegister c l rd cp i23 i19 i7 i3).extractLsb' 0 4 = i3 := by
  simp (disch := decide) only [encodeCoprocRegister, getLsbD_append_of_le, getLsbD_append_of_lt, getLsbD_ofBool_zero,
    extractLsb'_append_eq_of_le, extractLsb'_append_eq_of_add_le, extractLsb'_eq_self, Nat.reduceSub, and_self]

/-- In the unknown half of the halfword class S is set, and H is the bit kept as an operand. -/
theorem extractLsb'_unknownHalf (c : Cond) (i24 : BitVec 4) (i19 : BitVec 12) (h : Bool) (i3 : BitVec 4) :
    (c.bits ++ 0b000#3 ++ i24 ++ 0#1 ++ i19 ++ 0b11#2 ++ BitVec.ofBool h ++ 1#1 ++ i3 : Word).extractLsb' 5 2 =
      1#1 ++ BitVec.ofBool h := by
  apply ext_bits; intro k hk
  simp only [BitVec.getLsbD_append, BitVec.getLsbD_extractLsb']
  interval_cases k <;> simp

/-! ### The fields of the shared Thumb layouts -/

/-- An opcode, a 5-bit immediate and two registers (formats 1, 9 and 10). -/
theorem half_imm5_fields (op imm : BitVec 5) (a b : LowReg) :
    (op ++ imm ++ a ++ b : Half).extractLsb' 11 2 = op.extractLsb' 0 2 ∧
      (op ++ imm ++ a ++ b : Half).getLsbD 11 = op.getLsbD 0 ∧
      (op ++ imm ++ a ++ b : Half).extractLsb' 6 5 = imm ∧
      (op ++ imm ++ a ++ b : Half).extractLsb' 3 3 = a ∧
      (op ++ imm ++ a ++ b : Half).extractLsb' 0 3 = b := by
  simp (disch := decide) only [getLsbD_append_of_le, extractLsb'_append_eq_of_le,
    extractLsb'_append_eq_of_add_le, extractLsb'_eq_self, Nat.reduceSub, and_self]

/-- An opcode and three 3-bit fields (format 2). -/
theorem half_reg3_fields (op : BitVec 7) (n a b : BitVec 3) :
    (op ++ n ++ a ++ b : Half).extractLsb' 9 2 = op.extractLsb' 0 2 ∧
      (op ++ n ++ a ++ b : Half).extractLsb' 6 3 = n ∧
      (op ++ n ++ a ++ b : Half).extractLsb' 3 3 = a ∧
      (op ++ n ++ a ++ b : Half).extractLsb' 0 3 = b := by
  simp (disch := decide) only [extractLsb'_append_eq_of_le,
    extractLsb'_append_eq_of_add_le, extractLsb'_eq_self, Nat.reduceSub, and_self]

/-- An opcode, a register and an 8-bit field (formats 3, 6, 11, 12 and 15). -/
theorem half_regImm8_fields (op : BitVec 5) (r : LowReg) (imm : BitVec 8) :
    (op ++ r ++ imm : Half).extractLsb' 11 2 = op.extractLsb' 0 2 ∧
      (op ++ r ++ imm : Half).getLsbD 11 = op.getLsbD 0 ∧
      (op ++ r ++ imm : Half).extractLsb' 8 3 = r ∧
      (op ++ r ++ imm : Half).extractLsb' 0 8 = imm := by
  simp (disch := decide) only [getLsbD_append_of_le, extractLsb'_append_eq_of_le,
    extractLsb'_append_eq_of_add_le, extractLsb'_eq_self, Nat.reduceSub, and_self]

/-- Format 4. -/
theorem encodeThumbAlu_fields (op : BitVec 4) (rd rs : LowReg) :
    (encodeThumbAlu op rd rs).extractLsb' 6 4 = op ∧
      (encodeThumbAlu op rd rs).extractLsb' 3 3 = rs ∧
      (encodeThumbAlu op rd rs).extractLsb' 0 3 = rd := by
  simp (disch := decide) only [encodeThumbAlu, extractLsb'_append_eq_of_le,
    extractLsb'_append_eq_of_add_le, extractLsb'_eq_self, Nat.reduceSub, and_self]

/-- Format 5. -/
theorem encodeThumbHigh_fields (op : BitVec 2) (h1 : BitVec 1) (rs : Reg) (low : BitVec 3) :
    (encodeThumbHigh op h1 rs low).extractLsb' 8 2 = op ∧
      (encodeThumbHigh op h1 rs low).extractLsb' 7 1 = h1 ∧
      (encodeThumbHigh op h1 rs low).getLsbD 7 = h1.getLsbD 0 ∧
      (encodeThumbHigh op h1 rs low).extractLsb' 3 4 = rs ∧
      (encodeThumbHigh op h1 rs low).extractLsb' 0 3 = low := by
  simp (disch := decide) only [encodeThumbHigh, getLsbD_append_of_le, getLsbD_append_of_lt, extractLsb'_append_eq_of_le,
    extractLsb'_append_eq_of_add_le, extractLsb'_eq_self, Nat.reduceSub, and_self]

/-- Formats 7 and 8. -/
theorem encodeThumbRegOffset_fields (op : BitVec 3) (rd rb ro : LowReg) :
    (encodeThumbRegOffset op rd rb ro).extractLsb' 10 2 = op.extractLsb' 1 2 ∧
      (encodeThumbRegOffset op rd rb ro).extractLsb' 6 3 = ro ∧
      (encodeThumbRegOffset op rd rb ro).extractLsb' 3 3 = rb ∧
      (encodeThumbRegOffset op rd rb ro).extractLsb' 0 3 = rd := by
  simp (disch := decide) only [encodeThumbRegOffset, extractLsb'_append_eq_of_le,
    extractLsb'_append_eq_of_add_le, extractLsb'_eq_self, Nat.reduceSub, and_self]

/-! ### The class of an instruction's word -/

/-- The family ClassOf as one statement. -/
theorem Laws.ClassOf.ofCode_encode (i : Instr) : Statement i :=
  match i with
  | .and .. => by apply and | .eor .. => by apply eor | .sub .. => by apply sub | .rsb .. => by apply rsb
  | .add .. => by apply add | .adc .. => by apply adc | .sbc .. => by apply sbc | .rsc .. => by apply rsc
  | .tst .. => by apply tst | .teq .. => by apply teq | .cmp .. => by apply cmp | .cmn .. => by apply cmn
  | .orr .. => by apply orr | .mov .. => by apply mov | .bic .. => by apply bic | .mvn .. => by apply mvn
  | .testNoS .. => by apply testNoS | .mul .. => by apply mul | .mla .. => by apply mla | .umull .. => by apply umull
  | .umlal .. => by apply umlal | .smull .. => by apply smull | .smlal .. => by apply smlal | .mrs .. => by apply mrs
  | .msrReg .. => by apply msrReg | .msrImm .. => by apply msrImm | .swp .. => by apply swp
  | .swpb .. => by apply swpb | .bx .. => by apply bx | .strh .. => by apply strh | .ldrh .. => by apply ldrh
  | .ldrsb .. => by apply ldrsb | .ldrsh .. => by apply ldrsh | .ldr .. => by apply ldr | .str .. => by apply str
  | .ldrb .. => by apply ldrb | .strb .. => by apply strb | .ldm .. => by apply ldm | .stm .. => by apply stm
  | .b .. => by apply b | .bl .. => by apply bl | .stc .. => by apply stc | .ldc .. => by apply ldc
  | .cdp .. => by apply cdp | .mcr .. => by apply mcr | .mrc .. => by apply mrc | .swi .. => by apply swi
  | .undefinedU1 .. => by apply undefinedU1 | .undefinedU2 .. => by apply undefinedU2
  | .undefinedU3 .. => by apply undefinedU3 | .undefinedU4 .. => by apply undefinedU4
  | .unknownMulSwap .. => by apply unknownMulSwap | .unknownHalf .. => by apply unknownHalf
  | .tLslImm .. => by apply tLslImm | .tLsrImm .. => by apply tLsrImm | .tAsrImm .. => by apply tAsrImm
  | .tAddReg .. => by apply tAddReg | .tSubReg .. => by apply tSubReg | .tAddImm3 .. => by apply tAddImm3
  | .tSubImm3 .. => by apply tSubImm3 | .tMovImm .. => by apply tMovImm | .tCmpImm .. => by apply tCmpImm
  | .tAddImm8 .. => by apply tAddImm8 | .tSubImm8 .. => by apply tSubImm8 | .tAnd .. => by apply tAnd
  | .tEor .. => by apply tEor | .tLslReg .. => by apply tLslReg | .tLsrReg .. => by apply tLsrReg
  | .tAsrReg .. => by apply tAsrReg | .tAdc .. => by apply tAdc | .tSbc .. => by apply tSbc
  | .tRorReg .. => by apply tRorReg | .tTst .. => by apply tTst | .tNeg .. => by apply tNeg
  | .tCmpReg .. => by apply tCmpReg | .tCmn .. => by apply tCmn | .tOrr .. => by apply tOrr
  | .tMul .. => by apply tMul | .tBic .. => by apply tBic | .tMvn .. => by apply tMvn | .tAddHi .. => by apply tAddHi
  | .tCmpHi .. => by apply tCmpHi | .tMovHi .. => by apply tMovHi | .tBx .. => by apply tBx
  | .tLdrPc .. => by apply tLdrPc | .tStrReg .. => by apply tStrReg | .tStrbReg .. => by apply tStrbReg
  | .tLdrReg .. => by apply tLdrReg | .tLdrbReg .. => by apply tLdrbReg | .tStrhReg .. => by apply tStrhReg
  | .tLdsbReg .. => by apply tLdsbReg | .tLdrhReg .. => by apply tLdrhReg | .tLdshReg .. => by apply tLdshReg
  | .tStrImm .. => by apply tStrImm | .tLdrImm .. => by apply tLdrImm | .tStrbImm .. => by apply tStrbImm
  | .tLdrbImm .. => by apply tLdrbImm | .tStrhImm .. => by apply tStrhImm | .tLdrhImm .. => by apply tLdrhImm
  | .tStrSp .. => by apply tStrSp | .tLdrSp .. => by apply tLdrSp | .tAddPc .. => by apply tAddPc
  | .tAddSp .. => by apply tAddSp | .tAdjSp .. => by apply tAdjSp | .tPush .. => by apply tPush
  | .tPop .. => by apply tPop | .tStmia .. => by apply tStmia | .tLdmia .. => by apply tLdmia
  | .tBCond .. => by apply tBCond | .tUndefined1 .. => by apply tUndefined1 | .tSwi .. => by apply tSwi
  | .tB .. => by apply tB | .tUndefined2 .. => by apply tUndefined2 | .tBlFirst .. => by apply tBlFirst
  | .tBlSecond .. => by apply tBlSecond | .tUnknown .. => by apply tUnknown

/-! ### The round trip -/

/-- The class of the word selects the class's decoder, which finds the operands in their fields (R104, R110). -/
theorem decodeArm_encode {i : Instr} {w : Word} (wf : i.wellFormed = true) (e : encode i = .arm w) :
    decodeArm w = .ok i := by
  have cls := Laws.ClassOf.ofCode_encode i wf
  rw [e] at cls
  cases i <;> cases e <;> replace cls := Laws.ClassOf.Class.arm.inj cls <;> simp only [decodeArm, cls]
  case and | eor | sub | rsb | add | adc | sbc | rsc | tst | teq | cmp | cmn | orr | mov | bic | mvn =>
    simp only [decodeDataProcessing, encodeDp_fields, DpOp.ofBits_bits, Cond.ofBits_bits, if_true]
  case testNoS c opc rn rd op2 =>
    simp only [decodeDataProcessing, encodeDp_fields, DpOp.ofBits_bits, Cond.ofBits_bits]
    obtain rfl | rfl | rfl | rfl := bitVec2_cases opc <;> rfl
  case mul | mla =>
    simp only [decodeMultiply, encodeMul_fields, Cond.ofBits_bits]
    rfl
  case umull | umlal | smull | smlal => simp only [decodeMultiplyLong, encodeMulLong_fields, Cond.ofBits_bits]
  case swp | swpb =>
    simp only [encodeSwap_fields, Cond.ofBits_bits]
    rfl
  case strh | ldrh | ldrsb | ldrsh => simp only [decodeHalfword, encodeHalf_fields, Cond.ofBits_bits] <;> rfl
  case unknownHalf c i24 i19 h i3 =>
    simp only [decodeHalfword, extractLsb'_unknownHalf]
    simp (disch := decide) only [getLsbD_append_of_le, getLsbD_append_of_lt, getLsbD_ofBool_zero,
      extractLsb'_append_eq_of_le, extractLsb'_append_eq_of_add_le, extractLsb'_eq_self, Nat.reduceSub,
      Cond.ofBits_bits]
    cases h <;> rfl
  case ldr | str | ldrb | strb => simp only [decodeSingleTransfer, encodeSdt_fields, Cond.ofBits_bits]
  case ldm | stm =>
    simp only [encodeBlock_fields, Cond.ofBits_bits]
    rfl
  case mcr | mrc =>
    simp only [encodeCoprocRegister_fields, Cond.ofBits_bits]
    rfl
  -- The layouts of one instruction: the fields are read off the encoding itself.
  all_goals
    simp (disch := decide) only [decodeHalfword, getLsbD_append_of_le, getLsbD_append_of_lt, getLsbD_ofBool_zero,
      extractLsb'_append_eq_of_le, extractLsb'_append_eq_of_add_le, extractLsb'_eq_self, Nat.reduceSub,
      Cond.ofBits_bits] <;> rfl

/-- The same for halfwords (R120, R130). -/
theorem decodeThumb_encode {i : Instr} {h : Half} (wf : i.wellFormed = true) (e : encode i = .thumb h) :
    decodeThumb h = i := by
  have cls := Laws.ClassOf.ofCode_encode i wf
  rw [e] at cls
  cases i <;> cases e <;> replace cls := Laws.ClassOf.Class.thumb.inj cls <;> simp only [decodeThumb, cls]
  case tLslImm | tLsrImm | tAsrImm | tStrImm | tLdrImm | tStrbImm | tLdrbImm | tStrhImm | tLdrhImm =>
    simp only [half_imm5_fields]
    rfl
  case tAddReg | tSubReg | tAddImm3 | tSubImm3 =>
    simp only [half_reg3_fields]
    rfl
  case tMovImm | tCmpImm | tAddImm8 | tSubImm8 | tLdrPc | tStrSp | tLdrSp | tAddPc | tAddSp | tStmia | tLdmia =>
    simp only [half_regImm8_fields] <;> rfl
  case tAnd | tEor | tLslReg | tLsrReg | tAsrReg | tAdc | tSbc | tRorReg | tTst | tNeg | tCmpReg | tCmn | tOrr | tMul
      | tBic | tMvn =>
    simp only [decodeThumbAlu, encodeThumbAlu_fields] <;> rfl
  case tAddHi | tCmpHi | tMovHi =>
    simp only [encodeThumbHigh_fields, BitVec.extractLsb'_append_extractLsb']
  case tBx =>
    simp only [encodeThumbHigh_fields, getLsbD_ofBool_zero]
    rfl
  case tStrReg | tStrbReg | tLdrReg | tLdrbReg | tStrhReg | tLdsbReg | tLdrhReg | tLdshReg =>
    simp only [encodeThumbRegOffset_fields]
    rfl
  -- The layouts of one or two instructions: the fields are read off the encoding itself.
  all_goals
    simp (disch := decide) only [getLsbD_append_of_le, getLsbD_append_of_lt, getLsbD_ofBool_zero,
      extractLsb'_append_eq_of_le, extractLsb'_append_eq_of_add_le, extractLsb'_eq_self, Nat.reduceSub,
      Cond.ofBits_bits] <;> rfl

/-- Settles O1: a word of either width decodes to its instruction. -/
theorem decodeEncode : Obligations.DecodeEncode := by
  intro i wf
  cases e : encode i with
  | arm w => exact decodeArm_encode wf e
  | thumb h => exact congrArg Except.ok (decodeThumb_encode wf e)

end Sys2Proof
end

section
/-! PROOFS. The bytes of a word as memory holds them (30_encoding.md R100, 20_memory.md R75), and the words the spec
writes out. -/

namespace Sys2Proof

open BitVec (extractLsb'_append_extractLsb'_eq_extractLsb' extractLsb'_eq_self)

theorem Word.append_bytes (w : Word) :
    w.extractLsb' 24 8 ++ w.extractLsb' 16 8 ++ w.extractLsb' 8 8 ++ w.extractLsb' 0 8 = w := by
  simp (disch := decide) only [extractLsb'_append_extractLsb'_eq_extractLsb']
  exact extractLsb'_eq_self

theorem Half.append_bytes (h : Half) : h.extractLsb' 8 8 ++ h.extractLsb' 0 8 = h :=
  BitVec.extractLsb'_append_extractLsb'

/-- Reading back a word's own bytes is decoding the word; the bytes behind it stay (R100). -/
theorem decodeBytes_bytes (code : Code) (rest : List Byte) :
    decodeBytes code.isThumb (code.bytes ++ rest) = (decodeCode code).map (·, rest) := by
  cases code with
  | arm w => exact congrArg (fun v => (decodeArm v).map (·, rest)) w.append_bytes
  | thumb h => exact congrArg (fun v => Except.ok (decodeThumb v, rest)) h.append_bytes

/-- Settles O4: the bytes make up the word again, and the word decodes to the instruction. -/
theorem decodeBytesEncode : Obligations.DecodeBytesEncode := fun i rest wf =>
  (decodeBytes_bytes (encode i) rest).trans (congrArg (Except.map (·, rest)) (decodeEncode i wf))

/-- Settles O5: the words are those of the table (R104, R120), decoded by evaluation. -/
theorem knownWords : Obligations.KnownWords := by
  unfold Obligations.KnownWords
  decide +kernel

end Sys2Proof
end

section
/-! PROOFS. What a decode class says of the word (30_encoding.md R101, R110, R130): the bits that the class's row fixes,
and that no ARM index is left without a row. -/

namespace Sys2Proof

section FirstMatch

variable {n : Nat} {κ : Type} {dflt c : κ} {i : BitVec n} {rows : List (Pattern n κ)}

/-- A class other than the default comes from a row that the index fits. -/
theorem exists_fits_of_firstMatch (h : firstMatch dflt i rows = c) (known : c ≠ dflt) :
    ∃ r ∈ rows, r.cls = c ∧ i &&& r.mask = r.value := by
  induction rows with
  | nil => exact absurd h.symm known
  | cons r rs ih =>
    rw [firstMatch] at h
    split at h
    next fits => exact ⟨r, List.mem_cons_self, h, fits⟩
    next => obtain ⟨s, hs, found⟩ := ih h; exact ⟨s, List.mem_cons_of_mem r hs, found⟩

/-- Where no class has two rows, the class names the row. -/
theorem fits_of_firstMatch (distinct : (rows.map Pattern.cls).Nodup) (known : dflt ∉ rows.map Pattern.cls)
    {r : Pattern n κ} (hr : r ∈ rows) (h : firstMatch dflt i rows = r.cls) : i &&& r.mask = r.value := by
  obtain ⟨s, hs, same, fits⟩ := exists_fits_of_firstMatch h fun e => known (e ▸ List.mem_map_of_mem hr)
  rwa [← List.inj_on_of_nodup_map distinct hs hr same]

/-- An index that fits some row has that row's class or an earlier one's, never the default. -/
theorem firstMatch_ne_default (known : dflt ∉ rows.map Pattern.cls) {r : Pattern n κ} (hr : r ∈ rows)
    (fits : i &&& r.mask = r.value) : firstMatch dflt i rows ≠ dflt := by
  induction rows with
  | nil => cases hr
  | cons s rs ih =>
    rw [List.map_cons, List.mem_cons, not_or] at known
    rw [firstMatch]
    split
    next => exact Ne.symm known.1
    next unfit =>
      rcases List.mem_cons.1 hr with rfl | hr
      · exact absurd fits unfit
      · exact ih known.2 hr

/-- The bits under a run of ones in the mask are those of the row's value. -/
theorem extractLsb'_of_fits {m v : BitVec n} (fits : i &&& m = v) (start len : Nat)
    (fixed : m.extractLsb' start len = BitVec.allOnes len) : i.extractLsb' start len = v.extractLsb' start len := by
  rw [← fits, BitVec.extractLsb'_and, fixed, BitVec.and_allOnes]

end FirstMatch

/-! ### The bits of a word that its row fixes -/

/-- A field of a field. -/
theorem extractLsb'_extractLsb' {n a b start len : Nat} (x : BitVec n) (inside : start + len ≤ b) :
    (x.extractLsb' a b).extractLsb' start len = x.extractLsb' (a + start) len := by
  apply ext_bits; intro k hk
  simp only [BitVec.getLsbD_extractLsb', decide_eq_true (show start + k < b by omega), Bool.true_and, Nat.add_assoc]

/-- A word has the bits that its row fixes among op[27:20] (R101, R110); row `k` counts from 0. -/
theorem armFixed_high (k : Fin 20) {w : Word} (cls : armClass (armIndex w) = armPatterns[k].cls) (start len : Nat)
    (inside : start + len ≤ 8)
    (fixed : armPatterns[k].mask.extractLsb' (start + 4) len = BitVec.allOnes len) :
    w.extractLsb' (20 + start) len = armPatterns[k].value.extractLsb' (start + 4) len := by
  have fits : armIndex w &&& armPatterns[k].mask = armPatterns[k].value :=
    fits_of_firstMatch (by decide) (by decide) (List.getElem_mem _) cls
  rw [← extractLsb'_of_fits fits _ _ fixed, armIndex, BitVec.extractLsb'_append_eq_of_le (Nat.le_add_left _ _),
    Nat.add_sub_cancel, extractLsb'_extractLsb' _ inside]

/-- The same for op[7:4]. -/
theorem armFixed_low (k : Fin 20) {w : Word} (cls : armClass (armIndex w) = armPatterns[k].cls) (start len : Nat)
    (inside : start + len ≤ 4)
    (fixed : armPatterns[k].mask.extractLsb' start len = BitVec.allOnes len) :
    w.extractLsb' (4 + start) len = armPatterns[k].value.extractLsb' start len := by
  have fits : armIndex w &&& armPatterns[k].mask = armPatterns[k].value :=
    fits_of_firstMatch (by decide) (by decide) (List.getElem_mem _) cls
  rw [← extractLsb'_of_fits fits _ _ fixed, armIndex, BitVec.extractLsb'_append_eq_of_add_le inside,
    extractLsb'_extractLsb' _ inside]

/-- A halfword has the bits that its row fixes among op[15:6] (R101, R130). -/
theorem thumbFixed (k : Fin 21) {h : Half} (cls : thumbClass (thumbIndex h) = thumbPatterns[k].cls) (start len : Nat)
    (inside : start + len ≤ 10)
    (fixed : thumbPatterns[k].mask.extractLsb' start len = BitVec.allOnes len) :
    h.extractLsb' (6 + start) len = thumbPatterns[k].value.extractLsb' start len := by
  have fits : thumbIndex h &&& thumbPatterns[k].mask = thumbPatterns[k].value :=
    fits_of_firstMatch (by decide) (by decide) (List.getElem_mem _) cls
  rw [← extractLsb'_of_fits fits _ _ fixed, thumbIndex, extractLsb'_extractLsb' _ inside]

/-! ### Indices that have a row -/

/-- Rows 13 to 20 together take every index: they look at op[27:24] and op[4] alone (R110). -/
theorem armClass_ne_unknown (i : BitVec 12) : armClass i ≠ .unknown := by
  have cover : ∀ (top : BitVec 4) (low : BitVec 1), ∃ r ∈ armPatterns,
      0b111100000001#12 &&& r.mask = r.mask ∧ (top ++ 0#7 ++ low) &&& r.mask = r.value := by decide +kernel
  have looked : i &&& 0b111100000001#12 = i.extractLsb' 8 4 ++ 0#7 ++ i.extractLsb' 0 1 := by
    apply ext_bits; intro k hk
    simp only [BitVec.getLsbD_append, BitVec.getLsbD_extractLsb', BitVec.getLsbD_and]
    interval_cases k <;> simp
  obtain ⟨r, hr, within, fits⟩ := cover (i.extractLsb' 8 4) (i.extractLsb' 0 1)
  refine firstMatch_ne_default (by decide) hr ?_
  rw [← within, ← BitVec.and_assoc, looked, fits]

/-- Only halfwords 1011 … can be without a row: for the others op[15:9] finds one (R130, R464). -/
theorem top_of_thumbClass_unknown {h : Half} (cls : thumbClass (thumbIndex h) = .unknown) :
    h.extractLsb' 12 4 = 0b1011#4 := by
  have cover : ∀ top : BitVec 7, top.extractLsb' 3 4 ≠ 0b1011#4 → ∃ r ∈ thumbPatterns,
      0b1111111000#10 &&& r.mask = r.mask ∧ (top ++ 0#3) &&& r.mask = r.value := by decide +kernel
  have looked : thumbIndex h &&& 0b1111111000#10 = h.extractLsb' 9 7 ++ 0#3 := by
    apply ext_bits; intro k hk
    simp only [thumbIndex, BitVec.getLsbD_append, BitVec.getLsbD_extractLsb', BitVec.getLsbD_and]
    interval_cases k <;> simp
  by_contra other
  have inside : (h.extractLsb' 9 7).extractLsb' 3 4 = h.extractLsb' 12 4 := extractLsb'_extractLsb' h (by decide)
  obtain ⟨r, hr, within, fits⟩ := cover (h.extractLsb' 9 7) (inside ▸ other)
  refine firstMatch_ne_default (by decide) hr ?_ cls
  rw [← within, ← BitVec.and_assoc, looked, fits]


end Sys2Proof
end

section
/-! PROOFS. Every ARM word is the word of a well-formed instruction (30_encoding.md R101, R104, R110, R112, R113), class
by class: the row fixes the bits that the layout writes as constants, and the operands are the word's other fields. -/

namespace Sys2Proof

open BitVec (extractLsb'_append_extractLsb'_eq_extractLsb' extractLsb'_eq_self)

/-! ### Fields of a word -/

/-- Two adjacent fields are one. -/
theorem extractLsb'_eq_append {N lo hi n m : Nat} {w : BitVec N} {x : BitVec n} {y : BitVec m}
    (hx : w.extractLsb' hi n = x) (hy : w.extractLsb' lo m = y) (adjacent : hi = lo + m) :
    w.extractLsb' lo (n + m) = x ++ y := by
  rw [← hx, ← hy, extractLsb'_append_extractLsb'_eq_extractLsb' adjacent]

theorem ofBool_getLsbD {N : Nat} (w : BitVec N) (k : Nat) : BitVec.ofBool (w.getLsbD k) = w.extractLsb' k 1 := by
  apply ext_bits; intro j hj
  obtain rfl : j = 0 := by omega
  simp only [BitVec.getLsbD_ofBool, BitVec.getLsbD_extractLsb', Nat.add_zero, decide_true, Nat.zero_lt_one]

theorem extractLsb'_one_of_getLsbD {N k : Nat} {w : BitVec N} {b : Bool} (h : w.getLsbD k = b) :
    w.extractLsb' k 1 = BitVec.ofBool b := by
  rw [← h, ofBool_getLsbD]

/-- The condition in op[31:28] (R104). -/
def condField (w : Word) : Cond := Cond.ofBits (w.extractLsb' 28 4)

@[simp] theorem condField_bits (w : Word) : (condField w).bits = w.extractLsb' 28 4 := Cond.bits_ofBits _

/-- The word is that of a well-formed instruction. -/
def ArmEncoded (w : Word) : Prop := ∃ i : Instr, i.wellFormed = true ∧ encode i = .arm w

/-! ### Classes of one layout and one instruction -/

section OneInstruction

variable {w : Word}

theorem armEncoded_u1 (cls : armClass (armIndex w) = .u1) : ArmEncoded w := by
  have top : w.extractLsb' 23 5 = 0b00110#5 := armFixed_high 0 cls 3 5 (by decide) rfl
  have low : w.extractLsb' 20 2 = 0b00#2 := armFixed_high 0 cls 0 2 (by decide) rfl
  refine ⟨.undefinedU1 (condField w) (w.getLsbD 22) (w.extractLsb' 0 20), rfl, congrArg Code.arm ?_⟩
  simp (disch := decide) only [condField_bits, ← top, ← low, ofBool_getLsbD,
    extractLsb'_append_extractLsb'_eq_extractLsb']
  exact extractLsb'_eq_self

theorem armEncoded_u2 (cls : armClass (armIndex w) = .u2) : ArmEncoded w := by
  have top : w.extractLsb' 25 3 = 0b011#3 := armFixed_high 1 cls 5 3 (by decide) rfl
  have low : w.extractLsb' 4 1 = 1#1 := armFixed_low 1 cls 0 1 (by decide) rfl
  refine ⟨.undefinedU2 (condField w) (w.extractLsb' 5 20) (w.extractLsb' 0 4), rfl, congrArg Code.arm ?_⟩
  simp (disch := decide) only [condField_bits, ← top, ← low, extractLsb'_append_extractLsb'_eq_extractLsb']
  exact extractLsb'_eq_self

theorem armEncoded_u3 (cls : armClass (armIndex w) = .u3) : ArmEncoded w := by
  have top : w.extractLsb' 20 8 = 0b00010110#8 := armFixed_high 2 cls 0 8 (by decide) rfl
  have low : w.extractLsb' 4 4 = 0b0001#4 := armFixed_low 2 cls 0 4 (by decide) rfl
  refine ⟨.undefinedU3 (condField w) (w.extractLsb' 8 12) (w.extractLsb' 0 4), rfl, congrArg Code.arm ?_⟩
  simp (disch := decide) only [condField_bits, ← top, ← low, extractLsb'_append_extractLsb'_eq_extractLsb']
  exact extractLsb'_eq_self

theorem armEncoded_u4 (cls : armClass (armIndex w) = .u4) : ArmEncoded w := by
  have top : w.extractLsb' 23 5 = 0b00010#5 := armFixed_high 3 cls 3 5 (by decide) rfl
  have s : w.extractLsb' 20 1 = 0#1 := armFixed_high 3 cls 0 1 (by decide) rfl
  have mid : w.extractLsb' 6 2 = 0b01#2 := armFixed_low 3 cls 2 2 (by decide) rfl
  have low : w.extractLsb' 4 1 = 1#1 := armFixed_low 3 cls 0 1 (by decide) rfl
  refine ⟨.undefinedU4 (condField w) (w.extractLsb' 21 2) (w.extractLsb' 8 12) (w.getLsbD 5) (w.extractLsb' 0 4), rfl,
    congrArg Code.arm ?_⟩
  simp (disch := decide) only [condField_bits, ← top, ← s, ← mid, ← low, ofBool_getLsbD,
    extractLsb'_append_extractLsb'_eq_extractLsb']
  exact extractLsb'_eq_self

theorem armEncoded_mrs (cls : armClass (armIndex w) = .mrs) : ArmEncoded w := by
  have top : w.extractLsb' 23 5 = 0b00010#5 := armFixed_high 6 cls 3 5 (by decide) rfl
  have mid : w.extractLsb' 20 2 = 0b00#2 := armFixed_high 6 cls 0 2 (by decide) rfl
  have low : w.extractLsb' 4 4 = 0b0000#4 := armFixed_low 6 cls 0 4 (by decide) rfl
  refine ⟨.mrs (condField w) (w.getLsbD 22) (w.extractLsb' 12 4) (w.extractLsb' 16 4) (w.extractLsb' 8 4)
    (w.extractLsb' 0 4), rfl, congrArg Code.arm ?_⟩
  simp (disch := decide) only [condField_bits, ← top, ← mid, ← low, ofBool_getLsbD,
    extractLsb'_append_extractLsb'_eq_extractLsb']
  exact extractLsb'_eq_self

theorem armEncoded_msrReg (cls : armClass (armIndex w) = .msrReg) : ArmEncoded w := by
  have top : w.extractLsb' 23 5 = 0b00010#5 := armFixed_high 7 cls 3 5 (by decide) rfl
  have mid : w.extractLsb' 20 2 = 0b10#2 := armFixed_high 7 cls 0 2 (by decide) rfl
  have low : w.extractLsb' 4 4 = 0b0000#4 := armFixed_low 7 cls 0 4 (by decide) rfl
  refine ⟨.msrReg (condField w) (w.getLsbD 22) (w.extractLsb' 16 4) (w.extractLsb' 0 4) (w.extractLsb' 8 8), rfl,
    congrArg Code.arm ?_⟩
  simp (disch := decide) only [condField_bits, ← top, ← mid, ← low, ofBool_getLsbD,
    extractLsb'_append_extractLsb'_eq_extractLsb']
  exact extractLsb'_eq_self

theorem armEncoded_msrImm (cls : armClass (armIndex w) = .msrImm) : ArmEncoded w := by
  have top : w.extractLsb' 23 5 = 0b00110#5 := armFixed_high 8 cls 3 5 (by decide) rfl
  have mid : w.extractLsb' 20 2 = 0b10#2 := armFixed_high 8 cls 0 2 (by decide) rfl
  refine ⟨.msrImm (condField w) (w.getLsbD 22) (w.extractLsb' 16 4) (w.extractLsb' 8 4) (w.extractLsb' 0 8)
    (w.extractLsb' 12 4), rfl, congrArg Code.arm ?_⟩
  simp (disch := decide) only [condField_bits, ← top, ← mid, ofBool_getLsbD,
    extractLsb'_append_extractLsb'_eq_extractLsb']
  exact extractLsb'_eq_self

theorem armEncoded_bx (cls : armClass (armIndex w) = .bx) : ArmEncoded w := by
  have top : w.extractLsb' 20 8 = 0b00010010#8 := armFixed_high 10 cls 0 8 (by decide) rfl
  have low : w.extractLsb' 4 4 = 0b0001#4 := armFixed_low 10 cls 0 4 (by decide) rfl
  refine ⟨.bx (condField w) (w.extractLsb' 0 4) (w.extractLsb' 8 12), rfl, congrArg Code.arm ?_⟩
  simp (disch := decide) only [condField_bits, ← top, ← low, extractLsb'_append_extractLsb'_eq_extractLsb']
  exact extractLsb'_eq_self

theorem armEncoded_coprocOperation (cls : armClass (armIndex w) = .coprocOperation) : ArmEncoded w := by
  have top : w.extractLsb' 24 4 = 0b1110#4 := armFixed_high 17 cls 4 4 (by decide) rfl
  have low : w.extractLsb' 4 1 = 0#1 := armFixed_low 17 cls 0 1 (by decide) rfl
  refine ⟨.cdp (condField w) (w.extractLsb' 5 19) (w.extractLsb' 0 4), rfl, congrArg Code.arm ?_⟩
  simp (disch := decide) only [condField_bits, ← top, ← low, extractLsb'_append_extractLsb'_eq_extractLsb']
  exact extractLsb'_eq_self

theorem armEncoded_swi (cls : armClass (armIndex w) = .swi) : ArmEncoded w := by
  have top : w.extractLsb' 24 4 = 0b1111#4 := armFixed_high 19 cls 4 4 (by decide) rfl
  refine ⟨.swi (condField w) (w.extractLsb' 0 24), rfl, congrArg Code.arm ?_⟩
  simp (disch := decide) only [condField_bits, ← top, extractLsb'_append_extractLsb'_eq_extractLsb']
  exact extractLsb'_eq_self

end OneInstruction

/-! ### Classes of one layout and several instructions -/

section SharedLayouts

variable {w : Word}

theorem armEncoded_multiply (cls : armClass (armIndex w) = .multiply) : ArmEncoded w := by
  have top : w.extractLsb' 22 6 = 0b000000#6 := armFixed_high 4 cls 2 6 (by decide) rfl
  have low : w.extractLsb' 4 4 = 0b1001#4 := armFixed_low 4 cls 0 4 (by decide) rfl
  have e : encodeMul (condField w) (w.getLsbD 21) (w.getLsbD 20) (w.extractLsb' 16 4) (w.extractLsb' 12 4)
      (w.extractLsb' 8 4) (w.extractLsb' 0 4) = w := by
    simp (disch := decide) only [encodeMul, condField_bits, ← top, ← low, ofBool_getLsbD,
      extractLsb'_append_extractLsb'_eq_extractLsb']
    exact extractLsb'_eq_self
  cases a : w.getLsbD 21 <;> rw [a] at e
  · exact ⟨.mul _ _ _ _ _ _, rfl, congrArg Code.arm e⟩
  · exact ⟨.mla _ _ _ _ _ _, rfl, congrArg Code.arm e⟩

theorem armEncoded_multiplyLong (cls : armClass (armIndex w) = .multiplyLong) : ArmEncoded w := by
  have top : w.extractLsb' 23 5 = 0b00001#5 := armFixed_high 5 cls 3 5 (by decide) rfl
  have low : w.extractLsb' 4 4 = 0b1001#4 := armFixed_low 5 cls 0 4 (by decide) rfl
  have e : encodeMulLong (condField w) (w.getLsbD 22) (w.getLsbD 21) (w.getLsbD 20) (w.extractLsb' 16 4)
      (w.extractLsb' 12 4) (w.extractLsb' 8 4) (w.extractLsb' 0 4) = w := by
    simp (disch := decide) only [encodeMulLong, condField_bits, ← top, ← low, ofBool_getLsbD,
      extractLsb'_append_extractLsb'_eq_extractLsb']
    exact extractLsb'_eq_self
  cases u : w.getLsbD 22 <;> cases a : w.getLsbD 21 <;> rw [u, a] at e
  · exact ⟨.umull _ _ _ _ _ _, rfl, congrArg Code.arm e⟩
  · exact ⟨.umlal _ _ _ _ _ _, rfl, congrArg Code.arm e⟩
  · exact ⟨.smull _ _ _ _ _ _, rfl, congrArg Code.arm e⟩
  · exact ⟨.smlal _ _ _ _ _ _, rfl, congrArg Code.arm e⟩

theorem armEncoded_swap (cls : armClass (armIndex w) = .swap) : ArmEncoded w := by
  have top : w.extractLsb' 23 5 = 0b00010#5 := armFixed_high 9 cls 3 5 (by decide) rfl
  have mid : w.extractLsb' 20 2 = 0b00#2 := armFixed_high 9 cls 0 2 (by decide) rfl
  have low : w.extractLsb' 4 4 = 0b1001#4 := armFixed_low 9 cls 0 4 (by decide) rfl
  have e : encodeSwap (condField w) (w.getLsbD 22) (w.extractLsb' 16 4) (w.extractLsb' 12 4) (w.extractLsb' 0 4)
      (w.extractLsb' 8 4) = w := by
    simp (disch := decide) only [encodeSwap, condField_bits, ← top, ← mid, ← low, ofBool_getLsbD,
      extractLsb'_append_extractLsb'_eq_extractLsb']
    exact extractLsb'_eq_self
  cases b : w.getLsbD 22 <;> rw [b] at e
  · exact ⟨.swp _ _ _ _ _, rfl, congrArg Code.arm e⟩
  · exact ⟨.swpb _ _ _ _ _, rfl, congrArg Code.arm e⟩

theorem armEncoded_blockTransfer (cls : armClass (armIndex w) = .blockTransfer) : ArmEncoded w := by
  have top : w.extractLsb' 25 3 = 0b100#3 := armFixed_high 14 cls 5 3 (by decide) rfl
  have e : encodeBlock (condField w) (w.getLsbD 20) (decodeIndexing w) (w.getLsbD 22) (w.extractLsb' 16 4)
      (w.extractLsb' 0 16) = w := by
    simp (disch := decide) only [encodeBlock, decodeIndexing, condField_bits, ← top, ofBool_getLsbD,
      extractLsb'_append_extractLsb'_eq_extractLsb']
    exact extractLsb'_eq_self
  cases l : w.getLsbD 20 <;> rw [l] at e
  · exact ⟨.stm _ _ _ _ _, rfl, congrArg Code.arm e⟩
  · exact ⟨.ldm _ _ _ _ _, rfl, congrArg Code.arm e⟩

theorem armEncoded_branch (cls : armClass (armIndex w) = .branch) : ArmEncoded w := by
  have top : w.extractLsb' 25 3 = 0b101#3 := armFixed_high 15 cls 5 3 (by decide) rfl
  have e : (condField w).bits ++ w.extractLsb' 24 4 ++ w.extractLsb' 0 24 = w := by
    simp (disch := decide) only [condField_bits, extractLsb'_append_extractLsb'_eq_extractLsb']
    exact extractLsb'_eq_self
  cases l : w.getLsbD 24 <;> rw [extractLsb'_eq_append top (extractLsb'_one_of_getLsbD l) rfl] at e
  · exact ⟨.b _ _, rfl, congrArg Code.arm e⟩
  · exact ⟨.bl _ _, rfl, congrArg Code.arm e⟩

theorem armEncoded_coprocTransfer (cls : armClass (armIndex w) = .coprocTransfer) : ArmEncoded w := by
  have top : w.extractLsb' 25 3 = 0b110#3 := armFixed_high 16 cls 5 3 (by decide) rfl
  have e : (condField w).bits ++ 0b110#3 ++ w.extractLsb' 21 4 ++ w.extractLsb' 20 1 ++ w.extractLsb' 0 20 = w := by
    simp (disch := decide) only [condField_bits, ← top, extractLsb'_append_extractLsb'_eq_extractLsb']
    exact extractLsb'_eq_self
  cases l : w.getLsbD 20 <;> rw [extractLsb'_one_of_getLsbD l] at e
  · exact ⟨.stc _ _ _, rfl, congrArg Code.arm e⟩
  · exact ⟨.ldc _ _ _, rfl, congrArg Code.arm e⟩

theorem armEncoded_coprocRegister (cls : armClass (armIndex w) = .coprocRegister) : ArmEncoded w := by
  have top : w.extractLsb' 24 4 = 0b1110#4 := armFixed_high 18 cls 4 4 (by decide) rfl
  have low : w.extractLsb' 4 1 = 1#1 := armFixed_low 18 cls 0 1 (by decide) rfl
  have e : encodeCoprocRegister (condField w) (w.getLsbD 20) (w.extractLsb' 12 4) (w.extractLsb' 8 4)
      (w.extractLsb' 21 3) (w.extractLsb' 16 4) (w.extractLsb' 5 3) (w.extractLsb' 0 4) = w := by
    simp (disch := decide) only [encodeCoprocRegister, condField_bits, ← top, ← low, ofBool_getLsbD,
      extractLsb'_append_extractLsb'_eq_extractLsb']
    exact extractLsb'_eq_self
  cases l : w.getLsbD 20 <;> rw [l] at e
  · exact ⟨.mcr _ _ _ _ _ _ _, rfl, congrArg Code.arm e⟩
  · exact ⟨.mrc _ _ _ _ _ _ _, rfl, congrArg Code.arm e⟩

end SharedLayouts

/-! ### Classes whose row leaves words to earlier rows -/

section Remainders

variable {w : Word}

/-- The index by the fields that the halfword row looks at: op[27:25], op[7] and op[4] are fixed there. -/
theorem armIndex_eq_append (w : Word) :
    armIndex w = w.extractLsb' 25 3 ++ w.extractLsb' 20 5 ++ w.extractLsb' 5 3 ++ w.extractLsb' 4 1 := by
  apply ext_bits; intro k hk
  simp only [armIndex, BitVec.getLsbD_append, BitVec.getLsbD_extractLsb']
  interval_cases k <;> simp

theorem decodeOffset_formBit (w : Word) : (decodeOffset w).formBit = w.extractLsb' 25 1 := by
  cases reg : w.getLsbD 25 <;>
    simp only [decodeOffset, reg, if_true, Bool.false_eq_true, if_false, extractLsb'_one_of_getLsbD reg] <;> rfl

/-- The offset is op[11:0], but for bit 4 of a register offset, which is 0 there (row 2 takes the others). -/
theorem decodeOffset_bits (low : w.getLsbD 25 = true → w.extractLsb' 4 1 = 0#1) :
    (decodeOffset w).bits = w.extractLsb' 0 12 := by
  cases reg : w.getLsbD 25 with
  | false => simp only [decodeOffset, reg, Bool.false_eq_true, if_false, Offset.bits]
  | true =>
    simp (disch := decide) only [decodeOffset, reg, if_true, Offset.bits, ShiftType.bits_ofBits, ← low reg,
      extractLsb'_append_extractLsb'_eq_extractLsb']

theorem armEncoded_singleTransfer (cls : armClass (armIndex w) = .singleTransfer) : ArmEncoded w := by
  have top : w.extractLsb' 26 2 = 0b01#2 := armFixed_high 13 cls 6 2 (by decide) rfl
  have low (reg : w.getLsbD 25 = true) : w.extractLsb' 4 1 = 0#1 := by
    cases b : w.getLsbD 4 with
    | false => exact extractLsb'_one_of_getLsbD b
    | true =>
      have top3 : w.extractLsb' 25 3 = 0b011#3 := extractLsb'_eq_append top (extractLsb'_one_of_getLsbD reg) rfl
      have b4 : w.extractLsb' 4 1 = 1#1 := extractLsb'_one_of_getLsbD b
      rw [armIndex_eq_append, top3, b4, armClassTable.u2] at cls
      cases cls
  have e : encodeSdt (condField w) (w.getLsbD 22) (w.getLsbD 20) (decodeIndexing w) (w.extractLsb' 16 4)
      (w.extractLsb' 12 4) (decodeOffset w) = w := by
    simp (disch := decide) only [encodeSdt, decodeIndexing, decodeOffset_formBit, decodeOffset_bits low, condField_bits,
      ← top, ofBool_getLsbD, extractLsb'_append_extractLsb'_eq_extractLsb']
    exact extractLsb'_eq_self
  cases b : w.getLsbD 22 <;> cases l : w.getLsbD 20 <;> rw [b, l] at e
  · exact ⟨.str _ _ _ _ _, rfl, congrArg Code.arm e⟩
  · exact ⟨.ldr _ _ _ _ _, rfl, congrArg Code.arm e⟩
  · exact ⟨.strb _ _ _ _ _, rfl, congrArg Code.arm e⟩
  · exact ⟨.ldrb _ _ _ _ _, rfl, congrArg Code.arm e⟩

/-- A word 000x … 1001 that no earlier row takes is one of the unknown multiply/swap words (R112). -/
theorem isUnknownMulSwap_of_armClass : ∀ sel : BitVec 5,
    armClass (0b000#3 ++ sel ++ 0b100#3 ++ 1#1) = .halfword → isUnknownMulSwap sel = true := by decide +kernel

theorem decodeHalfOffset_formBit (w : Word) : (decodeHalfOffset w).formBit = w.extractLsb' 22 1 := by
  cases imm : w.getLsbD 22 <;>
    simp only [decodeHalfOffset, imm, if_true, Bool.false_eq_true, if_false, extractLsb'_one_of_getLsbD imm] <;> rfl

theorem decodeHalfOffset_high (w : Word) : (decodeHalfOffset w).high = w.extractLsb' 8 4 := by
  unfold decodeHalfOffset
  split
  · exact BitVec.extractLsb'_append_eq_left
  · rfl

theorem decodeHalfOffset_low (w : Word) : (decodeHalfOffset w).low = w.extractLsb' 0 4 := by
  unfold decodeHalfOffset
  split
  · exact BitVec.extractLsb'_append_eq_right
  · rfl

/-- A word that fits the halfword row, by the fields of the halfword layout. -/
theorem encodeHalf_of_fields (top : w.extractLsb' 25 3 = 0b000#3) (b7 : w.extractLsb' 7 1 = 1#1)
    (b4 : w.extractLsb' 4 1 = 1#1) :
    encodeHalf (condField w) (w.getLsbD 20) (w.extractLsb' 5 2) (decodeIndexing w) (w.extractLsb' 16 4)
      (w.extractLsb' 12 4) (decodeHalfOffset w) = w := by
  calc _ = w.extractLsb' 28 4 ++ w.extractLsb' 25 3 ++ w.extractLsb' 24 1 ++ w.extractLsb' 23 1 ++ w.extractLsb' 22 1 ++
        w.extractLsb' 21 1 ++ w.extractLsb' 20 1 ++ w.extractLsb' 16 4 ++ w.extractLsb' 12 4 ++ w.extractLsb' 8 4 ++
        w.extractLsb' 7 1 ++ w.extractLsb' 5 2 ++ w.extractLsb' 4 1 ++ w.extractLsb' 0 4 := by
        simp only [encodeHalf, decodeIndexing, decodeHalfOffset_formBit, decodeHalfOffset_high, decodeHalfOffset_low,
          condField_bits, ofBool_getLsbD, top, b7, b4]
    _ = w := by
        simp (disch := decide) only [extractLsb'_append_extractLsb'_eq_extractLsb']
        exact extractLsb'_eq_self

theorem armEncoded_unknownMulSwap (cls : armClass (armIndex w) = .halfword) (top : w.extractLsb' 25 3 = 0b000#3)
    (b75 : w.extractLsb' 5 3 = 0b100#3) (b4 : w.extractLsb' 4 1 = 1#1) : ArmEncoded w := by
  have low : w.extractLsb' 4 4 = 0b1001#4 := extractLsb'_eq_append b75 b4 rfl
  rw [armIndex_eq_append, top, b75, b4] at cls
  refine ⟨.unknownMulSwap (condField w) (w.extractLsb' 20 5) (w.extractLsb' 8 12) (w.extractLsb' 0 4),
    isUnknownMulSwap_of_armClass _ cls, congrArg Code.arm ?_⟩
  simp (disch := decide) only [condField_bits, ← top, ← low, extractLsb'_append_extractLsb'_eq_extractLsb']
  exact extractLsb'_eq_self

theorem armEncoded_unknownHalf (top : w.extractLsb' 25 3 = 0b000#3) (l : w.getLsbD 20 = false)
    (b76 : w.extractLsb' 6 2 = 0b11#2) (b4 : w.extractLsb' 4 1 = 1#1) : ArmEncoded w := by
  have l0 : w.extractLsb' 20 1 = 0#1 := extractLsb'_one_of_getLsbD l
  refine ⟨.unknownHalf (condField w) (w.extractLsb' 21 4) (w.extractLsb' 8 12) (w.getLsbD 5) (w.extractLsb' 0 4), rfl,
    congrArg Code.arm ?_⟩
  simp (disch := decide) only [condField_bits, ← top, ← l0, ← b76, ← b4, ofBool_getLsbD,
    extractLsb'_append_extractLsb'_eq_extractLsb']
  exact extractLsb'_eq_self

/-- S and H name the transfer, and with S set there are only loads (R112). -/
theorem armEncoded_halfword (cls : armClass (armIndex w) = .halfword) : ArmEncoded w := by
  have top : w.extractLsb' 25 3 = 0b000#3 := armFixed_high 11 cls 5 3 (by decide) rfl
  have b7 : w.extractLsb' 7 1 = 1#1 := armFixed_low 11 cls 3 1 (by decide) rfl
  have b4 : w.extractLsb' 4 1 = 1#1 := armFixed_low 11 cls 0 1 (by decide) rfl
  have s : w.extractLsb' 6 1 = (w.extractLsb' 5 2).extractLsb' 1 1 :=
    (extractLsb'_extractLsb' w (show 1 + 1 ≤ 2 by decide)).symm
  have e := encodeHalf_of_fields top b7 b4
  obtain sh | sh | sh | sh := bitVec2_cases (w.extractLsb' 5 2) <;> rw [sh] at s e
  · exact armEncoded_unknownMulSwap cls top (extractLsb'_eq_append b7 sh rfl) b4
  · cases l : w.getLsbD 20 <;> rw [l] at e
    · exact ⟨.strh _ _ _ _ _, rfl, congrArg Code.arm e⟩
    · exact ⟨.ldrh _ _ _ _ _, rfl, congrArg Code.arm e⟩
  · cases l : w.getLsbD 20 <;> rw [l] at e
    · exact armEncoded_unknownHalf top l (extractLsb'_eq_append b7 s rfl) b4
    · exact ⟨.ldrsb _ _ _ _ _, rfl, congrArg Code.arm e⟩
  · cases l : w.getLsbD 20 <;> rw [l] at e
    · exact armEncoded_unknownHalf top l (extractLsb'_eq_append b7 s rfl) b4
    · exact ⟨.ldrsh _ _ _ _ _, rfl, congrArg Code.arm e⟩

/-- A register-shifted operand has op[7] clear: the halfword row takes the other words (R110). -/
theorem armClass_ne_dataProcessing : ∀ (sel : BitVec 5) (sh : BitVec 2),
    armClass (0b000#3 ++ sel ++ (1#1 ++ sh) ++ 1#1) ≠ .dataProcessing := by decide +kernel

theorem decodeOperand2_formBit (w : Word) : (decodeOperand2 w).formBit = w.extractLsb' 25 1 := by
  cases imm : w.getLsbD 25 <;> cases reg : w.getLsbD 4 <;>
    simp only [decodeOperand2, imm, reg, if_true, Bool.false_eq_true, if_false, extractLsb'_one_of_getLsbD imm] <;> rfl

/-- Operand 2 is op[11:0], but for bit 7 of a register-shifted operand, which is 0 there. -/
theorem decodeOperand2_bits (b7 : w.getLsbD 25 = false → w.getLsbD 4 = true → w.extractLsb' 7 1 = 0#1) :
    (decodeOperand2 w).bits = w.extractLsb' 0 12 := by
  cases imm : w.getLsbD 25 with
  | true =>
    simp (disch := decide) only [decodeOperand2, imm, if_true, Operand2.bits,
      extractLsb'_append_extractLsb'_eq_extractLsb']
  | false =>
    cases reg : w.getLsbD 4 with
    | false =>
      have b4 : w.extractLsb' 4 1 = 0#1 := extractLsb'_one_of_getLsbD reg
      simp (disch := decide) only [decodeOperand2, imm, reg, Bool.false_eq_true, if_false, Operand2.bits,
        ShiftType.bits_ofBits, ← b4, extractLsb'_append_extractLsb'_eq_extractLsb']
    | true =>
      have b4 : w.extractLsb' 4 1 = 1#1 := extractLsb'_one_of_getLsbD reg
      simp (disch := decide) only [decodeOperand2, imm, reg, Bool.false_eq_true, if_false, if_true, Operand2.bits,
        ShiftType.bits_ofBits, ← b4, ← b7 imm reg, extractLsb'_append_extractLsb'_eq_extractLsb']

/-- A word of the class in the layout's fields. -/
theorem exists_encodeDp (cls : armClass (armIndex w) = .dataProcessing) :
    ∃ c op s rn rd op2, encodeDp c op s rn rd op2 = w := by
  have top : w.extractLsb' 26 2 = 0b00#2 := armFixed_high 12 cls 6 2 (by decide) rfl
  have b7 (imm : w.getLsbD 25 = false) (reg : w.getLsbD 4 = true) : w.extractLsb' 7 1 = 0#1 := by
    cases b : w.getLsbD 7 with
    | false => exact extractLsb'_one_of_getLsbD b
    | true =>
      have top3 : w.extractLsb' 25 3 = 0b000#3 := extractLsb'_eq_append top (extractLsb'_one_of_getLsbD imm) rfl
      have b75 : w.extractLsb' 5 3 = 1#1 ++ w.extractLsb' 5 2 :=
        extractLsb'_eq_append (m := 2) (extractLsb'_one_of_getLsbD b) rfl rfl
      have b4 : w.extractLsb' 4 1 = 1#1 := extractLsb'_one_of_getLsbD reg
      rw [armIndex_eq_append, top3, b75, b4] at cls
      exact absurd cls (armClass_ne_dataProcessing _ _)
  refine ⟨condField w, DpOp.ofBits (w.extractLsb' 21 4), w.getLsbD 20, w.extractLsb' 16 4, w.extractLsb' 12 4,
    decodeOperand2 w, ?_⟩
  simp (disch := decide) only [encodeDp, decodeOperand2_formBit, decodeOperand2_bits b7, condField_bits,
    DpOp.bits_ofBits, ← top, ofBool_getLsbD, extractLsb'_append_extractLsb'_eq_extractLsb']
  exact extractLsb'_eq_self

theorem armEncoded_dataProcessing (cls : armClass (armIndex w) = .dataProcessing) : ArmEncoded w := by
  obtain ⟨c, op, s, rn, rd, op2, rfl⟩ := exists_encodeDp cls
  rw [armIndex_dp] at cls
  cases op with
  | and => exact ⟨.and c s rn rd op2, rfl, rfl⟩
  | eor => exact ⟨.eor c s rn rd op2, rfl, rfl⟩
  | sub => exact ⟨.sub c s rn rd op2, rfl, rfl⟩
  | rsb => exact ⟨.rsb c s rn rd op2, rfl, rfl⟩
  | add => exact ⟨.add c s rn rd op2, rfl, rfl⟩
  | adc => exact ⟨.adc c s rn rd op2, rfl, rfl⟩
  | sbc => exact ⟨.sbc c s rn rd op2, rfl, rfl⟩
  | rsc => exact ⟨.rsc c s rn rd op2, rfl, rfl⟩
  | orr => exact ⟨.orr c s rn rd op2, rfl, rfl⟩
  | mov => exact ⟨.mov c s rn rd op2, rfl, rfl⟩
  | bic => exact ⟨.bic c s rn rd op2, rfl, rfl⟩
  | mvn => exact ⟨.mvn c s rn rd op2, rfl, rfl⟩
  | tst =>
    cases s
    · exact ⟨.testNoS c 0b00#2 rn rd op2, (armClass_testNoS _ _).1 cls, rfl⟩
    · exact ⟨.tst c rn rd op2, rfl, rfl⟩
  | teq =>
    cases s
    · exact ⟨.testNoS c 0b01#2 rn rd op2, (armClass_testNoS _ _).1 cls, rfl⟩
    · exact ⟨.teq c rn rd op2, rfl, rfl⟩
  | cmp =>
    cases s
    · exact ⟨.testNoS c 0b10#2 rn rd op2, (armClass_testNoS _ _).1 cls, rfl⟩
    · exact ⟨.cmp c rn rd op2, rfl, rfl⟩
  | cmn =>
    cases s
    · exact ⟨.testNoS c 0b11#2 rn rd op2, (armClass_testNoS _ _).1 cls, rfl⟩
    · exact ⟨.cmn c rn rd op2, rfl, rfl⟩

end Remainders

theorem armEncoded (w : Word) : ArmEncoded w := by
  cases cls : armClass (armIndex w) with
  | u1 => exact armEncoded_u1 cls
  | u2 => exact armEncoded_u2 cls
  | u3 => exact armEncoded_u3 cls
  | u4 => exact armEncoded_u4 cls
  | multiply => exact armEncoded_multiply cls
  | multiplyLong => exact armEncoded_multiplyLong cls
  | mrs => exact armEncoded_mrs cls
  | msrReg => exact armEncoded_msrReg cls
  | msrImm => exact armEncoded_msrImm cls
  | swap => exact armEncoded_swap cls
  | bx => exact armEncoded_bx cls
  | halfword => exact armEncoded_halfword cls
  | dataProcessing => exact armEncoded_dataProcessing cls
  | singleTransfer => exact armEncoded_singleTransfer cls
  | blockTransfer => exact armEncoded_blockTransfer cls
  | branch => exact armEncoded_branch cls
  | coprocTransfer => exact armEncoded_coprocTransfer cls
  | coprocOperation => exact armEncoded_coprocOperation cls
  | coprocRegister => exact armEncoded_coprocRegister cls
  | swi => exact armEncoded_swi cls
  | unknown => exact absurd cls (armClass_ne_unknown _)

/-- Settles O2: the word is some well-formed instruction's, and decoding gives that instruction back. -/
theorem encodeDecodeArm : Obligations.EncodeDecodeArm := by
  intro w
  obtain ⟨i, wf, e⟩ := armEncoded w
  exact ⟨i, decodeArm_encode wf e, wf, e⟩

end Sys2Proof
end

section
/-! PROOFS. Every halfword is the word of a well-formed Thumb instruction (30_encoding.md R101, R120, R130;
48_thumb_memory_branch.md R464), class by class. -/

namespace Sys2Proof

open BitVec (extractLsb'_append_extractLsb'_eq_extractLsb' extractLsb'_eq_self)

variable {h : Half}

/-! ### A halfword by the fields of each layout -/

theorem half_eq_imm5 {op : BitVec 5} (top : h.extractLsb' 11 5 = op) :
    op ++ h.extractLsb' 6 5 ++ h.extractLsb' 3 3 ++ h.extractLsb' 0 3 = h := by
  simp (disch := decide) only [← top, extractLsb'_append_extractLsb'_eq_extractLsb']
  exact extractLsb'_eq_self

theorem half_eq_reg3 {op : BitVec 7} (top : h.extractLsb' 9 7 = op) :
    op ++ h.extractLsb' 6 3 ++ h.extractLsb' 3 3 ++ h.extractLsb' 0 3 = h := by
  simp (disch := decide) only [← top, extractLsb'_append_extractLsb'_eq_extractLsb']
  exact extractLsb'_eq_self

theorem half_eq_regImm8 {op : BitVec 5} (top : h.extractLsb' 11 5 = op) :
    op ++ h.extractLsb' 8 3 ++ h.extractLsb' 0 8 = h := by
  simp (disch := decide) only [← top, extractLsb'_append_extractLsb'_eq_extractLsb']
  exact extractLsb'_eq_self

theorem half_eq_imm8 {op : BitVec 8} (top : h.extractLsb' 8 8 = op) : op ++ h.extractLsb' 0 8 = h := by
  rw [← top, BitVec.extractLsb'_append_extractLsb']

theorem half_eq_imm11 {op : BitVec 5} (top : h.extractLsb' 11 5 = op) : op ++ h.extractLsb' 0 11 = h := by
  rw [← top, BitVec.extractLsb'_append_extractLsb']

theorem half_eq_nibble {op c : BitVec 4} (top : h.extractLsb' 12 4 = op) (mid : h.extractLsb' 8 4 = c) :
    op ++ c ++ h.extractLsb' 0 8 = h :=
  half_eq_imm8 (extractLsb'_eq_append top mid rfl)

theorem half_eq_alu {op : BitVec 4} (top : h.extractLsb' 10 6 = 0b010000#6) (mid : h.extractLsb' 6 4 = op) :
    encodeThumbAlu op (h.extractLsb' 0 3) (h.extractLsb' 3 3) = h := by
  simp (disch := decide) only [encodeThumbAlu, ← top, ← mid, extractLsb'_append_extractLsb'_eq_extractLsb']
  exact extractLsb'_eq_self

theorem half_eq_high {op : BitVec 2} (top : h.extractLsb' 10 6 = 0b010001#6) (mid : h.extractLsb' 8 2 = op) :
    encodeThumbHigh op (h.extractLsb' 7 1) (h.extractLsb' 3 4) (h.extractLsb' 0 3) = h := by
  simp (disch := decide) only [encodeThumbHigh, ← top, ← mid, extractLsb'_append_extractLsb'_eq_extractLsb']
  exact extractLsb'_eq_self

/-- The same with H1 inside the destination register. -/
theorem half_eq_high_rd {op : BitVec 2} (top : h.extractLsb' 10 6 = 0b010001#6) (mid : h.extractLsb' 8 2 = op)
    {rd : Reg} (hrd : h.extractLsb' 7 1 ++ h.extractLsb' 0 3 = rd) :
    encodeThumbHigh op (rd.extractLsb' 3 1) (h.extractLsb' 3 4) (rd.extractLsb' 0 3) = h := by
  rw [← hrd, BitVec.extractLsb'_append_eq_left, BitVec.extractLsb'_append_eq_right, half_eq_high top mid]

theorem half_eq_regOffset {op : BitVec 3} (top : h.extractLsb' 12 4 = 0b0101#4) (mid : h.extractLsb' 9 3 = op) :
    encodeThumbRegOffset op (h.extractLsb' 0 3) (h.extractLsb' 3 3) (h.extractLsb' 6 3) = h := by
  simp (disch := decide) only [encodeThumbRegOffset, ← top, ← mid, extractLsb'_append_extractLsb'_eq_extractLsb']
  exact extractLsb'_eq_self

theorem half_eq_pushPop {op : BitVec 7} (top : h.extractLsb' 9 7 = op) :
    op ++ BitVec.ofBool (h.getLsbD 8) ++ h.extractLsb' 0 8 = h := by
  simp (disch := decide) only [← top, ofBool_getLsbD, extractLsb'_append_extractLsb'_eq_extractLsb']
  exact extractLsb'_eq_self

theorem half_eq_adjSp {op : BitVec 8} (top : h.extractLsb' 8 8 = op) :
    op ++ BitVec.ofBool (h.getLsbD 7) ++ h.extractLsb' 0 7 = h := by
  simp (disch := decide) only [← top, ofBool_getLsbD, extractLsb'_append_extractLsb'_eq_extractLsb']
  exact extractLsb'_eq_self

/-! ### The classes -/

/-- The halfword is that of a well-formed instruction. -/
def ThumbEncoded (h : Half) : Prop := ∃ i : Instr, i.wellFormed = true ∧ encode i = .thumb h

theorem thumbIndex_eq_append5 (h : Half) : thumbIndex h = h.extractLsb' 11 5 ++ h.extractLsb' 6 5 :=
  extractLsb'_eq_append (n := 5) (m := 5) rfl rfl rfl

theorem thumbIndex_eq_append4 (h : Half) :
    thumbIndex h = h.extractLsb' 12 4 ++ h.extractLsb' 8 4 ++ h.extractLsb' 6 2 := by
  simp (disch := decide) only [thumbIndex, extractLsb'_append_extractLsb'_eq_extractLsb']

/-- The add/subtract row comes before the row of the shifts (R130). -/
theorem thumbClass_ne_moveShifted :
    ∀ n : BitVec 5, thumbClass ((0b000#3 ++ 0b11#2 : BitVec 5) ++ n) ≠ .moveShifted := by decide +kernel

/-- The rows of the undefined word and of SWI come before the row of the conditional branches (R130). -/
theorem cond_of_thumbClass_condBranch : ∀ (c : BitVec 4) (n : BitVec 2),
    thumbClass (0b1101#4 ++ c ++ n) = .condBranch → (Cond.ofBits c != .al && Cond.ofBits c != .nv) = true := by
  decide +kernel

/-- What formats 13 and 14 leave of 1011 … (R464). -/
theorem isUnknownThumb_of_thumbClass : ∀ (sel : BitVec 4) (n : BitVec 2),
    thumbClass (0b1011#4 ++ sel ++ n) = .unknown → isUnknownThumb sel = true := by decide +kernel

theorem thumbEncoded_addSub (cls : thumbClass (thumbIndex h) = .addSub) : ThumbEncoded h := by
  have top : h.extractLsb' 11 5 = 0b00011#5 := thumbFixed 0 cls 5 5 (by decide) rfl
  obtain x | x | x | x := bitVec2_cases (h.extractLsb' 9 2)
  · exact ⟨.tAddReg _ _ _, rfl, congrArg Code.thumb (half_eq_reg3 (extractLsb'_eq_append top x rfl))⟩
  · exact ⟨.tSubReg _ _ _, rfl, congrArg Code.thumb (half_eq_reg3 (extractLsb'_eq_append top x rfl))⟩
  · exact ⟨.tAddImm3 _ _ _, rfl, congrArg Code.thumb (half_eq_reg3 (extractLsb'_eq_append top x rfl))⟩
  · exact ⟨.tSubImm3 _ _ _, rfl, congrArg Code.thumb (half_eq_reg3 (extractLsb'_eq_append top x rfl))⟩

theorem thumbEncoded_moveShifted (cls : thumbClass (thumbIndex h) = .moveShifted) : ThumbEncoded h := by
  have top : h.extractLsb' 13 3 = 0b000#3 := thumbFixed 1 cls 7 3 (by decide) rfl
  obtain x | x | x | x := bitVec2_cases (h.extractLsb' 11 2)
  · exact ⟨.tLslImm _ _ _, rfl, congrArg Code.thumb (half_eq_imm5 (extractLsb'_eq_append top x rfl))⟩
  · exact ⟨.tLsrImm _ _ _, rfl, congrArg Code.thumb (half_eq_imm5 (extractLsb'_eq_append top x rfl))⟩
  · exact ⟨.tAsrImm _ _ _, rfl, congrArg Code.thumb (half_eq_imm5 (extractLsb'_eq_append top x rfl))⟩
  · rw [thumbIndex_eq_append5, extractLsb'_eq_append top x rfl] at cls
    exact absurd cls (thumbClass_ne_moveShifted _)

theorem thumbEncoded_aluImm (cls : thumbClass (thumbIndex h) = .aluImm) : ThumbEncoded h := by
  have top : h.extractLsb' 13 3 = 0b001#3 := thumbFixed 2 cls 7 3 (by decide) rfl
  obtain x | x | x | x := bitVec2_cases (h.extractLsb' 11 2)
  · exact ⟨.tMovImm _ _, rfl, congrArg Code.thumb (half_eq_regImm8 (extractLsb'_eq_append top x rfl))⟩
  · exact ⟨.tCmpImm _ _, rfl, congrArg Code.thumb (half_eq_regImm8 (extractLsb'_eq_append top x rfl))⟩
  · exact ⟨.tAddImm8 _ _, rfl, congrArg Code.thumb (half_eq_regImm8 (extractLsb'_eq_append top x rfl))⟩
  · exact ⟨.tSubImm8 _ _, rfl, congrArg Code.thumb (half_eq_regImm8 (extractLsb'_eq_append top x rfl))⟩

/-- A 4-bit field by its values. -/
theorem bitVec4_cases : ∀ x : BitVec 4,
    x = 0x0#4 ∨ x = 0x1#4 ∨ x = 0x2#4 ∨ x = 0x3#4 ∨ x = 0x4#4 ∨ x = 0x5#4 ∨ x = 0x6#4 ∨ x = 0x7#4 ∨
    x = 0x8#4 ∨ x = 0x9#4 ∨ x = 0xA#4 ∨ x = 0xB#4 ∨ x = 0xC#4 ∨ x = 0xD#4 ∨ x = 0xE#4 ∨ x = 0xF#4 := by
  decide

theorem thumbEncoded_aluReg (cls : thumbClass (thumbIndex h) = .aluReg) : ThumbEncoded h := by
  have top : h.extractLsb' 10 6 = 0b010000#6 := thumbFixed 3 cls 4 6 (by decide) rfl
  obtain x | x | x | x | x | x | x | x | x | x | x | x | x | x | x | x := bitVec4_cases (h.extractLsb' 6 4)
  · exact ⟨.tAnd _ _, rfl, congrArg Code.thumb (half_eq_alu top x)⟩
  · exact ⟨.tEor _ _, rfl, congrArg Code.thumb (half_eq_alu top x)⟩
  · exact ⟨.tLslReg _ _, rfl, congrArg Code.thumb (half_eq_alu top x)⟩
  · exact ⟨.tLsrReg _ _, rfl, congrArg Code.thumb (half_eq_alu top x)⟩
  · exact ⟨.tAsrReg _ _, rfl, congrArg Code.thumb (half_eq_alu top x)⟩
  · exact ⟨.tAdc _ _, rfl, congrArg Code.thumb (half_eq_alu top x)⟩
  · exact ⟨.tSbc _ _, rfl, congrArg Code.thumb (half_eq_alu top x)⟩
  · exact ⟨.tRorReg _ _, rfl, congrArg Code.thumb (half_eq_alu top x)⟩
  · exact ⟨.tTst _ _, rfl, congrArg Code.thumb (half_eq_alu top x)⟩
  · exact ⟨.tNeg _ _, rfl, congrArg Code.thumb (half_eq_alu top x)⟩
  · exact ⟨.tCmpReg _ _, rfl, congrArg Code.thumb (half_eq_alu top x)⟩
  · exact ⟨.tCmn _ _, rfl, congrArg Code.thumb (half_eq_alu top x)⟩
  · exact ⟨.tOrr _ _, rfl, congrArg Code.thumb (half_eq_alu top x)⟩
  · exact ⟨.tMul _ _, rfl, congrArg Code.thumb (half_eq_alu top x)⟩
  · exact ⟨.tBic _ _, rfl, congrArg Code.thumb (half_eq_alu top x)⟩
  · exact ⟨.tMvn _ _, rfl, congrArg Code.thumb (half_eq_alu top x)⟩

theorem thumbEncoded_highReg (cls : thumbClass (thumbIndex h) = .highReg) : ThumbEncoded h := by
  have top : h.extractLsb' 10 6 = 0b010001#6 := thumbFixed 4 cls 4 6 (by decide) rfl
  obtain x | x | x | x := bitVec2_cases (h.extractLsb' 8 2)
  · exact ⟨.tAddHi _ _, rfl, congrArg Code.thumb (half_eq_high_rd top x rfl)⟩
  · exact ⟨.tCmpHi _ _, rfl, congrArg Code.thumb (half_eq_high_rd top x rfl)⟩
  · exact ⟨.tMovHi _ _, rfl, congrArg Code.thumb (half_eq_high_rd top x rfl)⟩
  · have e := half_eq_high top x
    rw [← ofBool_getLsbD] at e
    exact ⟨.tBx _ _ _, rfl, congrArg Code.thumb e⟩

theorem thumbEncoded_pcLoad (cls : thumbClass (thumbIndex h) = .pcLoad) : ThumbEncoded h :=
  have top : h.extractLsb' 11 5 = 0b01001#5 := thumbFixed 5 cls 5 5 (by decide) rfl
  ⟨.tLdrPc _ _, rfl, congrArg Code.thumb (half_eq_regImm8 top)⟩

theorem thumbEncoded_regOffset (cls : thumbClass (thumbIndex h) = .regOffset) : ThumbEncoded h := by
  have top : h.extractLsb' 12 4 = 0b0101#4 := thumbFixed 6 cls 6 4 (by decide) rfl
  have low : h.extractLsb' 9 1 = 0#1 := thumbFixed 6 cls 3 1 (by decide) rfl
  obtain x | x | x | x := bitVec2_cases (h.extractLsb' 10 2)
  · exact ⟨.tStrReg _ _ _, rfl, congrArg Code.thumb (half_eq_regOffset top (extractLsb'_eq_append x low rfl))⟩
  · exact ⟨.tStrbReg _ _ _, rfl, congrArg Code.thumb (half_eq_regOffset top (extractLsb'_eq_append x low rfl))⟩
  · exact ⟨.tLdrReg _ _ _, rfl, congrArg Code.thumb (half_eq_regOffset top (extractLsb'_eq_append x low rfl))⟩
  · exact ⟨.tLdrbReg _ _ _, rfl, congrArg Code.thumb (half_eq_regOffset top (extractLsb'_eq_append x low rfl))⟩

theorem thumbEncoded_signExt (cls : thumbClass (thumbIndex h) = .signExt) : ThumbEncoded h := by
  have top : h.extractLsb' 12 4 = 0b0101#4 := thumbFixed 7 cls 6 4 (by decide) rfl
  have low : h.extractLsb' 9 1 = 1#1 := thumbFixed 7 cls 3 1 (by decide) rfl
  obtain x | x | x | x := bitVec2_cases (h.extractLsb' 10 2)
  · exact ⟨.tStrhReg _ _ _, rfl, congrArg Code.thumb (half_eq_regOffset top (extractLsb'_eq_append x low rfl))⟩
  · exact ⟨.tLdsbReg _ _ _, rfl, congrArg Code.thumb (half_eq_regOffset top (extractLsb'_eq_append x low rfl))⟩
  · exact ⟨.tLdrhReg _ _ _, rfl, congrArg Code.thumb (half_eq_regOffset top (extractLsb'_eq_append x low rfl))⟩
  · exact ⟨.tLdshReg _ _ _, rfl, congrArg Code.thumb (half_eq_regOffset top (extractLsb'_eq_append x low rfl))⟩

theorem thumbEncoded_immOffset (cls : thumbClass (thumbIndex h) = .immOffset) : ThumbEncoded h := by
  have top : h.extractLsb' 13 3 = 0b011#3 := thumbFixed 8 cls 7 3 (by decide) rfl
  obtain x | x | x | x := bitVec2_cases (h.extractLsb' 11 2)
  · exact ⟨.tStrImm _ _ _, rfl, congrArg Code.thumb (half_eq_imm5 (extractLsb'_eq_append top x rfl))⟩
  · exact ⟨.tLdrImm _ _ _, rfl, congrArg Code.thumb (half_eq_imm5 (extractLsb'_eq_append top x rfl))⟩
  · exact ⟨.tStrbImm _ _ _, rfl, congrArg Code.thumb (half_eq_imm5 (extractLsb'_eq_append top x rfl))⟩
  · exact ⟨.tLdrbImm _ _ _, rfl, congrArg Code.thumb (half_eq_imm5 (extractLsb'_eq_append top x rfl))⟩

theorem thumbEncoded_halfImm (cls : thumbClass (thumbIndex h) = .halfImm) : ThumbEncoded h := by
  have top : h.extractLsb' 12 4 = 0b1000#4 := thumbFixed 9 cls 6 4 (by decide) rfl
  cases b : h.getLsbD 11 <;> have x := extractLsb'_one_of_getLsbD b
  · exact ⟨.tStrhImm _ _ _, rfl, congrArg Code.thumb (half_eq_imm5 (extractLsb'_eq_append top x rfl))⟩
  · exact ⟨.tLdrhImm _ _ _, rfl, congrArg Code.thumb (half_eq_imm5 (extractLsb'_eq_append top x rfl))⟩

theorem thumbEncoded_spRel (cls : thumbClass (thumbIndex h) = .spRel) : ThumbEncoded h := by
  have top : h.extractLsb' 12 4 = 0b1001#4 := thumbFixed 10 cls 6 4 (by decide) rfl
  cases b : h.getLsbD 11 <;> have x := extractLsb'_one_of_getLsbD b
  · exact ⟨.tStrSp _ _, rfl, congrArg Code.thumb (half_eq_regImm8 (extractLsb'_eq_append top x rfl))⟩
  · exact ⟨.tLdrSp _ _, rfl, congrArg Code.thumb (half_eq_regImm8 (extractLsb'_eq_append top x rfl))⟩

theorem thumbEncoded_loadAddr (cls : thumbClass (thumbIndex h) = .loadAddr) : ThumbEncoded h := by
  have top : h.extractLsb' 12 4 = 0b1010#4 := thumbFixed 11 cls 6 4 (by decide) rfl
  cases b : h.getLsbD 11 <;> have x := extractLsb'_one_of_getLsbD b
  · exact ⟨.tAddPc _ _, rfl, congrArg Code.thumb (half_eq_regImm8 (extractLsb'_eq_append top x rfl))⟩
  · exact ⟨.tAddSp _ _, rfl, congrArg Code.thumb (half_eq_regImm8 (extractLsb'_eq_append top x rfl))⟩

theorem thumbEncoded_spAdd (cls : thumbClass (thumbIndex h) = .spAdd) : ThumbEncoded h :=
  have top : h.extractLsb' 8 8 = 0b10110000#8 := thumbFixed 12 cls 2 8 (by decide) rfl
  ⟨.tAdjSp _ _, rfl, congrArg Code.thumb (half_eq_adjSp top)⟩

theorem thumbEncoded_pushPop (cls : thumbClass (thumbIndex h) = .pushPop) : ThumbEncoded h := by
  have top : h.extractLsb' 12 4 = 0b1011#4 := thumbFixed 13 cls 6 4 (by decide) rfl
  have low : h.extractLsb' 9 2 = 0b10#2 := thumbFixed 13 cls 3 2 (by decide) rfl
  cases b : h.getLsbD 11 <;> have x := extractLsb'_eq_append top (extractLsb'_one_of_getLsbD b) rfl
  · exact ⟨.tPush _ _, rfl, congrArg Code.thumb (half_eq_pushPop (extractLsb'_eq_append x low rfl))⟩
  · exact ⟨.tPop _ _, rfl, congrArg Code.thumb (half_eq_pushPop (extractLsb'_eq_append x low rfl))⟩

theorem thumbEncoded_multiple (cls : thumbClass (thumbIndex h) = .multiple) : ThumbEncoded h := by
  have top : h.extractLsb' 12 4 = 0b1100#4 := thumbFixed 14 cls 6 4 (by decide) rfl
  cases b : h.getLsbD 11 <;> have x := extractLsb'_one_of_getLsbD b
  · exact ⟨.tStmia _ _, rfl, congrArg Code.thumb (half_eq_regImm8 (extractLsb'_eq_append top x rfl))⟩
  · exact ⟨.tLdmia _ _, rfl, congrArg Code.thumb (half_eq_regImm8 (extractLsb'_eq_append top x rfl))⟩

theorem thumbEncoded_undefined1 (cls : thumbClass (thumbIndex h) = .undefined1) : ThumbEncoded h :=
  have top : h.extractLsb' 8 8 = 0b11011110#8 := thumbFixed 15 cls 2 8 (by decide) rfl
  ⟨.tUndefined1 _, rfl, congrArg Code.thumb (half_eq_imm8 top)⟩

theorem thumbEncoded_swi (cls : thumbClass (thumbIndex h) = .swi) : ThumbEncoded h :=
  have top : h.extractLsb' 8 8 = 0b11011111#8 := thumbFixed 16 cls 2 8 (by decide) rfl
  ⟨.tSwi _, rfl, congrArg Code.thumb (half_eq_imm8 top)⟩

theorem thumbEncoded_condBranch (cls : thumbClass (thumbIndex h) = .condBranch) : ThumbEncoded h := by
  have top : h.extractLsb' 12 4 = 0b1101#4 := thumbFixed 17 cls 6 4 (by decide) rfl
  have e := half_eq_nibble top rfl
  rw [← Cond.bits_ofBits (h.extractLsb' 8 4)] at e
  rw [thumbIndex_eq_append4, top] at cls
  exact ⟨.tBCond _ _, cond_of_thumbClass_condBranch _ _ cls, congrArg Code.thumb e⟩

theorem thumbEncoded_branch (cls : thumbClass (thumbIndex h) = .branch) : ThumbEncoded h :=
  have top : h.extractLsb' 11 5 = 0b11100#5 := thumbFixed 18 cls 5 5 (by decide) rfl
  ⟨.tB _, rfl, congrArg Code.thumb (half_eq_imm11 top)⟩

theorem thumbEncoded_undefined2 (cls : thumbClass (thumbIndex h) = .undefined2) : ThumbEncoded h :=
  have top : h.extractLsb' 11 5 = 0b11101#5 := thumbFixed 19 cls 5 5 (by decide) rfl
  ⟨.tUndefined2 _, rfl, congrArg Code.thumb (half_eq_imm11 top)⟩

theorem thumbEncoded_longBranch (cls : thumbClass (thumbIndex h) = .longBranch) : ThumbEncoded h := by
  have top : h.extractLsb' 12 4 = 0b1111#4 := thumbFixed 20 cls 6 4 (by decide) rfl
  cases b : h.getLsbD 11 <;> have x := extractLsb'_one_of_getLsbD b
  · exact ⟨.tBlFirst _, rfl, congrArg Code.thumb (half_eq_imm11 (extractLsb'_eq_append top x rfl))⟩
  · exact ⟨.tBlSecond _, rfl, congrArg Code.thumb (half_eq_imm11 (extractLsb'_eq_append top x rfl))⟩

theorem thumbEncoded_unknown (cls : thumbClass (thumbIndex h) = .unknown) : ThumbEncoded h := by
  have top := top_of_thumbClass_unknown cls
  rw [thumbIndex_eq_append4, top] at cls
  exact ⟨.tUnknown _ _, isUnknownThumb_of_thumbClass _ _ cls, congrArg Code.thumb (half_eq_nibble top rfl)⟩

theorem thumbEncoded (h : Half) : ThumbEncoded h := by
  cases cls : thumbClass (thumbIndex h) with
  | addSub => exact thumbEncoded_addSub cls
  | moveShifted => exact thumbEncoded_moveShifted cls
  | aluImm => exact thumbEncoded_aluImm cls
  | aluReg => exact thumbEncoded_aluReg cls
  | highReg => exact thumbEncoded_highReg cls
  | pcLoad => exact thumbEncoded_pcLoad cls
  | regOffset => exact thumbEncoded_regOffset cls
  | signExt => exact thumbEncoded_signExt cls
  | immOffset => exact thumbEncoded_immOffset cls
  | halfImm => exact thumbEncoded_halfImm cls
  | spRel => exact thumbEncoded_spRel cls
  | loadAddr => exact thumbEncoded_loadAddr cls
  | spAdd => exact thumbEncoded_spAdd cls
  | pushPop => exact thumbEncoded_pushPop cls
  | multiple => exact thumbEncoded_multiple cls
  | undefined1 => exact thumbEncoded_undefined1 cls
  | swi => exact thumbEncoded_swi cls
  | condBranch => exact thumbEncoded_condBranch cls
  | branch => exact thumbEncoded_branch cls
  | undefined2 => exact thumbEncoded_undefined2 cls
  | longBranch => exact thumbEncoded_longBranch cls
  | unknown => exact thumbEncoded_unknown cls

/-- Settles O3: the halfword is some well-formed instruction's, and decoding gives that instruction back. -/
theorem encodeDecodeThumb : Obligations.EncodeDecodeThumb := by
  intro h
  obtain ⟨i, wf, e⟩ := thumbEncoded h
  rw [decodeThumb_encode wf e]
  exact ⟨wf, e⟩

end Sys2Proof
end

section
/-! PROOFS. The cycle (40_cycle_pipeline_conditions.md R150, R155, R161): an instruction whose condition fails, the
instruction a step runs, and when a step signals a breakpoint. -/

namespace Sys2Proof.Machine

/-! ### The condition of an ARM instruction -/

/-- Every ARM instruction tests its condition before anything else (R150). -/
theorem exec_of_conditionOf {i : Instr} {c : Cond} (h : conditionOf i = some c) :
    ∃ body : State → State, ∀ s, exec i s = .next (s.conditional c body) := by
  cases i <;> cases h <;> exact ⟨_, fun _ => rfl⟩

/-- Settles O11: the condition comes first, and failing it leaves the fetch alone. -/
theorem skippedInstruction : Obligations.SkippedInstruction := by
  intro i c s hc fails
  obtain ⟨body, hexec⟩ := exec_of_conditionOf hc
  have fetched : exec i s = .next s.fetchOpcode := by rw [hexec, State.conditional_fail fails]
  exact Completes.of fetched ⟨advances_fetchOpcode s, rfl, rfl, rfl, sameSpecial_fetchOpcode s, rfl⟩

/-! ### The instruction a step runs -/

/-- With no interrupt to take, a step runs p3 and ends (R150). -/
theorem step_of_runsInstruction {s : State} (h : s.RunsInstruction) : step s = finishStep s.beginStep.runCurrent := by
  obtain ⟨running, noFiq, noIrq⟩ := h
  have fiq : (s.pendingFiq && !Psr.f s.cpsr) = false := by rcases noFiq with e | e <;> simp [e]
  have irq : (s.pendingIrq && !Psr.i s.cpsr) = false := by rcases noIrq with e | e <;> simp [e]
  simp [step, cycle, running, fiq, irq]

/-- The word of an instruction in p3 decodes to it, in the state that the word's width calls for (R40, R101). -/
theorem State.runCurrent_of_encode {s : State} {i : Instr} (wf : i.wellFormed = true)
    (e : encode i = if Psr.t s.cpsr then .thumb (s.p3.extractLsb' 0 16) else .arm s.p3) : s.runCurrent = exec i s := by
  have decoded : s.decodeCurrent = .ok i := by
    unfold State.decodeCurrent
    split_ifs at e ⊢
    · exact congrArg Except.ok (decodeThumb_encode wf e)
    · exact decodeArm_encode wf e
  simp only [State.runCurrent, decoded]

/-- Settles O6: no interrupt is taken, and decoding p3 gives the instruction back. -/
theorem stepRunsDecoded : Obligations.StepRunsDecoded := by
  intro s i runs wf e
  obtain ⟨t, ht⟩ := exec_next i s.beginStep
  refine ⟨t, ht, ?_⟩
  rw [step_of_runsInstruction runs, State.runCurrent_of_encode (s := s.beginStep) wf e, ht, finishStep]

/-! ### The breakpoint signal -/

namespace State

/-- No breakpoint has been signalled (R155). -/
def Silent (s : State) : Prop := PortEvent.breakpoint ∉ s.port

namespace Silent

variable {s t : State}

theorem of_port (h : s.Silent) (port : t.port = s.port) : t.Silent := by rwa [Silent, port]

theorem emit (h : s.Silent) {e : PortEvent} (he : e ≠ .breakpoint) : (s.emit e).Silent := by
  simpa [Silent] using ⟨h, he.symm⟩

theorem fetchOpcode (h : s.Silent) : s.fetchOpcode.Silent := (h.emit (by simp)).of_port rfl

theorem flushPipeline (h : s.Silent) : s.flushPipeline.Silent := ((h.emit (by simp)).emit (by simp)).of_port rfl

theorem jump (h : s.Silent) (x : Word) : (s.jump x).Silent := flushPipeline (h.of_port rfl)

theorem leaveMode (h : s.Silent) (left : s.leaveMode = some t) : t.Silent := by
  obtain ⟨-, -, e⟩ | ⟨-, e⟩ := s.leaveMode_cases <;> rw [e] at left <;> cases left
  exact h

theorem writeCpsr (h : s.Silent) {mask : BitVec 4} {v : Word} (written : s.writeCpsr (msrMask mask) v = some t) :
    t.Silent := by
  obtain ⟨p, rfl, -⟩ := writeCpsr_cases written
  exact h

theorem writeCurrentSpsr (h : s.Silent) (mask : BitVec 4) (v : Word) : (s.writeCurrentSpsr (msrMask mask) v).Silent := by
  obtain ⟨e, -⟩ | ⟨_, -, e⟩ := s.writeCurrentSpsr_eq mask v <;> rw [e]
  · exact h
  · exact h.of_port (by simp)

theorem takeException (h : s.Silent) (x : Exception) (link : Word) : (s.takeException x link).Silent := by
  refine jump (h.of_port ?_) x.vector
  simp

/-- None of the operations an instruction is written over signals a breakpoint. -/
theorem evolves {w : Bool} (he : Evolves w s t) (h : s.Silent) : t.Silent := by
  induction he with
  | refl => exact h
  | emit _ _ he ih => exact ih.emit he
  | fetchOpcode _ ih => exact ih.fetchOpcode
  | flushPipeline _ ih => exact ih.flushPipeline
  | writeReg _ _ _ ih | writeUserReg _ _ _ ih => exact ih.of_port (by simp)
  | setFlags _ _ ih | setT _ _ ih | setR15 _ _ ih | setFetchType _ _ ih => exact ih.of_port rfl
  | dataWrite _ _ _ _ _ _ ih => exact (ih.emit (by simp)).of_port rfl
  | leaveMode _ left ih => exact ih.leaveMode left
  | writeCpsr _ _ _ written ih => exact ih.writeCpsr written
  | writeCurrentSpsr _ mask v ih => exact ih.writeCurrentSpsr mask v

theorem ends {w : Bool} (he : Ends w s t) (h : s.Silent) : t.Silent := by
  obtain ⟨u, hu, rfl | rfl⟩ | ⟨x, link, -, rfl⟩ := he
  · exact evolves hu h
  · exact ((evolves hu h).emit (by simp)).of_port rfl
  · exact h.fetchOpcode.takeException x link

end Silent

@[simp] theorem beginStep_silent (s : State) : s.beginStep.Silent := by simp [Silent]

/-- The signal is there exactly when the state after the check has its next instruction marked, which stands two widths
behind R15 (R155). -/
theorem breakpoint_mem_breakpointCheck {s t : State} (h : s.Silent) (checked : t = s.breakpointCheck) :
    PortEvent.breakpoint ∈ t.port ↔
      t.toggles.debugBreakpoints = true ∧ t.r15 - t.widthBytes - t.widthBytes ∈ t.breakpoints := by
  unfold breakpointCheck at checked
  split_ifs at checked with marked <;> subst checked
  · simpa using marked
  · exact iff_of_false h (by simpa using marked)

end State

/-- A step that leaves the core running ends with the breakpoint check, and nothing before it signals (R150, D13). -/
theorem step_ends_with_breakpointCheck {s t : State} (h : step s = .next t) (running : t.halted = false) :
    ∃ u : State, u.Silent ∧ t = u.breakpointCheck := by
  obtain ⟨halted, rfl⟩ | ⟨-, u, hu, ht, finish⟩ := step_cases h
  · simp [halted] at running
  · refine ⟨u, ?_, ?_⟩
    · obtain ⟨-, -, rfl⟩ | ⟨-, -, -, rfl⟩ | ⟨-, w, hw⟩ := hu
      · exact State.Silent.takeException (by simp [State.Silent]) _ _
      · exact State.Silent.takeException (by simp [State.Silent]) _ _
      · exact s.beginStep_silent.ends hw
    · have uRunning : u.halted = false := by obtain rfl | rfl := ht <;> exact running
      simpa [finishStep, uRunning] using finish.symm

/-- Settles O10: the check is the only source of the signal, and it decides by the fields that it leaves as they are. -/
theorem breakpointReported : Obligations.BreakpointReported := by
  intro s t h running
  obtain ⟨u, silent, checked⟩ := step_ends_with_breakpointCheck h running
  exact State.breakpoint_mem_breakpointCheck silent checked

end Sys2Proof.Machine
end

section
/-! PROOFS. The barrel shifter (41_shifter.md R180 to R188): one equation per row of the two tables. The register amounts
that the immediate table covers too are reduced to it, so that each row is proved once. -/

namespace Sys2Proof.Machine

/-! ### The immediate table -/

section ShiftImm

variable (v : Word) (c : Bool) {amt : BitVec 5}

@[simp] theorem shiftImm_lsl_zero : shiftImm .lsl v 0#5 c = ⟨v, c⟩ := rfl

@[simp] theorem shiftImm_lsr_zero : shiftImm .lsr v 0#5 c = ⟨0#32, v.getLsbD 31⟩ :=
  congrArg (Shifted.mk 0#32) v.msb_eq_getLsbD_last

@[simp] theorem shiftImm_asr_zero :
    shiftImm .asr v 0#5 c = ⟨if v.getLsbD 31 then 0xFFFFFFFF#32 else 0#32, v.getLsbD 31⟩ :=
  congrArg₂ Shifted.mk (sar_32 v) v.msb_eq_getLsbD_last

@[simp] theorem shiftImm_ror_zero : shiftImm .ror v 0#5 c = ⟨BitVec.ofBool c ++ v.extractLsb' 1 31, v.getLsbD 0⟩ := rfl

variable (nonzero : amt.toNat ≠ 0)
include nonzero

theorem shiftImm_lsl : shiftImm .lsl v amt c = ⟨v <<< amt.toNat, v.getLsbD (32 - amt.toNat)⟩ := if_neg nonzero

theorem shiftImm_lsr : shiftImm .lsr v amt c = ⟨v >>> amt.toNat, v.getLsbD (amt.toNat - 1)⟩ := if_neg nonzero

theorem shiftImm_asr : shiftImm .asr v amt c = ⟨v.sshiftRight amt.toNat, v.getLsbD (amt.toNat - 1)⟩ := if_neg nonzero

theorem shiftImm_ror : shiftImm .ror v amt c = ⟨v.rotateRight amt.toNat, v.getLsbD (amt.toNat - 1)⟩ := if_neg nonzero

end ShiftImm

/-- Settles O23: the three rows of the immediate table with amount field 0 (R188). -/
theorem shifterCarries : Obligations.ShifterCarries := by
  intro v c
  rw [shiftImm_lsl_zero, shiftImm_lsr_zero, shiftImm_ror_zero]
  exact ⟨rfl, rfl, rfl⟩

/-- RRX as arithmetic: the value halved, C as the new bit 31 (R186). -/
theorem toNat_rrx (v : Word) (c : Bool) :
    (BitVec.ofBool c ++ v.extractLsb' 1 31).toNat = v.toNat / 2 + c.toNat * 2 ^ 31 := by
  have below : v.toNat / 2 < 2 ^ 31 := by omega
  have low : (v.extractLsb' 1 31).toNat = v.toNat / 2 := by
    rw [BitVec.extractLsb'_toNat, Nat.shiftRight_eq_div_pow, Nat.pow_one, Nat.mod_eq_of_lt below]
  rw [BitVec.toNat_append, low, BitVec.toNat_ofBool, ← Nat.shiftLeft_add_eq_or_of_lt below, Nat.shiftLeft_eq, Nat.add_comm]

/-- The immediate table for the amounts 1 to 31, over numbers and bits; the carry is the last bit shifted out (R186). -/
theorem shiftImm_rows (v : Word) {amt : BitVec 5} (c : Bool) {n : Nat} (amount : amt.toNat = n) (nonzero : n ≠ 0) :
    (shiftImm .lsl v amt c).value.toNat = v.toNat * 2 ^ n % 2 ^ 32 ∧
      (shiftImm .lsl v amt c).carry = v.getLsbD (32 - n) ∧
      (shiftImm .lsr v amt c).value.toNat = v.toNat / 2 ^ n ∧ (shiftImm .lsr v amt c).carry = v.getLsbD (n - 1) ∧
      (shiftImm .asr v amt c).value.toInt = v.toInt / 2 ^ n ∧ (shiftImm .asr v amt c).carry = v.getLsbD (n - 1) ∧
      (∀ k < 32, (shiftImm .ror v amt c).value.getLsbD k = v.getLsbD ((k + n) % 32)) ∧
      (shiftImm .ror v amt c).carry = v.getLsbD (n - 1) := by
  subst amount
  rw [shiftImm_lsl v c nonzero, shiftImm_lsr v c nonzero, shiftImm_asr v c nonzero, shiftImm_ror v c nonzero]
  exact ⟨toNat_shl .., rfl, toNat_shr .., rfl, toInt_sar .., rfl, getLsbD_ror v _ amt.isLt, rfl⟩

/-! ### The register table -/

section ShiftReg

variable (v : Word) (c : Bool) {amt : BitVec 8}

/-- A register amount of 0 shifts nothing, whatever the type (R182). -/
theorem shiftReg_zero (type : ShiftType) (zero : amt.toNat = 0) : shiftReg type v amt c = ⟨v, c⟩ := if_pos zero

/-- For the amounts 1 to 31 the two tables agree. -/
theorem shiftReg_eq_shiftImm (type : ShiftType) (nonzero : amt.toNat ≠ 0) (small : amt.toNat < 32) :
    shiftReg type v amt c = shiftImm type v (amt.setWidth 5) c := by
  have same : (amt.setWidth 5).toNat = amt.toNat := (BitVec.toNat_setWidth ..).trans (Nat.mod_eq_of_lt small)
  cases type <;> simp [shiftReg, shiftImm, same, nonzero, small, Nat.mod_eq_of_lt small]

/-- LSL by 32 pushes bit 0 out last. -/
theorem shiftReg_lsl_32 (n32 : amt.toNat = 32) : shiftReg .lsl v amt c = ⟨0#32, v.getLsbD 0⟩ := by
  simp [shiftReg, n32]

/-- LSR by 32 is the immediate table's LSR with field 0. -/
theorem shiftReg_lsr_32 (n32 : amt.toNat = 32) : shiftReg .lsr v amt c = shiftImm .lsr v 0#5 c := by
  simp [shiftReg, shiftImm, n32]

/-- LSL and LSR by more than 32 leave nothing of the value, in the carry either. -/
theorem shiftReg_of_gt (large : 32 < amt.toNat) :
    shiftReg .lsl v amt c = ⟨0#32, false⟩ ∧ shiftReg .lsr v amt c = ⟨0#32, false⟩ := by
  simp [shiftReg, show ¬ amt.toNat = 0 by omega, show ¬ amt.toNat < 32 by omega, show ¬ amt.toNat = 32 by omega]

/-- ASR by 32 and more is the immediate table's ASR with field 0. -/
theorem shiftReg_asr_of_ge (large : 32 ≤ amt.toNat) : shiftReg .asr v amt c = shiftImm .asr v 0#5 c := by
  simp [shiftReg, shiftImm, show ¬ amt.toNat = 0 by omega, show ¬ amt.toNat < 32 by omega]

/-- A rotation by a multiple of 32 keeps the value. -/
theorem shiftReg_ror_of_dvd (nonzero : amt.toNat ≠ 0) (whole : amt.toNat % 32 = 0) :
    shiftReg .ror v amt c = ⟨v, v.getLsbD 31⟩ := by
  simp [shiftReg, nonzero, whole, BitVec.msb_eq_getLsbD_last]

/-- Any other rotation is the immediate table's, by the amount mod 32. -/
theorem shiftReg_ror (part : amt.toNat % 32 ≠ 0) : shiftReg .ror v amt c = shiftImm .ror v (amt.setWidth 5) c := by
  have nonzero : amt.toNat ≠ 0 := by omega
  simp [shiftReg, shiftImm, nonzero, part]

end ShiftReg

/-- Settles O24: row by row (R187), the amounts 1 to 31 and the rotations by the immediate table. -/
theorem shiftByRegister : Obligations.ShiftByRegister := by
  intro v amt c n
  have low : (amt.setWidth 5).toNat = n % 32 := BitVec.toNat_setWidth ..
  refine ⟨fun zero type => shiftReg_zero v c type zero, fun pos small => ?_, fun n32 => ?_, shiftReg_of_gt v c,
    fun large => ?_, shiftReg_ror_of_dvd v c, fun part => ?_⟩
  · have nonzero : n ≠ 0 := by omega
    obtain ⟨lsl, lslCarry, lsr, lsrCarry, asr, asrCarry, -⟩ :=
      shiftImm_rows v c (low.trans (Nat.mod_eq_of_lt small)) nonzero
    simp only [shiftReg_eq_shiftImm v c _ nonzero small]
    exact ⟨lsl, lslCarry, lsr, lsrCarry, asr, asrCarry⟩
  · exact ⟨shiftReg_lsl_32 v c n32, (shiftReg_lsr_32 v c n32).trans (shiftImm_lsr_zero v c)⟩
  · rw [shiftReg_asr_of_ge v c large, shiftImm_asr_zero]
    exact ⟨rfl, rfl⟩
  · obtain ⟨-, -, -, -, -, -, ror, rorCarry⟩ := shiftImm_rows v c low part
    rw [shiftReg_ror v c part]
    exact ⟨fun k hk => by rw [ror k hk, Nat.add_mod_mod], rorCarry⟩

/-! ### Operand 2 -/

/-- The rotated immediate, bit by bit (R181). -/
theorem getLsbD_rotatedImm (rot : BitVec 4) (imm8 : BitVec 8) (c : Bool) {k : Nat} (hk : k < 32) :
    (rotatedImm rot imm8 c).value.getLsbD k = (imm8.setWidth 32).getLsbD ((k + 2 * rot.toNat) % 32) :=
  getLsbD_ror _ _ (by omega) k hk

theorem rotatedImm_carry_zero (imm8 : BitVec 8) (c : Bool) : (rotatedImm 0#4 imm8 c).carry = c := rfl

theorem rotatedImm_carry {rot : BitVec 4} (imm8 : BitVec 8) (c : Bool) (rotates : rot ≠ 0#4) :
    (rotatedImm rot imm8 c).carry = (rotatedImm rot imm8 c).value.getLsbD 31 :=
  (if_neg rotates).trans (BitVec.msb_eq_getLsbD_last _)

/-- The register form shifts by the low byte of Rs (R184). -/
theorem State.shifter_regShift (s : State) (type : ShiftType) (rs rm : Reg) :
    s.shifter (.regShift type rs rm) =
      shiftReg type (s.readReg rm) (BitVec.ofNat 8 (s.readReg rs).toNat) s.flags.c := by
  have lowByte : (s.readReg rs).extractLsb' 0 8 = BitVec.ofNat 8 (s.readReg rs).toNat := by
    rw [BitVec.extractLsb', Nat.shiftRight_zero]
  exact congrArg (shiftReg type (s.readReg rm) · s.flags.c) lowByte

/-- Settles O25: the three forms of operand 2, then the immediate table with field 0 and with the amounts 1 to 31. -/
theorem shiftByImmediate : Obligations.ShiftByImmediate := by
  refine ⟨fun s rot imm8 type amt rs rm => ⟨fun _ => getLsbD_rotatedImm rot imm8 _, fun unrotated => ?_,
    rotatedImm_carry imm8 s.flags.c, rfl, s.shifter_regShift type rs rm⟩,
    fun v amt c => ⟨fun zero => ?_, shiftImm_rows v c rfl⟩⟩
  · subst unrotated
    exact rotatedImm_carry_zero imm8 s.flags.c
  · obtain rfl : amt = 0#5 := BitVec.eq_of_toNat_eq zero
    rw [shiftImm_ror_zero]
    exact ⟨shiftImm_lsl_zero v c, shiftImm_lsr_zero v c, shiftImm_asr_zero v c, toNat_rrx v c, rfl⟩

end Sys2Proof.Machine
end

section
/-! PROOFS. Data processing (42_arm_data_processing.md): the arithmetic of R204, the operands of R202, then what each
instruction leaves, by the sequence all of them share (R201) and the operation that is its own. -/

namespace Sys2Proof.Machine

/-! ### Sum and difference -/

@[ext] theorem AluResult.ext {r d : AluResult} (value : r.value = d.value) (c : r.c = d.c) (v : r.v = d.v) : r = d := by
  cases r; cases d; congr

section Arithmetic

variable (a b : Word) (c : Bool)

theorem toNat_addWithCarry : (addWithCarry a b c).value.toNat = (a.toNat + b.toNat + c.toNat) % 2 ^ 32 :=
  BitVec.toNat_ofNat ..

theorem addWithCarry_c_iff : (addWithCarry a b c).c = true ↔ 2 ^ 32 ≤ a.toNat + b.toNat + c.toNat := decide_eq_true_iff

/-- Overflow by bit 31: the operands agree in it and the result differs. -/
theorem addWithCarry_v :
    (addWithCarry a b c).v = ((~~~(a ^^^ b)) &&& (a ^^^ (addWithCarry a b c).value)).getLsbD 31 := by
  rw [← BitVec.msb_eq_getLsbD_last, BitVec.msb_and, BitVec.msb_not, BitVec.msb_xor, BitVec.msb_xor]
  change (a.msb == b.msb && (addWithCarry a b c).value.msb != a.msb) = _
  cases a.msb <;> cases b.msb <;> cases (addWithCarry a b c).value.msb <;> rfl

/-- Overflow by the numbers: the signed sum does not fit 32 bits. -/
theorem addWithCarry_v_iff :
    (addWithCarry a b c).v = true ↔ (addWithCarry a b c).value.toInt ≠ a.toInt + b.toInt + c.toNat := by
  have carry : c.toNat ≤ 1 := c.toNat_le
  have sum := toNat_addWithCarry a b c
  change (a.msb == b.msb && (addWithCarry a b c).value.msb != a.msb) = true ↔ _
  simp only [BitVec.msb_eq_decide, BitVec.toInt_eq_toNat_cond, Bool.and_eq_true, beq_iff_eq, bne_iff_ne, ne_eq,
    decide_eq_decide]
  omega

theorem toInt_complement : (~~~b).toInt = -b.toInt - 1 := by
  simp only [BitVec.toInt_eq_toNat_cond, BitVec.toNat_not]
  omega

/-- The difference is the sum with the complement, flags included: everything said of sums carries over. -/
theorem subWithCarry_eq_addWithCarry_not : subWithCarry a b c = addWithCarry a (~~~b) c := by
  have borrow : ((!c).toNat : Int) = 1 - c.toNat := by cases c <;> rfl
  have complement : ((~~~b).toNat : Int) = 2 ^ 32 - 1 - b.toNat := by rw [BitVec.toNat_not]; omega
  have value : (subWithCarry a b c).value = (addWithCarry a (~~~b) c).value := by
    apply BitVec.eq_of_toNat_eq
    rw [toNat_addWithCarry, subWithCarry, BitVec.toNat_ofInt]
    omega
  have carry : (subWithCarry a b c).c = (addWithCarry a (~~~b) c).c := decide_eq_decide.2 (by omega)
  have overflow : (subWithCarry a b c).v = (addWithCarry a (~~~b) c).v := by
    change (a.msb != b.msb && (subWithCarry a b c).value.msb != a.msb) =
      (a.msb == (~~~b).msb && (addWithCarry a (~~~b) c).value.msb != a.msb)
    rw [value, BitVec.msb_not]
    cases a.msb <;> cases b.msb <;> rfl
  exact AluResult.ext value carry overflow

end Arithmetic

/-- Settles O26: the four facts about a sum, and the same four about the difference as a sum with the complement. -/
theorem addSubtractFlags : Obligations.AddSubtractFlags := by
  intro a b c r d
  have difference : d = addWithCarry a (~~~b) c := subWithCarry_eq_addWithCarry_not a b c
  have complement : (~~~b).toNat = 2 ^ 32 - 1 - b.toNat := BitVec.toNat_not
  have carry : c.toNat ≤ 1 := c.toNat_le
  refine ⟨toNat_addWithCarry a b c, addWithCarry_c_iff a b c, addWithCarry_v a b c, addWithCarry_v_iff a b c, ?_⟩
  rw [difference]
  refine ⟨?_, ?_, ?_, ?_⟩
  · rw [toNat_addWithCarry]; omega
  · rw [addWithCarry_c_iff]; omega
  · rw [addWithCarry_v, BitVec.not_xor_right, BitVec.not_not]
  · rw [addWithCarry_v_iff, toInt_complement]; omega

/-! ### The operands -/

theorem State.readReg_operandFetch {s : State} {n : Reg} (hn : n ≠ 15#4) (op2 : Operand2) :
    (s.operandFetch op2).readReg n = s.readReg n := by
  rw [State.readReg, State.operandFetch_bank]
  exact State.readRegOf_of_ne hn (State.operandFetch_regs s op2)

/-- Settles O30: the early fetch moves R15 on by one width and nothing else that an operand reads (R202, R230). -/
theorem pcOperand : Obligations.PcOperand := by
  intro s op2
  refine ⟨?_, fun n hn => State.readReg_operandFetch hn op2, State.operandFetch_flags s op2⟩
  rw [State.readReg_r15, State.operandFetch_r15]

/-! ### A destination other than R15 -/

/-- The result of an operation on the operands after the early fetch, with the flags before the instruction (R201). -/
def operationResult (s : State) (op : AluOp) (rn : Reg) (op2 : Operand2) : AluResult :=
  op ((s.operandFetch op2).readReg rn) ((s.operandFetch op2).shifter op2).value
    ((s.operandFetch op2).shifter op2).carry s.flags

theorem dpResult_eq_operationResult (s : State) (op : AluOp) (rn : Reg) (op2 : Operand2) :
    (s.operandFetch op2).dpResult op rn op2 = operationResult s op rn op2 := s.dpResult_operandFetch op rn op2

section Register

variable {i : Instr} {c : Cond} {setFlags : Bool} {rn rd : Reg} {op2 : Operand2} {s : State}
variable (op : AluOp)

theorem completes_dataProcessing (meaning : exec i s = .next (s.conditional c (·.dataProcessing op setFlags rn rd op2)))
    (passed : conditionPassed c s.flags = true) (hrd : rd ≠ 15#4) :
    let r := operationResult s op rn op2
    Completes i s (RegisterResult s · rd r.value (if setFlags then r.flags else s.flags)) := by
  have result := dataProcessing_result s op setFlags rn op2 hrd
  rw [dpResult_eq_operationResult] at result
  exact Completes.pass meaning passed result

theorem completes_testProcessing (meaning : exec i s = .next (s.conditional c (·.testProcessing op true rn rd op2)))
    (passed : conditionPassed c s.flags = true) (hrd : rd ≠ 15#4) :
    Completes i s (FlagResult s · (operationResult s op rn op2).flags) := by
  have result := testProcessing_result s op rn op2 hrd
  rw [dpResult_eq_operationResult] at result
  exact Completes.pass meaning passed result

end Register

/-- Settles O28: the shared sequence with each logical operation. -/
theorem logicalInstructions : Obligations.LogicalInstructions := by
  intro c setFlags rn rd op2 s passed hrd
  exact ⟨completes_dataProcessing opAnd rfl passed hrd, completes_dataProcessing opEor rfl passed hrd,
    completes_dataProcessing opOrr rfl passed hrd, completes_dataProcessing opMov rfl passed hrd,
    completes_dataProcessing opBic rfl passed hrd, completes_dataProcessing opMvn rfl passed hrd,
    completes_testProcessing opTst rfl passed hrd, completes_testProcessing opTeq rfl passed hrd⟩

/-- Settles O29: the shared sequence with each arithmetic operation. -/
theorem arithmeticInstructions : Obligations.ArithmeticInstructions := by
  intro c setFlags rn rd op2 s passed hrd
  exact ⟨completes_dataProcessing opSub rfl passed hrd, completes_dataProcessing opRsb rfl passed hrd,
    completes_dataProcessing opAdd rfl passed hrd, completes_dataProcessing opAdc rfl passed hrd,
    completes_dataProcessing opSbc rfl passed hrd, completes_dataProcessing opRsc rfl passed hrd,
    completes_testProcessing opCmp rfl passed hrd, completes_testProcessing opCmn rfl passed hrd⟩

/-! ### The destination R15 -/

theorem halts_hacf (s : State) : Halts s s.hacf := rfl

section Halt

variable {s : State} {op2 : Operand2} (op : AluOp) (rn : Reg)
variable (invalid : Mode.ofBits (Psr.modeBits s.currentSpsr) = none)
include invalid

/-- An SPSR with an invalid mode halts the core after the early fetch, before anything is written (R205, R33; D26). -/
theorem dataProcessing_halts : Halts (s.operandFetch op2) (s.dataProcessing op true rn 15#4 op2) := by
  simp only [State.dataProcessing, dpStatus_invalid _ invalid]
  exact halts_hacf _

theorem testProcessing_halts : Halts (s.operandFetch op2) (s.testProcessing op true rn 15#4 op2) := by
  simp only [State.testProcessing, dpStatus_invalid _ invalid]
  exact halts_hacf _

end Halt

/-- The twelve instructions with a destination register, each with its operation (R210 to R217, R222 to R225). -/
def registerInstructions : List ((Cond → Bool → Reg → Reg → Operand2 → Instr) × AluOp) :=
  [(.and, opAnd), (.eor, opEor), (.sub, opSub), (.rsb, opRsb), (.add, opAdd), (.adc, opAdc), (.sbc, opSbc), (.rsc, opRsc),
    (.orr, opOrr), (.mov, opMov), (.bic, opBic), (.mvn, opMvn)]

theorem exec_of_mem_registerInstructions {row : (Cond → Bool → Reg → Reg → Operand2 → Instr) × AluOp}
    (h : row ∈ registerInstructions) (c : Cond) (setFlags : Bool) (rn rd : Reg) (op2 : Operand2) (s : State) :
    exec (row.1 c setFlags rn rd op2) s = .next (s.conditional c (·.dataProcessing row.2 setFlags rn rd op2)) := by
  simp only [registerInstructions, List.mem_cons, List.not_mem_nil, or_false] at h
  obtain rfl | rfl | rfl | rfl | rfl | rfl | rfl | rfl | rfl | rfl | rfl | rfl := h <;> rfl

/-- Settles O31: the three ends of the sequence with Rd = R15, for whichever of the twelve operations. -/
theorem dataProcessingWritesPc : Obligations.DataProcessingWritesPc := by
  intro c rn op2 s passed row hrow s1 r
  have meaning (setFlags : Bool) := exec_of_mem_registerInstructions hrow c setFlags rn 15#4 op2 s
  have result : ((s.operandFetch op2).dpResult row.2 rn op2).value = r :=
    congrArg AluResult.value (dpResult_eq_operationResult s row.2 rn op2)
  refine ⟨Completes.pass (meaning false) passed ?_, fun valid => Completes.pass (meaning true) passed ?_,
    fun invalid => Completes.pass (meaning true) passed (dataProcessing_halts row.2 rn invalid)⟩
  · rw [← result]
    exact dataProcessing_jump s row.2 rn op2
  · rw [← result]
    exact dataProcessing_return s row.2 rn op2 valid

/-- TST, TEQ, CMP and CMN with Rd = R15 run the test sequence. -/
theorem exec_test_pc {c : Cond} {rn : Reg} {op2 : Operand2} {i : Instr}
    (h : i ∈ [Instr.tst c rn 15#4 op2, .teq c rn 15#4 op2, .cmp c rn 15#4 op2, .cmn c rn 15#4 op2]) (s : State) :
    ∃ op, exec i s = .next (s.conditional c (·.testProcessing op true rn 15#4 op2)) := by
  simp only [List.mem_cons, List.not_mem_nil, or_false] at h
  obtain rfl | rfl | rfl | rfl := h
  exacts [⟨opTst, rfl⟩, ⟨opTeq, rfl⟩, ⟨opCmp, rfl⟩, ⟨opCmn, rfl⟩]

/-- Settles O32: without S one fetch, with S and Rd = R15 the return without a flush or the halt. -/
theorem testsWithoutEffect : Obligations.TestsWithoutEffect := by
  intro c opc rn rd op2 s passed
  refine ⟨Completes.pass rfl passed (testProcessing_noS s _ rn rd op2), fun i hi => ?_⟩
  obtain ⟨op, meaning⟩ := exec_test_pc hi s
  exact ⟨fun valid => Completes.pass meaning passed (testProcessing_return s op rn op2 valid),
    fun invalid => Completes.pass meaning passed (testProcessing_halts op rn invalid)⟩

end Sys2Proof.Machine
end

section
/-! PROOFS. ARM multiply (43_arm_multiply.md): the multiplier's cycle table (R241), then what the sequence that all six
instructions share leaves (R242, R245), then each instruction's value as an unbounded integer. -/

namespace Sys2Proof.Machine

/-! ### The cycle table -/

/-- Counting bits up to 31 and dividing by 8 is comparing the leading count with 24, 16 and 8 (R241). -/
theorem cycles_of_leadingCount (n : Nat) :
    (31 - n) / 8 + 1 = if 24 ≤ n then 1 else if 16 ≤ n then 2 else if 8 ≤ n then 3 else 4 := by
  split_ifs <;> omega

/-- At least `n` leading zeros: the upper `n` bits are 0. -/
theorem le_leadingZeros_iff_upper (x : Word) (n k : Nat) (split : n + k = 32) :
    n ≤ leadingZeros x ↔ x.toNat / 2 ^ k = 0 := by
  obtain rfl : k = 32 - n := by omega
  rw [le_leadingZeros x n (by omega), Nat.div_eq_zero_iff_lt (by positivity)]

/-- At least `n` leading ones: the upper `n` bits are all ones. -/
theorem le_leadingOnes_iff_upper (x : Word) (n k : Nat) (split : n + k = 32) :
    n ≤ leadingZeros (~~~x) ↔ x.toNat / 2 ^ k = 2 ^ n - 1 := by
  have whole : 2 ^ n * 2 ^ k = 2 ^ 32 := by rw [← pow_add, split]
  have ones : (2 ^ n - 1) * 2 ^ k = 2 ^ 32 - 2 ^ k := by rw [Nat.sub_mul, whole, one_mul]
  obtain rfl : k = 32 - n := by omega
  rw [le_leadingZeros _ n (by omega), BitVec.toNat_not, Nat.div_eq_iff (by positivity), ones]
  have below : x.toNat < 2 ^ 32 := x.isLt
  have fits : 2 ^ (32 - n) ≤ 2 ^ 32 := Nat.pow_le_pow_right (by omega) (by omega)
  omega

/-- Settles O27: each comparison of the leading count is a test of the upper bits. -/
theorem multiplierCycles : Obligations.MultiplierCycles := by
  intro x
  have zeros := le_leadingZeros_iff_upper x
  have ones := le_leadingOnes_iff_upper x
  simp only [multiplierCyclesSigned, multiplierCyclesUnsigned, cycles_of_leadingCount, le_max_iff, zeros 24 8 rfl,
    zeros 16 16 rfl, zeros 8 24 rfl, ones 24 8 rfl, ones 16 16 rfl, ones 8 24 rfl, and_self]

/-! ### MUL and MLA -/

/-- Without S the flags are the ones the state has: writing them back is writing nothing. -/
theorem setFlags_ite {s : State} {f g : Flags} (old : s.flags = g) (b : Bool) :
    (if b then s.setFlags f else s) = s.setFlags (if b then f else g) := by
  cases b
  · exact (old ▸ s.setFlags_self).symm
  · rfl

/-- With and without S, the sequence is a fetch, one write, the flags and the internal cycles (R242). -/
theorem finishMultiply_eq (s : State) (setFlags : Bool) (rd : Reg) (v : Word) (n : Nat) :
    s.finishMultiply setFlags rd v n =
      ((s.fetchOpcode.writeReg rd v).setFlags
        (if setFlags then (nzResult v s.flags).flags else s.flags)).internalCycle n := by
  have old : (s.fetchOpcode.writeReg rd v).flags = s.flags := by simp
  rw [← State.setFlags_internalCycle, ← setFlags_ite (by simp), ← old, State.finishMultiply,
    State.writeReg_internalCycle]
  rfl

/-- One register, N and Z with S, and the internal cycles after the fetch (R242; D7). -/
theorem finishMultiply_result (s : State) (setFlags : Bool) (rd : Reg) (v : Word) (n : Nat) :
    RegisterResult s (s.finishMultiply setFlags rd v n) rd v
        (if setFlags then (nzResult v s.flags).flags else s.flags) ∧
      (s.finishMultiply setFlags rd v n).port = s.port ++ [s.fetchEvent, .iCycle n] := by
  rw [finishMultiply_eq]
  exact ⟨(registerResult_fetch ..).emit _, by simp [State.fetchEvent]⟩

/-- A multiply whose body is the shared sequence with a word `v` that is the value `w`. -/
theorem completes_multiply {i : Instr} {c : Cond} {s : State} {f : State → State} {setFlags : Bool} {rd : Reg}
    {v w : Word} {n : Nat} (meaning : exec i s = .next (s.conditional c f)) (passed : conditionPassed c s.flags = true)
    (body : f s = s.finishMultiply setFlags rd v n) (value : v = w) :
    Completes i s fun t =>
      RegisterResult s t rd w (if setFlags then (nzResult w s.flags).flags else s.flags) ∧
        t.port = s.port ++ [s.fetchEvent, .iCycle n] := by
  subst value
  refine Completes.pass meaning passed ?_
  rw [body]
  exact finishMultiply_result ..

/-- Settles O33: the shared sequence with the product, and with the product and the sum. -/
theorem multiplyInstructions : Obligations.MultiplyInstructions := by
  intro c setFlags rd rn rs rm s passed x y f p mul mla
  have product : x * y = mul := by simp only [mul, BitVec.ofNat_mul, BitVec.ofNat_toNat, BitVec.setWidth_eq]
  have sum : x * y + s.readReg rn = mla := by
    simp only [mla, BitVec.ofNat_add, BitVec.ofNat_mul, BitVec.ofNat_toNat, BitVec.setWidth_eq]
  exact ⟨completes_multiply rfl passed rfl product, completes_multiply rfl passed rfl sum⟩

/-! ### The long multiplies -/

/-- What a long multiply leaves, for its value as an unbounded integer (R245 to R248, R250). -/
def LongMultiplied (setFlags : Bool) (hi lo : Reg) (value : Int) (cycles : Nat) (s t : State) : Prop :=
  t.readReg hi = BitVec.ofInt 32 (value / 2 ^ 32) ∧ (lo ≠ hi → t.readReg lo = BitVec.ofInt 32 value) ∧
    t.flags = (if setFlags then nzFlags64 (BitVec.ofInt 64 value) s.flags else s.flags) ∧
    SameRegistersBut s t [physReg s.bank hi, physReg s.bank lo] ∧ SameStatusButFlags s t ∧
    (hi ≠ 15#4 → lo ≠ 15#4 → t.r15 = s.r15 + s.widthBytes) ∧ FetchedOnce s t ∧ SameSpecial s t ∧ SameMemory s t ∧
    t.port = s.port ++ [s.fetchEvent, .iCycle cycles]

/-- With and without S, the sequence is a fetch, two writes, the flags and the internal cycles (R245). -/
theorem finishMultiplyLong_eq (s : State) (setFlags : Bool) (hi lo : Reg) (r : BitVec 64) (n : Nat) :
    s.finishMultiplyLong setFlags hi lo r n =
      (((s.fetchOpcode.writeReg lo (r.extractLsb' 0 32)).writeReg hi (r.extractLsb' 32 32)).setFlags
        (if setFlags then nzFlags64 r s.flags else s.flags)).internalCycle n := by
  have old : ((s.fetchOpcode.writeReg lo (r.extractLsb' 0 32)).writeReg hi (r.extractLsb' 32 32)).flags = s.flags := by
    simp
  rw [← State.setFlags_internalCycle, ← setFlags_ite (by simp), ← old, State.finishMultiplyLong,
    State.writeReg_internalCycle, State.writeReg_internalCycle]
  rfl

/-- RdLo of a value (R245). -/
theorem extractLsb'_low_ofInt (v : Int) : (BitVec.ofInt 64 v).extractLsb' 0 32 = BitVec.ofInt 32 v := by
  apply BitVec.eq_of_toNat_eq
  rw [BitVec.extractLsb'_toNat, BitVec.toNat_ofInt, BitVec.toNat_ofInt, Nat.shiftRight_zero]
  omega

/-- RdHi of a value (R245). -/
theorem extractLsb'_high_ofInt (v : Int) :
    (BitVec.ofInt 64 v).extractLsb' 32 32 = BitVec.ofInt 32 (v / 2 ^ 32) := by
  apply BitVec.eq_of_toNat_eq
  rw [BitVec.extractLsb'_toNat, BitVec.toNat_ofInt, BitVec.toNat_ofInt, Nat.shiftRight_eq_div_pow]
  omega

/-- RdLo, then RdHi, N and Z with S, and the internal cycles after the fetch (R245; D7, D22). -/
theorem finishMultiplyLong_result (s : State) (setFlags : Bool) (hi lo : Reg) (v : Int) (n : Nat) :
    LongMultiplied setFlags hi lo v n s (s.finishMultiplyLong setFlags hi lo (BitVec.ofInt 64 v) n) := by
  rw [finishMultiplyLong_eq, extractLsb'_low_ofInt, extractLsb'_high_ofInt]
  refine ⟨by simp, fun distinct => ?_, by simp, fun k hk => ?_, by simp [SameStatusButFlags], fun hhi hlo => ?_,
    ⟨by simp, by simp, by simp⟩, ?_, SameMemory.of_eq (by simp), by simp [State.fetchEvent]⟩
  · simp [State.readReg_writeReg_of_ne distinct.symm]
  · simp only [List.mem_cons, List.not_mem_nil, or_false, not_or] at hk
    obtain ⟨notHi, notLo⟩ := hk
    simp only [State.internalCycle_regs, State.setFlags_regs]
    rw [State.regs_writeReg (by simpa using Ne.symm notHi), State.regs_writeReg (by simpa using Ne.symm notLo),
      State.fetchOpcode_regs]
  · simp [State.r15_writeReg hhi, State.r15_writeReg hlo]
  · exact (sameSpecial_fetchOpcode s).trans ((sameSpecial_writeReg ..).trans ((sameSpecial_writeReg ..).trans
      ((sameSpecial_setFlags ..).trans (sameSpecial_emit ..))))

/-- A long multiply whose body is the shared sequence with a 64-bit word `r` of the value `v`. -/
theorem completes_multiplyLong {i : Instr} {c : Cond} {s : State} {f : State → State} {setFlags : Bool} {hi lo : Reg}
    {r : BitVec 64} {v : Int} {n : Nat} (meaning : exec i s = .next (s.conditional c f))
    (passed : conditionPassed c s.flags = true) (body : f s = s.finishMultiplyLong setFlags hi lo r n)
    (value : r = BitVec.ofInt 64 v) : Completes i s (LongMultiplied setFlags hi lo v n s) := by
  subst value
  refine Completes.pass meaning passed ?_
  rw [body]
  exact finishMultiplyLong_result ..

section Value

variable (x y hi lo : Word)

theorem unsignedProduct_eq : x.setWidth 64 * y.setWidth 64 = BitVec.ofInt 64 (x.toNat * y.toNat) := by
  simp only [BitVec.ofInt_mul, BitVec.ofInt_natCast, BitVec.ofNat_toNat]

theorem signedProduct_eq : x.signExtend 64 * y.signExtend 64 = BitVec.ofInt 64 (x.toInt * y.toInt) :=
  (BitVec.ofInt_mul ..).symm

/-- The accumulator RdHi:RdLo as a number (R246). -/
theorem accumulator_eq : hi ++ lo = BitVec.ofInt 64 (hi.toNat * 2 ^ 32 + lo.toNat) := by
  have number : (hi.toNat * 2 ^ 32 + lo.toNat : Int) = ((hi ++ lo).toNat : Nat) := by
    rw [BitVec.toNat_append, ← Nat.shiftLeft_add_eq_or_of_lt lo.isLt, Nat.shiftLeft_eq]
    norm_cast
  rw [number, BitVec.ofInt_natCast, BitVec.ofNat_toNat, BitVec.setWidth_eq]

end Value

/-- Settles O34: the shared sequence with the value of each of the four. -/
theorem multiplyLongInstructions : Obligations.MultiplyLongInstructions := by
  intro c setFlags hi lo rs rm s passed x y acc done
  refine ⟨completes_multiplyLong rfl passed rfl (unsignedProduct_eq x y),
    completes_multiplyLong rfl passed rfl ?_, completes_multiplyLong rfl passed rfl (signedProduct_eq x y),
    completes_multiplyLong rfl passed rfl ?_⟩
  · rw [unsignedProduct_eq, accumulator_eq, ← BitVec.ofInt_add]
  · rw [signedProduct_eq, accumulator_eq, ← BitVec.ofInt_add]

end Sys2Proof.Machine
end

section
/-! PROOFS. Single transfers, halfword and signed transfers, and swaps (44_arm_load_store.md): the transfer sequences of
Laws/Transfers, reached from each instruction in every offset form. -/

namespace Sys2Proof.Machine

section Transfers

variable (s : State) (rm : Reg)

/-! ### Offset forms -/

/-- The offset of a word or byte transfer in its two forms (R261). -/
theorem offset_of_mem_rows (imm12 : BitVec 12) (type : ShiftType) (amt : BitVec 5) {row : Offset × Word}
    (listed : row ∈ [(.imm imm12, imm12.setWidth 32),
      (.shifted type amt rm, (shiftImm type (s.readReg rm) amt s.flags.c).value)]) : s.offset row.1 = row.2 := by
  simp only [List.mem_cons, List.not_mem_nil, or_false] at listed
  obtain rfl | rfl := listed <;> rfl

/-- The offset of a halfword or signed transfer in its two forms (R261). -/
theorem halfOffset_of_mem_rows (imm8 : BitVec 8) (ign : BitVec 4) {row : HalfOffset × Word}
    (listed : row ∈ [(.imm imm8, imm8.setWidth 32), (.reg ign rm, s.readReg rm)]) : s.halfOffset row.1 = row.2 := by
  simp only [List.mem_cons, List.not_mem_nil, or_false] at listed
  obtain rfl | rfl := listed <;> rfl

/-! ### The sequences, with the write-back of R261 spelled out -/

variable {s} {i : Instr} {c : Cond} {f : State → State} {ix : Indexing} {rn rd : Reg} {o : Word}

/-- An instruction whose body is the load sequence with an offset that is `o`. -/
theorem completes_load {k : LoadKind} {off : Word} (meaning : exec i s = .next (s.conditional c f))
    (passed : conditionPassed c s.flags = true) (body : f s = s.loadTransfer k ix rn rd off) (offset : off = o) :
    Completes i s (LoadResult s · rd rn (s.loadValue k (transferAddress ix (s.readReg rn) o))
      (if ix.p = false ∨ ix.w = true then some (indexed ix (s.readReg rn) o) else none)) := by
  subst offset
  refine Completes.pass meaning passed ?_
  have result := loadTransfer_result s k ix rn rd off
  rwa [writeBackValue_eq, ← body] at result

/-- An instruction whose body is the store sequence with an offset that is `o`. -/
theorem completes_store {w : Width} {off : Word} (wf : Memory.wf s.mem) (meaning : exec i s = .next (s.conditional c f))
    (passed : conditionPassed c s.flags = true) (body : f s = s.storeTransfer w ix rn rd off) (offset : off = o) :
    Completes i s (StoreResult s · w (transferAddress ix (s.readReg rn) o)
      (if rd = 15#4 then s.r15 + s.widthBytes else s.readReg rd) rn
      (if ix.p = false ∨ ix.w = true then some (indexed ix (s.readReg rn) o) else none)) := by
  subst offset
  refine Completes.pass meaning passed ?_
  have result := storeTransfer_result s wf w ix rn rd off
  rwa [writeBackValue_eq, ← body] at result

end Transfers

/-! ### The statements -/

/-- Settles O35: the load sequence with the offset of each form. -/
theorem loadInstructions : Obligations.LoadInstructions := by
  intro c ix rn rd rm imm12 type amt imm8 ign s passed base index addr wb done
  refine ⟨fun row listed => ?_, fun row listed => ?_⟩
  · have offset := offset_of_mem_rows s rm imm12 type amt listed
    exact ⟨completes_load rfl passed rfl offset, completes_load rfl passed rfl offset⟩
  · have offset := halfOffset_of_mem_rows s rm imm8 ign listed
    exact ⟨completes_load rfl passed rfl offset, completes_load rfl passed rfl offset,
      completes_load rfl passed rfl offset⟩

/-- Settles O37: the store sequence with the offset of each form. -/
theorem storeInstructions : Obligations.StoreInstructions := by
  intro c ix rn rd rm imm12 type amt imm8 ign s wf passed base index addr wb v done
  refine ⟨fun row listed => ?_, fun row listed => ?_⟩
  · have offset := offset_of_mem_rows s rm imm12 type amt listed
    exact ⟨completes_store wf rfl passed rfl offset, completes_store wf rfl passed rfl offset⟩
  · exact completes_store wf rfl passed rfl (halfOffset_of_mem_rows s rm imm8 ign listed)

/-- Settles O38: the swap sequence at either width. -/
theorem swapInstructions : Obligations.SwapInstructions := by
  intro c rn rd rm ign s wf passed row listed
  simp only [List.mem_cons, List.not_mem_nil, or_false] at listed
  obtain rfl | rfl := listed
  · exact Completes.pass rfl passed (swapTransfer_result s wf .word rn rd rm)
  · exact Completes.pass rfl passed (swapTransfer_result s wf .byte rn rd rm)

end Sys2Proof.Machine
end

section
/-! PROOFS. Block transfers (45_arm_block_transfer.md R301 to R313): the register lists of Laws/BlockTransfer and the results
of Laws/BlockResults, with the first address and the write-back of R302 spelled out. -/

namespace Sys2Proof.Machine

/-- The count of a list that is not empty is the number of registers it transfers (R302). -/
theorem registerCount_of_ne {list : BitVec 16} (nonempty : list ≠ 0#16) :
    registerCount list = (registerList list).length := if_neg nonempty

/-- Settles O39: the list is a filter of the rising range of numbers, the empty list a case of its own. -/
theorem registerLists : Obligations.RegisterLists := fun list =>
  ⟨registerList_pairwise list, mem_registerList, registerCount_of_ne, registerList_empty, rfl⟩

/-- Settles O40: without R15 the loads are the whole of LDM. -/
theorem loadMultiple : Obligations.LoadMultiple := by
  intro c ix sBit rn list s passed withoutPc base size start wb
  have result := loadMultiple_result s ix sBit rn withoutPc
  rw [blockAddress_eq, blockBase_eq] at result
  exact Completes.pass rfl passed result

/-- Settles O41: after the loads the jump, the return from the exception, or the halt. -/
theorem loadMultiplePc : Obligations.LoadMultiplePc := by
  intro c ix sBit rn list s passed withPc base size start wb pc
  have result := loadMultiple_pc s ix sBit rn withPc
  rw [blockAddress_eq, blockBase_eq] at result
  exact Completes.pass rfl passed result

/-- Settles O42: the fetch, the first store, the write-back, then the other stores. -/
theorem storeMultiple : Obligations.StoreMultiple := by
  intro c ix sBit rn list s wf passed base size start wb
  have result := storeMultiple_result s wf ix sBit rn list
  rw [blockAddress_eq, blockBase_eq] at result
  exact Completes.pass rfl passed result

end Sys2Proof.Machine
end

section
/-! PROOFS. Branches, the status-register instructions, coprocessor 14 and the encodings without a handler
(46_arm_branch_psr_system.md): the shapes of Laws/Shapes and Laws/Branches, and the bytes that an MSR writes, of
Laws/StatusAccess. -/

namespace Sys2Proof.Machine

/-! ### Branches -/

/-- The target of B and BL, with the offset as a signed number (R320). -/
theorem branchTarget_eq (s : State) (off : BitVec 24) :
    s.branchTarget off = s.r15 + BitVec.ofInt 32 (off.toInt * 4) :=
  congrArg (s.r15 + ·) (branchOffset_eq off)

/-- Settles O43: after the fetch a jump, a jump that writes R14 first, or the state switch. -/
theorem branchInstructions : Obligations.BranchInstructions := by
  intro c off rm ign s passed target
  have spelled : s.branchTarget off = target := branchTarget_eq s off
  refine ⟨Completes.pass rfl passed ?_, Completes.pass rfl passed ?_,
    Completes.pass rfl passed (exchange_result s (s.readReg rm))⟩
  · rw [spelled]
    exact jumpResult_fetch s target
  · rw [spelled]
    exact linkJump_result s (s.r15 - 4#32) target

/-! ### MRS -/

/-- A register other than R15, written before the fetch (R330). -/
theorem registerResult_writeReg_fetch (s : State) {rd : Reg} (hrd : rd ≠ 15#4) (v : Word) :
    RegisterResult s (s.writeReg rd v).fetchOpcode rd v s.flags := by
  rw [State.fetchOpcode_writeReg hrd]
  exact registerResult_fetch' s rd v

/-- Settles O44: Rd is written, then the fetch, which reads at the value when Rd is R15 (ID7). -/
theorem readStatus : Obligations.ReadStatus := by
  intro c spsr rd i19 i11 i3 s passed v
  refine Completes.pass rfl passed ⟨fun hrd => registerResult_writeReg_fetch s hrd v, ?_⟩
  rintro rfl
  exact ⟨by simp [v], by simp, by simp [v], rfl, SameRegistersBut.of_eq (by simp), by simp,
    (sameSpecial_writeReg ..).trans (sameSpecial_fetchOpcode _), SameMemory.of_eq (by simp)⟩

/-! ### MSR -/

/-- Both forms of an MSR end as `State.msr` does with the register or the rotated immediate (R331). -/
theorem completes_msr {c : Cond} {spsr : Bool} {mask rot : BitVec 4} {imm8 i15 : BitVec 8} {i12 : BitVec 4} {rm : Reg}
    {s : State} {post : State → Prop} (passed : conditionPassed c s.flags = true) {row : Instr × Word}
    (listed : row ∈ [(Instr.msrReg c spsr mask rm i15, s.readReg rm),
      (Instr.msrImm c spsr mask rot imm8 i12, (imm8.setWidth 32).rotateRight (2 * rot.toNat))])
    (result : post (s.msr spsr mask row.2)) : Completes row.1 s post := by
  simp only [List.mem_cons, List.not_mem_nil, or_false] at listed
  obtain rfl | rfl := listed
  · exact Completes.pass rfl passed result
  · exact Completes.pass rfl passed result

/-- What an MSR to CPSR leaves: the new status, a fetch of the width then in force, and the frame (R331; ID8). -/
def StatusWritten (status : Word) (s t : State) : Prop :=
  t.cpsr = status ∧ t.r15 = s.r15 + t.widthBytes ∧ t.p3 = s.p2 ∧ t.p2 = s.reply t.width s.r15 ∧ t.nextFetchType = true ∧
    SameRegistersBut s t [] ∧ SameSpecial s t ∧ SameMemory s t

theorem statusWritten_fetch (s : State) (p : Word) : StatusWritten p s ({ s with cpsr := p } : State).fetchOpcode :=
  ⟨rfl, rfl, rfl, rfl, rfl, SameRegistersBut.of_eq rfl, ⟨fun _ => rfl, rfl, rfl, rfl, rfl, rfl⟩, SameMemory.of_eq rfl⟩

section Status

variable {s : State} {mask : BitVec 4} {v : Word}

theorem msr_of_writeCpsr_some {p : Word} (h : s.writeCpsr (msrMask mask) v = some { s with cpsr := p }) :
    StatusWritten p s (s.msr false mask v) := by
  simp only [State.msr, Bool.false_eq_true, if_false, h]
  exact statusWritten_fetch s p

theorem msr_of_writeCpsr_none (h : s.writeCpsr (msrMask mask) v = none) : Halts s (s.msr false mask v) := by
  simp only [State.msr, Bool.false_eq_true, if_false, h]
  exact halts_hacf s

end Status

/-- Settles O45: the control byte is written with a valid mode, halts the core with an invalid one, or is not written. -/
theorem writeStatus : Obligations.WriteStatus := by
  intro c mask rot imm8 i15 i12 rm s passed row listed control top byte
  by_cases written : control
  · have write := State.writeCpsr_controlByte row.2 written.1 written.2
    by_cases invalid : Mode.ofBits (byte.extractLsb' 0 5) = none
    · rw [if_pos ⟨written, invalid⟩]
      exact completes_msr passed listed (msr_of_writeCpsr_none (write.trans (if_pos invalid)))
    · rw [if_neg fun h => invalid h.2, if_pos written]
      exact completes_msr passed listed (msr_of_writeCpsr_some (write.trans (if_neg invalid)))
  · have unwritten := (not_and_or.1 written).imp Bool.eq_false_of_not_eq_true not_not.1
    rw [if_neg fun h => written h.1, if_neg written]
    exact completes_msr passed listed (msr_of_writeCpsr_some (State.writeCpsr_flagByte row.2 unwritten))

/-- What an MSR makes of a saved status: the selected bytes, with F forced in the control byte (R331). -/
def writtenSpsr (s : State) (mask : BitVec 4) (v old : Word) : Word :=
  (if mask.getLsbD 3 then v.extractLsb' 24 8 else old.extractLsb' 24 8) ++ old.extractLsb' 8 16 ++
    (if mask.getLsbD 0 then v.extractLsb' 0 8 ||| (if s.toggles.fiqEnabled then 0#8 else 0x40#8)
      else old.extractLsb' 0 8)

/-- The user bank alone has no SPSR (R27). -/
theorem bank_eq_usr_of_spsrOf_none {s : State} {b : Bank} (h : s.spsrOf b = none) : b = .usr := by
  cases b with
  | usr => rfl
  | fiq | irq | svc | abt | und => cases h

theorem currentSpsr_of_some {s : State} {old : Word} (h : s.spsrOf s.bank = some old) : s.currentSpsr = old := by
  simp [State.currentSpsr, h]

section SavedStatus

variable (s : State) (mask : BitVec 4) (v : Word)

/-- An MSR to the SPSR is one write, which the user bank ignores (R27, R331). -/
theorem writeCurrentSpsr_eq_writeSpsrOf :
    s.writeCurrentSpsr (msrMask mask) v = s.writeSpsrOf s.bank (writtenSpsr s mask v s.currentSpsr) := by
  obtain ⟨unchanged, user⟩ | ⟨old, saved, write⟩ := s.writeCurrentSpsr_eq mask v
  · rw [unchanged, bank_eq_usr_of_spsrOf_none user]
    rfl
  · rw [write, currentSpsr_of_some saved]
    rfl

/-- The current SPSR gets the written bytes, every other one is left (R27, R331). -/
theorem spsrOf_writeCurrentSpsr (b : Bank) :
    (s.writeCurrentSpsr (msrMask mask) v).spsrOf b =
      if b = s.bank then (s.spsrOf b).map (writtenSpsr s mask v) else s.spsrOf b := by
  rw [writeCurrentSpsr_eq_writeSpsrOf, State.writeSpsrOf_spsrOf]
  by_cases current : b = s.bank
  · rw [if_pos current, if_pos current, current]
    exact Option.map_congr fun old saved => congrArg (writtenSpsr s mask v) (currentSpsr_of_some saved)
  · rw [if_neg current, if_neg current]

end SavedStatus

/-- Settles O46: one write of the current SPSR, then the fetch. -/
theorem writeSavedStatus : Obligations.WriteSavedStatus := by
  intro c mask rot imm8 i15 i12 rm s passed row listed byte
  refine completes_msr passed listed ?_
  have saved := spsrOf_writeCurrentSpsr s mask row.2
  have body : s.msr true mask row.2 = (s.writeCurrentSpsr (msrMask mask) row.2).fetchOpcode := rfl
  rw [body]
  refine ⟨saved, ?_⟩
  rw [writeCurrentSpsr_eq_writeSpsrOf]
  exact ⟨by simp, ⟨by simp, by simp, by simp, by simp⟩, SameRegistersBut.of_eq (by simp), by simp, by simp, by simp,
    by simp, by simp, SameMemory.of_eq (by simp)⟩

/-! ### Coprocessor 14 and the encodings without a handler -/

/-- Settles O47: number 14 selects the fetch alone. -/
theorem coprocessorFourteen : Obligations.CoprocessorFourteen := by
  intro c rd i23 i7 i19 i3 s passed
  have fetches : s.coprocessorTransfer 14#4 = s.fetchOpcode := if_pos rfl
  have result : FlagResult s (s.coprocessorTransfer 14#4) s.flags := fetches ▸ flagResult_fetch' s
  exact ⟨Completes.pass rfl passed result, Completes.pass rfl passed result⟩

/-- Settles O50: the body of each of the three is HACF, in ARM state behind the condition. -/
theorem unknownEncodingsHalt : Obligations.UnknownEncodingsHalt := by
  intro c sel sel' n4 n4' n8 n12 b s
  exact ⟨fun passed => ⟨Completes.pass rfl passed (halts_hacf s), Completes.pass rfl passed (halts_hacf s)⟩,
    Completes.of rfl (halts_hacf s)⟩

end Sys2Proof.Machine
end

section
/-! PROOFS. What no step gets around: in USR mode the masks, the SPSRs and the other banks (60_exceptions.md R525, R526),
and with FIQ_ENABLED false the F bit (R510). Both are proved over the operations of Laws/Evolves. -/

namespace Sys2Proof.Machine

/-! ### USR mode -/

/-- USR mode, with the masks, the SPSRs and the registers that the user bank does not name as they are in `s` (R525). -/
structure UserIsolated (s t : State) : Prop where
  mode : Psr.modeBits t.cpsr = Mode.usr.bits
  irqMask : Psr.i t.cpsr = Psr.i s.cpsr
  fiqMask : Psr.f t.cpsr = Psr.f s.cpsr
  spsrs : ∀ b, t.spsrOf b = s.spsrOf b
  otherBanks : ∀ k : Fin 30, 15 ≤ k → t.regs[k] = s.regs[k]

/-- The user bank names the registers 0 to 14 (R30). -/
theorem physReg_usr_ne : ∀ (n : Reg) (k : Fin 30), 15 ≤ k → physReg .usr n ≠ some k := by decide

namespace UserIsolated

variable {s t u : State}

theorem refl (mode : Psr.modeBits s.cpsr = Mode.usr.bits) : UserIsolated s s :=
  ⟨mode, rfl, rfl, fun _ => rfl, fun _ _ => rfl⟩

theorem bank (h : UserIsolated s t) : t.bank = .usr := State.bank_of_mode h.mode

/-- The status may change in the flags and in T. -/
theorem of_masks (h : UserIsolated s t) (mode : Psr.modeBits u.cpsr = Psr.modeBits t.cpsr)
    (irqMask : Psr.i u.cpsr = Psr.i t.cpsr) (fiqMask : Psr.f u.cpsr = Psr.f t.cpsr)
    (spsrs : ∀ b, u.spsrOf b = t.spsrOf b) (regs : u.regs = t.regs) : UserIsolated s u :=
  ⟨mode.trans h.mode, irqMask.trans h.irqMask, fiqMask.trans h.fiqMask, fun b => (spsrs b).trans (h.spsrs b),
    fun k hk => regs ▸ h.otherBanks k hk⟩

theorem of_same (h : UserIsolated s t) (cpsr : u.cpsr = t.cpsr) (spsrs : ∀ b, u.spsrOf b = t.spsrOf b)
    (regs : u.regs = t.regs) : UserIsolated s u :=
  h.of_masks (by rw [cpsr]) (by rw [cpsr]) (by rw [cpsr]) spsrs regs

theorem writeUserReg (h : UserIsolated s t) (n : Reg) (v : Word) : UserIsolated s (t.writeUserReg n v) where
  mode := by simpa using h.mode
  irqMask := by simpa using h.irqMask
  fiqMask := by simpa using h.fiqMask
  spsrs := by simpa using h.spsrs
  otherBanks k hk := (State.regs_writeRegOf (physReg_usr_ne n k hk)).trans (h.otherBanks k hk)

theorem writeReg (h : UserIsolated s t) (n : Reg) (v : Word) : UserIsolated s (t.writeReg n v) := by
  have user : t.writeReg n v = t.writeUserReg n v := congrArg (t.writeRegOf · n v) h.bank
  exact user ▸ h.writeUserReg n v

/-- The user bank has no SPSR: `leaveMode()` puts CPSR back (R32). -/
theorem leaveMode (h : UserIsolated s t) (left : t.leaveMode = some u) : UserIsolated s u := by
  have current : t.currentSpsr = t.cpsr := by simp [State.currentSpsr, h.bank, State.spsrOf]
  obtain ⟨-, -, e⟩ | ⟨-, e⟩ := t.leaveMode_cases <;> rw [e] at left <;> cases left
  exact h.of_same current (fun _ => rfl) rfl

/-- MSR in USR mode does not reach the control byte (R332). -/
theorem writeCpsr (h : UserIsolated s t) {mask : BitVec 4} {v : Word} (written : t.writeCpsr (msrMask mask) v = some u) :
    UserIsolated s u := by
  obtain ⟨p, rfl, -, ⟨mode, irqMask, fiqMask⟩ | ⟨privileged, -⟩⟩ := State.writeCpsr_cases written
  · exact h.of_masks mode irqMask fiqMask (fun _ => rfl) rfl
  · exact absurd h.mode privileged

/-- MSR to an SPSR writes nothing in USR mode (R331). -/
theorem writeCurrentSpsr (h : UserIsolated s t) (mask : BitVec 4) (v : Word) :
    UserIsolated s (t.writeCurrentSpsr (msrMask mask) v) := by
  have unwritten : t.writeCurrentSpsr (msrMask mask) v = t := by rw [writeCurrentSpsr_eq_writeSpsrOf, h.bank]; rfl
  rwa [unwritten]

theorem evolves {w : Bool} (he : Evolves w t u) (h : UserIsolated s t) : UserIsolated s u := by
  induction he with
  | refl => exact h
  | emit _ _ _ ih | fetchOpcode _ ih | flushPipeline _ ih | setR15 _ _ ih | setFetchType _ _ ih
  | dataWrite _ _ _ _ _ _ ih => exact ih.of_same rfl (fun _ => rfl) rfl
  | setFlags _ _ ih | setT _ _ ih => exact ih.of_masks (by simp) (by simp) (by simp) (fun _ => rfl) rfl
  | writeReg _ n v ih => exact ih.writeReg n v
  | writeUserReg _ n v ih => exact ih.writeUserReg n v
  | leaveMode _ left ih => exact ih.leaveMode left
  | writeCpsr _ _ _ written ih => exact ih.writeCpsr written
  | writeCurrentSpsr _ mask v ih => exact ih.writeCurrentSpsr mask v

end UserIsolated

/-- An interrupt entry of a step, seen from the state before the step: only the port and the requests differ (R501, R502). -/
theorem entryResult_interrupt (s : State) (fiq irq : Bool) (x : Exception) (link : Word) :
    EntryResult s (({ s.beginStep with pendingFiq := fiq, pendingIrq := irq } : State).takeException x link) x link :=
  (entryResult_takeException ..).of_earlier rfl rfl (fun _ => rfl) rfl rfl rfl rfl

/-- An instruction's entry, after its own fetch, which moves only R15 and the pipeline (R503, R504). -/
theorem entryResult_fetch (s : State) (x : Exception) (link : Word) :
    EntryResult s (s.fetchOpcode.takeException x link) x link :=
  (entryResult_takeException ..).of_earlier rfl rfl (fun _ => rfl) rfl rfl rfl rfl

/-- An instruction run in USR mode stays inside it or ends in an exception entry. -/
theorem Ends.isolated_or_entry {w : Bool} {s t : State} (h : Ends w s t) (mode : Psr.modeBits s.cpsr = Mode.usr.bits) :
    UserIsolated s t ∨ ∃ x link, EntryResult s t x link := by
  obtain ⟨u, hu, rfl | rfl⟩ | ⟨x, link, -, rfl⟩ := h
  · exact .inl (.evolves hu (.refl mode))
  · exact .inl ((UserIsolated.evolves hu (.refl mode)).of_same rfl (fun _ => rfl) rfl)
  · exact .inr ⟨x, link, entryResult_fetch s x link⟩

/-- A step from USR mode: halted or an instruction inside the mode, else an interrupt or the instruction's own exception. -/
theorem step_isolated_or_entry {s t : State} (mode : Psr.modeBits s.cpsr = Mode.usr.bits) (h : step s = .next t) :
    UserIsolated s t ∨ ∃ x link, EntryResult s t x link := by
  obtain ⟨-, rfl⟩ | ⟨-, u, hu, ht, -⟩ := step_cases h
  · exact .inl ((UserIsolated.refl mode).of_same rfl (fun _ => rfl) rfl)
  · have done : UserIsolated s u ∨ ∃ x link, EntryResult s u x link := by
      obtain ⟨-, -, rfl⟩ | ⟨-, -, -, rfl⟩ | ⟨-, w, hw⟩ := hu
      · exact .inr ⟨_, _, entryResult_interrupt ..⟩
      · exact .inr ⟨_, _, entryResult_interrupt ..⟩
      · obtain kept | ⟨x, link, entry⟩ := hw.isolated_or_entry mode
        · exact .inl ⟨kept.mode, kept.irqMask, kept.fiqMask, kept.spsrs, kept.otherBanks⟩
        · exact .inr ⟨x, link, entry.of_earlier rfl rfl (fun _ => rfl) rfl rfl rfl rfl⟩
    obtain rfl | rfl := ht
    · exact done
    · exact done.imp (·.of_same rfl (fun _ => rfl) rfl) fun ⟨x, link, entry⟩ => ⟨x, link, entry.emit _⟩

/-- Settles O15: the operations of an instruction stay inside the user bank, and an exception entry is the only way out. -/
theorem userModeIsolation : Obligations.UserModeIsolation := by
  intro s t mode h
  obtain kept | ⟨x, link, entry⟩ := step_isolated_or_entry mode h
  · exact .inl ⟨kept.mode, kept.irqMask, kept.fiqMask, kept.spsrs, kept.otherBanks⟩
  · exact .inr ⟨x, entry.mode, entry.irqMasked, entry.armState, entry.vector, entry.saved, entry.otherSpsrs,
      fun k _ unwritten => entry.registers k (by simpa using unwritten.symm)⟩

/-! ### FIQ locked out -/

/-- F and the mode field stand in the low byte of a status register. -/
theorem Psr.f_append (a c : BitVec 8) (m : BitVec 16) : Psr.f (a ++ m ++ c) = c.getLsbD 6 :=
  State.getLsbD_low a c m (by decide)

theorem Psr.modeBits_append (a c : BitVec 8) (m : BitVec 16) : Psr.modeBits (a ++ m ++ c) = c.extractLsb' 0 5 :=
  BitVec.extractLsb'_append_eq_of_add_le (by decide)

namespace State.FiqLocked

variable {s t : State}

theorem of_same (h : s.FiqLocked) (toggles : t.toggles = s.toggles) (masked : Psr.f t.cpsr = Psr.f s.cpsr)
    (spsrs : ∀ b, t.spsrOf b = s.spsrOf b) : t.FiqLocked where
  disabled := toggles ▸ h.disabled
  masked := masked.trans h.masked
  spsrs b p hp := h.spsrs b p (spsrs b ▸ hp)

theorem withCpsr (h : s.FiqLocked) {p : Word} (masked : Psr.f p = true) : ({ s with cpsr := p } : State).FiqLocked :=
  ⟨h.disabled, masked, h.spsrs⟩

theorem writeSpsrOf (h : s.FiqLocked) (b : Bank) {p : Word} (locked : Psr.f p = true ∨ Psr.modeBits p = 0#5) :
    (s.writeSpsrOf b p).FiqLocked where
  disabled := by simpa using h.disabled
  masked := by simpa using h.masked
  spsrs c q hq := by
    rw [writeSpsrOf_spsrOf] at hq
    split at hq
    · obtain ⟨_, -, rfl⟩ := Option.map_eq_some_iff.1 hq
      exact locked
    · exact h.spsrs c q hq

/-- What a return would put into CPSR has F set or a mode that the return refuses. -/
theorem currentSpsr (h : s.FiqLocked) : Psr.f s.currentSpsr = true ∨ Psr.modeBits s.currentSpsr = 0#5 := by
  unfold State.currentSpsr
  cases hp : s.spsrOf s.bank with
  | none => exact .inl h.masked
  | some p => exact h.spsrs _ p hp

/-- A mode field 0 names no mode, so `leaveMode()` only accepts an SPSR with F set (R33, R566). -/
theorem leaveMode (h : s.FiqLocked) (left : s.leaveMode = some t) : t.FiqLocked := by
  obtain ⟨m, valid, e⟩ | ⟨-, e⟩ := s.leaveMode_cases <;> rw [e] at left <;> cases left
  obtain masked | invalid := h.currentSpsr
  · exact h.withCpsr masked
  · rw [invalid] at valid
    cases valid

theorem writeCpsr (h : s.FiqLocked) {mask : BitVec 4} {v : Word} (written : s.writeCpsr (msrMask mask) v = some t) :
    t.FiqLocked := by
  obtain ⟨p, rfl, -, ⟨-, -, kept⟩ | ⟨-, -, forced⟩⟩ := writeCpsr_cases written
  · exact h.withCpsr (kept.trans h.masked)
  · exact h.withCpsr (forced h.disabled)

/-- A written control byte has F forced, an unwritten one is the old one (R5, R331). -/
theorem writeCurrentSpsr (h : s.FiqLocked) (mask : BitVec 4) (v : Word) :
    (s.writeCurrentSpsr (msrMask mask) v).FiqLocked := by
  rw [writeCurrentSpsr_eq_writeSpsrOf]
  refine h.writeSpsrOf _ ?_
  rw [writtenSpsr, Psr.f_append, Psr.modeBits_append]
  split_ifs with written enabled
  · simp [h.disabled] at enabled
  · exact .inl (by simp)
  · refine h.currentSpsr.imp (fun masked => ?_) fun invalid => ?_
    · simpa [Psr.f] using masked
    · rw [BitVec.extractLsb'_extractLsb'_of_le (by decide)]
      exact invalid

/-- An entry saves a CPSR with F set, and leaves or sets F (R505; D11). -/
theorem takeException (h : s.FiqLocked) (x : Exception) (link : Word) : (s.takeException x link).FiqLocked := by
  have entry := entryResult_takeException s x link
  refine ⟨entry.toggles ▸ h.disabled, by rw [entry.fiqMasked, h.masked, Bool.or_true], fun b p hp => ?_⟩
  by_cases entered : b = x.mode.bank
  · rw [entered, entry.saved] at hp
    cases hp
    exact .inl h.masked
  · exact h.spsrs b p (entry.otherSpsrs b entered ▸ hp)

theorem evolves {w : Bool} (he : Evolves w s t) (h : s.FiqLocked) : t.FiqLocked := by
  induction he with
  | refl => exact h
  | emit _ _ _ ih | fetchOpcode _ ih | flushPipeline _ ih | setR15 _ _ ih | setFetchType _ _ ih
  | dataWrite _ _ _ _ _ _ ih => exact ih.of_same rfl rfl fun _ => rfl
  | writeReg _ _ _ ih | writeUserReg _ _ _ ih | setFlags _ _ ih | setT _ _ ih =>
    exact ih.of_same (by simp) (by simp) fun _ => by simp [spsrOf]
  | leaveMode _ left ih => exact ih.leaveMode left
  | writeCpsr _ _ _ written ih => exact ih.writeCpsr written
  | writeCurrentSpsr _ mask v ih => exact ih.writeCurrentSpsr mask v

theorem stepInvariant : StepInvariant State.FiqLocked where
  record h _ := h.of_same rfl rfl fun _ => rfl
  request h _ _ := h.of_same rfl rfl fun _ => rfl
  halt h := h.of_same rfl rfl fun _ => rfl
  evolves he h := h.evolves he
  entry h := h.takeException

end State.FiqLocked

/-! ### No instruction clears a request -/

theorem Evolves.pendingFiq_eq {w : Bool} {s t : State} (h : Evolves w s t) : t.pendingFiq = s.pendingFiq := by
  induction h with
  | refl => rfl
  | emit _ _ _ ih | fetchOpcode _ ih | flushPipeline _ ih | setFlags _ _ ih | setT _ _ ih | setR15 _ _ ih
  | setFetchType _ _ ih | dataWrite _ _ _ _ _ _ ih => exact ih
  | writeReg _ _ _ ih | writeUserReg _ _ _ ih => simpa using ih
  | leaveMode _ left ih =>
    obtain ⟨-, -, e⟩ | ⟨-, e⟩ := State.leaveMode_cases _ <;> rw [e] at left <;> cases left
    exact ih
  | writeCpsr _ _ _ written ih =>
    obtain ⟨p, rfl, -⟩ := State.writeCpsr_cases written
    exact ih
  | writeCurrentSpsr _ _ _ ih => simpa [writeCurrentSpsr_eq_writeSpsrOf] using ih

@[simp] theorem takeException_pendingFiq (s : State) (x : Exception) (link : Word) :
    (s.takeException x link).pendingFiq = s.pendingFiq := (takeException_other s x link).1

theorem Ends.pendingFiq_eq {w : Bool} {s t : State} (h : Ends w s t) : t.pendingFiq = s.pendingFiq := by
  obtain ⟨u, hu, rfl | rfl⟩ | ⟨x, link, -, rfl⟩ := h
  · exact hu.pendingFiq_eq
  · exact hu.pendingFiq_eq
  · exact takeException_pendingFiq ..

/-- With F set a step takes no FIQ, and only taking it clears the request (R501, R510). -/
theorem step_pendingFiq_of_masked {s t : State} (masked : Psr.f s.cpsr = true) (h : step s = .next t) :
    t.pendingFiq = s.pendingFiq := by
  obtain ⟨-, rfl⟩ | ⟨-, u, hu, ht, -⟩ := step_cases h
  · rfl
  · have done : u.pendingFiq = s.pendingFiq := by
      obtain ⟨-, unmasked, -⟩ | ⟨-, -, -, rfl⟩ | ⟨-, w, hw⟩ := hu
      · simp [masked] at unmasked
      · exact takeException_pendingFiq ..
      · exact hw.pendingFiq_eq
    obtain rfl | rfl := ht <;> exact done

/-- Settles O16: MSR forces F, a return accepts no SPSR without it, and an entry saves it. -/
theorem fiqStaysLocked : Obligations.FiqStaysLocked := by
  refine ⟨fun s t locked h => ⟨State.FiqLocked.stepInvariant.step h locked,
    step_pendingFiq_of_masked locked.masked h⟩, rfl, by decide, fun b p hp => .inr ?_⟩
  cases b <;> cases hp <;> rfl

end Sys2Proof.Machine
end

section
/-! PROOFS. The exception entries (60_exceptions.md R501 to R505), each as one `takeException` of Laws/Exceptions, and reset
(70_reset_and_hazards.md R560, R561). -/

namespace Sys2Proof.Machine

/-! ### Interrupts -/

@[simp] theorem takeException_pendingIrq (s : State) (x : Exception) (link : Word) :
    (s.takeException x link).pendingIrq = s.pendingIrq := by
  obtain ⟨-, irq, -⟩ := takeException_other s x link
  exact irq

/-- The breakpoint check after an entry adds at most an event to what the entry left (R150, R155). -/
theorem step_of_entry {s u : State} {x : Exception} {link : Word}
    (enters : step s = finishStep (.next (u.takeException x link)))
    (entry : EntryResult s (u.takeException x link) x link) :
    ∃ t, step s = .next t ∧ EntryResult s t x link ∧ t.pendingFiq = u.pendingFiq ∧ t.pendingIrq = u.pendingIrq ∧
      t.r15 = x.vector + 8#32 := by
  rw [enters]
  obtain silent | marked := finishStep_next (u.takeException x link)
  · exact ⟨_, silent, entry, by simp, by simp, takeException_r15 ..⟩
  · exact ⟨_, marked, entry.emit _, by simp, by simp, takeException_r15 ..⟩

/-- Settles O8: a request that F does not mask comes first in `cycle`. -/
theorem fiqEntry : Obligations.FiqEntry := by
  intro s running requested unmasked
  have enters : step s = finishStep (.next s.beginStep.enterFiq) := by simp [step, cycle, running, requested, unmasked]
  exact step_of_entry enters (entryResult_interrupt ..)

/-- Settles O9: with no FIQ to take, a request that I does not mask is next. -/
theorem irqEntry : Obligations.IrqEntry := by
  intro s running noFiq requested unmasked
  have fiq : (s.pendingFiq && !Psr.f s.cpsr) = false := by rcases noFiq with e | e <;> simp [e]
  have enters : step s = finishStep (.next s.beginStep.enterIrq) := by
    simp [step, cycle, running, fiq, requested, unmasked]
  obtain ⟨t, ht, entry, pendingFiq, pendingIrq, pc⟩ := step_of_entry enters (entryResult_interrupt ..)
  exact ⟨t, ht, entry, pendingIrq, pendingFiq, pc⟩

/-! ### SWI and the undefined encodings -/

/-- An instruction's entry with R15 two words behind the vector and the requests as they were (R503, R504). -/
theorem takeException_fetchOpcode (s : State) (x : Exception) (link : Word) :
    let t := s.fetchOpcode.takeException x link
    EntryResult s t x link ∧ t.r15 = x.vector + 8#32 ∧ t.pendingFiq = s.pendingFiq ∧ t.pendingIrq = s.pendingIrq :=
  ⟨entryResult_fetch s x link, takeException_r15 .., by simp, by simp⟩

/-- Settles O48: both instructions run the one entry; the comment is no argument of it. -/
theorem softwareInterrupts : Obligations.SoftwareInterrupts := by
  intro c n24 n8 s link post
  have entered : post s.enterSwi := enterSwi_eq s ▸ takeException_fetchOpcode s .swi link
  exact ⟨fun passed => Completes.pass rfl passed entered, Completes.of rfl entered⟩

/-- Settles O49: the entry is the body of each pattern, and of a register transfer whose number is not 14. -/
theorem undefinedInstructions : Obligations.UndefinedInstructions := by
  intro c s b1 b5 n2 n3 n3' n4 n4' rd cp n8 n11 n12 n19 n20 hcp link post
  have entered : post s.enterUndefined := takeException_fetchOpcode s .undefined link
  have transfer : post (s.coprocessorTransfer cp) := by
    rw [State.coprocessorTransfer, if_neg hcp]
    exact entered
  refine ⟨fun passed => ?_, Completes.of rfl entered, Completes.of rfl entered⟩
  have body {i : Instr} (meaning : exec i s = .next (s.conditional c State.enterUndefined)) : Completes i s post :=
    Completes.pass meaning passed entered
  simp only [List.forall_mem_cons]
  exact ⟨body rfl, body rfl, body rfl, body rfl, body rfl, body rfl, body rfl, Completes.pass rfl passed transfer,
    Completes.pass rfl passed transfer, by simp⟩

/-! ### Reset -/

/-- Every register of every bank is 0 after reset (R561). -/
theorem readRegOf_resetInput (s : State) (b : Bank) {n : Reg} (hn : n ≠ 15#4) : s.resetInput.readRegOf b n = 0#32 := by
  have cleared : s.resetInput.regs = Vector.replicate 30 0#32 := rfl
  unfold State.readRegOf
  cases named : physReg b n with
  | none => exact absurd ((physReg_eq_none_iff ..).1 named) hn
  | some k => simp [cleared]

/-- The refill in ARM state: the two words from the target on, and R15 behind them (R153). -/
theorem jump_of_arm {s : State} (arm : Psr.t s.cpsr = false) (x : Word) :
    (s.jump x).r15 = Width.word.align x + 4#32 + 4#32 ∧ (s.jump x).p3 = s.reply .word (Width.word.align x) ∧
      (s.jump x).p2 = s.reply .word (Width.word.align x + 4#32) ∧
      (s.jump x).port = s.port ++ [.codeRead .word (Width.word.align x) false (s.jump x).p3,
        .codeRead .word (Width.word.align x + 4#32) true (s.jump x).p2] := by
  have width : s.width = .word := by simp [State.width, arm]
  have bytes : s.widthBytes = 4#32 := by simp [State.widthBytes, arm]
  rw [← width, ← bytes]
  exact ⟨rfl, rfl, rfl, List.append_assoc ..⟩

/-- Settles O18: the registers are all 0, and the refill at 0 in ARM state reads the words at 0 and 4. -/
theorem resetInput : Obligations.ResetInput := by
  refine ⟨fun s => ?_, rfl⟩
  have arm : Psr.t 0x000000D3#32 = false := by decide
  obtain ⟨r15, p3, p2, port⟩ := jump_of_arm (s := { State.reset with
    mem := s.mem, breakpoints := s.breakpoints, toggles := s.toggles, port := [] }) arm 0#32
  refine ⟨fun b n => readRegOf_resetInput s b, r15, rfl, fun b p hp => ?_, p3, p2, rfl, rfl, rfl, rfl, rfl, rfl, rfl, rfl,
    port⟩
  cases b <;> cases hp <;> rfl

/-- Settles O12: every field that the invariant reads is a constant of the reset state. -/
theorem invReset : Obligations.InvReset where
  memory := by decide
  mode := rfl
  cpsr := rfl
  spsrs b p hp := by cases b <;> cases hp <;> rfl
  latch := rfl
  breakpoints := by decide

end Sys2Proof.Machine
end

section
/-! PROOFS. Thumb formats 1 to 5, 12 and 13 (47_thumb_alu.md): each instruction runs a shape of Laws/Thumb, or a fetch with
internal cycles, with a value of its own. -/

namespace Sys2Proof.Machine

/-! ### Formats 1 to 4 without register shifts and MUL -/

section Shapes

variable {i : Instr} {s : State} {rd : LowReg} {r : AluResult}

theorem completes_thumbResult (meaning : exec i s = .next (s.thumbResult rd r)) :
    Completes i s fun t => t.port = s.port ++ [s.fetchEvent] ∧ RegisterResult s t (rd.setWidth 4) r.value r.flags :=
  Completes.next meaning (thumbResult_shape s rd r)

theorem completes_thumbCompare (meaning : exec i s = .next (s.thumbCompare r)) :
    Completes i s fun t => t.port = s.port ++ [s.fetchEvent] ∧ FlagResult s t r.flags :=
  Completes.next meaning (thumbCompare_shape s r)

end Shapes

/-- Settles O51: ten results in Rd and one comparison. -/
theorem thumbFormats1To3 : Obligations.ThumbFormats1To3 := by
  intro rd rs rn amt imm3 imm8 s
  exact ⟨completes_thumbResult rfl, completes_thumbResult rfl, completes_thumbResult rfl, completes_thumbResult rfl,
    completes_thumbResult rfl, completes_thumbResult rfl, completes_thumbResult rfl, completes_thumbResult rfl,
    completes_thumbResult rfl, completes_thumbResult rfl, completes_thumbCompare rfl⟩

/-- Settles O52: eight results in Rd and three comparisons. -/
theorem thumbAluOperations : Obligations.ThumbAluOperations := by
  intro rd rs s
  exact ⟨completes_thumbResult rfl, completes_thumbResult rfl, completes_thumbResult rfl, completes_thumbResult rfl,
    completes_thumbCompare rfl, completes_thumbResult rfl, completes_thumbCompare rfl, completes_thumbCompare rfl,
    completes_thumbResult rfl, completes_thumbResult rfl, completes_thumbResult rfl⟩

/-! ### Register shifts and MUL -/

/-- The operands are low registers, which the early fetch leaves; so the shift is of the values before it (R383; D30). -/
theorem thumbShiftReg_result (s : State) (type : ShiftType) (rd rs : LowReg) :
    let x := shiftReg type (s.low rd) ((s.low rs).extractLsb' 0 8) s.flags.c
    let t := s.thumbShiftReg type rd rs
    RegisterResult s t (lowReg rd) x.value (logicalResult x.value x.carry s.flags).flags ∧
      t.port = s.port ++ [s.fetchEvent, .iCycle 1] := by
  intro x t
  have operand (r : LowReg) : (s.fetchOpcode.internalCycle 1).low r = s.low r := s.low_fetchOpcode r
  have sequence : t = ((s.fetchOpcode.writeReg (lowReg rd) x.value).setFlags
      (logicalResult x.value x.carry s.flags).flags).internalCycle 1 := by
    rw [← State.setFlags_internalCycle, ← State.writeReg_internalCycle]
    simp only [t, x, State.thumbShiftReg, operand, State.internalCycle_flags, State.fetchOpcode_flags]
  rw [sequence]
  exact ⟨(registerResult_fetch ..).emit _, by simp [State.fetchEvent]⟩

/-- Settles O53: four shifts by the one sequence, and MUL by the sequence of the ARM multiplies with S set. -/
theorem thumbShiftsAndMultiply : Obligations.ThumbShiftsAndMultiply := by
  intro rd rs s a b done sh
  have product : BitVec.ofNat 32 (a.toNat * b.toNat) = a * b := by
    simp only [BitVec.ofNat_mul, BitVec.ofNat_toNat, BitVec.setWidth_eq]
  refine ⟨Completes.next rfl (thumbShiftReg_result s .lsl rd rs), Completes.next rfl (thumbShiftReg_result s .lsr rd rs),
    Completes.next rfl (thumbShiftReg_result s .asr rd rs), Completes.next rfl (thumbShiftReg_result s .ror rd rs), ?_⟩
  rw [product]
  exact Completes.next rfl (finishMultiply_result s true (lowReg rd) (a * b) (multiplierCyclesSigned a))

/-! ### Format 5 -/

theorem State.writeReg_r15 (s : State) (v : Word) : s.writeReg 15#4 v = { s with r15 := v } := by
  simp [State.writeReg, State.writeRegOf]

/-- ADD and MOV of any register: no flag, and a jump when the destination is R15 (R397, R399). -/
theorem thumbHighResult_result (s : State) (rd : Reg) (v : Word) :
    (rd ≠ 15#4 → RegisterResult s (s.thumbHighResult rd v) rd v s.flags) ∧
      (rd = 15#4 → JumpResult s (s.thumbHighResult rd v) v []) := by
  refine ⟨fun hrd => ?_, ?_⟩
  · rw [State.thumbHighResult, if_neg hrd]
    exact registerResult_fetch' s rd v
  · rintro rfl
    rw [State.thumbHighResult, if_pos rfl, State.writeReg_r15]
    exact jumpResult_fetch s v

/-- Settles O54: two results in any register and one comparison. -/
theorem thumbHighRegisters : Obligations.ThumbHighRegisters := by
  intro rd rs s a b done
  exact ⟨Completes.next rfl (thumbHighResult_result s rd (a + b)), Completes.next rfl (thumbHighResult_result s rd b),
    Completes.next rfl (thumbCompare_shape s (subWithCarry a b true)).2⟩

/-! ### Formats 12 and 13 -/

/-- Settles O55: one register is written before the fetch, with the immediate as a number of words. -/
theorem thumbAddresses : Obligations.ThumbAddresses := by
  intro rd imm8 neg imm7 s sp n k
  have words8 : wordOffset8 imm8 = n := wordOffset8_eq imm8
  have words7 : ((imm7 ++ 0#2).setWidth 32 : Word) = k := imm7_words imm7
  rw [← s.alignedPc_eq, ← words8, ← words7]
  exact ⟨Completes.next rfl (registerResult_writeReg_fetch s (lowReg_ne rd) _),
    Completes.next rfl (registerResult_writeReg_fetch s (lowReg_ne rd) _),
    Completes.next rfl (registerResult_writeReg_fetch s (by decide) _)⟩

end Sys2Proof.Machine
end

section
/-! PROOFS. Thumb loads, stores and block transfers (48_thumb_memory_branch.md R420 to R450): the transfer sequences of
Laws/Thumb and Laws/BlockResults, with the address or the list of each instruction. -/

namespace Sys2Proof.Machine

/-! ### Single transfers -/

section Transfers

variable {i : Instr} {s : State} {rb : Reg} {rd : LowReg} {o a : Word}

theorem completes_thumbLoad {k : LoadKind} (meaning : exec i s = .next (s.thumbLoad k rb rd o))
    (address : s.readReg rb + o = a) :
    Completes i s fun t => RegisterResult s t (rd.setWidth 4) (s.loadValue k a) s.flags ∧
      t.port = s.port ++ [s.fetchEvent, .dataRead k.width a false (s.reply k.width a), .iCycle 1] :=
  address ▸ Completes.next meaning (thumbLoad_shape s k rb rd o)

theorem completes_thumbStore {w : Width} (wf : Memory.wf s.mem) (meaning : exec i s = .next (s.thumbStore w rb rd o))
    (address : s.readReg rb + o = a) :
    Completes i s fun t => StoreResult s t w a (s.readReg (lowReg rd)) 15#4 none ∧
      t.port = s.port ++ [s.fetchEvent, .dataWrite w a (w.truncate (s.readReg (lowReg rd))) false] :=
  address ▸ Completes.next meaning (thumbStore_shape s wf w rb rd o)

end Transfers

/-- The load from an address that no register holds: fetch, read, Rd, internal cycle (R420). -/
theorem thumbLoadAt_result (s : State) (a : Word) (rd : LowReg) :
    RegisterResult s (s.thumbLoadAt a rd) (lowReg rd) (s.loadValue .word a) s.flags ∧
      (s.thumbLoadAt a rd).port = s.port ++ [s.fetchEvent, .dataRead .word a false (s.reply .word a), .iCycle 1] := by
  have sequence : s.thumbLoadAt a rd = ((s.fetchOpcode.writeReg (lowReg rd) (s.loadValue .word a)).emit
      (.dataRead .word a false (s.reply .word a))).internalCycle 1 := by
    rw [← State.writeReg_emit]
    rfl
  rw [sequence]
  exact ⟨((registerResult_fetch' ..).emit _).emit _, by simp [State.fetchEvent]⟩

theorem imm5_bytes (i : BitVec 5) : (i.setWidth 32 : Word) = BitVec.ofNat 32 (1 * i.toNat) := by
  rw [Nat.one_mul, BitVec.ofNat_toNat]

/-- Settles O56: the aligned pc0, or a base register with a register or a scaled immediate. -/
theorem thumbLoads : Obligations.ThumbLoads := by
  intro rd rb ro imm5 imm8 s b o n n8 done
  refine ⟨?_, completes_thumbLoad rfl rfl, completes_thumbLoad rfl rfl, completes_thumbLoad rfl rfl,
    completes_thumbLoad rfl rfl, completes_thumbLoad rfl rfl, completes_thumbLoad rfl (congrArg (b + ·) (imm5_words imm5)),
    completes_thumbLoad rfl (congrArg (b + ·) (imm5_bytes imm5)),
    completes_thumbLoad rfl (congrArg (b + ·) (imm5_halves imm5)),
    completes_thumbLoad rfl (congrArg (s.readReg 13#4 + ·) (wordOffset8_eq imm8))⟩
  have address : s.alignedPc + wordOffset8 imm8 = (s.r15 &&& 0xFFFFFFFC#32) + n8 := by
    rw [s.alignedPc_eq, wordOffset8_eq]
  exact address ▸ Completes.next rfl (thumbLoadAt_result s _ rd)

/-- Settles O57: a base register with a register or a scaled immediate. -/
theorem thumbStores : Obligations.ThumbStores := by
  intro rd rb ro imm5 imm8 s wf b o n v done
  exact ⟨completes_thumbStore wf rfl rfl, completes_thumbStore wf rfl rfl, completes_thumbStore wf rfl rfl,
    completes_thumbStore wf rfl (congrArg (b + ·) (imm5_words imm5)),
    completes_thumbStore wf rfl (congrArg (b + ·) (imm5_bytes imm5)),
    completes_thumbStore wf rfl (congrArg (b + ·) (imm5_halves imm5)),
    completes_thumbStore wf rfl (congrArg (s.readReg 13#4 + ·) (wordOffset8_eq imm8))⟩

/-! ### Block transfers -/

/-- A list of eight low registers with the bits of the upper byte. -/
theorem append_eq_or (high low : BitVec 8) : (high ++ low : BitVec 16) = low.setWidth 16 ||| (high ++ 0#8) := by
  apply BitVec.eq_of_getLsbD_eq; intro k hk
  simp only [BitVec.getLsbD_or, BitVec.getLsbD_setWidth, BitVec.getLsbD_append]
  by_cases lower : k < 8
  · simp [lower, hk]
  · simp [lower, BitVec.getLsbD_of_ge low k (by omega)]

/-- PUSH's list: the eight low bits, and bit 14 for R14 (R440). -/
theorem pushList_eq (r : Bool) (l : BitVec 8) : pushList r l = l.setWidth 16 ||| (if r then 0x4000#16 else 0#16) := by
  cases r
  · exact append_eq_or 0x00#8 l
  · exact append_eq_or 0x40#8 l

/-- POP's list: the eight low bits, and bit 15 for R15 (R441). -/
theorem popList_eq (r : Bool) (l : BitVec 8) : popList r l = l.setWidth 16 ||| (if r then 0x8000#16 else 0#16) := by
  cases r
  · exact append_eq_or 0x00#8 l
  · exact append_eq_or 0x80#8 l

/-- Loads upwards from a base register that is written back, with and without R15 in the list (R441, R446). -/
theorem loadUpwards_result (s : State) {rn : Reg} (hrn : rn ≠ 15#4) (list : BitVec 16) :
    let a := s.readReg rn
    let t := s.loadMultiple ⟨false, true, true⟩ false rn list
    BlockLoaded s t s.bank rn list a (some (a + BitVec.ofNat 32 (4 * registerCount list))) ∧ t.cpsr = s.cpsr ∧
      (15#4 ∉ registerList list → t.r15 = s.r15 + s.widthBytes ∧ FetchedOnce s t) ∧
      (15#4 ∈ registerList list →
        ContinuesAt t (s.reply .word (a + BitVec.ofNat 32 (4 * ((registerList list).length - 1))))) := by
  intro a t
  by_cases withPc : 15#4 ∈ registerList list
  · have result := loadMultiple_pc s ⟨false, true, true⟩ false rn withPc
    simp only [Bool.false_eq_true, false_and, if_false, blockAddress_eq, blockBase_eq] at result
    obtain ⟨loaded, target, status⟩ := result
    exact ⟨loaded, status, fun h => absurd withPc h, fun _ => target⟩
  · have result := loadMultiple_result s ⟨false, true, true⟩ false rn withPc
    rw [blockAddress_eq, blockBase_eq, if_neg hrn] at result
    obtain ⟨loaded, status, fetched, pc⟩ := result
    exact ⟨loaded, status, fun _ => ⟨pc, fetched⟩, fun h => absurd h withPc⟩

/-- Settles O58: the block transfers of the ARM set, with the modes and the lists of the four instructions. -/
theorem thumbBlockTransfers : Obligations.ThumbBlockTransfers := by
  intro r l rb s base sp low push pop size load
  refine ⟨fun wf => ?_, ?_, Completes.next rfl (loadUpwards_result s (lowReg_ne rb) low)⟩
  · have stores (ix : Indexing) (rn : Reg) (list : BitVec 16) := storeMultiple_result s wf ix false rn list
    simp only [blockAddress_eq, blockBase_eq] at stores
    have pushed : pushList r l = push := pushList_eq r l
    exact ⟨pushed ▸ Completes.next rfl (stores ⟨true, false, true⟩ 13#4 (pushList r l)),
      Completes.next rfl (stores ⟨false, true, true⟩ (lowReg rb) low)⟩
  · have popped : popList r l = pop := popList_eq r l
    exact popped ▸ Completes.next rfl (loadUpwards_result s (by decide) (popList r l))

end Sys2Proof.Machine
end

section
/-! PROOFS. Thumb branches (48_thumb_memory_branch.md R460, R462, R465, R470, R471), by the shapes of Laws/Shapes and
Laws/Branches. -/

namespace Sys2Proof.Machine

/-- Settles O59: the fetch, then the jump, nothing more, or the state switch. -/
theorem thumbBranches : Obligations.ThumbBranches := by
  intro c o8 o11 rs h1 i2 s
  rw [← thumbOffset8_eq, ← thumbOffset11_eq]
  refine ⟨Completes.next rfl (jumpResult_fetch s _), ?_, Completes.next rfl (exchange_result s (s.readReg rs))⟩
  refine Completes.next rfl ?_
  by_cases passed : conditionPassed c s.flags = true
  · rw [if_pos passed, if_pos passed]
    exact jumpResult_fetch s _
  · rw [if_neg passed, if_neg passed]
    exact flagResult_fetch' s

/-- The first half leaves the upper part of the target in R14 (R470). -/
theorem longBranchFirst_result (s : State) (hi : BitVec 11) :
    Completes (.tBlFirst hi) s (RegisterResult s · 14#4 (s.r15 + BitVec.ofInt 32 (hi.toInt * 4096)) s.flags) := by
  rw [← longBranchHigh_eq]
  exact Completes.next rfl (registerResult_fetch' s 14#4 _)

/-- The second half jumps by R14 and leaves the return address in it (R471). -/
theorem longBranchSecond_result (s : State) (lo : BitVec 11) :
    Completes (.tBlSecond lo) s fun t =>
      JumpResult s t (s.readReg 14#4 + BitVec.ofNat 32 (2 * lo.toNat)) [physReg s.bank 14#4] ∧
        t.readReg 14#4 = (s.r15 - 2#32) ||| 1#32 := by
  rw [← longBranchLow_eq]
  exact Completes.next rfl (linkJump_result s _ _)

/-- Settles O60: the second half, run where the first has moved R15 on by one halfword, takes the target from R14. -/
theorem thumbLongBranch : Obligations.ThumbLongBranch := by
  intro hi lo s
  refine ⟨longBranchFirst_result s hi, longBranchSecond_result s lo, fun thumb => ?_⟩
  obtain ⟨u, hu, first⟩ := longBranchFirst_result s hi
  obtain ⟨t, ht, jump, link⟩ := longBranchSecond_result u lo
  have advanced : u.r15 - 2#32 = s.r15 := by
    rw [first.pc (by decide), State.widthBytes, if_pos thumb, BitVec.add_sub_cancel]
  have target := jump.target
  rw [first.value] at target
  exact ⟨u, hu, t, ht, by rw [link, advanced], target⟩

end Sys2Proof.Machine
end
